-- ==== Sys2Proof/Word.lean ====
section
/-! DEFINITION. The word types of the machine: 32-bit registers and code words, 64-bit pairs, bytes. -/

namespace Sys2Proof

/-- A 32-bit register, uniform register, code word or literal (R9, R13). -/
abbrev Word := BitVec 32

/-- A 64-bit register pair, address or counter (R21). -/
abbrev Dword := BitVec 64

/-- A byte of memory (R11). -/
abbrev Byte := BitVec 8

/-- Bits [hi:lo] of a natural number (R35). -/
def bitsOf (x hi lo : Nat) : Nat := x / 2 ^ lo % 2 ^ (hi + 1 - lo)

end Sys2Proof
end

