-- ==== Sys2Proof/Machine/Table.lean ====
section
/-! DEFINITION. Tables: lists of key and value, keys strictly rising when built with put, so that a table is plain
data that can be compared; and byte memories that list no zero byte. -/

namespace List

/-- Insert an element before the first that does not precede it. -/
def insertBy {α : Type} (le : α → α → Bool) (a : α) : List α → List α
  | [] => [a]
  | b :: l => if le a b then a :: b :: l else b :: insertBy le a l

/-- The list in the order of le; elements that le does not part keep their order. -/
def sortBy {α : Type} (l : List α) (le : α → α → Bool) : List α := l.foldr (insertBy le) []

end List

namespace Sys2Proof.Machine

/-- A table from natural-number keys. -/
abbrev Tbl (α : Type) := List (Nat × α)

namespace Tbl

/-- The entry of a key. -/
def get? {α : Type} : Tbl α → Nat → Option α
  | [], _ => none
  | (k, v) :: r, n => if k = n then some v else get? r n

/-- The entry of a key, or a default. -/
def getD {α : Type} (t : Tbl α) (n : Nat) (d : α) : α := (get? t n).getD d

/-- Enter or replace the entry of a key, keys rising. -/
def put {α : Type} : Tbl α → Nat → α → Tbl α
  | [], n, a => [(n, a)]
  | (k, v) :: r, n, a =>
    if n < k then (n, a) :: (k, v) :: r else if k = n then (n, a) :: r else (k, v) :: put r n a

/-- Remove the entry of a key. -/
def del {α : Type} (t : Tbl α) (n : Nat) : Tbl α := t.filter (fun p => p.1 ≠ n)

/-- Change the entry of a key, where there is one. -/
def modify {α : Type} (t : Tbl α) (n : Nat) (f : α → α) : Tbl α :=
  t.map (fun p => if p.1 = n then (p.1, f p.2) else p)

/-- The values, in key order. -/
def vals {α : Type} (t : Tbl α) : List α := t.map (·.2)

/-- The keys, in order. -/
def keys {α : Type} (t : Tbl α) : List Nat := t.map (·.1)

/-- The first entry that meets a condition. -/
def find {α : Type} (t : Tbl α) (p : Nat → α → Bool) : Option (Nat × α) := t.find? (fun e => p e.1 e.2)

end Tbl

/-- A byte memory in one canonical form: addresses strictly rising, no byte listed that an unlisted address reads as
(zero; DESIGN CHOICE, log 2). -/
abbrev Memory := List (Nat × Byte)

namespace Memory

/-- What an unlisted address reads as. -/
def unlisted : Byte := 0

/-- The byte at an address. -/
def read : Memory → Nat → Byte
  | [], _ => unlisted
  | (k, v) :: r, n => if k = n then v else if n < k then unlisted else read r n

/-- Store one byte, keeping the canonical form. -/
def write : Memory → Nat → Byte → Memory
  | [], n, b => if b = unlisted then [] else [(n, b)]
  | (k, v) :: r, n, b =>
    if n < k then (if b = unlisted then (k, v) :: r else (n, b) :: (k, v) :: r)
    else if k = n then (if b = unlisted then r else (n, b) :: r)
    else (k, v) :: write r n b

/-- Every address lies above a bound and the rest rises from it. -/
def risesFrom : Nat → Memory → Bool
  | _, [] => true
  | lo, (k, v) :: r => decide (lo ≤ k) && decide (v ≠ unlisted) && risesFrom (k + 1) r

/-- The canonical form. -/
def wf (m : Memory) : Bool := risesFrom 0 m

/-- n bytes upward from an address. -/
def readBytes (m : Memory) (a : Nat) : Nat → List Byte
  | 0 => []
  | n + 1 => m.read a :: readBytes m (a + 1) n

/-- Store bytes upward from an address. -/
def writeBytes (m : Memory) (a : Nat) : List Byte → Memory
  | [] => m
  | b :: r => writeBytes (m.write a b) (a + 1) r

end Memory

/-- Little-endian bytes as a number (R11). -/
def bytesToNat : List Byte → Nat
  | [] => 0
  | b :: r => b.toNat + 256 * bytesToNat r

/-- A number as n little-endian bytes (R11). -/
def natToBytes : Nat → Nat → List Byte
  | 0, _ => []
  | n + 1, x => BitVec.ofNat 8 x :: natToBytes n (x / 256)

namespace Memory

/-- A little-endian number of n bytes. -/
def readNat (m : Memory) (a n : Nat) : Nat := bytesToNat (m.readBytes a n)

/-- Store a number as n little-endian bytes. -/
def writeNat (m : Memory) (a n x : Nat) : Memory := m.writeBytes a (natToBytes n x)

end Memory

/-- Numbers below n, rising. -/
def upTo : Nat → List Nat := List.range

/-- A list with an element at a place replaced. -/
def setAt {α : Type} (l : List α) (n : Nat) (a : α) : List α := l.set n a

end Sys2Proof.Machine
end

