-- ==== Sys2Proof/Machine/Num.lean ====
section
/-! DEFINITION. Numbers (R88 to R104, R184 to R198): exact values, the thirteen formats and two integer types, one
rounding procedure for every unit, the correctly rounded functions, the maximum rule and the stochastic generator. -/

namespace Sys2Proof.Machine

/-- An exact value: NaN, an infinity, or sign, magnitude and power of two (R35). -/
inductive Val where
  | nan
  | inf (neg : Bool)
  | fin (neg : Bool) (m : Nat) (e : Int)
  deriving DecidableEq, Repr

/-- The rounding modes; stochastic rounding carries its draw (R94, R194). -/
inductive RMode where
  | rn | rz | ru | rd
  | sr (r : Nat)
  deriving DecidableEq, Repr

/-- The mode of a two-bit or three-bit code (R94, R195). -/
def RMode.ofCode : Nat → RMode
  | 1 => .rz
  | 2 => .ru
  | 3 => .rd
  | _ => .rn

/-- A floating-point format: precision, smallest normal exponent, fraction bits, exponent bits, largest finite value as
n and power, infinities (R184, R185). -/
structure FFmt where
  code : Nat
  p : Nat
  emin : Int
  ebits : Nat
  nmax : Nat
  qmax : Int
  infs : Bool
  canon : Nat
  deriving DecidableEq, Repr

def FFmt.f32 : FFmt := ⟨0, 24, -126, 8, 0xFFFFFF, 104, true, 0x7FC00000⟩
def FFmt.f16 : FFmt := ⟨1, 11, -14, 5, 0x7FF, 5, true, 0x7E00⟩
def FFmt.bf16 : FFmt := ⟨2, 8, -126, 8, 0xFF, 120, true, 0x7FC0⟩
def FFmt.e4m3 : FFmt := ⟨3, 4, -6, 4, 14, 5, false, 0x7F⟩
def FFmt.e5m2 : FFmt := ⟨4, 3, -14, 5, 7, 13, true, 0x7E⟩

/-- The floating-point format of a code (R184). -/
def FFmt.ofCode : Nat → FFmt
  | 1 => .f16
  | 2 => .bf16
  | 3 => .e4m3
  | 4 => .e5m2
  | _ => .f32

namespace FFmt

/-- Fraction bits. -/
def fbits (f : FFmt) : Nat := f.p - 1
/-- Width of an encoding. -/
def width (f : FFmt) : Nat := f.ebits + f.p
/-- Exponent bias. -/
def bias (f : FFmt) : Int := 1 - f.emin

/-- The sign bit of an encoding. -/
def neg (f : FFmt) (x : Nat) : Bool := x.testBit (f.width - 1)
/-- The exponent field. -/
def exp (f : FFmt) (x : Nat) : Nat := bitsOf x (f.width - 2) f.fbits
/-- The fraction field. -/
def frac (f : FFmt) (x : Nat) : Nat := x % 2 ^ f.fbits

/-- An encoding is a NaN (R184). -/
def isNan (f : FFmt) (x : Nat) : Bool :=
  f.exp x == 2 ^ f.ebits - 1 && (if f.infs then f.frac x != 0 else f.frac x == 2 ^ f.fbits - 1)

/-- An encoding is an infinity. -/
def isInf (f : FFmt) (x : Nat) : Bool := f.infs && f.exp x == 2 ^ f.ebits - 1 && f.frac x == 0

/-- The value of an encoding, BF16 subnormals read as signed zero (R185, R190). -/
def decode (f : FFmt) (x : Nat) : Val :=
  if f.isNan x then .nan
  else if f.isInf x then .inf (f.neg x)
  else if f.exp x = 0 then
    (if f.code = 2 then .fin (f.neg x) 0 0 else .fin (f.neg x) (f.frac x) (f.emin - f.fbits))
  else .fin (f.neg x) (2 ^ f.fbits + f.frac x) ((f.exp x : Int) - f.bias - f.fbits)

/-- An encoding from sign and the bits below it. -/
def signed (f : FFmt) (neg : Bool) (x : Nat) : Nat := if neg then 2 ^ (f.width - 1) + x else x

/-- Plus or minus infinity. -/
def infinity (f : FFmt) (neg : Bool) : Nat := f.signed neg ((2 ^ f.ebits - 1) * 2 ^ f.fbits)

/-- The largest finite value with a sign. -/
def largest (f : FFmt) (neg : Bool) : Nat :=
  f.signed neg (if f.infs then (2 ^ f.ebits - 1) * 2 ^ f.fbits - 1 else 0x7E)

/-- The overflow outcome (R96). -/
def overflow (f : FFmt) (mode : RMode) (sat neg : Bool) : Nat :=
  if f.infs then
    match mode with
    | .rz => f.largest neg
    | .ru => if neg then f.largest true else f.infinity false
    | .rd => if neg then f.infinity true else f.largest false
    | _ => f.infinity neg
  else if sat then f.largest neg else f.signed neg 0x7F

end FFmt

/-- The magnitude m over 2 to the sh rounded to an integer (R191, R194). -/
def roundShift (mode : RMode) (neg : Bool) (m sh : Nat) : Nat :=
  let n := m / 2 ^ sh
  let rem := m % 2 ^ sh
  if rem = 0 then n
  else
    let up := match mode with
      | .rn => decide (2 ^ sh < 2 * rem) || (decide (2 ^ sh = 2 * rem) && n % 2 == 1)
      | .rz => false
      | .ru => !neg
      | .rd => neg
      | .sr r =>
        if neg then !decide (r < 2 ^ 32 * (2 ^ sh - rem) / 2 ^ sh) else decide (r < 2 ^ 32 * rem / 2 ^ sh)
    if up then n + 1 else n

/-- The magnitude m times 2 to the e in units of 2 to the q, rounded. -/
def roundAt (mode : RMode) (neg : Bool) (m : Nat) (e q : Int) : Nat :=
  if q ≤ e then m * 2 ^ (e - q).toNat else roundShift mode neg m (q - e).toNat

/-- RoundTo for a floating-point format (R191): `conv` when an infinite x is the value of a conversion's source. -/
def FFmt.round (f : FFmt) (mode : RMode) (sat conv : Bool) : Val → Nat
  | .nan => f.canon
  | .inf neg => if conv then f.overflow mode sat neg else f.infinity neg
  | .fin neg m e =>
    if m = 0 then f.signed neg 0
    else
      let q := max (f.emin - f.fbits) (e + (Nat.log2 m : Int) - f.fbits)
      let n := roundAt mode neg m e q
      if n = 0 then f.signed neg 0
      else if f.qmax ≤ q ∧ f.nmax < n * 2 ^ (q - f.qmax).toNat then f.overflow mode sat neg
      else
        let n' := if n = 2 ^ f.p then 2 ^ f.fbits else n
        let q' := if n = 2 ^ f.p then q + 1 else q
        if n' < 2 ^ f.fbits then (if f.code = 2 then f.signed neg 0 else f.signed neg n')
        else f.signed neg ((q' + f.fbits + f.bias).toNat * 2 ^ f.fbits + (n' - 2 ^ f.fbits))

/-- RoundTo for an integer range: the integer, or none with the sign of an overflow (R191). -/
def roundInt (mode : RMode) (lo hi : Int) : Val → Option (Int ⊕ Bool)
  | .nan => none
  | .inf neg => some (.inr neg)
  | .fin neg m e =>
    let n : Int := roundAt mode neg m e 0
    let y := if neg then -n else n
    if lo ≤ y ∧ y ≤ hi then some (.inl y) else some (.inr neg)

/-- A signed integer as 32 register bits. -/
def intWord (i : Int) : Word := BitVec.ofInt 32 i

/-- A saturating or flagging integer destination (R96). -/
def toRange (mode : RMode) (lo hi : Int) (sat : Bool) (x : Val) : Int :=
  match roundInt mode lo hi x with
  | none => if sat then 0 else lo
  | some (.inl y) => y
  | some (.inr neg) => if sat then (if neg then lo else hi) else lo

/-- Width of a BFP format code (R188). -/
def bfpWidth (code : Nat) : Nat := 14 - code

/-- A value times a power of two. -/
def Val.scale (k : Int) : Val → Val
  | .fin neg m e => .fin neg m (e + k)
  | x => x

/-- Encode(x, code, mode, sat, E): the register bits (R95, R96). -/
def encodeVal (x : Val) (code : Nat) (mode : RMode) (sat : Bool) (bexp : Nat) : Word :=
  if code ≤ 4 then BitVec.ofNat 32 ((FFmt.ofCode code).round mode sat true x)
  else if code = 5 then intWord (toRange mode (-128) 127 sat x)
  else if code ≤ 12 then
    let w := bfpWidth code
    if bexp = 255 then 0
    else intWord (toRange mode (-(2 ^ (w - 1) : Nat)) (2 ^ (w - 1) - 1 : Nat) sat (x.scale (127 + (w - 1 : Nat) - bexp)))
  else if code = 13 then
    match x with
    | .nan => 0
    | y => intWord (toRange mode (-(2 ^ 31 : Nat)) (2 ^ 31 - 1 : Nat) true y)
  else
    match x with
    | .nan => 0
    | y => intWord (toRange mode 0 (2 ^ 32 - 1 : Nat) true y)

/-- An integer as an exact value. -/
def Val.ofInt (i : Int) : Val := .fin (decide (i < 0)) i.natAbs 0

/-- The w-bit two's-complement number in the low bits. -/
def signedBits (x w : Nat) : Int :=
  let y := x % 2 ^ w
  if y < 2 ^ (w - 1) then y else (y : Int) - (2 ^ w : Nat)

/-- Decode(a, code, E): the exact value (R95, R185, R187, R188). -/
def decodeVal (a : Nat) (code bexp : Nat) : Val :=
  if code ≤ 4 then (FFmt.ofCode code).decode (a % 2 ^ (FFmt.ofCode code).width)
  else if code = 5 then .ofInt (signedBits a 8)
  else if code ≤ 12 then
    let w := bfpWidth code
    if bexp = 255 then .nan else (Val.ofInt (signedBits a w)).scale ((bexp : Int) - 127 - (w - 1 : Nat))
  else if code = 13 then .ofInt (signedBits a 32)
  else .ofInt (a % 2 ^ 32 : Nat)

/-! ## Exact arithmetic (R88) -/

/-- The value has a minus sign. -/
def Val.isNeg : Val → Bool
  | .nan => false
  | .inf n => n
  | .fin n _ _ => n

/-- Minus a value. -/
def Val.minus : Val → Val
  | .nan => .nan
  | .inf n => .inf (!n)
  | .fin n m e => .fin (!n) m e

/-- A signed numerator over 2 to the e. -/
def signedMag (neg : Bool) (m : Nat) : Int := if neg then -(m : Int) else m

/-- The exact sum; an exact zero of unlike signs is +0, or -0 when rounding down (R88, IEEE 754). -/
def Val.add (down : Bool) : Val → Val → Val
  | .nan, _ => .nan
  | _, .nan => .nan
  | .inf a, .inf b => if a = b then .inf a else .nan
  | .inf a, .fin _ _ _ => .inf a
  | .fin _ _ _, .inf b => .inf b
  | .fin a m e, .fin b n f =>
    let g := min e f
    let x := signedMag a (m * 2 ^ (e - g).toNat) + signedMag b (n * 2 ^ (f - g).toNat)
    if x = 0 then (if a = b then .fin a 0 0 else .fin down 0 0) else .fin (decide (x < 0)) x.natAbs g

/-- The exact product. -/
def Val.mul : Val → Val → Val
  | .nan, _ => .nan
  | _, .nan => .nan
  | .inf a, .inf b => .inf (a != b)
  | .inf a, .fin b n _ => if n = 0 then .nan else .inf (a != b)
  | .fin a m _, .inf b => if m = 0 then .nan else .inf (a != b)
  | .fin a m e, .fin b n f => .fin (a != b) (m * n) (e + f)

/-- The FP32 value of a register. -/
def f32 (x : Word) : Val := FFmt.f32.decode x.toNat
/-- FP32 bits of a value, to nearest even. -/
def toF32 (x : Val) : Word := BitVec.ofNat 32 (FFmt.f32.round .rn false false x)

/-- VFADD (R89). -/
def fadd (a b : Word) : Word := toF32 ((f32 a).add false (f32 b))
/-- VFSUB (R89). -/
def fsub (a b : Word) : Word := toF32 ((f32 a).add false (f32 b).minus)
/-- VFMUL (R89). -/
def fmul (a b : Word) : Word := toF32 ((f32 a).mul (f32 b))
/-- VFMA (R89): one rounding. -/
def fma (a b c : Word) : Word := toF32 (((f32 a).mul (f32 b)).add false (f32 c))

/-! ## The maximum rule (R90, R198) -/

/-- The order key K of an encoding; BF16 after the subnormal policy (R198). -/
def FFmt.key (f : FFmt) (x : Nat) : Nat :=
  if f.isNan x then 0
  else
    let y := if f.code = 2 ∧ f.exp x = 0 then f.signed (f.neg x) 0 else x
    if f.neg y then 2 ^ f.width - 1 - y else y + 2 ^ (f.width - 1)

/-- The larger of two encodings under the maximum rule. -/
def FFmt.maxRule (f : FFmt) (x y : Nat) : Nat :=
  if f.isNan x ∧ f.isNan y then f.canon else if f.key x ≥ f.key y then x else y

/-- The smaller of two encodings under the maximum rule: a NaN yields to the number. -/
def FFmt.minRule (f : FFmt) (x y : Nat) : Nat :=
  if f.isNan x then (if f.isNan y then f.canon else y)
  else if f.isNan y then x
  else if f.key x ≤ f.key y then x else y

/-- VFMAX (R90). -/
def fmax (a b : Word) : Word := BitVec.ofNat 32 (FFmt.f32.maxRule a.toNat b.toNat)
/-- VFMIN (R90). -/
def fmin (a b : Word) : Word := BitVec.ofNat 32 (FFmt.f32.minRule a.toNat b.toNat)

/-- The order of two FP32 numbers, none when unordered; -0 and +0 are equal (R91). -/
def fcmp (a b : Word) : Option Ordering :=
  if FFmt.f32.isNan a.toNat ∨ FFmt.f32.isNan b.toNat then none
  else
    let k := fun (x : Word) => if x.toNat % 2 ^ 31 = 0 then FFmt.f32.key 0 else FFmt.f32.key x.toNat
    some (compare (k a) (k b))

/-! ## Correctly rounded functions (R92) -/

/-- The integer square root by bits from 2 to the k downward. -/
def isqrtFrom : Nat → Nat → Nat → Nat
  | 0, n, r => if (r + 1) * (r + 1) ≤ n then r + 1 else r
  | k + 1, n, r =>
    let r' := r + 2 ^ (k + 1)
    isqrtFrom k n (if r' * r' ≤ n then r' else r)

/-- The integer square root. -/
def isqrt (n : Nat) : Nat := isqrtFrom (Nat.log2 n / 2 + 1) n 0

/-- A positive value between n and n + 1 times 2 to the e, or exactly n: one sticky bit below (R191). -/
def sticky (neg : Bool) (n : Nat) (exact : Bool) (e : Int) : Val :=
  .fin neg (2 * n + (if exact then 0 else 1)) (e - 1)

/-- 1/x (R92). -/
def rcpV : Val → Val
  | .nan => .nan
  | .inf n => .fin n 0 0
  | .fin n m e =>
    if m = 0 then .inf n
    else
      let k := Nat.log2 m + 64
      sticky n (2 ^ k / m) (2 ^ k % m == 0) (-(k : Int) - e)

/-- A magnitude with an even exponent. -/
def evenExp (m : Nat) (e : Int) : Nat × Int := if e % 2 = 0 then (m, e) else (2 * m, e - 1)

/-- 1 over the square root (R92). -/
def rsqV : Val → Val
  | .nan => .nan
  | .inf n => if n then .nan else .fin false 0 0
  | .fin n m e =>
    if m = 0 then .inf n
    else if n then .nan
    else
      let (m, e) := evenExp m e
      let k := Nat.log2 m + 64
      let r := isqrt (2 ^ (2 * k) / m)
      sticky false r (r * r * m == 2 ^ (2 * k)) (-(k : Int) - e / 2)

/-- The square root (R92). -/
def sqrtV : Val → Val
  | .nan => .nan
  | .inf n => if n then .nan else .inf false
  | .fin n m e =>
    if m = 0 then .fin n 0 0
    else if n then .nan
    else
      let (m, e) := evenExp m e
      let r := isqrt (m * 2 ^ 128)
      sticky false r (r * r == m * 2 ^ 128) (e / 2 - 64)

/-- The working precision of 2 to a fraction, in bits (DEDUCED, log 9). -/
def exp2Bits : Nat := 192

/-- The product of 2 to the 2 to the -i over the bits of a k-bit fraction f, in exp2Bits bits, from root c of the
last bit. -/
def exp2Frac : Nat → Nat → Nat → Nat → Nat
  | 0, _, _, acc => acc
  | k + 1, f, c, acc =>
    let c' := isqrt (c * 2 ^ exp2Bits)
    exp2Frac k f c' (if f.testBit k then acc * c' / 2 ^ exp2Bits else acc)

/-- 2 to the x (R92). -/
def exp2V : Val → Val
  | .nan => .nan
  | .inf n => if n then .fin false 0 0 else .inf false
  | .fin n m e =>
    if m = 0 then .fin false 1 0
    else if 7 ≤ e + (Nat.log2 m : Int) ∧ n = false then .inf false
    else if 8 ≤ e + (Nat.log2 m : Int) then .fin false 0 0
    else if 0 ≤ e then .fin false 1 (signedMag n (m * 2 ^ e.toNat))
    else
      let k := (-e).toNat
      let x := signedMag n m
      let i := x / (2 ^ k : Nat)
      let f := (x % (2 ^ k : Nat)).toNat
      if f = 0 then .fin false 1 i
      else sticky false (exp2Frac k f (2 * 2 ^ exp2Bits) (2 ^ exp2Bits)) false (i - exp2Bits)

/-- The working precision of a logarithm (DEDUCED, log 9). -/
def log2Bits : Nat := 384

/-- The first k binary digits of the base-2 logarithm of y over 2 to the log2Bits, 1 to 2. -/
def log2Frac : Nat → Nat → Nat → Nat
  | 0, _, acc => acc
  | k + 1, y, acc =>
    let z := y * y / 2 ^ log2Bits
    if 2 ^ (log2Bits + 1) ≤ z then log2Frac k (z / 2) (2 * acc + 1) else log2Frac k z (2 * acc)

/-- The base-2 logarithm (R92). -/
def log2V : Val → Val
  | .nan => .nan
  | .inf n => if n then .nan else .inf false
  | .fin n m e =>
    if m = 0 then .inf true
    else if n then .nan
    else
      let l := Nat.log2 m
      let x := e + (l : Int)
      if m = 2 ^ l then .ofInt x
      else
        let d := x * (2 ^ 128 : Nat) + (log2Frac 128 (m * 2 ^ (log2Bits - l)) 0 : Nat)
        (Val.ofInt (2 * d + 1)).scale (-129)

/-- VFCLASS (R93). -/
def fclass (x : Word) : Word :=
  let f := FFmt.f32
  let n := x.toNat
  let bit :=
    if f.isNan n then (if n.testBit 22 then 9 else 8)
    else if f.isInf n then (if f.neg n then 0 else 7)
    else if f.exp n ≠ 0 then (if f.neg n then 1 else 6)
    else if f.frac n ≠ 0 then (if f.neg n then 2 else 5)
    else if f.neg n then 3 else 4
  BitVec.ofNat 32 (2 ^ bit)

/-! ## The stochastic generator (R192, R193) -/

/-- NextRandom. -/
def nextRandom (s : Dword) : Dword := s * 0xD1B54A32D192ED03 + 0xB7

/-- The state at the start of a thread with a seed and a global thread index. -/
def seedRandom (seed g : Dword) : Dword := seed ^^^ (g * 0x9E3779B97F4A7C15)

/-- The draw of a stochastic rounding (R194). -/
def draw (s : Dword) : RMode := .sr (bitsOf s.toNat 63 32)

/-! ## Packed 16-bit forms (R99) -/

/-- The two halves of a packed form. -/
def packed (op : Nat → Nat → Nat → Nat) (a b d : Word) : Word :=
  let lo := op (a.toNat % 65536) (b.toNat % 65536) (d.toNat % 65536)
  let hi := op (a.toNat / 65536) (b.toNat / 65536) (d.toNat / 65536)
  BitVec.ofNat 32 (lo + 65536 * hi)

/-- The format of a packed form's literal. -/
def packedFmt (lit : Word) : FFmt := if lit.getLsbD 0 then .bf16 else .f16
/-- The mode of a packed form's literal. -/
def packedMode (lit : Word) : RMode := .ofCode (bitsOf lit.toNat 2 1)

/-- VHADD of one half. -/
def haddHalf (lit : Word) (a b _d : Nat) : Nat :=
  let f := packedFmt lit
  f.round (packedMode lit) false false ((f.decode a).add (packedMode lit == .rd) (f.decode b))
/-- VHMUL of one half. -/
def hmulHalf (lit : Word) (a b _d : Nat) : Nat :=
  let f := packedFmt lit
  f.round (packedMode lit) false false ((f.decode a).mul (f.decode b))
/-- VHFMA of one half. -/
def hfmaHalf (lit : Word) (a b d : Nat) : Nat :=
  let f := packedFmt lit
  f.round (packedMode lit) false false (((f.decode a).mul (f.decode b)).add (packedMode lit == .rd) (f.decode d))
/-- A BF16 subnormal as a signed zero; other encodings unchanged (R99, R190). -/
def FFmt.flush (f : FFmt) (x : Nat) : Nat :=
  if f.code = 2 ∧ f.exp x = 0 then f.signed (f.neg x) 0 else x
/-- VHMAX of one half. -/
def hmaxHalf (lit : Word) (a b _d : Nat) : Nat :=
  let f := packedFmt lit
  f.maxRule (f.flush a) (f.flush b)

/-! ## Conversion (R94 to R97) -/

/-- CVT under a mode. -/
def convert (lit : Word) (mode : RMode) (a e : Word) : Word :=
  encodeVal (decodeVal a.toNat (bitsOf lit.toNat 7 4) (bitsOf e.toNat 7 0)) (bitsOf lit.toNat 3 0) mode
    (lit.getLsbD 10) (bitsOf e.toNat 15 8)

/-- The mode of a CVT literal. -/
def cvtMode (lit : Word) : RMode := .ofCode (bitsOf lit.toNat 9 8)

end Sys2Proof.Machine
end

