-- ==== Sys2Proof/Syntax.lean ====
section
/-! DEFINITION. The syntax of the machine: one constructor for every row of the opcode table, 171 instruction
forms in the order of the opcode map (R36) and 85 steps and commands of the device.  An instruction carries the
STALL and GUARD fields every word has (R19) and exactly the operand fields its form uses (R20, R21); a literal or
access word is carried as 32 bits.  A step of the device carries the number of the object it acts on. -/

namespace Sys2Proof

/-- A 7-bit operand field (R20). -/
abbrev Field := BitVec 7

/-- The fields every instruction word has beside its operands and OP (R19). -/
structure Hd where
  /-- STALL, bits [31:30]. -/
  stall : BitVec 2
  /-- GUARD, bits [29:27]. -/
  guard : BitVec 3
  deriving DecidableEq, Repr

/-- Every row of the opcode table. -/
inductive Instr where
  /-- SMOV (R62). Copies uniform register sA to sD once for the group. -/
  | smov (h : Hd) (d a : Field)
  /-- SMOVL (R62). Writes the literal word to uniform register sD. -/
  | smovl (h : Hd) (d : Field) (lit : Word)
  /-- SADD (R62). Adds two uniform registers modulo 2^32. -/
  | sadd (h : Hd) (d a b : Field)
  /-- SADDL (R62). Adds the literal to a uniform register modulo 2^32. -/
  | saddl (h : Hd) (d a : Field) (lit : Word)
  /-- SSUB (R62). Subtracts sB from sA modulo 2^32. -/
  | ssub (h : Hd) (d a b : Field)
  /-- SMUL (R62). Writes the low 32 bits of the product of two uniform registers. -/
  | smul (h : Hd) (d a b : Field)
  /-- SMULHI (R62). Writes the high 32 bits of the signed product. -/
  | smulhi (h : Hd) (d a b : Field)
  /-- SMULHIN (R62). Writes the high 32 bits of the natural product. -/
  | smulhin (h : Hd) (d a b : Field)
  /-- SAND (R62). Bitwise AND of two uniform registers. -/
  | sand (h : Hd) (d a b : Field)
  /-- SOR (R62). Bitwise OR of two uniform registers. -/
  | sor (h : Hd) (d a b : Field)
  /-- SXOR (R62). Bitwise XOR of two uniform registers. -/
  | sxor (h : Hd) (d a b : Field)
  /-- SSHL (R62). Shifts a uniform register left, giving 0 for counts of 32 or more. -/
  | sshl (h : Hd) (d a b : Field)
  /-- SSHR (R62). Shifts a uniform register logically right. -/
  | sshr (h : Hd) (d a b : Field)
  /-- SSAR (R62). Shifts a uniform register arithmetically right. -/
  | ssar (h : Hd) (d a b : Field)
  /-- SMIN (R62). Signed minimum of two uniform registers. -/
  | smin (h : Hd) (d a b : Field)
  /-- SMAX (R62). Signed maximum of two uniform registers. -/
  | smax (h : Hd) (d a b : Field)
  /-- SMINN (R62). Natural minimum of two uniform registers. -/
  | sminn (h : Hd) (d a b : Field)
  /-- SMAXN (R62). Natural maximum of two uniform registers. -/
  | smaxn (h : Hd) (d a b : Field)
  /-- SCEQ (R62). Writes 1 when two uniform registers are equal, else 0. -/
  | sceq (h : Hd) (d a b : Field)
  /-- SCNE (R62). Writes 1 when two uniform registers differ, else 0. -/
  | scne (h : Hd) (d a b : Field)
  /-- SCLT (R62). Writes 1 when sA is signed-less than sB. -/
  | sclt (h : Hd) (d a b : Field)
  /-- SCLE (R62). Writes 1 when sA is signed-less than or equal to sB. -/
  | scle (h : Hd) (d a b : Field)
  /-- SCLTN (R62). Writes 1 when sA is naturally less than sB. -/
  | scltn (h : Hd) (d a b : Field)
  /-- SCLEN (R62). Writes 1 when sA is naturally less than or equal to sB. -/
  | sclen (h : Hd) (d a b : Field)
  /-- SSEL (R62). Selects sA when sD is nonzero, else sB. -/
  | ssel (h : Hd) (d a b : Field)
  /-- SLEA (R62). Adds a natural uniform register to a 64-bit uniform pair. -/
  | slea (h : Hd) (d a b : Field)
  /-- SADD64 (R62). Adds two 64-bit uniform pairs modulo 2^64. -/
  | sadd64 (h : Hd) (d a b : Field)
  /-- SCLZ (R62). Counts leading zeros of a uniform register. -/
  | sclz (h : Hd) (d a : Field)
  /-- SPOP (R62). Counts one bits of a uniform register. -/
  | spop (h : Hd) (d a : Field)
  /-- SRD (R64). Reads the special register named by the B field into sD. -/
  | srd (h : Hd) (d b : Field)
  /-- SWR (R62). Writes sB to the uniform register whose number stands in sA. -/
  | swr (h : Hd) (a b : Field)
  /-- SBFE (R63). Extracts a bit field of a uniform register as the literal describes. -/
  | sbfe (h : Hd) (d a : Field) (lit : Word)
  /-- CSETA (R65). Sets a convergence register's members to every live thread of the group. -/
  | cseta (h : Hd) (d : Field)
  /-- CSETP (R65). Sets a convergence register's members to the signers whose predicate is true. -/
  | csetp (h : Hd) (d a : Field)
  /-- BARINIT (R67). Sets a barrier's expected group and byte arrivals and clears its counts. -/
  | barinit (h : Hd) (d a b : Field)
  /-- BARARR (R67). Releases at die scope and adds one group arrival to a barrier. -/
  | bararr (h : Hd) (d : Field)
  /-- BARWAIT (R68). Waits for the barrier phase to change from the group's target. -/
  | barwait (h : Hd) (d : Field)
  /-- BARARRW (R67). Arrives at a barrier and then waits on it as one word. -/
  | bararrw (h : Hd) (d : Field)
  /-- WAITANY (R69). Waits for any barrier of a mask in one bank and returns its number. -/
  | waitany (h : Hd) (d a b : Field)
  /-- BARRD (R70). Reads a barrier's state and the group's tgt and rot into a uniform quad. -/
  | barrd (h : Hd) (d a : Field)
  /-- REGREL (R72). Lowers the group's ceiling by n and returns the rows to the core pool. -/
  | regrel (h : Hd) (b : Field)
  /-- REGCLM (R72). Claims n more rows from the core pool and raises the ceiling. -/
  | regclm (h : Hd) (b : Field)
  /-- REGRD (R72). Reads ceiling, live rows, team reservation and free rows into a uniform quad. -/
  | regrd (h : Hd) (d : Field)
  /-- DBAR (R73). Waits until every group of the die span has reached its next DBAR or exited. -/
  | dbar (h : Hd)
  /-- RELV (R72). Releases the rows of n vector names to the group's reservation. -/
  | relv (h : Hd) (a b : Field)
  /-- VMOV (R85). Copies a vector register per thread. -/
  | vmov (h : Hd) (d a : Field)
  /-- VMOVL (R85). Writes the literal to a vector register per thread. -/
  | vmovl (h : Hd) (d : Field) (lit : Word)
  /-- VMOVS (R85). Copies a uniform register into every taking-part lane. -/
  | vmovs (h : Hd) (d a : Field)
  /-- VADD (R85). Adds two vector registers modulo 2^32. -/
  | vadd (h : Hd) (d a b : Field)
  /-- VADDS (R85). Adds a uniform register to a vector register. -/
  | vadds (h : Hd) (d a b : Field)
  /-- VADDL (R85). Adds the literal to a vector register. -/
  | vaddl (h : Hd) (d a : Field) (lit : Word)
  /-- VSUB (R85). Subtracts vector registers modulo 2^32. -/
  | vsub (h : Hd) (d a b : Field)
  /-- VMUL (R85). Low 32 bits of the per-thread product. -/
  | vmul (h : Hd) (d a b : Field)
  /-- VMULHI (R85). High 32 bits of the signed per-thread product. -/
  | vmulhi (h : Hd) (d a b : Field)
  /-- VMULHIN (R85). High 32 bits of the natural per-thread product. -/
  | vmulhin (h : Hd) (d a b : Field)
  /-- VMAD (R85). Adds the product of vA and vB to vD modulo 2^32. -/
  | vmad (h : Hd) (d a b : Field)
  /-- VAND (R85). Bitwise AND per thread. -/
  | vand (h : Hd) (d a b : Field)
  /-- VOR (R85). Bitwise OR per thread. -/
  | vor (h : Hd) (d a b : Field)
  /-- VXOR (R85). Bitwise XOR per thread. -/
  | vxor (h : Hd) (d a b : Field)
  /-- VSHL (R85). Shifts left per thread. -/
  | vshl (h : Hd) (d a b : Field)
  /-- VSHR (R85). Shifts logically right per thread. -/
  | vshr (h : Hd) (d a b : Field)
  /-- VSAR (R85). Shifts arithmetically right per thread. -/
  | vsar (h : Hd) (d a b : Field)
  /-- VMIN (R85). Signed minimum per thread. -/
  | vmin (h : Hd) (d a b : Field)
  /-- VMAX (R85). Signed maximum per thread. -/
  | vmax (h : Hd) (d a b : Field)
  /-- VMINN (R85). Natural minimum per thread. -/
  | vminn (h : Hd) (d a b : Field)
  /-- VMAXN (R85). Natural maximum per thread. -/
  | vmaxn (h : Hd) (d a b : Field)
  /-- VCLZ (R85). Counts leading zeros per thread. -/
  | vclz (h : Hd) (d a : Field)
  /-- VPOP (R85). Counts one bits per thread. -/
  | vpop (h : Hd) (d a : Field)
  /-- VBFE (R85). Extracts a bit field per thread as the literal describes. -/
  | vbfe (h : Hd) (d a : Field) (lit : Word)
  /-- VCMP (R86). Compares two vector registers under a condition and writes a predicate. -/
  | vcmp (h : Hd) (d a b : Field)
  /-- VCMPS (R86). Compares a vector register with a uniform register and writes a predicate. -/
  | vcmps (h : Hd) (d a b : Field)
  /-- VSEL (R87). Selects vA or vB per thread by the guard predicate, in every packet thread. -/
  | vsel (h : Hd) (d a b : Field)
  /-- PAND (R87). AND of two predicates. -/
  | pand (h : Hd) (d a b : Field)
  /-- POR (R87). OR of two predicates. -/
  | por (h : Hd) (d a b : Field)
  /-- PXOR (R87). XOR of two predicates. -/
  | pxor (h : Hd) (d a b : Field)
  /-- PNOT (R87). Inverts a predicate. -/
  | pnot (h : Hd) (d a : Field)
  /-- VADD64 (R85). Adds two 64-bit vector pairs modulo 2^64. -/
  | vadd64 (h : Hd) (d a b : Field)
  /-- VFADD (R89). FP32 addition rounded to nearest even. -/
  | vfadd (h : Hd) (d a b : Field)
  /-- VFSUB (R89). FP32 subtraction. -/
  | vfsub (h : Hd) (d a b : Field)
  /-- VFMUL (R89). FP32 multiplication. -/
  | vfmul (h : Hd) (d a b : Field)
  /-- VFMA (R89). FP32 fused multiply-add into vD with one rounding. -/
  | vfma (h : Hd) (d a b : Field)
  /-- VFMAS (R89). FP32 fused multiply-add with a uniform multiplier. -/
  | vfmas (h : Hd) (d a b : Field)
  /-- VFMIN (R90). FP32 minimum under the device's maximum rule. -/
  | vfmin (h : Hd) (d a b : Field)
  /-- VFMAX (R90). FP32 maximum under the device's maximum rule. -/
  | vfmax (h : Hd) (d a b : Field)
  /-- VFCMP (R91). FP32 compare under a condition into a predicate. -/
  | vfcmp (h : Hd) (d a b : Field)
  /-- VFRCP (R92). Correctly rounded FP32 reciprocal. -/
  | vfrcp (h : Hd) (d a : Field)
  /-- VFRSQ (R92). Correctly rounded FP32 reciprocal square root. -/
  | vfrsq (h : Hd) (d a : Field)
  /-- VFSQRT (R92). Correctly rounded FP32 square root. -/
  | vfsqrt (h : Hd) (d a : Field)
  /-- VFEXP2 (R92). Correctly rounded FP32 base-2 exponential. -/
  | vfexp2 (h : Hd) (d a : Field)
  /-- VFLOG2 (R92). Correctly rounded FP32 base-2 logarithm. -/
  | vflog2 (h : Hd) (d a : Field)
  /-- VFCLASS (R93). Writes a one-hot class mask of an FP32 value. -/
  | vfclass (h : Hd) (d a : Field)
  /-- CVT (R95). Converts between number formats under the literal's mode and saturation. -/
  | cvt (h : Hd) (d a b : Field) (lit : Word)
  /-- CVTSR (R97). Converts with stochastic rounding, stepping the thread's generator once. -/
  | cvtsr (h : Hd) (d a b : Field) (lit : Word)
  /-- SRSEED (R98). Sets the thread's stochastic generator state from a vector pair. -/
  | srseed (h : Hd) (a : Field)
  /-- SRRD (R98). Reads the thread's stochastic generator state into a vector pair. -/
  | srrd (h : Hd) (d : Field)
  /-- VHADD (R99). Packed 16-bit addition of both halves. -/
  | vhadd (h : Hd) (d a b : Field) (lit : Word)
  /-- VHMUL (R99). Packed 16-bit multiplication of both halves. -/
  | vhmul (h : Hd) (d a b : Field) (lit : Word)
  /-- VHFMA (R99). Packed 16-bit fused multiply-add of both halves. -/
  | vhfma (h : Hd) (d a b : Field) (lit : Word)
  /-- VHMAX (R99). Packed 16-bit maximum under the maximum rule. -/
  | vhmax (h : Hd) (d a b : Field) (lit : Word)
  /-- GSHFL (R101). Each member reads vA from the lane that its vB names. -/
  | gshfl (h : Hd) (d a b : Field)
  /-- GBALLOT (R101). Writes a 256-bit mask of members with a true predicate into eight uniform registers. -/
  | gballot (h : Hd) (d a : Field)
  /-- GPREF (R101). Writes to each member the count of lower members with a true predicate. -/
  | gpref (h : Hd) (d a : Field)
  /-- GCNT (R101). Counts the members with a true predicate. -/
  | gcnt (h : Hd) (d a : Field)
  /-- GRED (R102). Reduces members' values over the fixed tree into a uniform register. -/
  | gred (h : Hd) (d a b : Field)
  /-- GMAXI (R104). Finds the members' maximum and its thread index. -/
  | gmaxi (h : Hd) (d a b : Field)
  /-- GSCAN (R102). Writes each member's inclusive or exclusive scan over the fixed tree. -/
  | gscan (h : Hd) (d a b : Field)
  /-- GBCAST (R101). Copies one lane of vA into a uniform register. -/
  | gbcast (h : Hd) (d a b : Field)
  /-- LD (R110). Loads from a per-thread address in global memory or scratchpad. -/
  | ld (h : Hd) (d a : Field) (acc : Word)
  /-- LDX (R110). Loads from a uniform base plus a per-thread index. -/
  | ldx (h : Hd) (d a b : Field) (acc : Word)
  /-- ST (R110). Stores to a per-thread address. -/
  | st (h : Hd) (d a : Field) (acc : Word)
  /-- STX (R110). Stores to a uniform base plus a per-thread index. -/
  | stx (h : Hd) (d a b : Field) (acc : Word)
  /-- ATOMADD (R111). Atomic add returning the old value. -/
  | atomadd (h : Hd) (d a b : Field) (acc : Word)
  /-- ATOMFADD (R111). Atomic FP32 add returning the old value. -/
  | atomfadd (h : Hd) (d a b : Field) (acc : Word)
  /-- ATOMMIN (R111). Atomic signed minimum. -/
  | atommin (h : Hd) (d a b : Field) (acc : Word)
  /-- ATOMMAX (R111). Atomic signed maximum. -/
  | atommax (h : Hd) (d a b : Field) (acc : Word)
  /-- ATOMMINN (R111). Atomic natural minimum. -/
  | atomminn (h : Hd) (d a b : Field) (acc : Word)
  /-- ATOMMAXN (R111). Atomic natural maximum. -/
  | atommaxn (h : Hd) (d a b : Field) (acc : Word)
  /-- ATOMAND (R111). Atomic AND. -/
  | atomand (h : Hd) (d a b : Field) (acc : Word)
  /-- ATOMOR (R111). Atomic OR. -/
  | atomor (h : Hd) (d a b : Field) (acc : Word)
  /-- ATOMXOR (R111). Atomic XOR. -/
  | atomxor (h : Hd) (d a b : Field) (acc : Word)
  /-- ATOMXCHG (R111). Atomic exchange. -/
  | atomxchg (h : Hd) (d a b : Field) (acc : Word)
  /-- ATOMCAS (R111). Atomic compare-and-swap. -/
  | atomcas (h : Hd) (d a b : Field) (acc : Word)
  /-- FENCE (R114). Orders the thread's memory words at a scope with acquire, release or sequential consistency. -/
  | fence (h : Hd) (acc : Word)
  /-- SFENCE (R115). Waits for earlier scratchpad stores and advances the team's operand-cache generation. -/
  | sfence (h : Hd) (acc : Word)
  /-- SEAL (R117). Seals a region page by page against writes. -/
  | seal (h : Hd) (a b : Field) (acc : Word)
  /-- UNSEAL (R117). Unseals a region page by page. -/
  | unseal (h : Hd) (a b : Field) (acc : Word)
  /-- PREF (R118). Requests a line into L1 or the die's L2. -/
  | pref (h : Hd) (d a : Field) (acc : Word)
  /-- RCLAIM (R121). Claims granules of a ring, waiting for space. -/
  | rclaim (h : Hd) (d a b : Field) (acc : Word)
  /-- RCOMMIT (R121). Commits claimed granules and advances TAIL over contiguous commits. -/
  | rcommit (h : Hd) (d a b : Field) (acc : Word)
  /-- RAWAIT (R121). Waits until n granules are visible and returns HEAD. -/
  | rawait (h : Hd) (d a b : Field) (acc : Word)
  /-- RRETIRE (R121). Retires n visible granules by advancing HEAD. -/
  | rretire (h : Hd) (a b : Field) (acc : Word)
  /-- PUTQ (R122). Claims ring space, places scratchpad bytes and commits them. -/
  | putq (h : Hd) (d a b : Field) (acc : Word)
  /-- TMMA (R132). Accumulates a matrix product of two scratchpad operands into a handle. -/
  | tmma (h : Hd) (hr : BitVec 3) (cl : Bool) (sl : BitVec 3) (a b : Field)
  /-- TMMAT (R132). Accumulates a matrix product transposed into a handle. -/
  | tmmat (h : Hd) (hr : BitVec 3) (cl : Bool) (sl : BitVec 3) (a b : Field)
  /-- ACCZERO (R136). Binds a handle and zeroes it. -/
  | acczero (h : Hd) (hr : BitVec 3)
  /-- ACCST (R138). Converts and stores a handle's tile through a map into scratchpad. -/
  | accst (h : Hd) (hr sl : BitVec 3) (a : Field)
  /-- ACCLD (R138). Binds a handle and loads decoded scratchpad elements into it. -/
  | accld (h : Hd) (hr : BitVec 3) (cl : Bool) (sl : BitVec 3) (a : Field)
  /-- ACCREL (R136). Returns a handle's slot to the free list. -/
  | accrel (h : Hd) (hr : BitVec 3)
  /-- ACCSCL (R136). Scales every element of a handle by a uniform value. -/
  | accscl (h : Hd) (hr : BitVec 3) (a : Field)
  /-- ACCADD (R136). Adds another handle's elements into a handle. -/
  | accadd (h : Hd) (hr : BitVec 3) (cl : Bool) (b : Field)
  /-- ACCRD (R136). Reads one accumulator element into a uniform register. -/
  | accrd (h : Hd) (hr : BitVec 3) (a b : Field)
  /-- CPY (R142). Issues a copy job from a 16-register descriptor. -/
  | cpy (h : Hd) (d a b : Field)
  /-- GATH (R144). Issues a gather job, optionally into a ring. -/
  | gath (h : Hd) (d a b : Field)
  /-- SCAT (R144). Issues a scatter job. -/
  | scat (h : Hd) (d a b : Field)
  /-- COLL (R145). Issues a collective job from a 32-register descriptor. -/
  | coll (h : Hd) (d a b : Field)
  /-- HANDOVER (R149). Checks and accepts a hand-over of a stack to its other port die, closing admission. -/
  | handover (h : Hd) (d a b : Field)
  /-- ENGRD (R147). Reads a job-table entry's state into a uniform quad. -/
  | engrd (h : Hd) (d a : Field)
  /-- JOBCAN (R148). Cancels a job that waits on its footprint. -/
  | jobcan (h : Hd) (d a : Field)
  /-- BRA (R75). Branches to a literal code offset. -/
  | bra (h : Hd) (lit : Word)
  /-- CALL (R75). Checks a call pad, writes the link register and transfers. -/
  | call (h : Hd) (d : Field) (lit : Word)
  /-- RET (R75). Returns to a return-point pad at the link address. -/
  | ret (h : Hd) (a : Field)
  /-- JTAB (R33). Transfers through a checked jump table to a jump pad. -/
  | jtab (h : Hd) (a : Field) (lit : Word)
  /-- LPAD (R31). Marks a landing pad and has no effect. -/
  | lpad (h : Hd) (kind : BitVec 2) (label : BitVec 12)
  /-- SPAWN (R77). Builds a spawn record and writes whether it was placed. -/
  | spawn (h : Hd) (ps n : BitVec 3) (vp sj : Field) (hh : Bool) (lit : Word)
  /-- SPAWNB (R77). Builds a spawn record and waits until it is placed. -/
  | spawnb (h : Hd) (n : BitVec 3) (vp sj : Field) (hh : Bool) (lit : Word)
  /-- EXIT (R78). Ends the thread once its tokens are zero. -/
  | exit (h : Hd)
  /-- EXITJ (R79). Ends the thread after decrementing its record's join counter. -/
  | exitj (h : Hd)
  /-- JOINW (R80). Waits until a join counter reads zero, then acquires at rack scope. -/
  | joinw (h : Hd) (a : Field)
  /-- CJOIN (R81). Signs a convergence register and continues when signing completes. -/
  | cjoin (h : Hd) (d : Field)
  /-- YIELD (R82). Asks for the group to be swapped out at its next slot. -/
  | yield (h : Hd)
  /-- TRAP (R82). Raises fault 0x50 with a code. -/
  | trap (h : Hd) (code : BitVec 21)
  /-- BKPT (R82). Raises fault 0x51 with a code. -/
  | bkpt (h : Hd) (code : BitVec 21)
  /-- NOP (R82). Has no effect. -/
  | nop (h : Hd)
  /-- TRAPRET (R153). Ends the thread's handler; the last one ends handler mode. -/
  | trapret (h : Hd)
  /-- FLTRD (R154). Reads a word of the fault record being handled. -/
  | fltrd (h : Hd) (d a : Field)
  /-- TLBINV (R155). Invalidates translations by page or wholly, in the die or the domain. -/
  | tlbinv (h : Hd) (a b : Field)
  /-- CINV (R156). Writes back or invalidates cache lines of a range. -/
  | cinv (h : Hd) (d a b : Field)
  /-- PERFRD (R157). Reads a 64-bit performance counter. -/
  | perfrd (h : Hd) (d b : Field)
  /-- STKRD (R158). Reads a stack's ownership entry. -/
  | stkrd (h : Hd) (d a : Field)
  /-- CYCRD (R159). Reads the core cycle counter. -/
  | cycrd (h : Hd) (d : Field)
  /-- ECCRD (R160). Reads an entry of the core's ECC log, optionally clearing it. -/
  | eccrd (h : Hd) (d a : Field)
  /-- GROUP_FORM_RESULT (R100). Writes a group form's results and lowers the members' tokens within 64 cycles after signing. -/
  | groupFormResult (g : Nat) (w : Nat)
  /-- MEMORY_REPLY (R109). A memory operation completes, writing its result and lowering the thread's token. -/
  | memoryReply (r : Nat)
  /-- HOME_REQUEST (R112). A request reaching its home or base die is performed there in arrival order. -/
  | homeRequest (r : Nat)
  /-- WRITE_BACK (R249). A partition's dirty bytes arrive at the home and are merged by byte. -/
  | writeBack (x : Nat) (line : Nat)
  /-- BARRIER_WAKE (R68). A barrier completion releases a group waiting in BARWAIT or BARARRW. -/
  | barrierWake (g : Nat) (w : Nat)
  /-- WAITANY_WAKE (R69). A completion of a masked barrier releases a group in WAITANY. -/
  | waitanyWake (g : Nat) (w : Nat)
  /-- DBAR_RELEASE (R73). The last group of the die span reaches DBAR and the waiters continue. -/
  | dbarRelease (l : Nat) (x : Nat)
  /-- REGCLM_SERVE (R223). Freed rows serve a waiting claimant in the core's order. -/
  | regclmServe (k : Nat)
  /-- JOINW_WAKE (R80). A join counter reaching zero releases JOINW. -/
  | joinwWake (g : Nat) (t : Nat)
  /-- RING_SPACE_GRANT (R121). A retirement gives space to the oldest waiting claim. -/
  | ringSpaceGrant (r : Nat)
  /-- RAWAIT_WAKE (R121). A commit advancing TAIL releases waiting RAWAITs. -/
  | rawaitWake (r : Nat)
  /-- HANDLE_BIND_SERVE (R137). A returned accumulator slot binds the oldest waiting handle. -/
  | handleBindServe (k : Nat)
  /-- JOB_TABLE_ENTRY_GRANT (R140). A freed job-table entry accepts a waiting engine issue. -/
  | jobTableEntryGrant (k : Nat)
  /-- SPAWNB_RETRY (R287). A refused SPAWNB record is placed once its unit has room. -/
  | spawnbRetry (g : Nat) (t : Nat)
  /-- TMMA_CHUNK_STEP (R231). The sequencer runs one chunk step of a matrix operation. -/
  | tmmaChunkStep (m : Nat)
  /-- ACCUMULATOR_FORM_COMPLETE (R125). An accumulator form completes and lowers the signers' token. -/
  | accumulatorFormComplete (m : Nat)
  /-- JOB_START (R273). A job waiting on its footprint starts once every overlapping job has ended. -/
  | jobStart (j : Nat)
  /-- ENGINE_JOB_REQUEST (R272). An engine serves one 64-byte request of a running job. -/
  | engineJobRequest (j : Nat)
  /-- JOB_COMPLETE (R272). A job's writes are performed, copies invalidated and its byte arrival applied. -/
  | jobComplete (j : Nat)
  /-- JOB_FAULT_RETRY (R146). A paused job retries its faulting request after the translation is invalidated. -/
  | jobFaultRetry (j : Nat)
  /-- HANDOVER_DRAIN (R314). Drains the stack's write and atomic queues, caches and TLB entries. -/
  | handoverDrain (s : Nat)
  /-- HANDOVER_FLIP (R314). Switches the active port, owner and home maps, and forwards held requests. -/
  | handoverFlip (s : Nat)
  /-- HANDOVER_COMPLETE (R314). Makes the stack steady and gives the issuer's barrier its arrival. -/
  | handoverComplete (s : Nat)
  /-- PAGE_WALK (R321). A page-table walk completes and fills the TLBs or faults. -/
  | pageWalk (w : Nat)
  /-- TLB_FILL (R313). A fill waiting for a steady stack records the new owner. -/
  | tlbFill (w : Nat)
  /-- RECORD_ROUTE_ARRIVAL (R286). A spawn record reaches its target die and is queued, spilled or refused. -/
  | recordRouteArrival (r : Nat)
  /-- RECORD_ENTRY (R284). A record enters its kindling unit's bin. -/
  | recordEntry (r : Nat)
  /-- BIN_WINDOW_EXPIRY (R284). An open bin closes when its gather window ends. -/
  | binWindowExpiry (b : Nat)
  /-- SPILL_REFILL (R286). The spill ring's head record enters its unit once there is room. -/
  | spillRefill (x : Nat) (l : Nat)
  /-- KINDLED_GROUP_FORMATION (R285). A closed bin forms a kindled group on granted slot and rows. -/
  | kindledGroupFormation (k : Nat)
  /-- GROUP_PARK (R290). A waiting group writes its phase record and frees its rows and slot. -/
  | groupPark (g : Nat)
  /-- PARKED_GROUP_RESUME (R292). A parked group resumes on its core after its barrier completes. -/
  | parkedGroupResume (g : Nat)
  /-- GROUP_SWAP (R212). An active group is swapped for the longest-ready pending group. -/
  | groupSwap (k : Nat) (q : Nat) (e : Nat)
  /-- ACTIVE_ENTRY_FILL (R213). A ready pending group enters an empty active entry. -/
  | activeEntryFill (k : Nat) (q : Nat) (e : Nat)
  /-- RECOVERY_MODE_END (R217). A core leaves recovery urgency order for the barrel. -/
  | recoveryModeEnd (k : Nat)
  /-- LAUNCH_START (R173). A launch waiting on prerequisites starts or is refused with reason 15. -/
  | launchStart (l : Nat)
  /-- TEAM_DISPATCH (R296). A distributor dispatches the head team of the queue chosen by priority and skip counts. -/
  | teamDispatch (n : Nat)
  /-- TEAM_ADMIT (R294). A die distributor admits a team to cores with enough rows and slots. -/
  | teamAdmit (x : Nat)
  /-- WORK_STEAL (R299). An idle distributor steals a team or ready bin from a sibling. -/
  | workSteal (x : Nat)
  /-- STEP_BOUNDARY (R176). Ends a step, chooses the next die set and starts the next step. -/
  | stepBoundary (l : Nat)
  /-- GRID_COMPLETE (R183). Writes the final STATE of a grid as a release at rack scope. -/
  | gridComplete (l : Nat)
  /-- FULL_TIER_PREEMPT (R302). At the pre-emption limit every remaining group stops and is saved. -/
  | fullTierPreempt (l : Nat)
  /-- PREEMPT_SAVE_COMPLETE (R303). The launch's last team, group and record are saved and STATE becomes 7. -/
  | preemptSaveComplete (l : Nat)
  /-- TEAM_RESTORE (R355). A saved team is admitted and its state restored. -/
  | teamRestore (l : Nat)
  /-- TRAP_ENTRY (R341). A stopped group enters its trap handler. -/
  | trapEntry (g : Nat)
  /-- TRAP_RESERVE_GRANT (R224). A freed trap reserve serves the next faulted group. -/
  | trapReserveGrant (k : Nat) (q : Nat)
  /-- FAULT_AREA_ROOM (R337). A GET advance gives room to a group waiting to write its record. -/
  | faultAreaRoom (l : Nat)
  /-- WATCHDOG_EXPIRY (R350). A blocking wait reaches 2^WDOG cycles and terminates its team with records. -/
  | watchdogExpiry (g : Nat)
  /-- REGISTER_CLAIM_DEADLOCK (R226). Raises 0x21 against a team whose every group is blocked with unserviceable claims. -/
  | registerClaimDeadlock (t : Nat)
  /-- ACCUMULATOR_DEADLOCK (R237). Raises 0x22 when every slot holder waits to bind. -/
  | accumulatorDeadlock (k : Nat)
  /-- LOST_DIE (R349). A die is lost and its teams, jobs and records end. -/
  | lostDie (x : Nat)
  /-- COLLECTIVE_START (R371). A collective begins once every member has issued its matching COLL. -/
  | collectiveStart (j : Nat)
  /-- PERMUTE_RELEASE (R375). A permute starts moving bytes once lower-generation collectives have completed. -/
  | permuteRelease (j : Nat)
  /-- FABRIC_HOP (R365). A hop takes custody of a packet and forwards it. -/
  | fabricHop (p : Nat)
  /-- FLIT_REPLAY (R364). A flit with a failed CRC is sent again from the replay buffer. -/
  | flitReplay (pkg : Nat) (port : Nat)
  /-- ROUTE_TABLE_LOAD (R362). The fabric manager loads new route tables. -/
  | routeTableLoad (pkg : Nat) (entries : List (BitVec 64))
  /-- RECOVERY_PROBE (R367). A blocked channel's timer expires and a probe is sent. -/
  | recoveryProbe (p : Nat)
  /-- PROBE_RETURN (R367). A probe returns, re-arming the timer or moving the packet to an escape buffer. -/
  | probeReturn (p : Nat) (cycle : Bool)
  /-- ERROR_NOTICE (R366). An error notice raises 0x60 at the packet's origin. -/
  | errorNotice (p : Nat) (reason : Nat)
  /-- RDMA_WRITE (R387). An incoming RDMA write is performed at its home and acknowledged to the peer. -/
  | rdmaWrite (q : Nat)
  /-- LAUNCH (R172). Command TYPE 1: checks and accepts or refuses a launch record. -/
  | launch
  /-- PREEMPT (R302). Command TYPE 2 KIND 0: starts pre-emption of the targeted launches. -/
  | preempt
  /-- RESUME (R304). Command TYPE 2 KIND 1: restores saved launches. -/
  | resume
  /-- FAULT_RESUME (R346). Command TYPE 3: resumes a group stopped at a 0x10 record. -/
  | faultResume
  /-- TERMINATE (R380). Command TYPE 4 with ALL 0: terminates a named team or kindled group. -/
  | terminate
  /-- TERMINATE_ALL (R380). Command TYPE 4 with ALL 1: ends the whole launch with STATE 5 reason 4. -/
  | terminateAll
  /-- DIE_OUT_OF_SERVICE (R381). Command TYPE 5: takes a die out of service. -/
  | dieOutOfService
  /-- DIE_IN_SERVICE (R381). Command TYPE 5: returns a die to service for later step boundaries. -/
  | dieInService
  /-- DIE_WITHDRAWN (R381). An out-of-service die leaves its last step and its command reports STATUS 2. -/
  | dieWithdrawn (x : Nat)
  /-- TLB_INVALIDATE (R380). Command TYPE 6: invalidates translations as TLBINV. -/
  | tlbInvalidate
  /-- DOMAIN_CONFIGURATION (R380). Command TYPE 7: sets the page-table root and seal map. -/
  | domainConfiguration
  /-- DIE_WINDOW (R380). Command TYPE 8: sets a die's window base. -/
  | dieWindow
  /-- REGISTER_WINDOW_WRITE (R383). A write to the register window updates an RW field and discards RO writes. -/
  | registerWindowWrite (pkg : Nat) (off : Nat) (bytes : List (BitVec 8))
  /-- PACKAGE_RESET (R2). Resets ownership, cores and counters and begins boot. -/
  | packageReset (pkg : Nat)
  /-- FLUE_TRAINING (R384). Boot stage 1 trains flues and optical engines. -/
  | flueTraining (pkg : Nat)
  /-- HOST_FIRMWARE_VERIFY (R384). Boot stage 2 verifies and measures the host firmware image. -/
  | hostFirmwareVerify (pkg : Nat)
  /-- DRIVER_IMAGE_LOAD (R384). Boot stage 3 verifies and loads driver and command processor images. -/
  | driverImageLoad (pkg : Nat)
  /-- CORE_SELF_TEST (R384). Boot stage 4 runs self-test groups and opens cores into the barrel. -/
  | coreSelfTest (pkg : Nat)
  /-- DOMAIN_FORMATION (R377). Boot stage 5 joins the domain, elects primary and mirror and forms the fabric. -/
  | domainFormation
  /-- FAILOVER (R377). The mirror becomes primary and a new mirror is elected. -/
  | failover
  /-- ATTESTATION_QUOTE (R384). Signs a nonce, measurements and identity with the package identity key. -/
  | attestationQuote (pkg : Nat)
  /-- POWER_LIMIT (R388). The tray manager sets a package power limit met by empty issue slots. -/
  | powerLimit (pkg : Nat) (watts : Nat)
  /-- POWER_SEQUENCE (R388). The tray manager powers the host, routing die, stacks and compute dies in order. -/
  | powerSequence (pkg : Nat)
  /-- ILLEGAL_INSTRUCTION (R23). A thread reaches a word whose (CLASS, OP) pair the opcode map does not assign and raises 0x01 with no state change. -/
  | illegalInstruction
  /-- ILLEGAL_CLAUSE (R18). A clause header, or a resumption PC, fails its checks before any word issues, and 0x02 is raised at (offset, 0). -/
  | illegalClause
  deriving DecidableEq, Repr

end Sys2Proof
end

