-- ==== Sys2Proof/Config.lean ====
section
/-! DEFINITION. What an implementation fixes and what the spec leaves open: the turns that an agenda does not name,
the path and cryptographic functions, and the fused identification of a package.  None of the opaque constants has a
body, so no proof can learn a value of one. -/

namespace Sys2Proof

/-- What reaches the machine from outside it: the driver's and the peers' writes, upsets, link errors, mail and
supplies (INVENTORY, Host interface). -/
inductive Input where
  /-- The driver or another host agent stores bytes at a physical address (R245, R320, R337, R378). -/
  | hostWrite (pa : Nat) (bytes : List Byte)
  /-- A vector lane word of a thread takes a single-bit (false) or an uncorrectable (true) error; a lane of the trap
  reserve's v112-v127 is named 240-255 (R228). -/
  | laneUpset (g t reg : Nat) (hard : Bool)
  /-- A uniform word of a group takes a single-bit or an uncorrectable error; a shadow word of s112-s127 is named
  240-255 (R228). -/
  | uniformUpset (g reg : Nat) (hard : Bool)
  /-- An uncorrectable error of the 4-byte word of memory at a physical address (R247). -/
  | memoryUpset (pa : Nat)
  /-- An uncorrectable error of the 4-byte word at a physical address in the L1 of a core, or in the L2 of a die (R247). -/
  | l1Upset (k pa : Nat)
  | l2Upset (x pa : Nat)
  /-- An uncorrectable error of the n-th sector of the operand cache of a core (R233). -/
  | sectorUpset (k n : Nat)
  /-- An uncorrectable error of an accumulator element (R235). -/
  | accUpset (k slot element : Nat)
  /-- An uncorrectable error of a scratchpad byte of a team core (R135). -/
  | scratchUpset (team q off : Nat)
  /-- A line leaves an L1 by replacement (R248). -/
  | dropL1 (k line : Nat)
  /-- A translation leaves the TLB of a die by replacement (R322). -/
  | dropTlb (x : Nat) (va : Dword)
  /-- A flit fails its CRC at a port (R364). -/
  | flitError (pkg port : Nat)
  /-- An Ethernet peer sends an RDMA write of a queue pair (R387). -/
  | rdma (queue : Nat) (va : Dword) (bytes : List Byte)
  /-- A requester mails a nonce to the root of trust of a package (R384). -/
  | mail (pkg : Nat) (nonce : List Byte)
  /-- The boot flash of a package holds this image: key, header and body, signature (R384). -/
  | flash (pkg : Nat) (key image sig : List Byte)
  /-- The image of the driver and operating system, and that of the command processors' firmware (R384, stage 3). -/
  | driverImage (pkg : Nat) (image sig : List Byte)
  | firmwareImage (pkg : Nat) (image sig : List Byte)
  /-- The fabric manager declares a package unreachable from another, where no path survives (R365). -/
  | unreachable (pkg dest : Nat)
  /-- A package is named to the tray manager and the domain: its number, tray and slot (R385). -/
  | place (pkg tray slot : Nat)
  /-- Every link of a package is found down (R349). -/
  | packageLost (pkg : Nat)
  /-- The host die of a package, or the command processor of a die, gives no answer from now, or answers again (R349). -/
  | hostSilent (pkg : Nat) (silent : Bool)
  | dieSilent (x : Nat) (silent : Bool)
  /-- Every flue to a die fails, or its supply is reported down (R349). -/
  | dieDown (x : Nat)
  /-- A checking scoreboard is turned on for a team by a debugger (R30). -/
  | debugCheck (team : Nat)
  deriving DecidableEq, Repr

/-- One turn of the machine: which agent moves next.  The spec binds no order between agents but the rules' own
(R5, R112, R389), so the order is the agenda's, or free (log 1). -/
inductive Turn where
  /-- The next quadrant of a core takes its place in the core's present cycle (R208, R215, R216). -/
  | issue (k : Nat)
  /-- A stopped group whose faults no handler takes acts by the class of its fault (R338, R346). -/
  | settle (g : Nat)
  /-- A step of the device, a command at the head of the queue, or a boot step. -/
  | event (i : Instr)
  /-- Something reaches the machine from outside. -/
  | outside (e : Input)
  deriving DecidableEq, Repr, Inhabited

namespace Config

/-- The free choice of the next turn at each tick at which the agenda names none (log 1). -/
opaque nextTurn : Nat → Turn

/-- The free choice of the pool row that a vector name stands in, where the ECC log names it (R209, log 96). -/
opaque rowChoice : Nat → Nat
/-- The address at which the ECC log places an event of a unit without physical addresses: unit, core, place (R160,
log 96). -/
opaque eccPlace : Nat → Nat → Nat → Nat
/-- The free choice of the line that leaves a full L1 or L2 (R3, R249, log 97). -/
opaque victim : Nat → Nat
/-- Whether an issue slot or an engine step is left empty to keep a package within its power limit (R388, log 7). -/
opaque idleSlot : Nat → Bool
/-- The path choice of a flow at a hop: a fixed function of source tag, destination and table version (R362). -/
opaque pathChoice : Nat → Nat → Nat → Nat
/-- The flits that the buffer of a virtual channel holds beyond one longest packet (R363, R367, log 102). -/
opaque channelFlits : Nat
/-- The graph that the fabric manager finds for a domain of 50 packages or more: the neighbours of each (R360). -/
opaque graph : Nat → List (List Nat)
/-- Whether the link between two packages works when the domain forms (R360). -/
opaque linkWorks : Nat → Nat → Bool

/-- SHAKE256 cut to 64 bytes (R384). -/
opaque shake256 : List Byte → List Byte
/-- ML-DSA-65 verification: key, message digest, signature (R384). -/
opaque mldsaVerify : List Byte → List Byte → List Byte → Bool
/-- ML-DSA-65 signature with the identity key of a package, by its place (R384). -/
opaque identitySign : Nat → List Byte → List Byte
/-- The identity public key of a package, by its place (R384). -/
opaque identityKey : Nat → List Byte
/-- The digest of the verifying key held in the fuses of a package (R384). -/
opaque fuseKeyDigest : Nat → List Byte

/-- The fused stepping of a package (R385). -/
opaque stepping : Nat → BitVec 16
/-- The fused minimum firmware SVN of a package (R384, R385). -/
opaque fuseSvn : Nat → BitVec 16
/-- The fused serial number of a package (R385). -/
opaque serial : Nat → Dword

end Config

end Sys2Proof
end

