-- ==== Sys2Proof/WellFormed.lean ====
section
/-! DEFINITION. Which instructions are well formed: the field, literal and access-word checks that raise 0x01
for every thread that reaches the word, whatever its guard (R21, R25, R61, R63, R64, R84, R86, R94, R99, R102,
R104, R105, R125, R139, R152).  Nonzero unused fields never reach this check: the decoder refuses them. -/

namespace Sys2Proof

namespace Access

/-- WIDTH of an access word (R24). -/
def width (w : Word) : Nat := bitsOf w.toNat 2 0
/-- ORDER of an access word (R24). -/
def order (w : Word) : Nat := bitsOf w.toNat 5 3
/-- SCOPE of an access word (R24). -/
def scope (w : Word) : Nat := bitsOf w.toNat 8 6
/-- MS of an access word (R24). -/
def ms (w : Word) : Bool := w.getLsbD 9
/-- NT of an access word (R24). -/
def nt (w : Word) : Bool := w.getLsbD 10
/-- SP of an access word (R24). -/
def sp (w : Word) : Bool := w.getLsbD 11
/-- OFFSET of an access word, sign-extended to 64 bits (R24, R106). -/
def off (w : Word) : Dword := (w.extractLsb' 12 20).signExtend 64

end Access

/-- What the table of R105 allows in the access word of a form. -/
structure AccessRule where
  widths : List Nat
  orders : List Nat
  sp : Bool
  ms : Bool
  nt : Bool
  off : Bool
  scope : Bool
  deriving DecidableEq, Repr

/-- The access word obeys R25 and its form's row of R105. -/
def AccessRule.ok (r : AccessRule) (w : Word) : Bool :=
  r.widths.contains (Access.width w) && r.orders.contains (Access.order w) && decide (Access.scope w ≤ 4)
  && (r.sp || !Access.sp w) && (r.ms || !Access.ms w) && (r.nt || !Access.nt w)
  && (r.off || Access.off w == 0) && (r.scope || Access.scope w == 0)
  && (!Access.sp w || (!Access.ms w && !Access.nt w && Access.scope w == 0))

/-- LD and LDX (R105). -/
def AccessRule.load : AccessRule := ⟨[0, 1, 2, 3, 4], [0, 1, 4], true, false, true, true, true⟩
/-- ST and STX (R105). -/
def AccessRule.store : AccessRule := ⟨[0, 1, 2, 3, 4], [0, 2, 4], true, false, true, true, true⟩
/-- The atomics of 32 and 64 bits (R105, R111). -/
def AccessRule.atomic : AccessRule := ⟨[2, 3], [0, 1, 2, 3, 4], true, true, false, true, true⟩
/-- ATOMFADD (R111). -/
def AccessRule.atomicF : AccessRule := ⟨[2], [0, 1, 2, 3, 4], true, true, false, true, true⟩
/-- FENCE (R105). -/
def AccessRule.fence : AccessRule := ⟨[0], [1, 2, 3, 4], false, false, false, false, true⟩
/-- SFENCE (R105). -/
def AccessRule.sfence : AccessRule := ⟨[0], [0], false, false, false, false, false⟩
/-- SEAL, UNSEAL and PREF (R105). -/
def AccessRule.seal : AccessRule := ⟨[0], [0], false, false, false, true, false⟩
/-- RCLAIM and RAWAIT (R105). -/
def AccessRule.ringAcq : AccessRule := ⟨[3], [0, 1], false, false, false, true, true⟩
/-- RCOMMIT and RRETIRE (R105). -/
def AccessRule.ringRel : AccessRule := ⟨[3], [0, 2], false, false, false, true, true⟩
/-- PUTQ (R105). -/
def AccessRule.putq : AccessRule := ⟨[0], [0, 2], false, false, false, true, true⟩

/-- A field that names the first register of a pair (R21). -/
def Field.pair (f : Field) : Bool := f.toNat % 2 == 0
/-- A field that names the first register of a quad or operand map (R21). -/
def Field.quad (f : Field) : Bool := f.toNat % 4 == 0
/-- A field below a bound. -/
def Field.below (f : Field) (n : Nat) : Bool := decide (f.toNat < n)

/-- The shape of a data register for a WIDTH: single, pair or quad (R105). -/
def Field.data (f : Field) (w : Word) : Bool :=
  if Access.width w = 4 then Field.quad f else if Access.width w = 3 then Field.pair f else true

/-- The base register of a global access is a pair; of a scratchpad access, single (R105). -/
def Field.base (f : Field) (w : Word) : Bool := Access.sp w || Field.pair f

/-- The literal of SBFE and VBFE (R63). -/
def bfeOk (lit : Word) : Bool :=
  let pos := bitsOf lit.toNat 4 0
  let len := bitsOf lit.toNat 10 5
  decide (1 ≤ len) && decide (len ≤ 32) && decide (pos + len ≤ 32) && bitsOf lit.toNat 31 12 == 0

/-- A format code whose results saturate (R94, R196). -/
def satCode (c : Nat) : Bool := c == 3 || c == 5 || (decide (6 ≤ c) && decide (c ≤ 12))

/-- A BFP format code (R188). -/
def bfpCode (c : Nat) : Bool := decide (6 ≤ c) && decide (c ≤ 12)

/-- The literal of CVT and CVTSR (R94). -/
def cvtOk (sr : Bool) (b : Field) (lit : Word) : Bool :=
  let dst := bitsOf lit.toNat 3 0
  let src := bitsOf lit.toNat 7 4
  let mode := bitsOf lit.toNat 9 8
  let sat := bitsOf lit.toNat 10 10
  decide (dst ≠ 15) && decide (src ≠ 15) && bitsOf lit.toNat 31 11 == 0
  && (sat == 0 || satCode dst) && (!sr || mode == 0) && (bfpCode dst || bfpCode src || b == 0)

/-- The literal of the packed forms (R99). -/
def packedOk (isMax : Bool) (lit : Word) : Bool :=
  bitsOf lit.toNat 31 3 == 0 && (!isMax || bitsOf lit.toNat 2 1 == 0)

/-- The op field of GRED and GSCAN (R102). -/
def gredOk (scan : Bool) (b : Field) : Bool :=
  decide (bitsOf b.toNat 3 0 ≤ 10) && bitsOf b.toNat 6 5 == 0 && (scan || bitsOf b.toNat 4 4 == 0)

/-- An SRD index whose register is 64 bits wide (R64). -/
def srdWide (b : Field) : Bool := b == 9 || b == 18

/-- Every field, literal and access-word check that raises 0x01 for each thread that reaches the word. -/
def Instr.wf : Instr → Bool
  | .slea _ d a _ => Field.pair d && Field.pair a
  | .sadd64 _ d a b => Field.pair d && Field.pair a && Field.pair b
  | .srd _ d b => Field.below b 20 && (!srdWide b || Field.pair d)
  | .sbfe _ _ _ lit => bfeOk lit
  | .cseta _ d => Field.below d 8
  | .csetp _ d a => Field.below d 8 && Field.below a 8
  | .barinit _ d _ _ => Field.below d 16
  | .bararr _ d => Field.below d 16
  | .barwait _ d => Field.below d 16
  | .bararrw _ d => Field.below d 16
  | .waitany _ _ _ b => Field.below b 2
  | .barrd _ d a => Field.quad d && Field.below a 16
  | .regrd _ d => Field.quad d
  | .relv _ a b => decide (a.toNat + b.toNat ≤ 128) && decide (b ≠ 0)
  | .vbfe _ _ _ lit => bfeOk lit
  | .vcmp _ d _ _ => decide (d.toNat / 8 ≤ 11)
  | .vcmps _ d _ _ => decide (d.toNat / 8 ≤ 11)
  | .pand _ d a b => Field.below d 8 && Field.below a 8 && Field.below b 8
  | .por _ d a b => Field.below d 8 && Field.below a 8 && Field.below b 8
  | .pxor _ d a b => Field.below d 8 && Field.below a 8 && Field.below b 8
  | .pnot _ d a => Field.below d 8 && Field.below a 8
  | .vadd64 _ d a b => Field.pair d && Field.pair a && Field.pair b
  | .vfcmp _ d _ _ => decide (d.toNat / 8 ≤ 7)
  | .cvt _ _ _ b lit => cvtOk false b lit
  | .cvtsr _ _ _ b lit => cvtOk true b lit
  | .srseed _ a => Field.pair a
  | .srrd _ d => Field.pair d
  | .vhadd _ _ _ _ lit => packedOk false lit
  | .vhmul _ _ _ _ lit => packedOk false lit
  | .vhfma _ _ _ _ lit => packedOk false lit
  | .vhmax _ _ _ _ lit => packedOk true lit
  | .gballot _ d a => decide (d.toNat % 8 = 0) && Field.below a 8
  | .gpref _ _ a => Field.below a 8
  | .gcnt _ _ a => Field.below a 8
  | .gred _ _ _ b => gredOk false b
  | .gmaxi _ d _ b => Field.pair d && Field.below b 5
  | .gscan _ _ _ b => gredOk true b
  | .ld _ d a acc => AccessRule.load.ok acc && Field.data d acc && Field.base a acc
  | .ldx _ d a _ acc => AccessRule.load.ok acc && Field.data d acc && Field.base a acc
  | .st _ d a acc => AccessRule.store.ok acc && Field.data d acc && Field.base a acc
  | .stx _ d a _ acc => AccessRule.store.ok acc && Field.data d acc && Field.base a acc
  | .atomadd _ d a b acc => atomOk AccessRule.atomic d a b acc
  | .atomfadd _ d a b acc => atomOk AccessRule.atomicF d a b acc
  | .atommin _ d a b acc => atomOk AccessRule.atomic d a b acc
  | .atommax _ d a b acc => atomOk AccessRule.atomic d a b acc
  | .atomminn _ d a b acc => atomOk AccessRule.atomic d a b acc
  | .atommaxn _ d a b acc => atomOk AccessRule.atomic d a b acc
  | .atomand _ d a b acc => atomOk AccessRule.atomic d a b acc
  | .atomor _ d a b acc => atomOk AccessRule.atomic d a b acc
  | .atomxor _ d a b acc => atomOk AccessRule.atomic d a b acc
  | .atomxchg _ d a b acc => atomOk AccessRule.atomic d a b acc
  | .atomcas _ d a b acc => AccessRule.atomic.ok acc && Field.data d acc && Field.base a acc
      && (if Access.width acc = 3 then Field.quad b else Field.pair b)
  | .fence _ acc => AccessRule.fence.ok acc
  | .sfence _ acc => AccessRule.sfence.ok acc
  | .seal _ a b acc => AccessRule.seal.ok acc && Field.pair a && Field.pair b
  | .unseal _ a b acc => AccessRule.seal.ok acc && Field.pair a && Field.pair b
  | .pref _ d a acc => AccessRule.seal.ok acc && Field.below d 2 && Field.pair a
  | .rclaim _ d a _ acc => AccessRule.ringAcq.ok acc && Field.pair d && Field.pair a
  | .rcommit _ d a _ acc => AccessRule.ringRel.ok acc && Field.pair d && Field.pair a
  | .rawait _ d a _ acc => AccessRule.ringAcq.ok acc && Field.pair d && Field.pair a
  | .rretire _ a _ acc => AccessRule.ringRel.ok acc && Field.pair a
  | .putq _ _ a _ acc => AccessRule.putq.ok acc && Field.pair a
  | .tmma _ _ _ _ a b => Field.quad a && Field.quad b
  | .tmmat _ _ _ _ a b => Field.quad a && Field.quad b
  | .accst _ _ _ a => Field.quad a
  | .accld _ _ _ _ a => Field.quad a
  | .accadd _ _ _ b => Field.below b 8
  | .cpy _ _ a b => jobOk 16 a b
  | .gath _ _ a b => jobOk 16 a b
  | .scat _ _ a b => jobOk 16 a b
  | .coll _ _ a b => jobOk 32 a b
  | .engrd _ d _ => Field.quad d
  | .lpad h _ _ => h.guard == 7
  | .spawn _ _ n vp sj hh _ => spawnOk n vp sj hh
  | .spawnb _ n vp sj hh _ => spawnOk n vp sj hh
  | .joinw _ a => Field.pair a
  | .cjoin _ d => Field.below d 8
  | .tlbinv _ a _ => Field.pair a
  | .cinv _ _ a _ => Field.pair a
  | .perfrd _ d b => Field.pair d && Field.below b 16
  | .stkrd _ d _ => Field.pair d
  | .cycrd _ d => Field.pair d
  | .eccrd _ d _ => Field.quad d
  | .smov _ _ _ => true
  | .smovl _ _ _ => true
  | .sadd _ _ _ _ => true
  | .saddl _ _ _ _ => true
  | .ssub _ _ _ _ => true
  | .smul _ _ _ _ => true
  | .smulhi _ _ _ _ => true
  | .smulhin _ _ _ _ => true
  | .sand _ _ _ _ => true
  | .sor _ _ _ _ => true
  | .sxor _ _ _ _ => true
  | .sshl _ _ _ _ => true
  | .sshr _ _ _ _ => true
  | .ssar _ _ _ _ => true
  | .smin _ _ _ _ => true
  | .smax _ _ _ _ => true
  | .sminn _ _ _ _ => true
  | .smaxn _ _ _ _ => true
  | .sceq _ _ _ _ => true
  | .scne _ _ _ _ => true
  | .sclt _ _ _ _ => true
  | .scle _ _ _ _ => true
  | .scltn _ _ _ _ => true
  | .sclen _ _ _ _ => true
  | .ssel _ _ _ _ => true
  | .sclz _ _ _ => true
  | .spop _ _ _ => true
  | .swr _ _ _ => true
  | .regrel _ _ => true
  | .regclm _ _ => true
  | .dbar _ => true
  | .vmov _ _ _ => true
  | .vmovl _ _ _ => true
  | .vmovs _ _ _ => true
  | .vadd _ _ _ _ => true
  | .vadds _ _ _ _ => true
  | .vaddl _ _ _ _ => true
  | .vsub _ _ _ _ => true
  | .vmul _ _ _ _ => true
  | .vmulhi _ _ _ _ => true
  | .vmulhin _ _ _ _ => true
  | .vmad _ _ _ _ => true
  | .vand _ _ _ _ => true
  | .vor _ _ _ _ => true
  | .vxor _ _ _ _ => true
  | .vshl _ _ _ _ => true
  | .vshr _ _ _ _ => true
  | .vsar _ _ _ _ => true
  | .vmin _ _ _ _ => true
  | .vmax _ _ _ _ => true
  | .vminn _ _ _ _ => true
  | .vmaxn _ _ _ _ => true
  | .vclz _ _ _ => true
  | .vpop _ _ _ => true
  | .vsel _ _ _ _ => true
  | .vfadd _ _ _ _ => true
  | .vfsub _ _ _ _ => true
  | .vfmul _ _ _ _ => true
  | .vfma _ _ _ _ => true
  | .vfmas _ _ _ _ => true
  | .vfmin _ _ _ _ => true
  | .vfmax _ _ _ _ => true
  | .vfrcp _ _ _ => true
  | .vfrsq _ _ _ => true
  | .vfsqrt _ _ _ => true
  | .vfexp2 _ _ _ => true
  | .vflog2 _ _ _ => true
  | .vfclass _ _ _ => true
  | .gshfl _ _ _ _ => true
  | .gbcast _ _ _ _ => true
  | .acczero _ _ => true
  | .accrel _ _ => true
  | .accscl _ _ _ => true
  | .accrd _ _ _ _ => true
  | .handover _ _ _ _ => true
  | .jobcan _ _ _ => true
  | .bra _ _ => true
  | .call _ _ _ => true
  | .ret _ _ => true
  | .jtab _ _ _ => true
  | .exit _ => true
  | .exitj _ => true
  | .yield _ => true
  | .trap _ _ => true
  | .bkpt _ _ => true
  | .nop _ => true
  | .trapret _ => true
  | .fltrd _ _ _ => true
  | .groupFormResult _ _ => true
  | .memoryReply _ => true
  | .homeRequest _ => true
  | .writeBack _ _ => true
  | .barrierWake _ _ => true
  | .waitanyWake _ _ => true
  | .dbarRelease _ _ => true
  | .regclmServe _ => true
  | .joinwWake _ _ => true
  | .ringSpaceGrant _ => true
  | .rawaitWake _ => true
  | .handleBindServe _ => true
  | .jobTableEntryGrant _ => true
  | .spawnbRetry _ _ => true
  | .tmmaChunkStep _ => true
  | .accumulatorFormComplete _ => true
  | .jobStart _ => true
  | .engineJobRequest _ => true
  | .jobComplete _ => true
  | .jobFaultRetry _ => true
  | .handoverDrain _ => true
  | .handoverFlip _ => true
  | .handoverComplete _ => true
  | .pageWalk _ => true
  | .tlbFill _ => true
  | .recordRouteArrival _ => true
  | .recordEntry _ => true
  | .binWindowExpiry _ => true
  | .spillRefill _ _ => true
  | .kindledGroupFormation _ => true
  | .groupPark _ => true
  | .parkedGroupResume _ => true
  | .groupSwap _ _ _ => true
  | .activeEntryFill _ _ _ => true
  | .recoveryModeEnd _ => true
  | .launchStart _ => true
  | .teamDispatch _ => true
  | .teamAdmit _ => true
  | .workSteal _ => true
  | .stepBoundary _ => true
  | .gridComplete _ => true
  | .fullTierPreempt _ => true
  | .preemptSaveComplete _ => true
  | .teamRestore _ => true
  | .trapEntry _ => true
  | .trapReserveGrant _ _ => true
  | .faultAreaRoom _ => true
  | .watchdogExpiry _ => true
  | .registerClaimDeadlock _ => true
  | .accumulatorDeadlock _ => true
  | .lostDie _ => true
  | .collectiveStart _ => true
  | .permuteRelease _ => true
  | .fabricHop _ => true
  | .flitReplay _ _ => true
  | .routeTableLoad _ _ => true
  | .recoveryProbe _ => true
  | .probeReturn _ _ => true
  | .errorNotice _ _ => true
  | .rdmaWrite _ => true
  | .launch => true
  | .preempt => true
  | .resume => true
  | .faultResume => true
  | .terminate => true
  | .terminateAll => true
  | .dieOutOfService => true
  | .dieInService => true
  | .dieWithdrawn _ => true
  | .tlbInvalidate => true
  | .domainConfiguration => true
  | .dieWindow => true
  | .registerWindowWrite _ _ _ => true
  | .packageReset _ => true
  | .flueTraining _ => true
  | .hostFirmwareVerify _ => true
  | .driverImageLoad _ => true
  | .coreSelfTest _ => true
  | .domainFormation => true
  | .failover => true
  | .attestationQuote _ => true
  | .powerLimit _ _ => true
  | .powerSequence _ => true
  | .illegalInstruction => true
  | .illegalClause => true
where
  /-- The registers of an atomic with one operand (R105, R111). -/
  atomOk (r : AccessRule) (d a b : Field) (acc : Word) : Bool :=
    r.ok acc && Field.data d acc && Field.base a acc && Field.data b acc
  /-- The descriptor and barrier fields of an engine job (R139). -/
  jobOk (n : Nat) (a b : Field) : Bool := decide (a.toNat % n = 0) && decide (b.toNat ≤ 16)
  /-- The payload and join fields of SPAWN and SPAWNB (R76). -/
  spawnOk (n : BitVec 3) (vp sj : Field) (hh : Bool) : Bool :=
    decide (n.toNat ≤ 4) && decide (vp.toNat + n.toNat + (if hh then 1 else 0) ≤ 128) && Field.pair sj

end Sys2Proof
end

