-- ==== Sys2Proof/Decode.lean ====
section
/-! DEFINITION. Decoding and encoding of instruction words (R13 to R25, R31, R36, R37, R76): the opcode map, the
length of each form, the decoder of a word with its literal under the class its clause names, the checks of a clause
header, and the encoder written from the same tables. -/

namespace Sys2Proof

/-! ## The clause header -/

namespace Header

/-- COUNT, bits [3:0] (R17). -/
def count (w : Word) : Nat := bitsOf w.toNat 3 0
/-- CLASS, bits [6:4] (R17). -/
def cls (w : Word) : Nat := bitsOf w.toNat 6 4
/-- The LASTREAD bit of word i, bit 8 + i (R17). -/
def lastRead (w : Word) (i : Nat) : Bool := w.getLsbD (8 + i)
/-- WAIT, bits [26:23] (R17). -/
def wait (w : Word) : Nat := bitsOf w.toNat 26 23
/-- TOKEN, bits [28:27] (R17). -/
def token (w : Word) : Nat := bitsOf w.toNat 28 27
/-- TOKV, bit 29 (R17). -/
def tokv (w : Word) : Bool := w.getLsbD 29

end Header

/-! ## The opcode map -/

/-- The number of words of the form at (CLASS, OP), or none where the map assigns no form (R36, R37). -/
def formLen (cls op : Nat) : Option Nat :=
  match cls with
  | 0 => if ([0x01, 0x03, 0x1F]).contains op then some 2
    else if ([0x00, 0x02, 0x04, 0x05, 0x06, 0x07, 0x08, 0x09, 0x0A, 0x0B, 0x0C, 0x0D, 0x0E, 0x0F, 0x10, 0x11, 0x12, 0x13, 0x14, 0x15, 0x16, 0x17, 0x18, 0x19, 0x1A, 0x1B, 0x1C, 0x1D, 0x1E, 0x20, 0x21, 0x22, 0x23, 0x24, 0x25, 0x26, 0x27, 0x28, 0x29, 0x2A, 0x2B, 0x2C]).contains op then some 1 else none
  | 1 => if ([0x01, 0x05, 0x17, 0x30, 0x31, 0x34, 0x35, 0x36, 0x37]).contains op then some 2
    else if ([0x00, 0x02, 0x03, 0x04, 0x06, 0x07, 0x08, 0x09, 0x0A, 0x0B, 0x0C, 0x0D, 0x0E, 0x0F, 0x10, 0x11, 0x12, 0x13, 0x14, 0x15, 0x16, 0x18, 0x19, 0x1A, 0x1B, 0x1C, 0x1D, 0x1E, 0x1F, 0x20, 0x21, 0x22, 0x23, 0x24, 0x25, 0x26, 0x27, 0x28, 0x29, 0x2A, 0x2B, 0x2C, 0x2D, 0x32, 0x33, 0x38, 0x39, 0x3A, 0x3B, 0x3C, 0x3D, 0x3E, 0x3F]).contains op then some 1 else none
  | 2 => if ([0x00, 0x01, 0x02, 0x03, 0x08, 0x09, 0x0A, 0x0B, 0x0C, 0x0D, 0x0E, 0x0F, 0x10, 0x11, 0x12, 0x13, 0x14, 0x15, 0x16, 0x17, 0x18, 0x19, 0x1A, 0x1B, 0x1C]).contains op then some 2 else none
  | 3 => if ([0x00, 0x01, 0x02, 0x03, 0x04, 0x05, 0x06, 0x07, 0x08, 0x10, 0x12, 0x13, 0x14, 0x15, 0x16, 0x17]).contains op then some 1 else none
  | 4 => if ([0x00, 0x01, 0x03, 0x05, 0x06]).contains op then some 2
    else if ([0x02, 0x04, 0x07, 0x08, 0x09, 0x0A, 0x0B, 0x0C, 0x0D, 0x0E]).contains op then some 1 else none
  | 5 => if ([0x00, 0x01, 0x02, 0x03, 0x05, 0x06, 0x07, 0x0A]).contains op then some 1 else none
  | _ => none

/-! ## The operand fields -/

/-- The 21 operand bits [26:6] of a word, seen through every format of R20, R31 and R76. -/
structure Ops21 where
  bits : BitVec 21
  deriving DecidableEq, Repr

namespace Ops21

/-- D [26:20]. -/
def d (f : Ops21) : Field := f.bits.extractLsb' 14 7
/-- A [19:13]. -/
def a (f : Ops21) : Field := f.bits.extractLsb' 7 7
/-- B [12:6]. -/
def b (f : Ops21) : Field := f.bits.extractLsb' 0 7
/-- h [26:24]. -/
def hr (f : Ops21) : BitVec 3 := f.bits.extractLsb' 18 3
/-- clear [23]. -/
def cl (f : Ops21) : Bool := f.bits.extractLsb' 17 1 == 1
/-- slot [22:20]. -/
def sl (f : Ops21) : BitVec 3 := f.bits.extractLsb' 14 3
/-- KIND [19:18] of LPAD. -/
def kind (f : Ops21) : BitVec 2 := f.bits.extractLsb' 12 2
/-- LABEL [17:6] of LPAD. -/
def label (f : Ops21) : BitVec 12 := f.bits.extractLsb' 0 12
/-- PS [26:24] of SPAWN. -/
def ps (f : Ops21) : BitVec 3 := f.bits.extractLsb' 18 3
/-- N [23:21] of SPAWN. -/
def n (f : Ops21) : BitVec 3 := f.bits.extractLsb' 15 3
/-- VP [20:14] of SPAWN. -/
def vp (f : Ops21) : Field := f.bits.extractLsb' 8 7
/-- SJ [13:7] of SPAWN. -/
def sj (f : Ops21) : Field := f.bits.extractLsb' 1 7
/-- H [6] of SPAWN. -/
def hh (f : Ops21) : Bool := f.bits.extractLsb' 0 1 == 1
/-- The code of TRAP and BKPT. -/
def code (f : Ops21) : BitVec 21 := f.bits

/-- The three-register format (R20). -/
def three (d a b : Field) : Ops21 := ⟨d ++ a ++ b⟩
/-- The matrix format (R20). -/
def matrix (hr : BitVec 3) (cl : Bool) (sl : BitVec 3) (a b : Field) : Ops21 :=
  ⟨hr ++ BitVec.ofBool cl ++ sl ++ a ++ b⟩
/-- The operand bits of LPAD (R31). -/
def pad (kind : BitVec 2) (label : BitVec 12) : Ops21 := ⟨(0 : BitVec 7) ++ kind ++ label⟩
/-- The operand bits of SPAWN and SPAWNB (R76). -/
def spawn (ps n : BitVec 3) (vp sj : Field) (hh : Bool) : Ops21 := ⟨ps ++ n ++ vp ++ sj ++ BitVec.ofBool hh⟩

end Ops21

/-- STALL and GUARD of a word (R19). -/
def hdOf (w : Word) : Hd := ⟨w.extractLsb' 30 2, w.extractLsb' 27 3⟩
/-- The operand bits of a word. -/
def opsOf (w : Word) : Ops21 := ⟨w.extractLsb' 6 21⟩
/-- OP of a word (R19). -/
def opOf (w : Word) : BitVec 6 := w.extractLsb' 0 6

/-- A word from its parts (R19). -/
def packWord (h : Hd) (f : Ops21) (op : BitVec 6) : Word := h.stall ++ h.guard ++ f.bits ++ op

/-! ## The decoder -/

/-- An instruction, where the condition on its unused fields holds (R21). -/
def unused (c : Bool) (i : Instr) : Option Instr := if c then some i else none

/-- Class 0, uniform (R62 to R73): the decoder by OP. -/
def decode0 (h : Hd) (f : Ops21) (lit : Word) (op : Nat) : Option Instr :=
  match op with
  | 0x00 => unused (f.b == 0) (.smov h f.d f.a)
  | 0x01 => unused (f.a == 0 && f.b == 0) (.smovl h f.d lit)
  | 0x02 => some (.sadd h f.d f.a f.b)
  | 0x03 => unused (f.b == 0) (.saddl h f.d f.a lit)
  | 0x04 => some (.ssub h f.d f.a f.b)
  | 0x05 => some (.smul h f.d f.a f.b)
  | 0x06 => some (.smulhi h f.d f.a f.b)
  | 0x07 => some (.smulhin h f.d f.a f.b)
  | 0x08 => some (.sand h f.d f.a f.b)
  | 0x09 => some (.sor h f.d f.a f.b)
  | 0x0A => some (.sxor h f.d f.a f.b)
  | 0x0B => some (.sshl h f.d f.a f.b)
  | 0x0C => some (.sshr h f.d f.a f.b)
  | 0x0D => some (.ssar h f.d f.a f.b)
  | 0x0E => some (.smin h f.d f.a f.b)
  | 0x0F => some (.smax h f.d f.a f.b)
  | 0x10 => some (.sminn h f.d f.a f.b)
  | 0x11 => some (.smaxn h f.d f.a f.b)
  | 0x12 => some (.sceq h f.d f.a f.b)
  | 0x13 => some (.scne h f.d f.a f.b)
  | 0x14 => some (.sclt h f.d f.a f.b)
  | 0x15 => some (.scle h f.d f.a f.b)
  | 0x16 => some (.scltn h f.d f.a f.b)
  | 0x17 => some (.sclen h f.d f.a f.b)
  | 0x18 => some (.ssel h f.d f.a f.b)
  | 0x19 => some (.slea h f.d f.a f.b)
  | 0x1A => some (.sadd64 h f.d f.a f.b)
  | 0x1B => unused (f.b == 0) (.sclz h f.d f.a)
  | 0x1C => unused (f.b == 0) (.spop h f.d f.a)
  | 0x1D => unused (f.a == 0) (.srd h f.d f.b)
  | 0x1E => unused (f.d == 0) (.swr h f.a f.b)
  | 0x1F => unused (f.b == 0) (.sbfe h f.d f.a lit)
  | 0x20 => unused (f.a == 0 && f.b == 0) (.cseta h f.d)
  | 0x21 => unused (f.b == 0) (.csetp h f.d f.a)
  | 0x22 => some (.barinit h f.d f.a f.b)
  | 0x23 => unused (f.a == 0 && f.b == 0) (.bararr h f.d)
  | 0x24 => unused (f.a == 0 && f.b == 0) (.barwait h f.d)
  | 0x25 => unused (f.a == 0 && f.b == 0) (.bararrw h f.d)
  | 0x26 => some (.waitany h f.d f.a f.b)
  | 0x27 => unused (f.b == 0) (.barrd h f.d f.a)
  | 0x28 => unused (f.d == 0 && f.a == 0) (.regrel h f.b)
  | 0x29 => unused (f.d == 0 && f.a == 0) (.regclm h f.b)
  | 0x2A => unused (f.a == 0 && f.b == 0) (.regrd h f.d)
  | 0x2B => unused (f.d == 0 && f.a == 0 && f.b == 0) (.dbar h)
  | 0x2C => unused (f.d == 0) (.relv h f.a f.b)
  | _ => none

/-- Class 1, vector (R84 to R104): the decoder by OP. -/
def decode1 (h : Hd) (f : Ops21) (lit : Word) (op : Nat) : Option Instr :=
  match op with
  | 0x00 => unused (f.b == 0) (.vmov h f.d f.a)
  | 0x01 => unused (f.a == 0 && f.b == 0) (.vmovl h f.d lit)
  | 0x02 => unused (f.b == 0) (.vmovs h f.d f.a)
  | 0x03 => some (.vadd h f.d f.a f.b)
  | 0x04 => some (.vadds h f.d f.a f.b)
  | 0x05 => unused (f.b == 0) (.vaddl h f.d f.a lit)
  | 0x06 => some (.vsub h f.d f.a f.b)
  | 0x07 => some (.vmul h f.d f.a f.b)
  | 0x08 => some (.vmulhi h f.d f.a f.b)
  | 0x09 => some (.vmulhin h f.d f.a f.b)
  | 0x0A => some (.vmad h f.d f.a f.b)
  | 0x0B => some (.vand h f.d f.a f.b)
  | 0x0C => some (.vor h f.d f.a f.b)
  | 0x0D => some (.vxor h f.d f.a f.b)
  | 0x0E => some (.vshl h f.d f.a f.b)
  | 0x0F => some (.vshr h f.d f.a f.b)
  | 0x10 => some (.vsar h f.d f.a f.b)
  | 0x11 => some (.vmin h f.d f.a f.b)
  | 0x12 => some (.vmax h f.d f.a f.b)
  | 0x13 => some (.vminn h f.d f.a f.b)
  | 0x14 => some (.vmaxn h f.d f.a f.b)
  | 0x15 => unused (f.b == 0) (.vclz h f.d f.a)
  | 0x16 => unused (f.b == 0) (.vpop h f.d f.a)
  | 0x17 => unused (f.b == 0) (.vbfe h f.d f.a lit)
  | 0x18 => some (.vcmp h f.d f.a f.b)
  | 0x19 => some (.vcmps h f.d f.a f.b)
  | 0x1A => some (.vsel h f.d f.a f.b)
  | 0x1B => some (.pand h f.d f.a f.b)
  | 0x1C => some (.por h f.d f.a f.b)
  | 0x1D => some (.pxor h f.d f.a f.b)
  | 0x1E => unused (f.b == 0) (.pnot h f.d f.a)
  | 0x1F => some (.vadd64 h f.d f.a f.b)
  | 0x20 => some (.vfadd h f.d f.a f.b)
  | 0x21 => some (.vfsub h f.d f.a f.b)
  | 0x22 => some (.vfmul h f.d f.a f.b)
  | 0x23 => some (.vfma h f.d f.a f.b)
  | 0x24 => some (.vfmas h f.d f.a f.b)
  | 0x25 => some (.vfmin h f.d f.a f.b)
  | 0x26 => some (.vfmax h f.d f.a f.b)
  | 0x27 => some (.vfcmp h f.d f.a f.b)
  | 0x28 => unused (f.b == 0) (.vfrcp h f.d f.a)
  | 0x29 => unused (f.b == 0) (.vfrsq h f.d f.a)
  | 0x2A => unused (f.b == 0) (.vfsqrt h f.d f.a)
  | 0x2B => unused (f.b == 0) (.vfexp2 h f.d f.a)
  | 0x2C => unused (f.b == 0) (.vflog2 h f.d f.a)
  | 0x2D => unused (f.b == 0) (.vfclass h f.d f.a)
  | 0x30 => some (.cvt h f.d f.a f.b lit)
  | 0x31 => some (.cvtsr h f.d f.a f.b lit)
  | 0x32 => unused (f.d == 0 && f.b == 0) (.srseed h f.a)
  | 0x33 => unused (f.a == 0 && f.b == 0) (.srrd h f.d)
  | 0x34 => some (.vhadd h f.d f.a f.b lit)
  | 0x35 => some (.vhmul h f.d f.a f.b lit)
  | 0x36 => some (.vhfma h f.d f.a f.b lit)
  | 0x37 => some (.vhmax h f.d f.a f.b lit)
  | 0x38 => some (.gshfl h f.d f.a f.b)
  | 0x39 => unused (f.b == 0) (.gballot h f.d f.a)
  | 0x3A => unused (f.b == 0) (.gpref h f.d f.a)
  | 0x3B => unused (f.b == 0) (.gcnt h f.d f.a)
  | 0x3C => some (.gred h f.d f.a f.b)
  | 0x3D => some (.gmaxi h f.d f.a f.b)
  | 0x3E => some (.gscan h f.d f.a f.b)
  | 0x3F => some (.gbcast h f.d f.a f.b)
  | _ => none

/-- Class 2, memory; the literal is the access word (R105): the decoder by OP. -/
def decode2 (h : Hd) (f : Ops21) (lit : Word) (op : Nat) : Option Instr :=
  match op with
  | 0x00 => unused (f.b == 0) (.ld h f.d f.a lit)
  | 0x01 => some (.ldx h f.d f.a f.b lit)
  | 0x02 => unused (f.b == 0) (.st h f.d f.a lit)
  | 0x03 => some (.stx h f.d f.a f.b lit)
  | 0x08 => some (.atomadd h f.d f.a f.b lit)
  | 0x09 => some (.atomfadd h f.d f.a f.b lit)
  | 0x0A => some (.atommin h f.d f.a f.b lit)
  | 0x0B => some (.atommax h f.d f.a f.b lit)
  | 0x0C => some (.atomminn h f.d f.a f.b lit)
  | 0x0D => some (.atommaxn h f.d f.a f.b lit)
  | 0x0E => some (.atomand h f.d f.a f.b lit)
  | 0x0F => some (.atomor h f.d f.a f.b lit)
  | 0x10 => some (.atomxor h f.d f.a f.b lit)
  | 0x11 => some (.atomxchg h f.d f.a f.b lit)
  | 0x12 => some (.atomcas h f.d f.a f.b lit)
  | 0x13 => unused (f.d == 0 && f.a == 0 && f.b == 0) (.fence h lit)
  | 0x14 => unused (f.d == 0 && f.a == 0 && f.b == 0) (.sfence h lit)
  | 0x15 => unused (f.d == 0) (.seal h f.a f.b lit)
  | 0x16 => unused (f.d == 0) (.unseal h f.a f.b lit)
  | 0x17 => unused (f.b == 0) (.pref h f.d f.a lit)
  | 0x18 => some (.rclaim h f.d f.a f.b lit)
  | 0x19 => some (.rcommit h f.d f.a f.b lit)
  | 0x1A => some (.rawait h f.d f.a f.b lit)
  | 0x1B => unused (f.d == 0) (.rretire h f.a f.b lit)
  | 0x1C => some (.putq h f.d f.a f.b lit)
  | _ => none

/-- Class 3, matrix and engines (R131 to R149): the decoder by OP. -/
def decode3 (h : Hd) (f : Ops21)  (op : Nat) : Option Instr :=
  match op with
  | 0x00 => some (.tmma h f.hr f.cl f.sl f.a f.b)
  | 0x01 => some (.tmmat h f.hr f.cl f.sl f.a f.b)
  | 0x02 => unused (!f.cl && f.sl == 0 && f.a == 0 && f.b == 0) (.acczero h f.hr)
  | 0x03 => unused (!f.cl && f.b == 0) (.accst h f.hr f.sl f.a)
  | 0x04 => unused (f.b == 0) (.accld h f.hr f.cl f.sl f.a)
  | 0x05 => unused (!f.cl && f.sl == 0 && f.a == 0 && f.b == 0) (.accrel h f.hr)
  | 0x06 => unused (!f.cl && f.sl == 0 && f.b == 0) (.accscl h f.hr f.a)
  | 0x07 => unused (f.sl == 0 && f.a == 0) (.accadd h f.hr f.cl f.b)
  | 0x08 => unused (!f.cl && f.sl == 0) (.accrd h f.hr f.a f.b)
  | 0x10 => some (.cpy h f.d f.a f.b)
  | 0x12 => some (.gath h f.d f.a f.b)
  | 0x13 => some (.scat h f.d f.a f.b)
  | 0x14 => some (.coll h f.d f.a f.b)
  | 0x15 => some (.handover h f.d f.a f.b)
  | 0x16 => unused (f.b == 0) (.engrd h f.d f.a)
  | 0x17 => unused (f.b == 0) (.jobcan h f.d f.a)
  | _ => none

/-- Class 4, control (R74, R76): the decoder by OP. -/
def decode4 (h : Hd) (f : Ops21) (lit : Word) (op : Nat) : Option Instr :=
  match op with
  | 0x00 => unused (f.d == 0 && f.a == 0 && f.b == 0) (.bra h lit)
  | 0x01 => unused (f.a == 0 && f.b == 0) (.call h f.d lit)
  | 0x02 => unused (f.d == 0 && f.b == 0) (.ret h f.a)
  | 0x03 => unused (f.d == 0 && f.b == 0) (.jtab h f.a lit)
  | 0x04 => unused (f.d == 0) (.lpad h f.kind f.label)
  | 0x05 => some (.spawn h f.ps f.n f.vp f.sj f.hh lit)
  | 0x06 => unused (f.ps == 0) (.spawnb h f.n f.vp f.sj f.hh lit)
  | 0x07 => unused (f.d == 0 && f.a == 0 && f.b == 0) (.exit h)
  | 0x08 => unused (f.d == 0 && f.a == 0 && f.b == 0) (.exitj h)
  | 0x09 => unused (f.d == 0 && f.b == 0) (.joinw h f.a)
  | 0x0A => unused (f.a == 0 && f.b == 0) (.cjoin h f.d)
  | 0x0B => unused (f.d == 0 && f.a == 0 && f.b == 0) (.yield h)
  | 0x0C => some (.trap h f.code)
  | 0x0D => some (.bkpt h f.code)
  | 0x0E => unused (f.d == 0 && f.a == 0 && f.b == 0) (.nop h)
  | _ => none

/-- Class 5, system (R152): the decoder by OP. -/
def decode5 (h : Hd) (f : Ops21)  (op : Nat) : Option Instr :=
  match op with
  | 0x00 => unused (f.d == 0 && f.a == 0 && f.b == 0) (.trapret h)
  | 0x01 => unused (f.b == 0) (.fltrd h f.d f.a)
  | 0x02 => unused (f.d == 0) (.tlbinv h f.a f.b)
  | 0x03 => some (.cinv h f.d f.a f.b)
  | 0x05 => unused (f.a == 0) (.perfrd h f.d f.b)
  | 0x06 => unused (f.b == 0) (.stkrd h f.d f.a)
  | 0x07 => unused (f.a == 0 && f.b == 0) (.cycrd h f.d)
  | 0x0A => unused (f.b == 0) (.eccrd h f.d f.a)
  | _ => none

/-- The instruction of a word and the literal that follows it, in a clause of a class: none where the map assigns no
form or an unused field is not zero (R21, R23). -/
def decodeWord (cls : Nat) (w lit : Word) : Option Instr :=
  match cls with
  | 0 => decode0 (hdOf w) (opsOf w) lit (opOf w).toNat
  | 1 => decode1 (hdOf w) (opsOf w) lit (opOf w).toNat
  | 2 => decode2 (hdOf w) (opsOf w) lit (opOf w).toNat
  | 3 => decode3 (hdOf w) (opsOf w) (opOf w).toNat
  | 4 => decode4 (hdOf w) (opsOf w) lit (opOf w).toNat
  | 5 => decode5 (hdOf w) (opsOf w) (opOf w).toNat
  | _ => none

/-- The instruction of a word, refused where it is not well formed (R21, R25). -/
def decodeLegal (cls : Nat) (w lit : Word) : Option Instr :=
  match decodeWord cls w lit with
  | some i => if i.wf then some i else none
  | none => none

/-! ## The checks of a header (R18) -/

/-- The length walk: true when it stops at an unassigned OP or ends exactly at word COUNT - 1, and no CALL stands
before the last instruction.  `ws` are the words still to walk. -/
def walkOk (cls : Nat) : Nat → List Word → Bool
  | _, [] => true
  | 0, _ => true
  | fuel + 1, w :: rest =>
    match formLen cls (opOf w).toNat with
    | none => true
    | some n =>
      if rest.length + 1 < n then false
      else if cls = 4 && (opOf w).toNat = 1 && rest.length + 1 ≠ n then false
      else walkOk cls fuel (rest.drop (n - 1))

/-- The length walk meets a convergent class 1 form before it stops. -/
def walkConv (cls : Nat) : Nat → List Word → Bool
  | _, [] => false
  | 0, _ => false
  | fuel + 1, w :: rest =>
    match formLen cls (opOf w).toNat with
    | none => false
    | some n => (cls = 1 && decide (0x38 ≤ (opOf w).toNat)) || walkConv cls fuel (rest.drop (n - 1))

/-- The index i of the clause's words names an instruction word, not a literal (R15); an index beyond an unassigned OP, which
ends the walk, names none, so the entry raises 0x02 (DESIGN CHOICE, log 88). -/
def walkIndex (cls : Nat) : Nat → List Word → Nat → Bool
  | _, _, 0 => true
  | _, [], _ + 1 => false
  | 0, _, _ => false
  | fuel + 1, w :: rest, i + 1 =>
    match formLen cls (opOf w).toNat with
    | none => false
    | some n => if i + 1 < n then false else walkIndex cls fuel (rest.drop (n - 1)) (i + 1 - n)

/-- A header and the words after it pass R18. -/
def headerOk (hdr : Word) (ws : List Word) : Bool :=
  let n := Header.count hdr
  let c := Header.cls hdr
  decide (n ≠ 0) && decide (c ≤ 5) && !hdr.getLsbD 7 && !hdr.getLsbD 30 && !hdr.getLsbD 31
  && bitsOf hdr.toNat 22 (8 + n) == 0
  && (Header.tokv hdr || Header.token hdr == 0)
  && !(Header.tokv hdr && (c == 0 || c == 4 || c == 5))
  && (Header.tokv hdr || !(c == 2 || c == 3))
  && (Header.tokv hdr || !(walkConv c 15 (ws.take n)))
  && walkOk c 15 (ws.take n)

/-! ## The encoder -/

/-- The class and the words of an instruction; none for a step of the device, which has no encoding. -/
def encode : Instr → Option (Nat × List Word)
  | .smov h d a => some (0, [packWord h (.three d a 0) 0x00])
  | .smovl h d lit => some (0, [packWord h (.three d 0 0) 0x01, lit])
  | .sadd h d a b => some (0, [packWord h (.three d a b) 0x02])
  | .saddl h d a lit => some (0, [packWord h (.three d a 0) 0x03, lit])
  | .ssub h d a b => some (0, [packWord h (.three d a b) 0x04])
  | .smul h d a b => some (0, [packWord h (.three d a b) 0x05])
  | .smulhi h d a b => some (0, [packWord h (.three d a b) 0x06])
  | .smulhin h d a b => some (0, [packWord h (.three d a b) 0x07])
  | .sand h d a b => some (0, [packWord h (.three d a b) 0x08])
  | .sor h d a b => some (0, [packWord h (.three d a b) 0x09])
  | .sxor h d a b => some (0, [packWord h (.three d a b) 0x0A])
  | .sshl h d a b => some (0, [packWord h (.three d a b) 0x0B])
  | .sshr h d a b => some (0, [packWord h (.three d a b) 0x0C])
  | .ssar h d a b => some (0, [packWord h (.three d a b) 0x0D])
  | .smin h d a b => some (0, [packWord h (.three d a b) 0x0E])
  | .smax h d a b => some (0, [packWord h (.three d a b) 0x0F])
  | .sminn h d a b => some (0, [packWord h (.three d a b) 0x10])
  | .smaxn h d a b => some (0, [packWord h (.three d a b) 0x11])
  | .sceq h d a b => some (0, [packWord h (.three d a b) 0x12])
  | .scne h d a b => some (0, [packWord h (.three d a b) 0x13])
  | .sclt h d a b => some (0, [packWord h (.three d a b) 0x14])
  | .scle h d a b => some (0, [packWord h (.three d a b) 0x15])
  | .scltn h d a b => some (0, [packWord h (.three d a b) 0x16])
  | .sclen h d a b => some (0, [packWord h (.three d a b) 0x17])
  | .ssel h d a b => some (0, [packWord h (.three d a b) 0x18])
  | .slea h d a b => some (0, [packWord h (.three d a b) 0x19])
  | .sadd64 h d a b => some (0, [packWord h (.three d a b) 0x1A])
  | .sclz h d a => some (0, [packWord h (.three d a 0) 0x1B])
  | .spop h d a => some (0, [packWord h (.three d a 0) 0x1C])
  | .srd h d b => some (0, [packWord h (.three d 0 b) 0x1D])
  | .swr h a b => some (0, [packWord h (.three 0 a b) 0x1E])
  | .sbfe h d a lit => some (0, [packWord h (.three d a 0) 0x1F, lit])
  | .cseta h d => some (0, [packWord h (.three d 0 0) 0x20])
  | .csetp h d a => some (0, [packWord h (.three d a 0) 0x21])
  | .barinit h d a b => some (0, [packWord h (.three d a b) 0x22])
  | .bararr h d => some (0, [packWord h (.three d 0 0) 0x23])
  | .barwait h d => some (0, [packWord h (.three d 0 0) 0x24])
  | .bararrw h d => some (0, [packWord h (.three d 0 0) 0x25])
  | .waitany h d a b => some (0, [packWord h (.three d a b) 0x26])
  | .barrd h d a => some (0, [packWord h (.three d a 0) 0x27])
  | .regrel h b => some (0, [packWord h (.three 0 0 b) 0x28])
  | .regclm h b => some (0, [packWord h (.three 0 0 b) 0x29])
  | .regrd h d => some (0, [packWord h (.three d 0 0) 0x2A])
  | .dbar h => some (0, [packWord h (.three 0 0 0) 0x2B])
  | .relv h a b => some (0, [packWord h (.three 0 a b) 0x2C])
  | .vmov h d a => some (1, [packWord h (.three d a 0) 0x00])
  | .vmovl h d lit => some (1, [packWord h (.three d 0 0) 0x01, lit])
  | .vmovs h d a => some (1, [packWord h (.three d a 0) 0x02])
  | .vadd h d a b => some (1, [packWord h (.three d a b) 0x03])
  | .vadds h d a b => some (1, [packWord h (.three d a b) 0x04])
  | .vaddl h d a lit => some (1, [packWord h (.three d a 0) 0x05, lit])
  | .vsub h d a b => some (1, [packWord h (.three d a b) 0x06])
  | .vmul h d a b => some (1, [packWord h (.three d a b) 0x07])
  | .vmulhi h d a b => some (1, [packWord h (.three d a b) 0x08])
  | .vmulhin h d a b => some (1, [packWord h (.three d a b) 0x09])
  | .vmad h d a b => some (1, [packWord h (.three d a b) 0x0A])
  | .vand h d a b => some (1, [packWord h (.three d a b) 0x0B])
  | .vor h d a b => some (1, [packWord h (.three d a b) 0x0C])
  | .vxor h d a b => some (1, [packWord h (.three d a b) 0x0D])
  | .vshl h d a b => some (1, [packWord h (.three d a b) 0x0E])
  | .vshr h d a b => some (1, [packWord h (.three d a b) 0x0F])
  | .vsar h d a b => some (1, [packWord h (.three d a b) 0x10])
  | .vmin h d a b => some (1, [packWord h (.three d a b) 0x11])
  | .vmax h d a b => some (1, [packWord h (.three d a b) 0x12])
  | .vminn h d a b => some (1, [packWord h (.three d a b) 0x13])
  | .vmaxn h d a b => some (1, [packWord h (.three d a b) 0x14])
  | .vclz h d a => some (1, [packWord h (.three d a 0) 0x15])
  | .vpop h d a => some (1, [packWord h (.three d a 0) 0x16])
  | .vbfe h d a lit => some (1, [packWord h (.three d a 0) 0x17, lit])
  | .vcmp h d a b => some (1, [packWord h (.three d a b) 0x18])
  | .vcmps h d a b => some (1, [packWord h (.three d a b) 0x19])
  | .vsel h d a b => some (1, [packWord h (.three d a b) 0x1A])
  | .pand h d a b => some (1, [packWord h (.three d a b) 0x1B])
  | .por h d a b => some (1, [packWord h (.three d a b) 0x1C])
  | .pxor h d a b => some (1, [packWord h (.three d a b) 0x1D])
  | .pnot h d a => some (1, [packWord h (.three d a 0) 0x1E])
  | .vadd64 h d a b => some (1, [packWord h (.three d a b) 0x1F])
  | .vfadd h d a b => some (1, [packWord h (.three d a b) 0x20])
  | .vfsub h d a b => some (1, [packWord h (.three d a b) 0x21])
  | .vfmul h d a b => some (1, [packWord h (.three d a b) 0x22])
  | .vfma h d a b => some (1, [packWord h (.three d a b) 0x23])
  | .vfmas h d a b => some (1, [packWord h (.three d a b) 0x24])
  | .vfmin h d a b => some (1, [packWord h (.three d a b) 0x25])
  | .vfmax h d a b => some (1, [packWord h (.three d a b) 0x26])
  | .vfcmp h d a b => some (1, [packWord h (.three d a b) 0x27])
  | .vfrcp h d a => some (1, [packWord h (.three d a 0) 0x28])
  | .vfrsq h d a => some (1, [packWord h (.three d a 0) 0x29])
  | .vfsqrt h d a => some (1, [packWord h (.three d a 0) 0x2A])
  | .vfexp2 h d a => some (1, [packWord h (.three d a 0) 0x2B])
  | .vflog2 h d a => some (1, [packWord h (.three d a 0) 0x2C])
  | .vfclass h d a => some (1, [packWord h (.three d a 0) 0x2D])
  | .cvt h d a b lit => some (1, [packWord h (.three d a b) 0x30, lit])
  | .cvtsr h d a b lit => some (1, [packWord h (.three d a b) 0x31, lit])
  | .srseed h a => some (1, [packWord h (.three 0 a 0) 0x32])
  | .srrd h d => some (1, [packWord h (.three d 0 0) 0x33])
  | .vhadd h d a b lit => some (1, [packWord h (.three d a b) 0x34, lit])
  | .vhmul h d a b lit => some (1, [packWord h (.three d a b) 0x35, lit])
  | .vhfma h d a b lit => some (1, [packWord h (.three d a b) 0x36, lit])
  | .vhmax h d a b lit => some (1, [packWord h (.three d a b) 0x37, lit])
  | .gshfl h d a b => some (1, [packWord h (.three d a b) 0x38])
  | .gballot h d a => some (1, [packWord h (.three d a 0) 0x39])
  | .gpref h d a => some (1, [packWord h (.three d a 0) 0x3A])
  | .gcnt h d a => some (1, [packWord h (.three d a 0) 0x3B])
  | .gred h d a b => some (1, [packWord h (.three d a b) 0x3C])
  | .gmaxi h d a b => some (1, [packWord h (.three d a b) 0x3D])
  | .gscan h d a b => some (1, [packWord h (.three d a b) 0x3E])
  | .gbcast h d a b => some (1, [packWord h (.three d a b) 0x3F])
  | .ld h d a acc => some (2, [packWord h (.three d a 0) 0x00, acc])
  | .ldx h d a b acc => some (2, [packWord h (.three d a b) 0x01, acc])
  | .st h d a acc => some (2, [packWord h (.three d a 0) 0x02, acc])
  | .stx h d a b acc => some (2, [packWord h (.three d a b) 0x03, acc])
  | .atomadd h d a b acc => some (2, [packWord h (.three d a b) 0x08, acc])
  | .atomfadd h d a b acc => some (2, [packWord h (.three d a b) 0x09, acc])
  | .atommin h d a b acc => some (2, [packWord h (.three d a b) 0x0A, acc])
  | .atommax h d a b acc => some (2, [packWord h (.three d a b) 0x0B, acc])
  | .atomminn h d a b acc => some (2, [packWord h (.three d a b) 0x0C, acc])
  | .atommaxn h d a b acc => some (2, [packWord h (.three d a b) 0x0D, acc])
  | .atomand h d a b acc => some (2, [packWord h (.three d a b) 0x0E, acc])
  | .atomor h d a b acc => some (2, [packWord h (.three d a b) 0x0F, acc])
  | .atomxor h d a b acc => some (2, [packWord h (.three d a b) 0x10, acc])
  | .atomxchg h d a b acc => some (2, [packWord h (.three d a b) 0x11, acc])
  | .atomcas h d a b acc => some (2, [packWord h (.three d a b) 0x12, acc])
  | .fence h acc => some (2, [packWord h (.three 0 0 0) 0x13, acc])
  | .sfence h acc => some (2, [packWord h (.three 0 0 0) 0x14, acc])
  | .seal h a b acc => some (2, [packWord h (.three 0 a b) 0x15, acc])
  | .unseal h a b acc => some (2, [packWord h (.three 0 a b) 0x16, acc])
  | .pref h d a acc => some (2, [packWord h (.three d a 0) 0x17, acc])
  | .rclaim h d a b acc => some (2, [packWord h (.three d a b) 0x18, acc])
  | .rcommit h d a b acc => some (2, [packWord h (.three d a b) 0x19, acc])
  | .rawait h d a b acc => some (2, [packWord h (.three d a b) 0x1A, acc])
  | .rretire h a b acc => some (2, [packWord h (.three 0 a b) 0x1B, acc])
  | .putq h d a b acc => some (2, [packWord h (.three d a b) 0x1C, acc])
  | .tmma h hr cl sl a b => some (3, [packWord h (.matrix hr cl sl a b) 0x00])
  | .tmmat h hr cl sl a b => some (3, [packWord h (.matrix hr cl sl a b) 0x01])
  | .acczero h hr => some (3, [packWord h (.matrix hr false 0 0 0) 0x02])
  | .accst h hr sl a => some (3, [packWord h (.matrix hr false sl a 0) 0x03])
  | .accld h hr cl sl a => some (3, [packWord h (.matrix hr cl sl a 0) 0x04])
  | .accrel h hr => some (3, [packWord h (.matrix hr false 0 0 0) 0x05])
  | .accscl h hr a => some (3, [packWord h (.matrix hr false 0 a 0) 0x06])
  | .accadd h hr cl b => some (3, [packWord h (.matrix hr cl 0 0 b) 0x07])
  | .accrd h hr a b => some (3, [packWord h (.matrix hr false 0 a b) 0x08])
  | .cpy h d a b => some (3, [packWord h (.three d a b) 0x10])
  | .gath h d a b => some (3, [packWord h (.three d a b) 0x12])
  | .scat h d a b => some (3, [packWord h (.three d a b) 0x13])
  | .coll h d a b => some (3, [packWord h (.three d a b) 0x14])
  | .handover h d a b => some (3, [packWord h (.three d a b) 0x15])
  | .engrd h d a => some (3, [packWord h (.three d a 0) 0x16])
  | .jobcan h d a => some (3, [packWord h (.three d a 0) 0x17])
  | .bra h lit => some (4, [packWord h (.three 0 0 0) 0x00, lit])
  | .call h d lit => some (4, [packWord h (.three d 0 0) 0x01, lit])
  | .ret h a => some (4, [packWord h (.three 0 a 0) 0x02])
  | .jtab h a lit => some (4, [packWord h (.three 0 a 0) 0x03, lit])
  | .lpad h kind label => some (4, [packWord h (.pad kind label) 0x04])
  | .spawn h ps n vp sj hh lit => some (4, [packWord h (.spawn ps n vp sj hh) 0x05, lit])
  | .spawnb h n vp sj hh lit => some (4, [packWord h (.spawn 0 n vp sj hh) 0x06, lit])
  | .exit h => some (4, [packWord h (.three 0 0 0) 0x07])
  | .exitj h => some (4, [packWord h (.three 0 0 0) 0x08])
  | .joinw h a => some (4, [packWord h (.three 0 a 0) 0x09])
  | .cjoin h d => some (4, [packWord h (.three d 0 0) 0x0A])
  | .yield h => some (4, [packWord h (.three 0 0 0) 0x0B])
  | .trap h code => some (4, [packWord h ⟨code⟩ 0x0C])
  | .bkpt h code => some (4, [packWord h ⟨code⟩ 0x0D])
  | .nop h => some (4, [packWord h (.three 0 0 0) 0x0E])
  | .trapret h => some (5, [packWord h (.three 0 0 0) 0x00])
  | .fltrd h d a => some (5, [packWord h (.three d a 0) 0x01])
  | .tlbinv h a b => some (5, [packWord h (.three 0 a b) 0x02])
  | .cinv h d a b => some (5, [packWord h (.three d a b) 0x03])
  | .perfrd h d b => some (5, [packWord h (.three d 0 b) 0x05])
  | .stkrd h d a => some (5, [packWord h (.three d a 0) 0x06])
  | .cycrd h d => some (5, [packWord h (.three d 0 0) 0x07])
  | .eccrd h d a => some (5, [packWord h (.three d a 0) 0x0A])
  | .groupFormResult _ _ => none
  | .memoryReply _ => none
  | .homeRequest _ => none
  | .writeBack _ _ => none
  | .barrierWake _ _ => none
  | .waitanyWake _ _ => none
  | .dbarRelease _ _ => none
  | .regclmServe _ => none
  | .joinwWake _ _ => none
  | .ringSpaceGrant _ => none
  | .rawaitWake _ => none
  | .handleBindServe _ => none
  | .jobTableEntryGrant _ => none
  | .spawnbRetry _ _ => none
  | .tmmaChunkStep _ => none
  | .accumulatorFormComplete _ => none
  | .jobStart _ => none
  | .engineJobRequest _ => none
  | .jobComplete _ => none
  | .jobFaultRetry _ => none
  | .handoverDrain _ => none
  | .handoverFlip _ => none
  | .handoverComplete _ => none
  | .pageWalk _ => none
  | .tlbFill _ => none
  | .recordRouteArrival _ => none
  | .recordEntry _ => none
  | .binWindowExpiry _ => none
  | .spillRefill _ _ => none
  | .kindledGroupFormation _ => none
  | .groupPark _ => none
  | .parkedGroupResume _ => none
  | .groupSwap _ _ _ => none
  | .activeEntryFill _ _ _ => none
  | .recoveryModeEnd _ => none
  | .launchStart _ => none
  | .teamDispatch _ => none
  | .teamAdmit _ => none
  | .workSteal _ => none
  | .stepBoundary _ => none
  | .gridComplete _ => none
  | .fullTierPreempt _ => none
  | .preemptSaveComplete _ => none
  | .teamRestore _ => none
  | .trapEntry _ => none
  | .trapReserveGrant _ _ => none
  | .faultAreaRoom _ => none
  | .watchdogExpiry _ => none
  | .registerClaimDeadlock _ => none
  | .accumulatorDeadlock _ => none
  | .lostDie _ => none
  | .collectiveStart _ => none
  | .permuteRelease _ => none
  | .fabricHop _ => none
  | .flitReplay _ _ => none
  | .routeTableLoad _ _ => none
  | .recoveryProbe _ => none
  | .probeReturn _ _ => none
  | .errorNotice _ _ => none
  | .rdmaWrite _ => none
  | .launch => none
  | .preempt => none
  | .resume => none
  | .faultResume => none
  | .terminate => none
  | .terminateAll => none
  | .dieOutOfService => none
  | .dieInService => none
  | .dieWithdrawn _ => none
  | .tlbInvalidate => none
  | .domainConfiguration => none
  | .dieWindow => none
  | .registerWindowWrite _ _ _ => none
  | .packageReset _ => none
  | .flueTraining _ => none
  | .hostFirmwareVerify _ => none
  | .driverImageLoad _ => none
  | .coreSelfTest _ => none
  | .domainFormation => none
  | .failover => none
  | .attestationQuote _ => none
  | .powerLimit _ _ => none
  | .powerSequence _ => none
  | .illegalInstruction => none
  | .illegalClause => none

/-! ## The table's words -/

/-- The first class from c upward in which a word of the table, given its length in words, decodes to a well-formed
instruction.  The table's match and mask leave the class out, which stands in the clause header (R19, R36). -/
def firstClass (nwords : Nat) (w lit : Word) : Nat → Nat → Option (Nat × Instr)
  | 0, _ => none
  | fuel + 1, c =>
    if formLen c (opOf w).toNat = some nwords then
      match decodeLegal c w lit with
      | some i => some (c, i)
      | none => firstClass nwords w lit fuel (c + 1)
    else firstClass nwords w lit fuel (c + 1)

/-- The class and the instruction of a table word of nbits bits (DESIGN CHOICE, log 8): the lowest class whose form at
that OP has this length and accepts the word; where there is none, the lowest whose form has a literal after it. -/
def tableWord (nbits w : Nat) : Option (Nat × Instr) :=
  match firstClass (nbits / 32) (BitVec.ofNat 32 w) (BitVec.ofNat 32 (w / 2 ^ 32)) 6 0 with
  | some r => some r
  | none => firstClass 2 (BitVec.ofNat 32 w) (BitVec.ofNat 32 (w / 2 ^ 32)) 6 0

/-- The instruction that the decoder reads from a table word. -/
def decodeTableWord (nbits w : Nat) : Option Instr := (tableWord nbits w).map (·.2)

end Sys2Proof
end

