-- ==== Sys2Proof/Machine/State.lean ====
section
/-! DEFINITION. The state of the machine as plain data: everything the spec gives the Keaheyth domain, from the lanes
of a thread to the boot of a package, and the machine right after reset.  INVENTORY.md lists each piece with its rule.
Compute die x is 4 times its package plus its number; core k is 96 times its die plus its number. -/

namespace Sys2Proof.Machine

/-! ## Stops -/

/-- Why the machine itself stops.  A fault of a program is a next state, never one of these. -/
inductive Fault where
  /-- Raised by an access of the device outside the physical memory that R245 names; safe: the machine stops where
  the spec gives no storage. -/
  | noSuchAddress (pa : Nat)
  deriving DecidableEq, Repr

/-- Why a meaning is refused. -/
inductive Refusal where
  /-- Raised by an arm of exec whose instruction has no meaning yet; safe: nothing can be proved through it. -/
  | notModelled (mnemonic : String)
  deriving DecidableEq, Repr

/-! ## Threads -/

/-- A PC: clause offset and word index (R15). -/
structure Pc where
  off : Word
  ix : Nat
  deriving DecidableEq, Repr

/-- Where a word stands: its PC, the PC after it, its clause's token and its LASTREAD bit (R14, R17, R29). -/
structure Ctx where
  pc : Pc
  next : Pc
  /-- Offset of the header that follows the clause. -/
  after : Word
  tok : Nat
  dead : Bool
  deriving DecidableEq, Repr

/-- The register file a number belongs to (R30). -/
inductive File where
  | vec | uni | pred
  deriving DecidableEq, Repr

/-- A fixed-latency write not yet readable: L(W) and the sum of demands so far (R27). -/
structure Pend where
  file : File
  reg : Nat
  val : Word
  lat : Nat
  sum : Nat
  deriving DecidableEq, Repr

/-- A register that an outstanding long-latency word of the thread will write (R28, R30). -/
structure Owed where
  file : File
  reg : Nat
  tok : Nat
  deriving DecidableEq, Repr

/-- A watchdog count: the cycles counted before `from`, and the cycle of the core from which it runs (R330). -/
structure Watch where
  acc : Nat
  from_ : Nat
  deriving DecidableEq, Repr

/-- What a thread waits for alone. -/
inductive TWait where
  /-- JOINW on the counter at a virtual address (R80). -/
  | join (a : Dword)
  /-- SPAWN or SPAWNB, for the placement of spawn record n (R77, R282, R287). -/
  | spawn (rec : Nat)
  /-- A blocking memory word, for request n (R109, R124). -/
  | request (req : Nat)
  /-- CINV with lines left: the operation, the next virtual address, how many (R156). -/
  | cinv (op va left : Nat)
  /-- EXIT (false) or EXITJ, for the thread's token counters and then the group's next slot (R78, R79). -/
  | exit (join : Bool)
  deriving DecidableEq, Repr

/-- The place of a live thread (R169, R340); a waiting thread keeps the names that die when its word retires (R29). -/
inductive Place where
  | ready
  | signing (c : Nat)
  | waiting (w : TWait) (at_ : Ctx) (hd : Hd) (watch : Watch) (dead : List Nat)
  | faulted
  /-- Executed TRAPRET, at a PC, in handler mode and waits for the group (R153). -/
  | returned (pc : Pc) (watch : Watch)
  deriving DecidableEq, Repr

/-- A thread (R167). -/
structure Thread where
  pc : Pc
  /-- Valid lanes of v0-v127; an absent lane is invalid and reads zero (R220). -/
  v : Tbl Word
  /-- Poisoned lane words (R229); a trap-reserve word of v112-v127 is marked as its name plus 128 (R224). -/
  vpois : List Nat
  /-- Lane words with a latent single-bit error (R228). -/
  vsoft : List Nat
  /-- Lane words with a latent uncorrectable error (R228). -/
  vhard : List Nat
  /-- p0-p6. -/
  p : BitVec 7
  pend : List Pend
  /-- k0-k3, each 0-63 (R28). -/
  tok : List Nat
  owed : List Owed
  /-- The stochastic generator (R192). -/
  rng : Dword
  /-- Issue slots still owed (R26). -/
  demand : Nat
  /-- The packing age (R169). -/
  age : Nat
  place : Place
  /-- The WAIT of the clause at the PC is satisfied for the thread (R15, R28). -/
  past : Bool
  /-- The sequence number of the thread's last write-carrying request (R255). -/
  seq : Nat
  /-- The global thread index (R174, R175). -/
  gidx : Dword
  /-- The join-counter address of a kindled thread's record (R281). -/
  join : Dword
  /-- Trap-reserve lanes v112-v127 (R224). -/
  hv : Tbl Word
  /-- The chunk at which the thread's faulted TMMA resumes (R135). -/
  chunk : Nat
  /-- p0-p6 set aside at trap entry (R341). -/
  savedP : Option (BitVec 7)
  /-- The watchdog count that a wait had when a pre-emption returned the thread to its word (R83, R124, R161). -/
  wd : Nat
  /-- Words that the thread has issued to their end: the model's own count, by which a late fault tells whether a later
  word has issued (R339). -/
  words : Nat
  deriving DecidableEq, Repr

/-! ## Groups -/

/-- The signature of a thread on a convergence register: what its source lanes hold at the slot in which it signs
(R58, R100). -/
structure Sig where
  t : Nat
  la : Word
  lb : Word
  pr : Bool
  /-- The source lane word A, or else B, that is poisoned (R100). -/
  bad : Option Nat
  deriving DecidableEq, Repr

/-- The word that a convergence register is bound to (R58). -/
structure Bound where
  i : Instr
  hd : Hd
  at_ : Ctx
  watch : Watch
  deriving DecidableEq, Repr

/-- A convergence register (R58). -/
structure Conv where
  members : List Nat
  signed : List Sig
  bound : Option Bound
  deriving DecidableEq, Repr

/-- The kinds of matrix operation (R125). -/
inductive MopKind where
  | tmma (transposed : Bool)
  | acczero | accst | accld | accrel
  | accscl (x : Word)
  | accadd (src : Nat)
  | accrd (d : Nat) (sel : Word)
  deriving DecidableEq, Repr

/-- A matrix operation in flight (R126, R231). -/
structure Mop where
  core : Nat
  g : Nat
  sigs : List Nat
  kind : MopKind
  h : Nat
  clear : Bool
  fmt : Word
  mapA : List Word
  mapB : List Word
  /-- The word writes its handle, and binds it where it is unbound when its turn comes (R137). -/
  binds : Bool
  chunk : Nat
  /-- The clear has been applied (R135). -/
  cleared : Bool
  tok : Nat
  at_ : Ctx
  /-- The format slot that the word names (R127, R354). -/
  slot : Nat
  /-- The words that each signer has issued with this one: the model's own count (R339). -/
  nth : Tbl Nat
  deriving DecidableEq, Repr

/-- A region of a footprint: space (none for global memory, else a core), first byte, last byte (R146). -/
structure Region where
  space : Option Nat
  lo : Nat
  hi : Nat
  deriving DecidableEq, Repr

/-- What a job addresses: its read and its write regions, and the members of a collective's axis (R146, R369, R372). -/
structure Foot where
  reads : List Region
  writes : List Region
  axis : List Nat
  deriving DecidableEq, Repr

/-- What a word that executes once for the group waits for after its signing completes. -/
inductive GKind where
  /-- BARWAIT or BARARRW on a barrier (R68). -/
  | barrier (b : Nat)
  /-- WAITANY on a mask of a bank (R69). -/
  | any (mask : Nat)
  /-- DBAR (R73). -/
  | dbar
  /-- REGCLM of n rows (R72). -/
  | claim (n : Nat)
  /-- The binding of the handle of an operation (R137). -/
  | bind (m : Mop)
  /-- A job-table entry, with the descriptor and its footprint as captured (R140). -/
  | entry (desc : List Word) (foot : Foot)
  /-- HANDOVER of a stack to a die, until no earlier hand-over of the stack is in progress (R149). -/
  | handover (stack target : Nat)
  /-- The result of a group form, due at a cycle of the core (R100). -/
  | form (due : Nat) (lanes : Tbl Word) (uniforms : Tbl Word)
  /-- A word that cannot yet act: it tries again with the uniform registers and shadow words as they stood when its
  signing completed (R125, R126, R140). -/
  | again (uniforms shadows : Tbl Word)
  deriving DecidableEq, Repr

/-- A wait of a group, with the word, its signers and its watchdog count (R330, R331). -/
structure GWait where
  kind : GKind
  i : Instr
  hd : Hd
  at_ : Ctx
  sigs : List Sig
  watch : Watch
  /-- Younger REGCLM claims served ahead of this one (R223). -/
  passed : Nat
  /-- The barriers of the team that have completed since a wait on barriers began (R68, R69, R292). -/
  met : List Nat
  /-- The order in which the core's waits began. -/
  born : Nat
  deriving DecidableEq, Repr

/-- A fault record, before it is written (R336). -/
structure FaultRec where
  code : Nat
  job : Bool
  /-- Its thread had issued a later word by then; the record's IMPRECISE bit says so for poisoned memory (R339). -/
  imprecise : Bool
  thread : Nat
  pc : Pc
  address : Dword
  detail : Word
  compmask : Word
  srcseq : Dword
  /-- Where the thread resumes after its handler (R338). -/
  resume : Pc
  /-- Raised in handler mode (R345). -/
  inh : Bool
  written : Bool
  /-- The core at which it was raised, as the special register CORE holds it (R64, R336). -/
  core : Nat
  /-- The words that its thread had issued with the faulting one: the model's own count (R343). -/
  nth : Nat
  deriving DecidableEq, Repr

/-- The end of a group's owner that a detection, an expiry or the loss of its die has decided, where its records have no room
yet: the GROUP word, the record, and the diagnostic record before it (R337, R349, R350). -/
structure Verdict where
  group : Nat
  record : FaultRec
  diag : Option (List Byte)
  deriving DecidableEq, Repr

/-- How far a group has been stopped by a fault (R340, R341, R346). -/
inductive Stop where
  /-- No fault is pending. -/
  | none
  /-- One more packet may issue. -/
  | last
  /-- The group issues nothing. -/
  | stopped
  /-- Stopped at a written 0x10 record, for the driver. -/
  | driver
  /-- Waits for its quadrant's trap reserve (R224). -/
  | reserve (watch : Watch)
  deriving DecidableEq, Repr

/-- Where an entering thread had stopped: its PC, whether the WAIT of that clause was satisfied, and the chunk at which
its TMMA resumes (R15, R135, R344). -/
structure Back where
  pc : Pc
  past : Bool
  chunk : Nat
  deriving DecidableEq, Repr

/-- The state of a group in handler mode (R341, R342). -/
structure Handler where
  entering : List Nat
  savedConv : List Conv
  /-- Shadow words s112-s127. -/
  hs : Tbl Word
  /-- The records of the faults that the handler handles. -/
  recs : List FaultRec
  /-- Where each entering thread had stopped. -/
  back : Tbl Back
  deriving DecidableEq, Repr

/-- An accumulator slot: its nonzero elements by 64 i + j, and its poisoned elements (R235). -/
structure AccSlot where
  el : Tbl Word
  bad : List Nat
  deriving DecidableEq, Repr

/-- What a kindled group waits for before its first instruction: the rows of its pool share, and then its AcquireAt at a
scope (R225, R283). -/
structure Share where
  rows : Nat
  scope : Nat
  deriving DecidableEq, Repr

/-- Where a group is (R293). -/
inductive Residence where
  | resident
  | parked
  | saved
  deriving DecidableEq, Repr

/-- A group of 256 threads (R167). -/
structure Group where
  lseq : Nat
  /-- The group's team; none for a kindled group. -/
  team : Option Nat
  /-- Group index in team; 0 for a kindled group. -/
  gix : Nat
  role : Nat
  /-- SPAWNSER; 0xFFFF_FFFF in a launched group. -/
  serial : Word
  core : Nat
  quad : Nat
  slot : Nat
  ember : Bool
  residence : Residence
  s : Tbl Word
  /-- Poisoned uniform words, and words with a latent error; a shadow word of s112-s127 stands as its name plus 128. -/
  spois : List Nat
  ssoft : List Nat
  shard : List Nat
  /-- The physical rows of vector names that the ECC log has named (R160, R209). -/
  rows : Tbl Nat
  conv : List Conv
  /-- The accumulator slot of each bound handle. -/
  acc : Tbl Nat
  ceil : Nat
  resv : Nat
  share : Option Share
  /-- Live threads by index. -/
  threads : Tbl Thread
  /-- Threads the group started with. -/
  size : Nat
  tgt : BitVec 16
  rot : Nat
  waits : Tbl GWait
  retired : Nat
  dwbase : Dword
  dieix : Word
  diecnt : Word
  step : Word
  faults : List FaultRec
  lastRec : Option FaultRec
  /-- Records that the driver has resolved while other faults stand: their threads read them in the handler (R343, R346). -/
  resolved : List FaultRec
  verdict : Option Verdict
  stop : Stop
  /-- The entering threads, fixed once the group has stopped (R341). -/
  entering : Option (List Nat)
  /-- The threads whose word waits in a release at package scope or wider (R254, R366). -/
  releasing : List Nat
  /-- The moment of the fault that stopped the group, in turns taken (R224). -/
  faultAt : Nat
  handler : Option Handler
  /-- Packets issued since the last barrier completion of the team, for urgency order (R216). -/
  packets : Nat
  /-- The cycle at which the pending group became ready (R212). -/
  readySince : Option Nat
  activeSince : Nat
  /-- The cycle of the group's last issue, and of its last slot, empty or not (R26, R216). -/
  lastIssue : Option Nat
  lastSlot : Option Nat
  yielded : Bool
  /-- DBAR rounds executed (R73). -/
  dbars : Nat
  /-- The PC at which the last thread left (R351). -/
  exitPc : Pc
  /-- Restored onto a core in recovery and no barrier completed since (R217). -/
  recovering : Bool
  /-- Stopped by the full tier of a pre-emption (R302). -/
  halted : Bool
  /-- The contents of the bound accumulator slots, by handle, while the group is saved (R236). -/
  savedAcc : Tbl AccSlot
  deriving DecidableEq, Repr

/-! ## Teams and launches -/

/-- A barrier register (R66, R270). -/
structure Bar where
  expGroups : Nat
  expBytes : Nat
  arrived : Nat
  bytes : Nat
  phase : Bool
  deriving DecidableEq, Repr

/-- A hand-over arrival (no bytes) or a byte arrival that has reached a team's barrier unit in the present cycle: its
barrier, and its place among those of its kind, the acceptance order or the job-table entry (R270). -/
structure Arrival where
  bar : Nat
  bytes : Option Nat
  order : Nat
  deriving DecidableEq, Repr

/-- A team (R168). -/
structure Team where
  lseq : Nat
  /-- Team index in the step. -/
  tix : Nat
  step : Nat
  /-- Its cores, in team-core order. -/
  cores : List Nat
  bars : List Bar
  /-- The scratchpad of each team core. -/
  scratch : List Memory
  /-- Poisoned scratchpad bytes of each team core. -/
  scratchBad : List (List Nat)
  /-- The operand-cache generation on each team core (R234). -/
  gens : List (BitVec 16)
  /-- Exited groups, by index, with the PC at which each left. -/
  exited : Tbl Pc
  /-- Hand-over arrivals held while the team is saved (R271). -/
  held : List Nat
  saved : Bool
  check : Bool
  /-- The cycle of its first core from which the conditions of R226 have held without a break. -/
  stuck : Option Nat
  /-- The team has ended; its running jobs may still be writing (R275). -/
  ended : Bool
  /-- The hand-over and byte arrivals of the present cycle of its first core (R270). -/
  due : List Arrival
  deriving DecidableEq, Repr

/-- The fields of a launch record (R171). -/
structure LaunchRec where
  lseq : Nat
  codebase : Nat
  args : Nat
  entry : Word
  teams : Nat
  steps : Nat
  groups : Nat
  cores : Nat
  roles : Nat
  ngroups : List Nat
  ceils : List Nat
  scratch : Nat
  barriers : Nat
  fmt : List Word
  hashBase : Nat
  hashStride : Nat
  hfixed : Bool
  pinned : Bool
  prio : Nat
  dieres : Bool
  park : Bool
  check : Bool
  minDies : Nat
  maxDies : Nat
  gather : Nat
  wdog : Nat
  rights : BitVec 3
  seed : Dword
  spill : Nat
  carryV : BitVec 128
  carryS : BitVec 128
  carryP : BitVec 7
  phaseRec : Nat
  axes : Nat
  prereq : List Nat
  deriving DecidableEq, Repr

/-- A pre-emption of a launch in progress (R302, R303). -/
structure Preempt where
  /-- The queue slots whose STATUS reports it. -/
  slots : List Nat
  full : Bool
  limit : Nat
  save : Nat
  saveLen : Nat
  /-- Bytes of the save area used so far. -/
  used : Nat
  /-- The cycle of each core at the command's arrival. -/
  arrival : Tbl Nat
  deriving DecidableEq, Repr

/-! ## Requests, jobs, matrix operations, spawn records -/

/-- The eleven atomics (R111). -/
inductive AtomOp where
  | add | fadd | min | max | minn | maxn | and | or | xor | xchg | cas
  deriving DecidableEq, Repr

/-- What a memory request does (R105). -/
inductive ReqKind where
  | load | store | atomic (op : AtomOp) | fence | sfence | seal | unseal | pref
  | rclaim | rcommit | rawait | rretire | putq
  deriving DecidableEq, Repr

/-- How far a request has come (R109, R112, R121). -/
inductive ReqStage where
  /-- Issued and not performed. -/
  | issued
  /-- A ring form or PUTQ that waits for space or granules, in its order of arrival (R121). -/
  | queued (order : Nat)
  /-- A PUTQ whose claim is made from granule `start`: the bytes placed, the page of the payload that it has translated last,
  by its virtual and its physical number, with its UC attribute, and the package to which its payload has gone on
  (R122, R313, R363). -/
  | claimed (start placed : Nat) (page : Option (Nat × Nat × Bool)) (gone : Option Nat)
  /-- Performed: its reply is due. -/
  | performed (value : Nat) (poisoned : Bool)
  deriving DecidableEq, Repr

/-- An outstanding memory request of a thread (R214). -/
structure Req where
  g : Nat
  t : Nat
  lseq : Nat
  team : Option Nat
  core : Nat
  kind : ReqKind
  sp : Bool
  /-- Effective address or scratchpad offset (R106). -/
  ea : Nat
  /-- Physical address; 0 in the scratchpad. -/
  pa : Nat
  size : Nat
  /-- Store data, operand or count. -/
  m : Nat
  /-- The second operand: new value of ATOMCAS, start of RCOMMIT, source offset of PUTQ, length of SEAL. -/
  m2 : Nat
  d : Nat
  order : Nat
  scope : Nat
  ms : Bool
  nt : Bool
  uc : Bool
  /-- It travels to its home, which serves it; else its own die does (R108, R253, R368). -/
  far : Bool
  /-- A store that L1 has accepted: its token has fallen, whether it is performed or not (R109, R214). -/
  accepted : Bool
  /-- Its response was lost to an error notice: no reply comes (R366). -/
  lost : Bool
  /-- The words that its thread had issued with this one (R339). -/
  nth : Nat
  tok : Nat
  /-- The sequence number that the request bears; 0 when it carries no write (R255). -/
  seq : Nat
  /-- What the vector sources that died with the word held, for its replay (R29, R339). -/
  died : Tbl Word
  /-- The packet's word, and the place of this lane in it (R113). -/
  word : Nat
  ord : Nat
  stage : ReqStage
  at_ : Ctx
  hd : Hd
  deriving DecidableEq, Repr

/-- The four kinds of engine job (R139). -/
inductive JobKind where
  | cpy | gath | scat | coll
  deriving DecidableEq, Repr

/-- The state of a job-table entry (R147, R272). -/
inductive JobState where
  | unused | waiting | running | complete | failed | cancelled
  deriving DecidableEq, Repr

/-- A destination of a multicast copy: the copy, the next element that it lacks, the elements read for it and not yet
written, the page fault at which it pauses, and whether an invalidation has covered that page since (R274). -/
structure Lag where
  copy : Nat
  next : Nat
  queue : List (List Byte)
  paused : Option Dword
  retry : Bool
  deriving DecidableEq, Repr

/-- The failure of a job whose byte arrival waits for the write-back of R266: code, address, sequence number. -/
structure Failing where
  code : Nat
  addr : Nat
  seq : Nat
  deriving DecidableEq, Repr

/-- A TLB entry (R322). -/
structure TlbEntry where
  /-- The virtual page base, and the page size in bytes. -/
  va : Nat
  size : Nat
  pa : Nat
  r : Bool
  w : Bool
  x : Bool
  ms : Bool
  ol : Bool
  uc : Bool
  /-- The home stack, package times 8 plus stack; none for host memory. -/
  home : Option Nat
  /-- The owner die recorded at the fill (R313). -/
  owner : Nat
  /-- The seal summary: a 4 KiB page of the entry is sealed (R322). -/
  anySealed : Bool
  deriving DecidableEq, Repr

/-- A page of another package that a job's request travels to: its virtual address, whether it writes there, the physical
address with the translation, and whether the request has come there (R313, R363). -/
structure Trip where
  va : Nat
  write : Bool
  pa : Nat
  entry : TlbEntry
  there : Bool
  deriving DecidableEq, Repr

/-- A job-table entry (R141, R272, R276). -/
structure Job where
  kind : JobKind
  state : JobState
  fault : Nat
  barrier : Option Nat
  /-- The times the entry has been issued. -/
  issues : Nat
  lseq : Nat
  team : Option Nat
  g : Nat
  gix : Nat
  desc : List Word
  scope : Nat
  reads : List Region
  writes : List Region
  /-- COLL: the members of its axis, in position order (R369). -/
  axis : List Nat
  /-- Order of acceptance on the core. -/
  born : Nat
  /-- The jobs it waits on (R273). -/
  waits : List Nat
  bytes : Nat
  /-- The next element, and how many of its bytes a gather or scatter has moved (R272, R275). -/
  next : Nat
  off : Nat
  /-- The index of the element in progress, read once (R144). -/
  index : Option Nat
  /-- The 16-byte unit of the source read last, none for a poisoned byte, by its address (R263, R266). -/
  unit : Option (Nat × List (Option Byte))
  /-- The destinations of a multicast (R274). -/
  lags : List Lag
  failing : Option Failing
  /-- Range errors (R147). -/
  range : Nat
  /-- Paused at a page fault of this virtual address (R146). -/
  paused : Option Dword
  /-- An invalidation has covered that page since. -/
  retry : Bool
  /-- The open claim of a ring GATH (R269). -/
  claim : Option Nat
  seq : Nat
  /-- COLL: the count k of its matching key (R371), and whether the collective has begun. -/
  collK : Nat
  begun : Bool
  /-- COLL: it may move bytes; a permute once no lower generation holds it (R375). -/
  moves : Bool
  /-- COLL: the bytes of the shard map, read once; the SEND bytes read so far; the bytes of RECV, once every member has read
  its SEND, of which `off` are written (R372, R374). -/
  shard : Option (List Byte)
  sent : List Byte
  recv : Option (List Byte)
  /-- A ring GATH that waits for space: its descriptor and its order of arrival (R121, R269). -/
  ringWait : Option (Nat × Nat)
  /-- The pages of other packages that its request travels to (R255, R363). -/
  trips : List Trip
  /-- COLL: its SEND bytes have left for the other members (R372). -/
  told : Bool
  deriving DecidableEq, Repr

/-- A launch (R171, R183). -/
structure Launch where
  rc : LaunchRec
  state : Nat
  reason : Nat
  detail : Nat
  terminated : Nat
  stepNow : Nat
  firstTerm : Nat
  statAddr : Nat
  area : Nat
  areaLen : Nat
  spillBase : Nat
  /-- Records that each die has written to its spill ring of the launch, by die (R286, R379). -/
  spillPut : Tbl Nat
  /-- The die set of the step, in die order (R176). -/
  dies : List Nat
  /-- Teams of the step not yet ended. -/
  teamsLeft : Nat
  /-- Whether the step's teams have been given to the rack distributor. -/
  stepOpen : Bool
  preempt : Option Preempt
  resuming : Option Nat
  /-- Accepted COLLs by die, axis entry and GEN in the step (R371). -/
  colls : List (Nat × Nat × Nat)
  /-- Group counts of the kindling units, by core (R175). -/
  kcount : Tbl Nat
  /-- Saved teams, groups and records wait here (R303). -/
  savedTeams : List Nat
  savedKindled : List Nat
  savedRecs : List Nat
  /-- Saved engine jobs, with the table keys they had (R275). -/
  savedJobs : List (Nat × Job)
  /-- The address at which the pre-emption saved the launch. -/
  saveAt : Nat
  /-- The reason and the detail with which the grid ends, once its writes are performed (R183). -/
  ending : Option (Nat × Nat)
  /-- The queue slot of the launch command. -/
  slot : Nat
  deriving DecidableEq, Repr

/-- The place of a spawn record (R288). -/
inductive RecPlace where
  | routing
  /-- Placed in its unit's queue, not yet in a bin. -/
  | entering (k : Nat)
  /-- In the spill ring of a die, for a unit. -/
  | spilled (x k : Nat)
  /-- In a bin. -/
  | binned (b : Nat)
  /-- A refused SPAWNB that waits at its unit (R287). -/
  | refused (k : Nat)
  | saved
  deriving DecidableEq, Repr

/-- A spawn record (R281), with the launch tag and the place of the device. -/
structure SpawnRec where
  lseq : Nat
  entry : Word
  payload : List Word
  join : Dword
  prio : Nat
  n : Nat
  hashed : Bool
  core : Nat
  home : Nat
  hash : Word
  /-- The spawning group and thread, its core, and the status predicate of SPAWN (R77). -/
  srcG : Nat
  srcT : Nat
  srcCore : Nat
  status : Option Nat
  /-- The sequence number that its kindling unit gave it (R255). -/
  seq : Nat
  place : RecPlace
  /-- The order of entry. -/
  born : Nat
  /-- The die that holds it (R283). -/
  die : Nat
  /-- Written to a spill ring, and counted for it (R289). -/
  spilt : Bool
  /-- Saved by a pre-emption and routed again, and the bin that it shared then (R304). -/
  again : Bool
  mate : Option Nat
  /-- The die at which it is to be placed, once its home has admitted it (R282). -/
  bound : Option Nat
  deriving DecidableEq, Repr

/-- A bin of a kindling unit (R284). -/
structure Bin where
  core : Nat
  lseq : Nat
  entry : Word
  start : Nat
  recs : List Nat
  /-- The closing order, once closed. -/
  closed : Option Nat
  opened : Nat
  deriving DecidableEq, Repr

/-! ## Caches and translation -/

/-- An L2 line of 64 bytes with its dirty mask and poisoned words (R247, R249). -/
structure Line where
  data : List Byte
  dirty : BitVec 64
  bad : BitVec 16
  /-- The copy is of a sealed page (R254, R265). -/
  ofSealed : Bool
  deriving DecidableEq, Repr

/-- A page-table walk of a die that waits, or that has not begun: 64 of a die are in flight, in order of arrival (R313,
R322). -/
structure Walk where
  die : Nat
  va : Dword
  /-- A fill that waits for a steady stack. -/
  fill : Bool
  deriving DecidableEq, Repr

/-- Who makes an access. -/
inductive Agent where
  | job (key : Nat)
  | thread (g t : Nat)
  /-- The instruction fetch of a group. -/
  | fetch (g : Nat)
  /-- An outstanding memory request, and a spawn record on its way. -/
  | req (r : Nat)
  | record (r : Nat)
  deriving DecidableEq, Repr

/-- An access that has passed its translation and waits for its home: it is performed there as it stands, whatever the
ownership is by then (R313, R316). -/
structure Passed where
  agent : Agent
  write : Bool
  va : Nat
  pa : Nat
  entry : TlbEntry
  deriving DecidableEq, Repr

/-- A sector of the operand cache (R233). -/
structure Sector where
  team : Nat
  tag : Nat
  gen : BitVec 16
  off : Nat
  bytes : List Byte
  /-- The sector has a latent uncorrectable error. -/
  bad : Bool
  deriving DecidableEq, Repr

/-! ## Cores, dies, packages -/

/-- An entry of the active set (R210, R212). -/
structure Active where
  g : Option Nat
  /-- The cycle from which it may issue. -/
  from_ : Nat
  deriving DecidableEq, Repr

/-- A quadrant (R208). -/
structure Quad where
  active : List Active
  /-- The transcendental unit is busy until this cycle (R219). -/
  busy : Nat
  /-- The group that holds the trap reserve (R224). -/
  trap : Option Nat
  deriving DecidableEq, Repr

/-- The bin for which a kindling unit holds capacity, with the rows and the slots that stood open when the hold began and
that others may still take (R285, R297). -/
structure KHold where
  bin : Nat
  rows : Nat
  slots : Nat
  deriving DecidableEq, Repr

/-- The cause of urgency order (R217). -/
inductive Mode where
  | barrel | startup | selftest | recovery
  deriving DecidableEq, Repr

/-- A core (R208 to R237). -/
structure Core where
  /-- Counters 0-14 (R157). -/
  counters : List Nat
  mode : Mode
  /-- The mode to take at the next cycle that is a multiple of 8 (R217). -/
  nextMode : Option Mode
  /-- The cycle at which the last restore began. -/
  restoreAt : Nat
  quads : List Quad
  /-- The next quadrant of the present cycle. -/
  turn : Nat
  /-- The accumulator free list (R235), and the slots. -/
  accFree : List Nat
  acc : Tbl AccSlot
  /-- Matrix operations in flight, in acceptance order, and the last that took a step: the rotation (R231). -/
  mops : List Nat
  mopLast : Nat
  /-- The engine steps that each operation which could take one has let pass since (R231). -/
  mopWait : Tbl Nat
  /-- The cycle from which the conditions of R237 have held without a break. -/
  accSince : Option Nat
  /-- Job-table entries, least recently freed first (R141). -/
  jobFree : List Nat
  /-- The ECC log, newest first: location word, kind word, address word, cycle (R160). -/
  ecc : List (List Word)
  /-- The operand cache, most recently used tag last (R233). -/
  opcache : List Sector
  /-- L1 lines by physical line number (R248). -/
  l1 : Tbl Line
  /-- The core's TLB, most recently used first (R322). -/
  tlb : List TlbEntry
  /-- Skip counts of the kindling unit by priority, and the bin it holds capacity for (R285). -/
  kskip : List Nat
  kheld : Option KHold
  /-- The jobs that the copy engine and the gather engine served last, by their order of acceptance (R272). -/
  copyLast : Nat
  gathLast : Nat
  /-- The sequence number of the next record that the kindling unit routes (R255). -/
  recSeq : Nat
  deriving DecidableEq, Repr

/-- A distributor (R294 to R297): queued teams (launch, team index) in order, skip counts, held team, and at a die the rows
and the slots of each core that stood open when the hold began and that others may still take. -/
structure Dist where
  queue : List (Nat × Nat)
  skip : List Nat
  held : Option (Nat × Nat)
  spare : Tbl (Nat × Nat)
  deriving DecidableEq, Repr

/-- What keeps a die from working: its command processor has not answered since a cycle of its package's clock, or its
flues or its supply are down (R349). -/
inductive Trouble where
  | none
  | silent (since : Nat)
  | down
  deriving DecidableEq, Repr

/-- A compute die (R1, R249, R322). -/
structure Die where
  l2 : Tbl Line
  wbSeq : Nat
  /-- The sequence number of the collective engine's next packet (R255). -/
  collSeq : Nat
  /-- The job that the collective engine served last, by its order of acceptance (R272). -/
  collLast : Nat
  window : Dword
  inService : Bool
  trouble : Trouble
  lost : Bool
  /-- It is being lost: its groups have stopped, and end as their records are written (R349). -/
  dying : Bool
  /-- The queue slots of the die-service commands in progress (R381). -/
  service : List Nat
  /-- The shared TLB, most recently used first (R322). -/
  tlb : List TlbEntry
  dist : Dist
  deriving DecidableEq, Repr

/-- The ownership states (R311). -/
inductive OwnState where
  | steady | closing | draining | switching
  deriving DecidableEq, Repr

/-- An ownership entry (R311) with the hand-over in progress: new owner, issuing team, barrier, order of acceptance (R149,
R270). -/
structure Stack where
  owner : Nat
  st : OwnState
  hseq : BitVec 32
  target : Nat
  team : Option Nat
  bar : Option Nat
  order : Nat
  deriving DecidableEq, Repr

/-- Boot progress of a package (R384). -/
inductive Boot where
  | off | reset | trained | hostFw | driver | cores | joined
  /-- Halted at a stage for a cause: 0 no image, 1 key digest, 2 signature, 3 SVN. -/
  | halted (stage cause : Nat)
  deriving DecidableEq, Repr

/-- An image as the boot reads it (R384). -/
structure Image where
  key : List Byte
  body : List Byte
  sig : List Byte
  deriving DecidableEq, Repr

/-- A fabric port (R364, R376). -/
structure Port where
  neigh : Nat
  lstate : Nat
  retry : Nat
  /-- Consecutive failures on one flit. -/
  fails : Nat
  deriving DecidableEq, Repr

/-- A package (R1, R361, R376, R384, R385). -/
structure Package where
  stks : List Stack
  routes : List Dword
  routeVersion : Nat
  ports : List Port
  /-- The six fabric counters (R376). -/
  fabric : List Nat
  boot : Boot
  flashImg : Option Image
  driverImg : Option Image
  /-- The image of the command processors' firmware (R384, stage 3). -/
  firmImg : Option Image
  /-- The security versions of the images that have run since reset (R384). -/
  ran : List Nat
  /-- The measurement register (R384). -/
  measure : List Byte
  events : Nat
  number : Nat
  tray : Nat
  slot : Nat
  primary : Bool
  mirror : Bool
  powerLimit : Nat
  /-- Supplies on, in the order of R388: 0 none to 3 all. -/
  power : Nat
  /-- Nonces mailed and not answered; quotes answered (R384). -/
  mail : List (List Byte)
  quotes : List (List Byte)
  /-- The cycle of the primary's clock since which the host die has not answered (R349). -/
  silent : Option Nat
  /-- The package is lost (R349). -/
  lost : Bool
  /-- The packages that the fabric manager has declared unreachable from here, because no path survives (R365). -/
  declared : List Nat
  dist : Dist
  deriving DecidableEq, Repr

/-- What a fabric packet carries (R363). -/
inductive Cargo where
  /-- The request of a thread, by request number. -/
  | request (r : Nat)
  /-- The response to it. -/
  | response (r : Nat)
  /-- A spawn record. -/
  | record (r : Nat)
  /-- The dirty bytes of line n of die x, on their way to their home (R249, R254). -/
  | lineBack (x n : Nat)
  /-- The home's acknowledgement of them. -/
  | lineAck (x n : Nat)
  /-- A request of the job at a key, by its order of acceptance, for a virtual page (R255, R266). -/
  | engine (key born page : Nat)
  /-- The response to a request of a job. -/
  | engineBack (key born : Nat)
  /-- Bytes that a member's collective engine sends to another member (R363, R372). -/
  | coll (key born : Nat)
  /-- The collective acknowledgement. -/
  | collBack (key born : Nat)
  deriving DecidableEq, Repr

/-- What the header of a collective packet names beside its destination: launch, axis entry, layout generation (R363,
R375). -/
structure CollTag where
  lseq : Nat
  axis : Nat
  gen : Nat
  deriving DecidableEq, Repr

/-- A packet in the custody of a hop (R363, R365, R367). -/
structure Packet where
  cargo : Cargo
  src : Nat
  srcTag : Nat
  seq : Nat
  dest : Nat
  /-- The destination stack, or for spawn and collective traffic the destination die, in its package. -/
  place : Nat
  /-- The header's tag of a collective packet. -/
  tag : Option CollTag
  /-- The bytes of data, at most 256. -/
  bytes : Nat
  /-- The package that holds it; the port whose buffer it stands in there, none at its source and where its home holds it
  (R316); the virtual channel, and when it came. -/
  at_ : Nat
  port : Option Nat
  vc : Nat
  since : Nat
  /-- The hops made, the detour flag, and the packages that it has left with the next one of each (R361, R362). -/
  hop : Nat
  detour : Bool
  path : List (Nat × Nat)
  escape : Bool
  /-- The interval of the recovery timer, once it is armed here, and the cycle from which it counts (R367). -/
  timer : Option Nat
  armed : Nat
  probing : Bool
  deriving DecidableEq, Repr

/-- An RDMA write of a peer (R387). -/
structure Rdma where
  queue : Nat
  /-- Its number in its queue pair, the source (R255). -/
  seq : Nat
  va : Dword
  bytes : List Byte
  /-- Acknowledged, or refused. -/
  done : Option Bool
  deriving DecidableEq, Repr

/-- The command queue's registers (R378). -/
structure Queue where
  qbase : Dword
  log2 : BitVec 4
  tail : Dword
  head : Dword
  /-- The LSEQ of the launch accepted last (R172). -/
  lastSeq : Nat
  /-- The slots of pre-emption commands in progress that have failed at one of their launches (R353, R380). -/
  failed : List Nat
  deriving DecidableEq, Repr

/-- What the mirror holds: the queue's control block, every accepted command by its slot number, and every status word that
the device has written, by its address (R377). -/
structure Replica where
  queue : Queue
  commands : Tbl (List Byte)
  status : Tbl (List Byte)
  deriving DecidableEq, Repr

/-- The packet that is being executed. -/
structure Cur where
  g : Nat
  tids : List Nat
  at_ : Ctx
  deriving DecidableEq, Repr

/-- The machine. -/
structure State where
  /-- The model's own: turns to come, ticks taken, the packet being executed, fresh numbers (log 1). -/
  agenda : List Turn
  ticks : Nat
  cur : Cur
  fresh : Nat
  /-- The number of packages when the domain was formed (R179), and whether it is formed. -/
  npkg : Nat
  formed : Bool
  /-- HBM and host-die DRAM of every package (R245). -/
  mem : Memory
  /-- Poisoned 4-byte words of memory, by address divided by 4 (R247). -/
  memBad : List Nat
  packages : Tbl Package
  dies : Tbl Die
  cores : Tbl Core
  launches : Tbl Launch
  teams : Tbl Team
  groups : Tbl Group
  reqs : Tbl Req
  jobs : Tbl Job
  mops : Tbl Mop
  recs : Tbl SpawnRec
  bins : Tbl Bin
  walks : Tbl Walk
  /-- Memory words with requests outstanding: the threads for which each has completed (R336). -/
  words : Tbl (List Nat)
  /-- Accesses that wait for their home, in order of arrival (R314, R316). -/
  passed : List Passed
  packets : Tbl Packet
  rdmas : Tbl Rdma
  /-- The registers of the command queue (R378). -/
  queue : Queue
  /-- The replica of the queue and commands held by the mirror (R377). -/
  replica : Option Replica
  /-- Page-table root, seal map and its length (R320, R327, R380). -/
  ptRoot : Dword
  sealMap : Dword
  sealLen : Dword
  rack : Dist
  trays : Tbl Dist
  deriving DecidableEq, Repr

/-! ## Reset -/

/-- The default owner of a stack, by number (R2). -/
def Stack.defaultOwner (n : Nat) : Nat := ([0, 1, 1, 2, 2, 3, 3, 0] : List Nat).getD n 0

/-- An ownership entry at package reset (R2, R311). -/
def Stack.reset (n : Nat) : Stack := ⟨Stack.defaultOwner n, .steady, 0, 0, none, none, 0⟩

/-- A distributor with nothing queued. -/
def Dist.reset : Dist := ⟨[], [0, 0, 0, 0], none, []⟩

/-- A fabric port at reset (R376). -/
def Port.reset : Port := ⟨0x1FF, 0, 0, 0⟩

/-- A package at reset (R2, R361, R376, R384, R385). -/
def Package.reset : Package where
  stks := (upTo 8).map Stack.reset
  routes := []
  routeVersion := 0
  ports := []
  fabric := [0, 0, 0, 0, 0, 0]
  boot := .off
  flashImg := none
  driverImg := none
  firmImg := none
  ran := []
  measure := List.replicate 64 0
  events := 0
  number := 0
  tray := 0
  slot := 0
  primary := false
  mirror := false
  powerLimit := 4200
  power := 0
  mail := []
  quotes := []
  silent := none
  lost := false
  declared := []
  dist := Dist.reset

/-- A compute die at reset (R182, R381). -/
def Die.reset : Die := ⟨[], 1, 1, 0, 0, true, .none, false, false, [], [], Dist.reset⟩

/-- A quadrant with every active entry empty (R213). -/
def Quad.reset : Quad := ⟨List.replicate 8 ⟨none, 0⟩, 0, none⟩

/-- A core at package reset (R157, R213, R217, R235). -/
def Core.reset : Core where
  counters := List.replicate 15 0
  mode := .startup
  nextMode := none
  restoreAt := 0
  quads := List.replicate 4 Quad.reset
  turn := 0
  accFree := upTo 32
  acc := []
  mops := []
  mopLast := 0
  mopWait := []
  accSince := none
  jobFree := upTo 32
  ecc := []
  opcache := []
  l1 := []
  tlb := []
  kskip := [0, 0, 0, 0]
  kheld := none
  copyLast := 0
  gathLast := 0
  recSeq := 1

/-- The PC (0, 0). -/
def Pc.zero : Pc := ⟨0, 0⟩

/-- The position of no word. -/
def Ctx.zero : Ctx := ⟨Pc.zero, Pc.zero, 0, 0, false⟩

/-- The machine right after reset: no launch, every table at its reset entries, memory with nothing listed. -/
def State.reset : State where
  agenda := []
  ticks := 0
  cur := ⟨0, [], Ctx.zero⟩
  fresh := 1
  npkg := 1
  formed := false
  mem := []
  memBad := []
  packages := []
  dies := []
  cores := []
  launches := []
  teams := []
  groups := []
  reqs := []
  jobs := []
  mops := []
  recs := []
  bins := []
  walks := []
  words := []
  passed := []
  packets := []
  rdmas := []
  queue := ⟨0, 0, 0, 0, 0, []⟩
  replica := none
  ptRoot := 0
  sealMap := 0
  sealLen := 0
  rack := Dist.reset
  trays := []

/-! ## Reading the tables: an object no step has changed reads as at reset -/

/-- Package p. -/
def State.pkg (s : State) (p : Nat) : Package := s.packages.getD p Package.reset
/-- Compute die x. -/
def State.die (s : State) (x : Nat) : Die := s.dies.getD x Die.reset
/-- Core k. -/
def State.core (s : State) (k : Nat) : Core := s.cores.getD k Core.reset

end Sys2Proof.Machine
end

