-- ==== Sys2Proof/Machine/Window.lean ====
section
/-! DEFINITION. Updates of the tables, the counts that the core's rules and the read-back use, and the register window
of a package as it reads (R218, R222, R276, R383, R385). -/

namespace Sys2Proof.Machine

/-! ## Table updates -/

/-- Change core k. -/
def State.onCore (s : State) (k : Nat) (f : Core → Core) : State := { s with cores := s.cores.put k (f (s.core k)) }
/-- Change die x. -/
def State.onDie (s : State) (x : Nat) (f : Die → Die) : State := { s with dies := s.dies.put x (f (s.die x)) }
/-- Change package p. -/
def State.onPkg (s : State) (p : Nat) (f : Package → Package) : State :=
  { s with packages := s.packages.put p (f (s.pkg p)) }
/-- Change a group, where it exists. -/
def State.onGroup (s : State) (g : Nat) (f : Group → Group) : State := { s with groups := s.groups.modify g f }
/-- Change a team, where it exists. -/
def State.onTeam (s : State) (t : Nat) (f : Team → Team) : State := { s with teams := s.teams.modify t f }
/-- Change a launch, where it exists. -/
def State.onLaunch (s : State) (l : Nat) (f : Launch → Launch) : State := { s with launches := s.launches.modify l f }
/-- Change a thread of a group. -/
def Group.onThread (g : Group) (t : Nat) (f : Thread → Thread) : Group := { g with threads := g.threads.modify t f }
/-- Change a thread. -/
def State.onThread (s : State) (g t : Nat) (f : Thread → Thread) : State := s.onGroup g (·.onThread t f)
/-- Change a job. -/
def State.onJob (s : State) (j : Nat) (f : Job → Job) : State := { s with jobs := s.jobs.modify j f }
/-- Change a request. -/
def State.onReq (s : State) (r : Nat) (f : Req → Req) : State := { s with reqs := s.reqs.modify r f }
/-- Change a spawn record. -/
def State.onRec (s : State) (r : Nat) (f : SpawnRec → SpawnRec) : State := { s with recs := s.recs.modify r f }
/-- Change a stack of a package. -/
def State.onStack (s : State) (n : Nat) (f : Stack → Stack) : State :=
  s.onPkg (n / 8) (fun p => { p with stks := p.stks.set (n % 8) (f (p.stks.getD (n % 8) (Stack.reset (n % 8)))) })
/-- Global stack n: stack n mod 8 of package n div 8 (R319). -/
def State.stack (s : State) (n : Nat) : Stack := (s.pkg (n / 8)).stks.getD (n % 8) (Stack.reset (n % 8))

/-- A fresh number. -/
def State.tick (s : State) : State := { s with fresh := s.fresh + 1 }

/-! ## Counts -/

/-- Counter n of core k (R157). -/
def State.counter (s : State) (k n : Nat) : Nat := (s.core k).counters.getD n 0
/-- Core cycles of core k. -/
def State.now (s : State) (k : Nat) : Nat := s.counter k 0
/-- The core clock of package p, which its recovery timers and its host die count: that of its first core (R5, R349, R367;
DESIGN CHOICE, log 67). -/
def State.clock (s : State) (p : Nat) : Nat := s.now (384 * p)
/-- Add to counter n of core k, modulo 2 to the 64 (R157). -/
def State.count (s : State) (k n x : Nat) : State :=
  s.onCore k (fun c => { c with counters := c.counters.set n ((c.counters.getD n 0 + x) % 2 ^ 64) })

/-- The group has been saved off its core by a pre-emption, parked or not (R303). -/
def Group.aside (g : Group) : Bool := g.residence == .saved || (g.residence == .parked && g.halted)
/-- The groups whose reservation a core holds (R222). -/
def State.groupsOn (s : State) (k : Nat) : List (Nat × Group) :=
  s.groups.filter (fun e => e.2.core = k && !e.2.aside)
/-- The groups that occupy a slot of a core (R208). -/
def State.residentOn (s : State) (k : Nat) : List (Nat × Group) :=
  (s.groupsOn k).filter (fun e => e.2.residence == .resident)
/-- The pool share of a reservation: all of it, or beyond the 32 ember rows (R225). -/
def Group.pool (g : Group) : Nat := (if g.ember then g.resv - 32 else g.resv) - g.share.elim 0 (·.rows)
/-- The free pool count of a core (R222). -/
def State.freeRows (s : State) (k : Nat) : Nat := 4096 - ((s.groupsOn k).map (·.2.pool)).sum
/-- Resident groups, the ember group excluded (R218). -/
def State.slots (s : State) (k : Nat) : Nat := ((s.residentOn k).filter (fun e => !e.2.ember)).length
/-- The ember reserve of a core is in use (R225). -/
def State.emberUsed (s : State) (k : Nat) : Bool := (s.residentOn k).any (·.2.ember)

/-- Rows a group holds: names with a valid lane (R220). -/
def Group.liveNames (g : Group) : List Nat :=
  (upTo 128).filter (fun n => g.threads.any (fun e => (Tbl.get? e.2.v n).isSome))

/-- The REGCLM claims that wait on a core, oldest first: group, wait, count, younger claims passed (R223). -/
def State.claims (s : State) (k : Nat) : List (Nat × Nat × Nat × Nat) :=
  let all := (s.residentOn k).flatMap (fun e => e.2.waits.filterMap (fun w =>
    match w.2.kind with
    | .claim n => some (w.2.born, e.1, w.1, n, w.2.passed)
    | _ => none))
  (all.sortBy (fun a b => a.1 ≤ b.1)).map (·.2)

/-- Rows held for a passed-over claim (R223). -/
def State.heldFor (s : State) (k : Nat) : Nat :=
  match (s.claims k).find? (fun c => decide (64 ≤ c.2.2.2)) with
  | some c => min c.2.2.1 (s.freeRows k)
  | none => 0

/-- Rows that a kindled group or a team may take: free and not held for a claim (R223). -/
def State.openRows (s : State) (k : Nat) : Nat := s.freeRows k - s.heldFor k

/-- The closed bins of a unit that may form. -/
def State.readyBins (s : State) (k : Nat) : List (Nat × Bin) :=
  s.bins.filter (fun e => e.2.core = k && e.2.closed.isSome
    && (s.launches.get? e.2.lseq).elim false (fun n => n.state = 2 && n.preempt.isNone))

/-- The rows and the slots of core k that others than the bin for which its unit holds capacity may take (R285, R297). -/
def State.spare (s : State) (k : Nat) : Nat × Nat :=
  match (s.core k).kheld.bind (fun h => if (s.readyBins k).any (·.1 = h.bin) then some h else none) with
  | none => (s.openRows k, 127 - s.slots k)
  | some h => (min (s.openRows k) h.rows, min (127 - s.slots k) h.slots)

/-- A launch may be dispatched: it runs and no pre-emption acts on it (R302). -/
def State.mayRun (s : State) (l : Nat) : Bool :=
  (s.launches.get? l).elim false (fun n => n.state = 2 && n.preempt.isNone && n.ending.isNone)

/-- The team for which a distributor holds capacity (R297). -/
def State.heldTeam (s : State) (d : Dist) : Option (Nat × Nat) :=
  d.held.bind (fun h => if d.queue.contains h && s.mayRun h.1 then some h else none)

/-- The rows and the slots of core k that others than the team for which its die's distributor holds capacity may take
(R297). -/
def State.teamSpare (s : State) (k : Nat) : Nat × Nat :=
  let d := (s.die (k / 96)).dist
  let open_ := (s.openRows k, 127 - s.slots k)
  if (s.heldTeam d).isNone then open_
  else
    let h := d.spare.getD k open_
    (min open_.1 h.1, min open_.2 h.2)

/-- Others than the bin or the team for which capacity of core k is held take rows and slots there (R285, R297). -/
def State.useSpare (s : State) (k rows slots : Nat) : State :=
  (s.onCore k (fun c => { c with kheld := c.kheld.map (fun h => ⟨h.bin, h.rows - rows, h.slots - slots⟩) })).onDie (k / 96)
    (fun d => { d with dist := { d.dist with spare := d.dist.spare.modify k (fun h => (h.1 - rows, h.2 - slots)) } })

/-- The effective priority of a launch: its own and those of launches waiting for it, transitively (R298). -/
def State.prio (s : State) (l : Nat) : Nat :=
  let step := fun (m : Tbl Nat) => s.launches.map (fun e =>
    (e.1, (s.launches.filter (fun d => d.2.state = 1 && d.2.rc.prereq.contains e.1)).foldl
      (fun a d => max a (m.getD d.1 d.2.rc.prio)) e.2.rc.prio))
  let m := (upTo s.launches.length).foldl (fun m _ => step m) (s.launches.map (fun e => (e.1, e.2.rc.prio)))
  m.getD l 0

/-! ## The register window (R383) -/

/-- A core's issue state word (R218). -/
def State.issueWord (s : State) (k : Nat) : Nat :=
  let c := s.core k
  let mc := match c.mode with
    | .barrel => 0
    | .startup => 1 + 2 * 1
    | .selftest => 1 + 2 * 2
    | .recovery => 1 + 2 * 3
  mc + s.freeRows k * 2 ^ 8 + (if s.emberUsed k then 2 ^ 21 else 0) + s.slots k * 2 ^ 22

/-- The code of a job kind (R147). -/
def JobKind.code : JobKind → Nat
  | .cpy => 0
  | .gath => 1
  | .scat => 2
  | .coll => 3

/-- The code of a job state (R147). -/
def JobState.code : JobState → Nat
  | .unused => 0
  | .waiting => 1
  | .running => 2
  | .complete => 3
  | .failed => 4
  | .cancelled => 5

/-- The identifier of a job (R141). -/
def Job.ident (j : Job) (key : Nat) : Nat := key % 32 + (j.issues % 2 ^ 27) * 32

/-- The first word of a job-table entry (R276). -/
def Job.word0 (j : Job) : Nat :=
  j.state.code + (if j.state == .failed then j.fault else 0) * 2 ^ 8 + j.kind.code * 2 ^ 16
    + (j.barrier.getD 16) * 2 ^ 18 + min j.waits.length 31 * 2 ^ 23

/-- Word n of a job-table entry as the driver reads it (R276; GROUP of a kindled group's job: DESIGN CHOICE, log 100). -/
def State.jobWord (s : State) (key n : Nat) : Nat :=
  match s.jobs.get? key with
  | none => if n = 0 then 16 * 2 ^ 18 else 0
  | some j =>
    match n with
    | 0 => j.word0
    | 1 => j.ident key
    | 2 => j.lseq % 2 ^ 32
    | 3 => j.lseq / 2 ^ 32
    | 4 => (j.team.bind (s.teams.get? ·)).elim 0xFFFFFFFF (·.tix)
    | 5 => j.gix % 2 ^ 16
    | 6 => j.bytes % 2 ^ 32
    | _ => j.bytes / 2 ^ 32

/-- The code of an ownership state (R311). -/
def OwnState.code : OwnState → Nat
  | .steady => 0
  | .closing => 1
  | .draining => 2
  | .switching => 3

/-- The first word of an ownership entry (R158, R311). -/
def Stack.word (k : Stack) : Nat := k.owner + k.st.code * 2 ^ 8

/-- Teams queued at a distributor at a priority (R383). -/
def State.queued (s : State) (d : Dist) (p : Nat) : Nat := (d.queue.filter (fun e => s.prio e.1 = p)).length

/-- Rows of a die that are held for a bin or a team (R285, R297). -/
def State.heldRows (s : State) (x : Nat) : Nat :=
  ((upTo 96).map (fun i => s.openRows (96 * x + i) - min (s.spare (96 * x + i)).1 (s.teamSpare (96 * x + i)).1)).sum

/-- Word n of an occupancy block: of a die, or of the package distributor (R383). -/
def State.occupancy (s : State) (p : Nat) (d : Option Nat) (n : Nat) : Nat :=
  let dist := match d with
    | some x => (s.die x).dist
    | none => (s.pkg p).dist
  let mine := fun (k : Nat) => match d with
    | some x => k / 96 == x
    | none => k / 384 == p
  let cores := (upTo 384).map (fun i => 384 * p + i)
  match n with
  | 0 | 1 | 2 | 3 => s.queued dist n
  | 4 => (s.bins.filter (fun e => e.2.closed.isSome && mine e.2.core)).length
  | 5 => (s.recs.filter (fun e => match e.2.place with
      | .spilled _ k => mine k
      | _ => false)).length
  | 6 => d.elim 0 s.heldRows
  | _ => (cores.filter (fun k => mine k && decide (s.slots k < 127))).length

/-- The 4-byte word at an offset of the register window of package p, the offset a multiple of 4 (R383). -/
def State.windowWord (s : State) (p off : Nat) : Nat :=
  let lo := fun (x : Nat) => x % 2 ^ 32
  let hi := fun (x : Nat) => x / 2 ^ 32
  let half := fun (a x : Nat) => if a % 8 = 0 then lo x else hi x
  let q := s.pkg p
  if off = 0 then 0xD904 + (Config.stepping p).toNat * 2 ^ 16
  else if off = 4 then (Config.fuseSvn p).toNat + min q.events 65535 * 2 ^ 16
  else if off = 8 then lo (Config.serial p).toNat
  else if off = 12 then hi (Config.serial p).toNat
  else if off = 16 then q.number % 256 + q.tray % 64 * 2 ^ 8 + q.slot % 4 * 2 ^ 14
    + (if q.primary then 2 ^ 16 else 0) + (if q.mirror then 2 ^ 17 else 0)
  else if off = 24 then 0x2D4E564E
  else if off = 28 then 0x342D3944
  else if off = 32 then 0x00533843
  else if 0x40 ≤ off ∧ off < 0x60 then
    match off - 0x40 with
    | 0 => lo s.queue.qbase.toNat
    | 4 => hi s.queue.qbase.toNat
    | 8 => s.queue.log2.toNat
    | 16 => lo s.queue.tail.toNat
    | 20 => hi s.queue.tail.toNat
    | 24 => lo s.queue.head.toNat
    | 28 => hi s.queue.head.toNat
    | _ => 0
  else if 0x1000 ≤ off ∧ off < 0x1040 then
    let k := s.stack (8 * p + (off - 0x1000) / 8)
    if off % 8 = 0 then k.word else k.hseq.toNat
  else if 0x1040 ≤ off ∧ off < 0x1060 then half off (s.die (4 * p + (off - 0x1040) / 8)).window.toNat
  else if 0x2000 ≤ off ∧ off < 0x2600 then s.issueWord (384 * p + (off - 0x2000) / 4)
  else if 0x10000 ≤ off ∧ off < 0x1C000 then
    let n := (off - 0x10000) / 8 % 16
    if n = 15 then 0 else half off (s.counter (384 * p + (off - 0x10000) / 128) n)
  else if 0x20000 ≤ off ∧ off < 0x80000 then
    s.jobWord (32 * (384 * p + (off - 0x20000) / 1024) + (off - 0x20000) / 32 % 32) ((off - 0x20000) / 4 % 8)
  else if 0x80000 ≤ off ∧ off < 0x80140 then
    let d := (off - 0x80000) / 64
    half off (s.occupancy p (if d < 4 then some (4 * p + d) else none) ((off - 0x80000) / 8 % 8))
  else if 0x90000 ≤ off ∧ off < 0x90800 then half off (q.routes.getD ((off - 0x90000) / 8) 0).toNat
  else if 0x91000 ≤ off ∧ off < 0x91240 then
    let n := q.ports.getD ((off - 0x91000) / 4) Port.reset
    n.neigh % 512 + n.lstate % 4 * 2 ^ 9 + min n.retry 65535 * 2 ^ 16
  else if 0x91400 ≤ off ∧ off < 0x91430 then half off (q.fabric.getD ((off - 0x91400) / 8) 0)
  else 0

/-- The byte at an offset of the register window of package p. -/
def State.windowByte (s : State) (p off : Nat) : Byte :=
  BitVec.ofNat 8 (s.windowWord p (off - off % 4) / 256 ^ (off % 4))

/-- The mirror's replica, where there is one, changes (R377). -/
def State.replicate (s : State) (f : Replica → Replica) : State := { s with replica := s.replica.map f }

/-- The mirror holds the queue's control block as it is (R377). -/
def State.replicateQueue (s : State) : State := s.replicate (fun r => { r with queue := s.queue })

/-- A write of bytes to the queue control registers; every other byte of the window is read-only and the write is
discarded (R378, R383). -/
def State.windowWrite (s : State) (off : Nat) (bytes : List Byte) : State :=
  let old := (upTo 32).map (fun i => s.windowByte 0 (0x40 + i))
  let new := (upTo 32).map (fun i =>
    if 0x40 + i < off then old.getD i 0
    else bytes.getD (0x40 + i - off) (old.getD i 0))
  let n := fun (a k : Nat) => bytesToNat ((new.drop a).take k)
  State.replicateQueue { s with queue := { s.queue with
      qbase := BitVec.ofNat 64 (n 0 8), log2 := BitVec.ofNat 4 (n 8 1), tail := BitVec.ofNat 64 (n 16 8) } }

end Sys2Proof.Machine
end

