-- ==== Sys2Proof/Machine/Mem.lean ====
section
/-! DEFINITION. Memory: physical addresses and homes, the home partition and the DRAM behind it, L1 and the remote
partition with byte dirty masks, loads and stores by scope, page tables, TLBs, the seal map and Translate
(R245 to R254, R310 to R327). -/

namespace Sys2Proof.Machine

/-! ## Physical addresses (R245) -/

/-- PKG of a physical address. -/
def paPkg (pa : Nat) : Nat := pa / 2 ^ 44
/-- STACK of a physical address. -/
def paStack (pa : Nat) : Nat := pa / 2 ^ 41 % 8
/-- SPACE of a physical address. -/
def paSpace (pa : Nat) : Nat := pa / 2 ^ 36 % 32
/-- Byte offset of a physical address. -/
def paOff (pa : Nat) : Nat := pa % 2 ^ 36
/-- The global stack of a physical address (R319). -/
def paHome (pa : Nat) : Nat := 8 * paPkg pa + paStack pa

/-- A physical address names something in a domain of P packages (R245, R325 reason 5). -/
def State.names (s : State) (pa : Nat) : Bool :=
  decide (paPkg pa < s.npkg) && (paSpace pa == 0 || ((paSpace pa == 1 || paSpace pa == 2) && paStack pa == 0))

/-- The compute die that owns the stack of a physical address (R2). -/
def State.homeDie (s : State) (pa : Nat) : Nat := 4 * paPkg pa + (s.stack (paHome pa)).owner

/-- The home of an address is lost: both port dies of its stack, or its package; host-die memory has no stack and no
owner, and is lost with its package only (R245, R349). -/
def State.stackLost (s : State) (pa : Nat) : Bool :=
  (s.pkg (paPkg pa)).lost || (paSpace pa == 0 && (s.die (s.homeDie pa)).lost)

/-- Requests to the stack of this address are served now: it is steady, or no stack stands behind it (R316). -/
def State.homeOpen (s : State) (pa : Nat) : Bool :=
  paSpace pa != 0 || (s.stack (paHome pa)).st == .steady

/-! ## The home -/

/-- A line of 64 bytes of DRAM (R249). -/
def State.dramLine (s : State) (n : Nat) : Line :=
  ⟨s.mem.readBytes (64 * n) 64, 0,
    (upTo 16).foldl (fun b i => if s.memBad.contains (16 * n + i) then b ||| BitVec.ofNat 16 (2 ^ i) else b) 0, false⟩

/-- The L2 line n of die x. -/
def State.l2 (s : State) (x n : Nat) : Option Line := Tbl.get? (s.die x).l2 n

/-- The line as its home holds it: the home partition's copy, or DRAM.  A copy of it bears no mark of a sealed page yet. -/
def State.homeLine (s : State) (n : Nat) : Line :=
  match s.l2 (s.homeDie (64 * n)) n with
  | some l => { l with ofSealed := false }
  | none => s.dramLine n

/-- Enter a line in the L2 of die x. -/
def State.putL2 (s : State) (x n : Nat) (l : Line) : State := s.onDie x (fun d => { d with l2 := d.l2.put n l })

/-- Drop the L1 copies of a line on die x, but for core `keep` (R248, R250). -/
def State.dropL1 (s : State) (x n : Nat) (keep : Option Nat) : State :=
  { s with cores := s.cores.map (fun e =>
      if e.1 / 96 = x ∧ some e.1 ≠ keep then (e.1, { e.2 with l1 := e.2.l1.del n }) else e) }

/-- Drop a line from the L2 of die x, with the die's L1 copies (R248). -/
def State.dropL2 (s : State) (x n : Nat) : State :=
  (s.dropL1 x n none).onDie x (fun d => { d with l2 := d.l2.del n })

/-- Store bytes into a line from byte o, marking them dirty where asked and clearing whole poisoned words (R247). -/
def Line.store (l : Line) (o : Nat) (bytes : List Byte) (dirty : Bool) : Line :=
  let n := bytes.length
  let mask := BitVec.ofNat 64 ((2 ^ n - 1) * 2 ^ o)
  let words := (upTo 16).foldl (fun b i => if o ≤ 4 * i ∧ 4 * i + 4 ≤ o + n then b ||| BitVec.ofNat 16 (2 ^ i) else b)
    (0 : BitVec 16)
  ⟨l.data.take o ++ bytes ++ l.data.drop (o + n), if dirty then l.dirty ||| mask else l.dirty &&& ~~~mask,
    l.bad &&& ~~~words, l.ofSealed⟩

/-- Store bytes to DRAM, clearing whole poisoned words (R247). -/
def State.dramWrite (s : State) (pa : Nat) (bytes : List Byte) : State :=
  { s with mem := s.mem.writeBytes pa bytes,
           memBad := s.memBad.filter (fun w => !(decide (pa ≤ 4 * w) && decide (4 * w + 4 ≤ pa + bytes.length))) }

/-- Store bytes of one line at the home: into its partition's copy, dirty, or to DRAM; the copies of the home die's L1s
go, but for that of core `keep` (R249, R250). -/
def State.homeWriteFor (s : State) (pa : Nat) (bytes : List Byte) (keep : Option Nat) : State :=
  if paSpace pa = 2 then s.windowWrite (paOff pa) bytes
  else if paSpace pa = 1 then s.dramWrite pa bytes
  else
    let x := s.homeDie pa
    match s.l2 x (pa / 64) with
    | some l => (s.putL2 x (pa / 64) (l.store (pa % 64) bytes true)).dropL1 x (pa / 64) keep
    | none => s.dramWrite pa bytes

/-- Store bytes of one line at the home for an agent without an L1. -/
def State.homeWrite (s : State) (pa : Nat) (bytes : List Byte) : State := s.homeWriteFor pa bytes none

/-- Bytes of one line as the home reads them, and whether a poisoned word is among them (R247). -/
def State.homeRead (s : State) (pa n : Nat) : List Byte × Bool :=
  if paSpace pa = 2 then ((upTo n).map (fun i => s.windowByte (paPkg pa) (paOff pa + i)), false)
  else if paSpace pa = 1 then (s.mem.readBytes pa n, (upTo n).any (fun i => s.memBad.contains ((pa + i) / 4)))
  else
    let l := s.homeLine (pa / 64)
    ((l.data.drop (pa % 64)).take n, (upTo n).any (fun i => l.bad.getLsbD ((pa % 64 + i) / 4)))

/-- The dirty bytes of a line merged over another by byte (R249). -/
def Line.merge (base top : Line) (dirty : Bool) : Line :=
  ⟨(upTo 64).map (fun i => if top.dirty.getLsbD i then top.data.getD i 0 else base.data.getD i 0),
    if dirty then base.dirty ||| top.dirty else base.dirty,
    (upTo 16).foldl (fun b i =>
      let m := (upTo 4).map (fun j => top.dirty.getLsbD (4 * i + j))
      let mark := if m.all id then top.bad.getLsbD i
        else base.bad.getLsbD i || (m.any id && top.bad.getLsbD i)
      if mark then b ||| BitVec.ofNat 16 (2 ^ i) else b) 0, base.ofSealed⟩

/-- Put a line's bytes and poisoned marks into DRAM. -/
def State.lineToDram (s : State) (n : Nat) (l : Line) : State :=
  let s := { s with mem := s.mem.writeBytes (64 * n) l.data }
  { s with memBad := s.memBad.filter (fun w => w / 16 ≠ n)
      ++ ((upTo 16).filter (fun i => l.bad.getLsbD i)).map (fun i => 16 * n + i) }

/-- Merge the dirty bytes of a write-back at the home (R249, R316). -/
def State.mergeHome (s : State) (n : Nat) (l : Line) : State :=
  let x := s.homeDie (64 * n)
  match s.l2 x n with
  | some h => (s.putL2 x n (h.merge l true)).dropL1 x n none
  | none => s.lineToDram n ((s.dramLine n).merge l false)

/-- The dirty bytes of line n of die x come to their home: those of a remote line are merged there, those of a home line
put into DRAM; the copy stays, clean (R249, R254). -/
def State.landLine (s : State) (x n : Nat) : State :=
  match s.l2 x n with
  | none => s
  | some l =>
    if l.dirty = 0 then s
    else
      let s := s.putL2 x n { l with dirty := 0 }
      if s.homeDie (64 * n) = x then s.lineToDram n ((s.dramLine n).merge l false) else s.mergeHome n l

/-- Die x holds dirty bytes of line n. -/
def State.dirtyLine (s : State) (x n : Nat) : Bool := (s.l2 x n).elim false (fun l => l.dirty != 0)

/-- Die x takes the next number for a write-back (R255). -/
def State.numberBack (s : State) (x : Nat) : State := s.onDie x (fun d => { d with wbSeq := d.wbSeq + 1 })

/-- Write back line n of die x within its package (R249, R254). -/
def State.writeBackLine (s : State) (x n : Nat) : State :=
  if s.dirtyLine x n then (s.numberBack x).landLine x n else s

/-! ## Packets of the fabric, and write-backs to other packages (R254, R255, R363) -/

/-- Where a packet goes: a package, and the stack or die there (R363). -/
structure PkgPlace where
  pkg : Nat
  place : Nat
  deriving DecidableEq, Repr

/-- The home of a physical address, as a destination. -/
def PkgPlace.home (pa : Nat) : PkgPlace := ⟨paPkg pa, paStack pa⟩
/-- A die, as a destination. -/
def PkgPlace.die (x : Nat) : PkgPlace := ⟨x / 4, x % 4⟩

/-- A packet leaves its source for another package, with a number of bytes of data (R255, R363). -/
def State.packetOut (s : State) (cargo : Cargo) (src tag seq : Nat) (b : PkgPlace) (bytes : Nat)
    (coll : Option CollTag := none) : State :=
  { s with
    packets := s.packets.put s.fresh {
      cargo := cargo, src := src, srcTag := tag, seq := seq, dest := b.pkg, place := b.place, tag := coll, bytes := bytes
      at_ := src, port := none, vc := 0, since := s.fresh, hop := 0, detour := false, path := [], escape := false
      timer := none, armed := s.clock src, probing := false }
    fresh := s.fresh + 1 }

/-- The source tags of a die's L2, a kindling unit, a job and a collective engine; those of threads lie below them
(R255). -/
def lineTag (x : Nat) : Nat := 2 ^ 49 + x
def unitTag (k : Nat) : Nat := 2 ^ 48 + k
def jobTag (key : Nat) : Nat := 2 ^ 50 + key
def collTag (x : Nat) : Nat := 2 ^ 51 + x

/-- Line n lies in a stack of another package than die x. -/
def lineAbroad (x n : Nat) : Bool := paSpace (64 * n) == 0 && paPkg (64 * n) != x / 4

/-- A packet carries dirty bytes of line n of die x, or their acknowledgement. -/
def State.lineOut (s : State) (x n : Nat) : Bool :=
  s.packets.any (fun e => e.2.cargo == .lineBack x n || e.2.cargo == .lineAck x n)

/-- A write-back of die x to another package has not been acknowledged yet (R254). -/
def State.backOut (s : State) (x : Nat) : Bool :=
  s.packets.any (fun e => match e.2.cargo with
    | .lineBack y _ | .lineAck y _ => y == x
    | _ => false)

/-- The dirty bytes of line n of die x go to their home on another package; they stay dirty here until they have come
there (R254, R363; DESIGN CHOICE, log 101). -/
def State.sendLine (s : State) (x n : Nat) : State :=
  match s.l2 x n with
  | none => s
  | some l =>
    if l.dirty = 0 || !lineAbroad x n || s.lineOut x n then s
    else
      (s.numberBack x).packetOut (.lineBack x n) (x / 4) (lineTag x) (s.die x).wbSeq (PkgPlace.home (64 * n))
        ((upTo 64).filter (fun i => l.dirty.getLsbD i)).length

/-- The remote-partition lines of die x (R249). -/
def State.remoteLines (s : State) (x : Nat) : List Nat :=
  ((s.die x).l2.filter (fun e => s.homeDie (64 * e.1) ≠ x)).map (·.1)

/-- Write back every dirty byte of the remote partition of die x (R254). -/
def State.flushRemote (s : State) (x : Nat) : State := (s.remoteLines x).foldl (fun s n => s.writeBackLine x n) s

/-- Line n of die x may be written back now: it is clean, or its home stands on its package and is not in transition
(R316). -/
def State.lineOpen (s : State) (x n : Nat) : Bool :=
  (s.l2 x n).elim true (fun l => l.dirty == 0 || (s.homeOpen (64 * n) && !lineAbroad x n))

/-- No dirty line of the remote partition of die x waits for a home in transition, and every write-back to another package
has been acknowledged (R254, R316). -/
def State.flushOpen (s : State) (x : Nat) : Bool := (s.remoteLines x).all (fun n => s.lineOpen x n) && !s.backOut x

/-- The dirty lines of die x whose homes lie on other packages go on their way (R254). -/
def State.sendLines (s : State) (x : Nat) : State := (s.remoteLines x).foldl (fun s n => s.sendLine x n) s

/-- The line of an address holds no dirty bytes on die x for another package, and none is on its way or unacknowledged
(R253). -/
def State.settled (s : State) (x pa : Nat) : Bool :=
  !lineAbroad x (pa / 64) || (!s.dirtyLine x (pa / 64) && !s.lineOut x (pa / 64))

/-! ## Room in the caches (R3) -/

/-- Enter a clean copy of line n in the L1 of core k, which holds 256 KiB: where it is full, a line goes that is the
implementation's choice (R3, R248; log 97). -/
def State.enterL1 (s : State) (k n : Nat) (l : Line) : State :=
  let c := (s.core k).l1
  let put := fun (s : State) (t : Tbl Line) => s.onCore k (fun c => { c with l1 := t.put n { l with dirty := 0 } })
  if (Tbl.get? c n).isSome || decide (c.length < 4096) then put s c
  else put s.tick (c.del ((Tbl.keys c).getD (Config.victim s.fresh % c.length) 0))

/-- Room for line n in the L2 of die x, which holds 64 MiB: where it is full, a line whose write-back need not wait goes,
at the implementation's choice, its dirty bytes written back; none where no line may go now (R3, R249; log 97). -/
def State.roomL2 (s : State) (x n : Nat) : Option State :=
  let c := (s.die x).l2
  if (Tbl.get? c n).isSome || decide (c.length < 2 ^ 20) then some s
  else
    let may := (Tbl.keys c).filter (fun m => s.lineOpen x m)
    (may[Config.victim s.fresh % may.length]?).map (fun m => (s.tick.writeBackLine x m).dropL2 x m)

/-! ## The device's own reads and writes (R310, log 15) -/

/-- The pieces of n bytes from an address, none crossing a line of 64 bytes; the fuel is n. -/
def linePieces : Nat → Nat → Nat → List (Nat × Nat)
  | 0, _, _ => []
  | _, _, 0 => []
  | f + 1, a, n =>
    let k := min n (64 - a % 64)
    (a, k) :: linePieces f (a + k) (n - k)

/-- Bytes that the device reads, each line at its home. -/
def State.devRead (s : State) (pa n : Nat) : List Byte :=
  (linePieces n pa n).flatMap (fun e => (s.homeRead e.1 e.2).1)
/-- A number that the device reads. -/
def State.devNat (s : State) (pa n : Nat) : Nat := bytesToNat (s.devRead pa n)
/-- Bytes that the device stores, each line at its home. -/
def State.devWrite (s : State) (pa : Nat) (bytes : List Byte) : State :=
  (linePieces bytes.length pa bytes.length).foldl (fun s e => s.homeWrite e.1 ((bytes.drop (e.1 - pa)).take e.2)) s

/-! ## The seal map (R327) -/

/-- The first word of header i. -/
def State.sealHead (s : State) (i : Nat) : Nat := s.devNat (s.sealMap.toNat + 16 * i) 4

/-- The header of a region, by index, where one is valid. -/
def State.sealHeader (s : State) (region : Nat) : Option Nat :=
  if s.sealMap = 0 then none
  else (upTo 4096).find? (fun i => s.sealHead i / 2 ^ 31 = 1 && s.sealHead i % 2 ^ 27 = region)

/-- Where the seal bit of a page stands: byte address and bit. -/
def State.sealBit (s : State) (hdr va : Nat) : Nat × Nat :=
  (s.sealMap.toNat + 0x10000 + 0x8000 * hdr + va / 2 ^ 12 % 2 ^ 18 / 8, va / 2 ^ 12 % 8)

/-- The byte of the seal map at an address. -/
def State.sealByte (s : State) (a : Nat) : Byte := BitVec.ofNat 8 (s.devNat a 1)

/-- The 4 KiB page of a virtual address is sealed (R116). -/
def State.sealedPage (s : State) (va : Nat) : Bool :=
  match s.sealHeader (va / 2 ^ 30 % 2 ^ 27) with
  | none => false
  | some h => let (a, b) := s.sealBit h va; (s.sealByte a).getLsbD b

/-- The seal summary of a page of a size: its bit, or whether a 4 KiB page inside it is sealed (R322). -/
def State.sealSummary (s : State) (va size : Nat) : Bool :=
  match s.sealHeader (va / 2 ^ 30 % 2 ^ 27) with
  | none => false
  | some h =>
    if size ≤ 4096 then s.sealedPage va
    else if size ≤ 2 ^ 21 then (s.devRead (s.sealBit h va).1 (size / 2 ^ 15)).any (· ≠ 0)
    else true

/-- Set the seal bit of a page, taking a header where needed; none when no header is free (R327). -/
def State.seal (s : State) (va : Nat) : Option State :=
  let region := va / 2 ^ 30 % 2 ^ 27
  let hdr := match s.sealHeader region with
    | some h => some h
    | none => if s.sealMap = 0 then none else (upTo 4096).find? (fun i => s.sealHead i / 2 ^ 31 = 0)
  hdr.map (fun h =>
    let base := s.sealMap.toNat + 16 * h
    let (a, b) := s.sealBit h va
    let old := s.sealByte a
    let s := s.devWrite base (natToBytes 4 (region + 2 ^ 31))
    let s := if old.getLsbD b then s else s.devWrite (base + 4) (natToBytes 4 (s.devNat (base + 4) 4 + 1))
    s.devWrite a [old ||| BitVec.ofNat 8 (2 ^ b)])

/-- Clear the seal bit of a page; a region without sealed pages gives its header back (R327). -/
def State.unseal (s : State) (va : Nat) : State :=
  match s.sealHeader (va / 2 ^ 30 % 2 ^ 27) with
  | none => s
  | some h =>
    let base := s.sealMap.toNat + 16 * h
    let (a, b) := s.sealBit h va
    let old := s.sealByte a
    if old.getLsbD b then
      let n := s.devNat (base + 4) 4 - 1
      let s := (s.devWrite (base + 4) (natToBytes 4 n)).devWrite a [old &&& ~~~(BitVec.ofNat 8 (2 ^ b))]
      if n = 0 then s.devWrite base (natToBytes 4 0) else s
    else s

/-! ## Loads and stores by scope (R248 to R253) -/

/-- How an access is served. -/
structure Serve where
  scope : Nat
  nt : Bool
  uc : Bool
  sealedPage : Bool
  deriving DecidableEq, Repr

/-- Uncached: UC pages, host-die DRAM and the register window (R245, R251). -/
def Serve.bypass (v : Serve) (pa : Nat) : Bool := v.uc || paSpace pa != 0

/-- Bytes at the stack controller: a UC access (R251). -/
def State.ucRead (s : State) (pa n : Nat) : List Byte × Bool :=
  if paSpace pa ≠ 0 then s.homeRead pa n
  else (s.mem.readBytes pa n, (upTo n).any (fun i => s.memBad.contains ((pa + i) / 4)))

/-- Store at the stack controller. -/
def State.ucWrite (s : State) (pa : Nat) (bytes : List Byte) : State :=
  if paSpace pa ≠ 0 then s.homeWrite pa bytes else s.dramWrite pa bytes

/-- The line that the home serves replaces the copies on a die (R253). -/
def State.refresh (s : State) (x n : Nat) (l : Line) : State :=
  let s := match s.l2 x n with
    | some c => if s.homeDie (64 * n) = x then s else s.putL2 x n { l with dirty := 0, ofSealed := c.ofSealed }
    | none => s
  { s with cores := s.cores.map (fun e => if e.1 / 96 = x then
      (e.1, { e.2 with l1 := e.2.l1.modify n (fun _ => { l with dirty := 0 }) }) else e) }

/-- Enter a line in the L2 of die x, where it finds room, marked where its page is sealed; one that enters a remote
partition comes clean (R248, R249, R254). -/
def State.allocateL2 (s : State) (x n : Nat) (l : Line) (sealedPage : Bool) : Option State :=
  (s.roomL2 x n).map (fun r => r.putL2 x n { l with
    ofSealed := l.ofSealed || sealedPage
    dirty := if s.homeDie (64 * n) = x || (s.l2 x n).isSome then l.dirty else 0 })

/-- Enter a line in the L2 of core k's die and in the core's L1, where the L2 finds room for it (R248; log 97). -/
def State.allocate (s : State) (k n : Nat) (l : Line) (sealedPage : Bool) : State :=
  ((s.allocateL2 (k / 96) n l sealedPage).map (fun r => r.enterL1 k n l)).getD s

/-- Bytes of a line, and whether a poisoned word is among them (R247). -/
def Line.cut (l : Line) (o n : Nat) : List Byte × Bool :=
  ((l.data.drop o).take n, (upTo n).any (fun i => l.bad.getLsbD ((o + i) / 4)))

/-- A load of n bytes of one line by core k: the state with its caches, the bytes, poisoned (R253). -/
def State.loadBytes (s : State) (k pa n : Nat) (v : Serve) : State × List Byte × Bool :=
  let ln := pa / 64
  let x := k / 96
  if v.bypass pa then (s, s.ucRead pa n)
  else if 2 ≤ v.scope ∧ v.sealedPage = false then
    let s := if s.homeDie pa ≠ x then s.writeBackLine x ln else s
    let l := s.homeLine ln
    let s := s.refresh x ln l
    if v.nt then (s, l.cut (pa % 64) n)
    else ((s.count k 6 1).allocate k ln { l with dirty := if s.homeDie pa = x then l.dirty else 0 } false, l.cut (pa % 64) n)
  else
    match Tbl.get? (s.core k).l1 ln with
    | some l => (s.count k 5 1, l.cut (pa % 64) n)
    | none =>
      let s := s.count k 6 1
      let l := (s.l2 x ln).getD (s.homeLine ln)
      if v.nt then (s, l.cut (pa % 64) n) else (s.allocate k ln l v.sealedPage, l.cut (pa % 64) n)

/-- Update the L1 copy of core k and drop every other on its die (R248, R250). -/
def State.storeL1 (s : State) (k pa : Nat) (bytes : List Byte) : State :=
  let s := s.dropL1 (k / 96) (pa / 64) (some k)
  s.onCore k (fun c => { c with l1 := c.l1.modify (pa / 64) (fun l => l.store (pa % 64) bytes false) })

/-- A store through to the home, the copies on the die of core k following it (R250, R253). -/
def State.storeThrough (s : State) (k pa : Nat) (bytes : List Byte) : State :=
  let x := k / 96
  let s := if s.homeDie pa ≠ x then
      (match s.l2 x (pa / 64) with
       | some l => s.putL2 x (pa / 64) (l.store (pa % 64) bytes false)
       | none => s)
    else s
  (s.homeWriteFor pa bytes (some k)).storeL1 k pa bytes

/-- A store of the bytes of one line by core k (R250, R251, R253); where a full L2 has no room for the line, it is written
through (log 97). -/
def State.storeBytes (s : State) (k pa : Nat) (bytes : List Byte) (v : Serve) : State :=
  let ln := pa / 64
  let x := k / 96
  if v.bypass pa then s.ucWrite pa bytes
  else if 2 ≤ v.scope ∨ (v.nt ∧ s.l2 x ln = none) then s.storeThrough k pa bytes
  else
    match s.allocateL2 x ln ((s.l2 x ln).getD (s.homeLine ln)) false with
    | none => s.storeThrough k pa bytes
    | some r =>
      match r.l2 x ln with
      | none => r
      | some l => (r.putL2 x ln (l.store (pa % 64) bytes true)).storeL1 k pa bytes

/-- The remote-partition lines of die x that an acquire invalidates: those of no sealed page, or all (R254, R265). -/
def State.acquired (s : State) (x : Nat) (all : Bool) : List Nat :=
  (s.remoteLines x).filter (fun n => all || !(s.l2 x n).elim false (·.ofSealed))

/-- No dirty line that an acquire would invalidate waits for a home in transition (R316). -/
def State.acquireOpen (s : State) (x : Nat) (all : Bool) : Bool := (s.acquired x all).all (fun n => s.lineOpen x n)

/-- Invalidate remote-partition lines of die x, dirty bytes sent home first (R254). -/
def State.acquireLines (s : State) (x : Nat) (all : Bool) : State :=
  (s.acquired x all).foldl (fun s n => (s.writeBackLine x n).dropL2 x n) s

/-! ## Page tables and Translate (R320 to R325) -/

/-- The kind of an access (R35, R325). -/
inductive Acc where
  | read | write | atomic | fetch
  deriving DecidableEq, Repr

/-- The code of a kind (R325). -/
def Acc.code : Acc → Nat
  | .read => 0
  | .write => 1
  | .atomic => 2
  | .fetch => 3

/-- What Translate answers. -/
inductive Tr where
  | ok (pa : Nat) (e : TlbEntry)
  /-- A fault: code and detail. -/
  | bad (code detail : Nat)
  /-- The walk or the fill waits for a stack in transition (R313, R316). -/
  | hold
  deriving DecidableEq, Repr

/-- A page-table entry. -/
structure Pte where
  raw : Nat
  deriving DecidableEq, Repr

namespace Pte
def v (p : Pte) : Bool := p.raw.testBit 0
def leaf (p : Pte) : Bool := p.raw.testBit 1
def c64 (p : Pte) : Bool := p.raw.testBit 8
def pa (p : Pte) : Nat := bitsOf p.raw 51 12 * 4096
def attrs (p : Pte) : Nat := bitsOf p.raw 7 2
end Pte

/-- Read a page-table entry at rack scope from its home: none while the home is in transition; poisoned (R321). -/
def State.readPte (s : State) (a : Nat) : Option (Pte × Bool) :=
  if s.homeOpen a then let (b, p) := s.homeRead a 8; some (⟨bytesToNat b⟩, p) else none

/-- The reason an entry at a level is malformed, in the order of R325. -/
def State.pteReason (s : State) (p : Pte) (level : Nat) : Nat :=
  let must := if p.leaf then bitsOf p.raw 63 52 ≠ 0 || bitsOf p.raw 11 9 ≠ 0 || (decide (level ≠ 0) && p.c64)
      || (level == 2 && bitsOf p.raw 29 12 ≠ 0) || (level == 1 && bitsOf p.raw 20 12 ≠ 0)
    else bitsOf p.raw 63 52 ≠ 0 || bitsOf p.raw 11 9 ≠ 0 || bitsOf p.raw 8 2 ≠ 0
  if (level ≥ 3 && p.leaf) || (level = 0 && !p.leaf) then 7
  else if must then 3
  else if !s.names p.pa then 5
  else 0

/-- The 16 entries of a 64 KiB group agree, and one of them is poisoned (R321); hold while their home is in transition. -/
def State.group64 (s : State) (table idx : Nat) : Option (Bool × Bool) :=
  let es := (upTo 16).map (fun i => s.readPte (table + 8 * (16 * (idx / 16) + i)))
  if es.any (·.isNone) then none
  else
    let ps : List Pte := es.map (fun e => (e.getD (⟨0⟩, false)).1)
    let p0 : Pte := ps.getD 0 ⟨0⟩
    some (decide (p0.pa % 65536 = 0) && (upTo 16).all (fun i =>
      let p : Pte := ps.getD i ⟨0⟩
      p.v && p.c64 && p.leaf && p.attrs == p0.attrs && p.pa == p0.pa + 4096 * i), es.any (fun e => e.elim false (·.2)))

/-- The walk from a level with a table (R320, R321). -/
def State.walk (s : State) (va : Nat) : Nat → Nat → Tr
  | level, table =>
    let idx := va / 2 ^ (12 + 9 * level) % 512
    match s.readPte (table + 8 * idx) with
    | none => .hold
    | some (p, poisoned) =>
      if poisoned then .bad 0x31 0
      else if !p.v then .bad 0x10 level
      else
        let r := s.pteReason p level
        let r := if (r = 0 ∨ r = 5) ∧ level = 0 ∧ p.c64 then
            (match s.group64 table idx with
             | none => 99
             | some (_, true) => 98
             | some (true, false) => r
             | some (false, false) => 4)
          else r
        if r = 99 then .hold
        else if r = 98 then .bad 0x31 0
        else if r ≠ 0 then .bad 0x11 (level + r * 256)
        else if p.leaf then
          let size := if level = 0 then (if p.c64 then 65536 else 4096) else 2 ^ (12 + 9 * level)
          let base := if p.c64 ∧ level = 0 then p.pa - 4096 * (idx % 16) else p.pa
          .ok (base + va % size)
            ⟨va - va % size, size, base, p.raw.testBit 2, p.raw.testBit 3, p.raw.testBit 4, p.raw.testBit 5,
              p.raw.testBit 6, p.raw.testBit 7, if paSpace base = 0 then some (paHome base) else none, 0, false⟩
        else
          match level with
          | 0 => .bad 0x11 (7 * 256)
          | l + 1 => s.walk va l p.pa

/-- The entry of a TLB that maps a virtual address. -/
def tlbFind (l : List TlbEntry) (va : Nat) : Option TlbEntry :=
  l.find? (fun e => decide (e.va ≤ va) && decide (va < e.va + e.size))

/-- A TLB of n entries after one of them is used, or enters it: the least recently used gives way (R322). -/
def tlbUse (n : Nat) (e : TlbEntry) (l : List TlbEntry) : List TlbEntry := (e :: l.erase e).take n

/-- A translation is the latest in the TLB of die x, of 16,384 entries (R322). -/
def State.fillTlb (s : State) (x : Nat) (e : TlbEntry) : State :=
  s.onDie x (fun d => { d with tlb := tlbUse 16384 e d.tlb })

/-- Use a translation: it is the latest in the core's TLB of 128 entries, and where that TLB did not hold it, in the
die's (R322). -/
def State.useTlb (s : State) (k : Nat) (e : TlbEntry) : State :=
  (if (s.core k).tlb.contains e then s else s.fillTlb (k / 96) e).onCore k (fun c => { c with tlb := tlbUse 128 e c.tlb })

/-- The walk is of this page for die x. -/
def Walk.covers (w : Walk) (x va : Nat) : Bool := w.die == x && w.va.toNat / 4096 == va / 4096

/-- Enter a walk or a fill that waits, once for a page (R313, R322). -/
def State.noteWalk (s : State) (x va : Nat) (fill : Bool) : State :=
  if s.walks.any (fun e => e.2.covers x va && e.2.fill == fill) then s
  else { s with walks := s.walks.put s.fresh ⟨x, BitVec.ofNat 64 va, fill⟩, fresh := s.fresh + 1 }

/-- The walks in flight of die x: its first 64 (R322). -/
def State.inFlight (s : State) (x : Nat) : List Walk := ((s.walks.map (·.2)).filter (·.die == x)).take 64

/-- A miss of die x may walk now: fewer than 64 walks stand before it (R322). -/
def State.mayWalk (s : State) (x va : Nat) : Bool :=
  decide ((s.inFlight x).length < 64) || (s.inFlight x).any (fun w => w.covers x va)

/-- A walk of a page has ended. -/
def State.walked (s : State) (x va : Nat) : State := { s with walks := s.walks.filter (fun e => !e.2.covers x va) }

/-- Walk and fill for die x: the translation with the owner and the seal summary recorded; a walk or a fill that meets a
stack in transition waits, and so does one beyond the 64 in flight on the die (R313, R321, R322). -/
def State.walkFill (s : State) (x va : Nat) : State × Tr :=
  if !s.mayWalk x va then (s.noteWalk x va false, .hold)
  else
    match s.walk va 4 s.ptRoot.toNat with
    | .ok pa e =>
      let e := { e with anySealed := s.sealSummary e.va e.size }
      match e.home with
      | none => ((s.walked x va).fillTlb x e, .ok pa e)
      | some h =>
        let n := s.stack h
        if n.st = .steady then
          let e := { e with owner := 4 * (h / 8) + n.owner }
          ((s.walked x va).fillTlb x e, .ok pa e)
        else (s.noteWalk x va true, .hold)
    | .hold => (s.noteWalk x va false, .hold)
    | r => (s.walked x va, r)

/-- Look up in the core's TLB, then in the die's, or walk and fill, for core k (R322). -/
def State.lookup (s : State) (k va : Nat) : State × Tr :=
  match (tlbFind (s.core k).tlb va).or (tlbFind (s.die (k / 96)).tlb va) with
  | some e => (s.useTlb k e, .ok (e.pa + (va - e.va)) e)
  | none =>
    match s.walkFill (k / 96) va with
    | (s, .ok pa e) => (s.useTlb k e, .ok pa e)
    | r => r

/-- A walk that waited ends, where it can: its translation is filled (R313, R321); a fault of it is raised by the
access when it is made again. -/
def State.endWalk (s : State) (w : Nat) : State :=
  match s.walks.get? w with
  | none => s
  | some k => (s.walkFill k.die k.va.toNat).1

/-- Translate for an access by core k (R324, R325). -/
def State.translate (s : State) (k : Nat) (va : Dword) (kind : Acc) : State × Tr :=
  if bitsOf va.toNat 63 57 ≠ 0 then (s, .bad 0x11 (kind.code * 16 + 1 * 256))
  else
    match s.lookup k va.toNat with
    | (s, .bad 0x31 _) => (s, .bad 0x31 0)
    | (s, .bad code d) => (s, .bad code (d + kind.code * 16))
    | (s, .hold) => (s, .hold)
    | (s, .ok pa e) =>
      let may := match kind with
        | .read => e.r
        | .write => e.w
        | .atomic => e.r && e.w
        | .fetch => e.x
      if !may then (s, .bad 0x11 (kind.code * 16 + 2 * 256))
      else
        match e.home with
        | some h =>
          if e.ol ∧ k / 96 ≠ e.owner then (s, .bad 0x12 (s.stack h).word)
          else if (kind = .write ∨ kind = .atomic) ∧ s.sealedPage va.toNat then (s, .bad 0x13 (kind.code * 16))
          else (s, .ok pa e)
        | none =>
          if (kind = .write ∨ kind = .atomic) ∧ s.sealedPage va.toNat then (s, .bad 0x13 (kind.code * 16))
          else (s, .ok pa e)

/-- The access changes memory. -/
def Acc.changes : Acc → Bool
  | .write | .atomic => true
  | _ => false

/-- The access that has waited longest for the stack of an address: the requests held under a hand-over go on in their
order of arrival, and later ones stand behind them (R314, R315). -/
def State.firstFor (s : State) (pa : Nat) : Option Passed :=
  if paSpace pa ≠ 0 then none else s.passed.find? (fun p => paSpace p.pa == 0 && paHome p.pa == paHome pa)

/-- The stack of an address admits an access of an agent now: it is steady and no other access waits before it (R316). -/
def State.admits (s : State) (a : Agent) (pa : Nat) : Bool :=
  s.homeOpen pa && (s.firstFor pa).elim true (fun p => p.agent == a)

/-- An access waits for its home, behind those that wait already. -/
def State.await (s : State) (p : Passed) : State :=
  if s.passed.contains p then s else { s with passed := s.passed ++ [p] }

/-- No access of an agent waits any more. -/
def State.unawait (s : State) (a : Agent) : State := { s with passed := s.passed.filter (fun p => p.agent != a) }

/-- The translation of an access that needs none. -/
def TlbEntry.blank : TlbEntry := ⟨0, 0, 0, false, false, false, false, false, false, none, 0, false⟩

/-- Translate an access of an agent whose home serves it at once.  An access that has passed the check is not checked
again: where its home is in transition it waits, and is performed where its home is then (R313, R316). -/
def State.reach (s : State) (a : Option Agent) (k : Nat) (va : Dword) (kind : Acc) : State × Tr :=
  let free := fun (s : State) (pa : Nat) => s.homeOpen pa && (s.firstFor pa).elim true (fun p => some p.agent == a)
  match a.bind (fun a => s.passed.find? (fun p => p.agent == a && p.va == va.toNat && p.write == kind.changes)) with
  | some p => if free s p.pa then ({ s with passed := s.passed.erase p }, .ok p.pa p.entry) else (s, .hold)
  | none =>
    match s.translate k va kind with
    | (s, .ok pa e) =>
      if free s pa then (s, .ok pa e)
      else
        match a with
        | some a => (s.await ⟨a, kind.changes, va.toNat, pa, e⟩, .hold)
        | none => (s, .hold)
    | r => r

/-- The 4 KiB page of a virtual address is sealed, as the translation that an access holds tells it (R322). -/
def State.pageSealed (s : State) (e : TlbEntry) (va : Nat) : Bool := e.anySealed && s.sealedPage va

/-- Invalidate the translations of a die, in its own TLB and in its cores', that satisfy a condition. -/
def State.cutTlb (s : State) (x : Nat) (gone : TlbEntry → Bool) : State :=
  let s := s.onDie x (fun d => { d with tlb := d.tlb.filter (fun e => !gone e) })
  { s with cores := s.cores.map (fun e => if e.1 / 96 = x then
      (e.1, { e.2 with tlb := e.2.tlb.filter (fun e => !gone e) }) else e) }

/-- The translation maps a byte of a 4 KiB page. -/
def TlbEntry.maps (e : TlbEntry) (a : Nat) : Bool := decide (e.va < a + 4096) && decide (a < e.va + e.size)

/-- Invalidate the translations of die x that map a byte of a 4 KiB page; none drops every one (R155). -/
def State.dropTlb (s : State) (x : Nat) (page : Option Nat) : State :=
  s.cutTlb x (fun e => page.elim true (fun a => e.maps a))

/-- The compute dies of the domain. -/
def State.allDies (s : State) : List Nat := upTo (4 * s.npkg)

/-- Invalidate a page, or all, in every die of the domain. -/
def State.dropTlbAll (s : State) (page : Option Nat) : State :=
  s.allDies.foldl (fun s x => s.dropTlb x page) s

end Sys2Proof.Machine
end

