-- ==== Sys2Proof/Machine/Operands.lean ====
section
/-! DEFINITION. Operands: what registers a word reads and writes, pairs and quads, effective addresses, demands and
latencies (R20 to R30, R84, R105, R106). -/

namespace Sys2Proof.Machine

/-- What a word reads and writes: vector, uniform and predicate sources, vector, predicate and uniform destinations,
and its L(W) (R27, R29). -/
structure Shape where
  vs : List Nat
  us : List Nat
  ps : List Nat
  vd : List Nat
  pd : List Nat
  ud : List Nat
  lat : Nat
  deriving DecidableEq, Repr

/-- A word that names no register. -/
def Shape.none : Shape := ⟨[], [], [], [], [], [], 1⟩

/-- Registers n upward, count of them. -/
def regs (f : Field) (n : Nat) : List Nat := (upTo n).map (f.toNat + ·)

/-- D := f(A). -/
def Shape.v2 (d a : Field) : Shape := { Shape.none with vs := [a.toNat], vd := [d.toNat], lat := 2 }
/-- D := f(A, B). -/
def Shape.v3 (d a b : Field) : Shape := { Shape.none with vs := [a.toNat, b.toNat], vd := [d.toNat], lat := 2 }
/-- D := f(D, A, B). -/
def Shape.v4 (d a b : Field) : Shape := { Shape.none with vs := [d.toNat, a.toNat, b.toNat], vd := [d.toNat], lat := 2 }
/-- D := f(A, S(B)). -/
def Shape.vs3 (d a b : Field) : Shape := { Shape.v2 d a with us := [b.toNat] }
/-- Predicate := f(A, B). -/
def Shape.cmp (d a b : Field) : Shape :=
  { Shape.none with vs := [a.toNat, b.toNat], pd := [d.toNat % 8], lat := 2 }
/-- Predicate := f(A, S(B)). -/
def Shape.cmps (d a b : Field) : Shape :=
  { Shape.none with vs := [a.toNat], us := [b.toNat], pd := [d.toNat % 8], lat := 2 }
/-- Predicate := f(pA, pB). -/
def Shape.preds (d : Field) (ps : List Field) : Shape :=
  { Shape.none with ps := ps.map (·.toNat), pd := [d.toNat], lat := 2 }
/-- A transcendental form (R27). -/
def Shape.trans (d a : Field) : Shape := { Shape.v2 d a with lat := 3 }

/-- The demand of a STALL code: skipped slots plus one (R26). -/
def demandOf (stall : BitVec 2) : Nat := if stall = 3 then 5 else stall.toNat + 1

/-- Bytes of a WIDTH code (R24). -/
def widthBytes (acc : Word) : Nat := 2 ^ Access.width acc
/-- Registers of a WIDTH code (R105). -/
def widthRegs (acc : Word) : Nat := if Access.width acc = 4 then 4 else if Access.width acc = 3 then 2 else 1

/-- Registers as a number, the first lowest (R21). -/
def joinWords : List Word → Nat
  | [] => 0
  | w :: r => w.toNat + 2 ^ 32 * joinWords r

/-- A number as n registers, the first lowest (R21). -/
def splitWords : Nat → Nat → List Word
  | 0, _ => []
  | n + 1, x => BitVec.ofNat 32 x :: splitWords n (x / 2 ^ 32)

/-! ## Lanes, predicates, uniforms -/

/-- Predicate n of a thread (R35). -/
def Thread.pr (t : Thread) (n : Nat) : Bool := n == 7 || t.p.getLsbD n

/-- Token counter k. -/
def Thread.token (t : Thread) (k : Nat) : Nat := t.tok.getD k 0

/-- Change token counter k. -/
def Thread.setToken (t : Thread) (k n : Nat) : Thread := { t with tok := t.tok.set k n }

/-- The thread runs a trap handler of its group (R342). -/
def Group.inHandler (g : Group) (t : Nat) : Bool := g.handler.elim false (·.entering.contains t)

/-- The group is in handler mode. -/
def Group.handling (g : Group) : Bool := g.handler.isSome

/-- Lane word n as the thread reads it: an invalid lane reads zero; a handler reads the trap reserve (R35, R224). -/
def Thread.rd (hm : Bool) (t : Thread) (n : Nat) : Word :=
  if hm && decide (112 ≤ n) then Tbl.getD t.hv n 0 else Tbl.getD t.v n 0

/-- Registers n upward as one number (R35). -/
def Thread.rdN (hm : Bool) (t : Thread) (n k : Nat) : Nat := joinWords ((upTo k).map (fun i => t.rd hm (n + i)))

/-- Uniform register n of a group; a handler reads its shadow words (R35, R224). -/
def Group.rs (g : Group) (n : Nat) : Word :=
  match g.handler with
  | some h => if 112 ≤ n then Tbl.getD h.hs n 0 else Tbl.getD g.s n 0
  | none => Tbl.getD g.s n 0

/-- Uniform registers n upward as one number. -/
def Group.rsN (g : Group) (n k : Nat) : Nat := joinWords ((upTo k).map (fun i => g.rs (n + i)))

/-- Write uniform register n, clearing its poisoned mark (R229); a handler writes its shadow words (R224). -/
def Group.ws (g : Group) (n : Nat) (w : Word) : Group :=
  match g.handler with
  | some h =>
    if 112 ≤ n then { g with
      handler := some { h with hs := h.hs.put n w }, spois := g.spois.filter (· ≠ n + 128),
      ssoft := g.ssoft.filter (· ≠ n + 128), shard := g.shard.filter (· ≠ n + 128) }
    else { g with s := g.s.put n w, spois := g.spois.filter (· ≠ n), ssoft := g.ssoft.filter (· ≠ n),
                  shard := g.shard.filter (· ≠ n) }
  | none =>
    { g with s := g.s.put n w, spois := g.spois.filter (· ≠ n), ssoft := g.ssoft.filter (· ≠ n),
             shard := g.shard.filter (· ≠ n) }

/-- Write uniform registers upward from n. -/
def Group.wsN (g : Group) (n : Nat) : List Word → Group
  | [] => g
  | w :: r => (g.ws n w).wsN (n + 1) r

/-- The result of a word that thread t signed is written upward from n: into the shadow words where t runs the handler, into
the group's own where the word began outside it (R224, R342). -/
def Group.wsFor (g : Group) (t n : Nat) (ws : List Word) : Group :=
  if g.handling && !g.inHandler t then { ({ g with handler := none } : Group).wsN n ws with handler := g.handler }
  else g.wsN n ws

/-- The key under which a register's marks stand: a shadowed name of a handler stands 128 above its own (R224, R228). -/
def markKey (shadow : Bool) (n : Nat) : Nat := if shadow && decide (112 ≤ n) then n + 128 else n

/-- Write a predicate; p7 discards it (R35). -/
def Thread.wp (t : Thread) (n : Nat) (b : Bool) : Thread :=
  if n ≥ 7 then t
  else { t with p := if b then t.p ||| BitVec.ofNat 7 (2 ^ n) else t.p &&& ~~~(BitVec.ofNat 7 (2 ^ n)) }

/-- Write a lane word at once, clearing its marks (R220, R229). -/
def Thread.wv (hm : Bool) (t : Thread) (n : Nat) (w : Word) : Thread :=
  if hm && decide (112 ≤ n) then { t with
    hv := t.hv.put n w, vpois := t.vpois.filter (· ≠ n + 128), vsoft := t.vsoft.filter (· ≠ n + 128),
    vhard := t.vhard.filter (· ≠ n + 128) }
  else { t with v := t.v.put n w, vpois := t.vpois.filter (· ≠ n), vsoft := t.vsoft.filter (· ≠ n),
                vhard := t.vhard.filter (· ≠ n) }

/-- Make a lane invalid: it reads zero and its marks are cleared (R29, R220, R229). -/
def Thread.killLane (hm : Bool) (t : Thread) (n : Nat) : Thread :=
  let t := { t with pend := t.pend.filter (fun p => !(p.file == File.vec && p.reg == n)) }
  if hm && decide (112 ≤ n) then { t with
    hv := t.hv.del n, vpois := t.vpois.filter (· ≠ n + 128), vsoft := t.vsoft.filter (· ≠ n + 128),
    vhard := t.vhard.filter (· ≠ n + 128) }
  else { t with v := t.v.del n, vpois := t.vpois.filter (· ≠ n), vsoft := t.vsoft.filter (· ≠ n),
                vhard := t.vhard.filter (· ≠ n) }

/-- Commit one write. -/
def Thread.commit (hm : Bool) (t : Thread) (p : Pend) : Thread :=
  match p.file with
  | .vec => t.wv hm p.reg p.val
  | .pred => t.wp p.reg (p.val != 0)
  | .uni => t

/-- Commit the writes whose sum of demands reaches their L, the latest remaining (R27). -/
def Thread.mature (hm : Bool) (t : Thread) : Thread :=
  t.pend.foldl (fun t p =>
    if p.lat ≤ p.sum then
      let t := t.commit hm p
      { t with pend := t.pend.filter (fun q => !(q.file == p.file && q.reg == p.reg)) }
    else { t with pend := t.pend ++ [p] })
    { t with pend := [] }

/-- A fixed-latency write by the present word (R27). -/
def Thread.write (t : Thread) (f : File) (n : Nat) (w : Word) (lat : Nat) : Thread :=
  { t with pend := t.pend ++ [⟨f, n, w, lat, 0⟩] }

/-- Write a vector register with a latency. -/
def Thread.writeV (t : Thread) (n : Nat) (w : Word) (lat : Nat) : Thread := t.write .vec n w lat
/-- Write a predicate with a latency; a write to p7 is discarded (R21). -/
def Thread.writeP (t : Thread) (n : Nat) (b : Bool) (lat : Nat) : Thread :=
  if n < 7 then t.write .pred n (if b then 1 else 0) lat else t

/-- Add a word's demand to the sums and commit what it makes readable (R27). -/
def Thread.passDemand (hm : Bool) (t : Thread) (d : Nat) : Thread :=
  Thread.mature hm { t with pend := t.pend.map (fun p => { p with sum := p.sum + d }) }

/-- Complete every fixed-latency write, as before a handler, parking or a save (R27). -/
def Thread.flush (hm : Bool) (t : Thread) : Thread :=
  Thread.mature hm { t with pend := t.pend.map (fun p => { p with sum := p.lat }) }

/-- A word of a class that completes at retirement writes at once, over earlier unread writes (R27). -/
def Thread.writeNow (hm : Bool) (t : Thread) (n : Nat) (w : Word) : Thread :=
  Thread.wv hm { t with pend := t.pend.filter (fun p => !(p.file == File.vec && p.reg == n)) } n w

/-- A predicate written at once by a word that completes at retirement, over earlier unread writes (R27). -/
def Thread.writePNow (t : Thread) (n : Nat) (b : Bool) : Thread :=
  Thread.wp { t with pend := t.pend.filter (fun p => !(p.file == File.pred && p.reg == n)) } n b

/-- Write registers upward from n at once. -/
def Thread.writeNowN (hm : Bool) (t : Thread) (n : Nat) : List Word → Thread
  | [] => t
  | w :: r => Thread.writeNowN hm (t.writeNow hm n w) (n + 1) r

/-- A long-latency result arrives in a lane (R28).  A fixed-latency write of the same register that is still to fall stays
pending and falls later (DESIGN CHOICE, log 100). -/
def Thread.arrive (hm : Bool) (t : Thread) (n : Nat) : List Word → Thread
  | [] => t
  | w :: r => Thread.arrive hm (t.wv hm n w) (n + 1) r

/-! ## Effective addresses (R106) -/

/-- A global address from a base of 64 bits and an index. -/
def globalEa (base index : Nat) (acc : Word) : Nat :=
  (BitVec.ofNat 64 (base + index) + Access.off acc).toNat
/-- A scratchpad offset from a base and an index. -/
def scratchEa (base index : Nat) (acc : Word) : Nat :=
  (BitVec.ofNat 32 (base + index) + (Access.off acc).truncate 32).toNat

/-- The effective address of LD, ST, the atomics, SEAL, UNSEAL and PREF. -/
def vectorEa (hm : Bool) (t : Thread) (a : Field) (acc : Word) : Nat :=
  if Access.sp acc then scratchEa (t.rd hm a.toNat).toNat 0 acc else globalEa (t.rdN hm a.toNat 2) 0 acc
/-- The effective address of LDX and STX. -/
def uniformEa (g : Group) (hm : Bool) (t : Thread) (a b : Field) (acc : Word) : Nat :=
  if Access.sp acc then scratchEa (g.rs a.toNat).toNat (t.rd hm b.toNat).toNat acc
  else globalEa (g.rsN a.toNat 2) (t.rd hm b.toNat).toNat acc
/-- The descriptor address of a ring form or PUTQ. -/
def ringEa (g : Group) (a : Field) (acc : Word) : Nat := globalEa (g.rsN a.toNat 2) 0 acc

/-- The vector registers that the address of a vector-based access reads. -/
def baseRegs (a : Field) (acc : Word) : List Nat := if Access.sp acc then [a.toNat] else regs a 2
/-- The uniform registers that the address of a uniform-based access reads. -/
def ubaseRegs (a : Field) (acc : Word) : List Nat := if Access.sp acc then [a.toNat] else regs a 2

end Sys2Proof.Machine
end

