-- ==== Sys2Proof/Machine/Ops.lean ====
section
/-! DEFINITION. The operations that every family shares: raising a fault and retiring a word, fetching and checking a
clause, landing pads, fault records, ending a group, a team and a grid, barrier registers, and entering and leaving a
trap handler (R14 to R32, R66, R78, R336 to R348). -/

namespace Sys2Proof.Machine

/-- What every instruction answers. -/
abbrev Outcome := Host.Outcome State Fault Refusal

/-! ## Groups, threads, launches as a word sees them -/

/-- The launch of a group. -/
def State.launchOf (s : State) (g : Group) : Option Launch := s.launches.get? g.lseq
/-- The compute die of a group's core. -/
def Group.die (g : Group) : Nat := g.core / 96
/-- The team of a group. -/
def State.teamOf (s : State) (g : Group) : Option Team := g.team.bind (s.teams.get? ·)
/-- The team-core index of a group's core. -/
def State.teamCore (s : State) (g : Group) : Nat :=
  match s.teamOf g with
  | some t => t.cores.findIdx (· = g.core)
  | none => 0
/-- The launch's rights, one bit each: hand-over, seal, system (R171). -/
def State.right (s : State) (g : Group) (n : Nat) : Bool :=
  (s.launchOf g).elim false (fun l => l.rc.rights.getLsbD n)
/-- The checking scoreboard is on for a group (R30, R171). -/
def State.checking (s : State) (g : Group) : Bool :=
  (s.launchOf g).elim false (·.rc.check) || (s.teamOf g).elim false (·.check)
/-- The barrier count of a group: its launch's, or 0 in a kindled group (R66, R175). -/
def State.barriers (s : State) (g : Group) : Nat :=
  if g.team.isSome then (s.launchOf g).elim 0 (·.rc.barriers) else 0
/-- The scratchpad allocation of a group in bytes (R168, R175, R352). -/
def State.scratchSize (s : State) (g : Group) : Nat :=
  if g.team.isSome then (s.launchOf g).elim 0 (fun l => 1024 * l.rc.scratch) else 0
/-- The group's team is parkable (R171). -/
def State.parkable (s : State) (g : Group) : Bool := g.team.isSome && (s.launchOf g).elim false (·.rc.park)
/-- The ceiling test of R71: a name at or above the ceiling, other than a handler's v112-v127. -/
def Group.overCeiling (g : Group) (hm : Bool) (n : Nat) : Bool := decide (g.ceil ≤ n) && !(hm && decide (112 ≤ n))

/-! ## Faults (R34, R336 to R340) -/

/-- The special register CORE of a group (R64). -/
def coreWord (k : Nat) : Nat := k % 96 + k / 96 % 4 * 2 ^ 7 + k / 384 * 2 ^ 16

/-- Where a thread resumes when its handler ends (R338). -/
def resumePc (code : Nat) (at_ : Ctx) : Pc :=
  if code = 0x50 ∨ code = 0x51 ∨ code = 0x61 then at_.next else at_.pc

/-- A fault record of thread t at a word. -/
def FaultRec.make (code t : Nat) (at_ : Ctx) (addr detail comp seq : Nat) : FaultRec :=
  ⟨code, false, false, t, at_.pc, BitVec.ofNat 64 addr, BitVec.ofNat 32 detail, BitVec.ofNat 32 comp,
    BitVec.ofNat 64 seq, resumePc code at_, false, false, 0, 0⟩

/-- A record as it stands against a group: its mode, its core, and the count of its thread's words with the one at which
it stands, where the record does not hold it. -/
def FaultRec.against (r : FaultRec) (g : Group) : FaultRec :=
  { r with
    inh := g.handler.isSome, core := coreWord g.core
    nth := if r.nth = 0 then (Tbl.get? g.threads r.thread).elim 0 (·.words + 1) else r.nth }

/-- Count a page fault taken by group g (R157). -/
def State.countFault (s : State) (g code : Nat) : State :=
  if code = 0x10 then
    match s.groups.get? g with
    | some gr => s.count gr.core 14 1
    | none => s
  else s

/-- Add a fault record to group g, which issues at most one more packet (R340). -/
def State.addFault (s : State) (g : Nat) (r : FaultRec) : State :=
  (s.countFault g r.code).onGroup g (fun gr => { gr with
    faults := gr.faults ++ [r.against gr]
    faultAt := if gr.stop = .none then s.ticks else gr.faultAt
    stop := if gr.stop = .none then .last else gr.stop })

/-- Threads stand at a word and issue nothing until their group's faults are handled (R60, R228). -/
def State.standStill (s : State) (g : Nat) (tids : List Nat) (pc : Pc) : State :=
  tids.foldl (fun s t => s.onThread g t (fun th => { th with place := .faulted, pc := pc })) s

/-- Record a fault against thread t of group g: the thread stands faulted at the word and the group issues at most one
more packet (R340). -/
def State.raiseRec (s : State) (g : Nat) (r : FaultRec) : State :=
  (s.addFault g r).onThread g r.thread (fun t => { t with place := .faulted, pc := r.pc })

/-- Raise (R35): the fault of thread t at the present word. -/
def State.raise (s : State) (g t : Nat) (at_ : Ctx) (code addr detail : Nat) : State :=
  s.raiseRec g (FaultRec.make code t at_ addr detail 0 0)

/-- The class of a code: 0 replay, 1 team, 2 grid (R338). -/
def faultClass (code : Nat) : Nat := if code = 0x10 then 0 else if code = 0x60 then 2 else 1

/-- A handler may take the code (R338). -/
def handlerTakes (code : Nat) : Bool :=
  !([0x10, 0x20, 0x21, 0x22, 0x60, 0x62].contains code)

/-! ## Retiring a word (R26 to R29) -/

/-- What retirement does to a thread: the demand passes, dead sources become invalid, the PC moves on. -/
def Thread.retire (hm : Bool) (hd : Hd) (at_ : Ctx) (dead : List Nat) (t : Thread) : Thread :=
  let t := t.passDemand hm (demandOf hd.stall)
  let t := if at_.dead then dead.foldl (fun t n => t.killLane hm n) t else t
  { t with pc := at_.next, demand := demandOf hd.stall, age := 0, place := .ready, past := false, chunk := 0,
           wd := 0, words := t.words + 1 }

/-- Retire a word for thread t of group g, counting it (R157). -/
def State.retire (s : State) (g t : Nat) (hd : Hd) (at_ : Ctx) (dead : List Nat) : State :=
  match s.groups.get? g with
  | none => s
  | some gr =>
    let s := s.count gr.core 2 1
    s.onGroup g (fun gr =>
      { (gr.onThread t (Thread.retire (gr.inHandler t) hd at_ dead)) with retired := (gr.retired + 1) % 2 ^ 64 })

/-- The sources of a shape that die after the word: not also destinations (R29). -/
def Shape.dead (sh : Shape) : List Nat := sh.vs.filter (fun n => !sh.vd.contains n)

/-- A thread stays at its word and tries again at its next slot: a token wait (R28). -/
def State.hold (s : State) (g t : Nat) : State := s.onThread g t (fun t => { t with demand := 1, place := .ready })

/-! ## The scoreboard, ceilings and register errors (R30, R71, R228) -/

/-- The first scoreboard violation of a word, in the order of its uses: the detail of 0x05 (R30; which register is named
where several violate is DESIGN CHOICE, log 88). -/
def Thread.violation (t : Thread) (uses : List (File × Nat)) : Option Nat :=
  uses.findSome? (fun u =>
    let f := match u.1 with
      | .vec => 0
      | .uni => 1
      | .pred => 2
    match t.pend.find? (fun p => p.file = u.1 && p.reg = u.2) with
    | some p => some (u.2 + f * 2 ^ 7 + (p.lat - p.sum) % 8 * 2 ^ 9)
    | none =>
      match t.owed.find? (fun o => o.file = u.1 && o.reg = u.2) with
      | some o => some (u.2 + f * 2 ^ 7 + 2 ^ 12 + o.tok * 2 ^ 13)
      | none => none)

/-- The registers of a shape for the scoreboard, with the guard predicate (R27, R30). -/
def Shape.uses (sh : Shape) (guard : Option Nat) : List (File × Nat) :=
  (sh.vs ++ sh.vd).map (fun n => (File.vec, n)) ++ (sh.us ++ sh.ud).map (fun n => (File.uni, n))
    ++ ((sh.ps ++ sh.pd ++ guard.toList).filter (· < 7)).map (fun n => (File.pred, n))

/-- Append an event to the ECC log of a core, newest first (R160): a repeated location counts up. -/
def State.logEcc (s : State) (k unit : Nat) (hard pois : Bool) (loc hi : Nat) : State :=
  let kind := unit + (if hard then 16 else 0) + (if pois then 32 else 0)
  s.onCore k (fun c =>
    let stamp := BitVec.ofNat 32 (c.counters.getD 0 0)
    match c.ecc.findIdx? (fun e => e.getD 1 0 = BitVec.ofNat 32 loc ∧ e.getD 2 0 = BitVec.ofNat 32 hi
        ∧ (e.getD 0 0).toNat % 16 = unit) with
    | some i =>
      let e := c.ecc.getD i []
      let w := (e.getD 0 0).toNat
      let n := min (bitsOf w 15 8 + 1) 255
      { c with ecc := c.ecc.set i (e.set 0 (BitVec.ofNat 32 (w % 256 ||| kind) + BitVec.ofNat 32 (n * 256))) }
    | none =>
      { c with ecc := ([BitVec.ofNat 32 kind, BitVec.ofNat 32 loc, BitVec.ofNat 32 hi, stamp] :: c.ecc).take 64 })

/-- A row that a name takes is no other name's any more: what names that no longer live held of it goes (R209). -/
def State.takeRow (s : State) (k g n r : Nat) : State :=
  let s := { s with groups := s.groups.map (fun (e : Nat × Group) =>
    if e.2.core = k then (e.1, { e.2 with rows := e.2.rows.filter (fun x => x.2 ≠ r) }) else e) }
  s.onGroup g (fun gr => { gr with rows := gr.rows.put n r })

/-- The physical row of vector name n of group g as R209 numbers it: the trap reserve's for a handler's v112-v127, the
ember reserve's for the first 32 names of the ember group, in the order of the names, else a pool row, which is free among
the rows that no live name is known to hold, and stays with the name until another takes it (DESIGN CHOICE, log 96). -/
def State.physRow (s : State) (g : Nat) (gr : Group) (hm : Bool) (n : Nat) : State × Nat :=
  if hm && decide (112 ≤ n) then (s, 4128 + 16 * gr.quad + (n - 112))
  else if gr.ember && decide (n < 32) then (s, 4096 + n)
  else
    match gr.rows.get? n with
    | some r => (s, r)
    | none =>
      let held := (s.groupsOn gr.core).flatMap (fun e => (e.2.rows.filter (fun x => e.2.liveNames.contains x.1)).map (·.2))
      let free := (upTo 4096).filter (fun r => !held.contains r)
      let r := free.getD (Config.rowChoice s.fresh % free.length) 0
      ((s.takeRow gr.core g n r).tick, r)

/-- Log an ECC event of the lane word under a key (R160, R228). -/
def State.logLane (s : State) (g t key : Nat) (hard : Bool) : State :=
  match s.groups.get? g with
  | none => s
  | some gr =>
    let (s, row) := s.physRow g gr (decide (128 ≤ key)) (key % 128)
    s.logEcc gr.core 0 hard hard (row + t * 2 ^ 13) 0

/-- The ECC check of the lane words of thread t under some keys: corrected single errors are counted and logged, an
uncorrectable error leaves the lane poisoned and is logged (R228, R229). -/
def State.scrubLaneKeys (s : State) (g t : Nat) (keys : List Nat) : State :=
  match (s.groups.get? g).bind (fun gr => Tbl.get? gr.threads t) with
  | none => s
  | some th =>
    let soft := keys.filter th.vsoft.contains
    let hard := keys.filter th.vhard.contains
    if soft.isEmpty && hard.isEmpty then s
    else
      let s := match s.groups.get? g with
        | none => s
        | some gr => soft.foldl (fun s n => (s.count gr.core 13 1).logLane g t n false) s
      let s := hard.foldl (fun s n => s.logLane g t n true) s
      s.onThread g t (fun th => { th with
        vsoft := th.vsoft.filter (fun n => !keys.contains n), vhard := th.vhard.filter (fun n => !keys.contains n),
        vpois := th.vpois ++ hard })

/-- The ECC check of the lanes of names ns in thread t as a word reads them (R228). -/
def State.scrubLanes (s : State) (g t : Nat) (ns : List Nat) : State :=
  s.scrubLaneKeys g t (ns.map (markKey ((s.groups.get? g).elim false (·.inHandler t))))

/-- The ECC check of uniform words under some keys (R228). -/
def State.scrubUniformKeys (s : State) (g : Nat) (keys : List Nat) : State :=
  match s.groups.get? g with
  | none => s
  | some gr =>
    let soft := keys.filter gr.ssoft.contains
    let hard := keys.filter gr.shard.contains
    if soft.isEmpty && hard.isEmpty then s
    else
      let loc := fun (n : Nat) => (if 128 ≤ n then 128 + gr.quad else gr.slot) + n % 128 * 2 ^ 13
      let s := soft.foldl (fun s n => (s.count gr.core 13 1).logEcc gr.core 1 false false (loc n) 0) s
      let s := hard.foldl (fun s n => s.logEcc gr.core 1 true true (loc n) 0) s
      s.onGroup g (fun gr => { gr with
        ssoft := gr.ssoft.filter (fun n => !keys.contains n), shard := gr.shard.filter (fun n => !keys.contains n),
        spois := gr.spois ++ hard })

/-- The ECC check of uniform words as a word reads them (R228). -/
def State.scrubUniforms (s : State) (g : Nat) (ns : List Nat) : State :=
  s.scrubUniformKeys g (ns.map (markKey ((s.groups.get? g).elim false (·.handling))))

/-- What stops a taking-part thread before the effect of its word: 0x11 above the ceiling (R71), 0x05 by the
scoreboard (R30), 0x30 on a poisoned source (R228, R229), in this order (DESIGN CHOICE, log 88); code and detail. -/
def wordFault (check : Bool) (g : Group) (tid : Nat) (t : Thread) (sh : Shape) (guard : Option Nat) :
    Option (Nat × Nat) :=
  let hm := g.inHandler tid
  match (sh.vs ++ sh.vd).find? (g.overCeiling hm ·) with
  | some n => some (0x11, n)
  | none =>
    match if check then t.violation (sh.uses guard) else none with
    | some d => some (0x05, d)
    | none =>
      match sh.vs.find? (fun n => t.vpois.contains (markKey hm n)) with
      | some n => some (0x30, n)
      | none =>
        match sh.us.find? (fun n => g.spois.contains (markKey g.handling n)) with
        | some n => some (0x30, n + 2 ^ 7)
        | none => none

/-! ## Clauses and pads (R13 to R18, R31, R32) -/

/-- What a fetch of one word answers (R16). -/
inductive Fetch where
  | word (w : Word)
  | bad (code addr detail : Nat)
  | hold
  deriving DecidableEq, Repr

/-- Fetch the word at a code offset for group g of core k: from the stack controller on an uncached page, else from the
home (R16, R244, R246, R251). -/
def State.fetch (s : State) (g k base : Nat) (off : Nat) : State × Fetch :=
  let va := BitVec.ofNat 64 (base + off % 2 ^ 32)
  match s.reach (some (.fetch g)) k va .fetch with
  | (s, .bad c d) => (s, .bad c va.toNat d)
  | (s, .hold) => (s, .hold)
  | (s, .ok pa e) => (s, .word (BitVec.ofNat 32 (bytesToNat (if e.uc then s.ucRead pa 4 else s.homeRead pa 4).1)))

/-- Fetch n words upward from an offset; the index of the word that fails. -/
def State.fetchN (s : State) (g k base off : Nat) : Nat → Nat → State × (Option (Nat × Fetch) × List Word)
  | 0, _ => (s, (none, []))
  | n + 1, i =>
    match s.fetch g k base (off + 4 * i) with
    | (s, .word w) => let (s, (f, ws)) := s.fetchN g k base off n (i + 1); (s, (f, w :: ws))
    | (s, f) => (s, (some (i, f), []))

/-- A clause as fetched: header and words, or the word (0 for the header) whose fetch fails. -/
inductive Clause where
  | ok (hdr : Word) (ws : List Word)
  | bad (ix code addr detail : Nat)
  | hold
  deriving DecidableEq, Repr

/-- Read the clause at an offset (R13, R16): all COUNT words are fetched before the header is checked, so a fetch fault
of a later word comes first (DESIGN CHOICE, log 88). -/
def State.clause (s : State) (g k base off : Nat) : State × Clause :=
  match s.fetch g k base off with
  | (s, .hold) => (s, .hold)
  | (s, .bad c a d) => (s, .bad 0 c a d)
  | (s, .word h) =>
    match s.fetchN g k base off (Header.count h) 1 with
    | (s, (none, ws)) => (s, .ok h ws)
    | (s, (some (_, .hold), _)) => (s, .hold)
    | (s, (some (i, .bad c a d), _)) => (s, .bad (i - 1) c a d)
    | (s, (some _, ws)) => (s, .ok h ws)

/-- What CheckPad answers. -/
inductive Pad where
  | ok
  | bad (code addr detail : Nat)
  | hold
  deriving DecidableEq, Repr

/-- A clause holds a pad of a kind, and of a label where one is asked for (R31). -/
def padOk (hdr : Word) (ws : List Word) (kind : Nat) (label : Option Nat) : Bool :=
  headerOk hdr ws && Header.cls hdr == 4 &&
  (match decodeLegal 4 (ws.getD 0 0) 0 with
   | some (.lpad _ k l) => k.toNat == kind && (label.elim true (· == l.toNat))
   | _ => false)

/-- CheckPad (R14, R32, R35). -/
def State.checkPad (s : State) (g k base : Nat) (target : Word) (kind : Nat) (label : Option Nat) : State × Pad :=
  if target.toNat % 4 ≠ 0 then (s, .bad 0x06 target.toNat 0)
  else
    match s.clause g k base target.toNat with
    | (s, .hold) => (s, .hold)
    | (s, .bad _ c _ d) => (s, .bad c target.toNat d)
    | (s, .ok h ws) => (s, if padOk h ws kind label then .ok else .bad 0x03 target.toNat 0)

/-- The code base of a group's launch. -/
def State.codeBase (s : State) (g : Group) : Nat := (s.launchOf g).elim 0 (·.rc.codebase)

/-! ## Fault records in memory (R336, R337) -/

/-- The bytes of a fault record (R336). -/
def recordWords (team lseq group core : Nat) (diag : Option Nat) (r : FaultRec) : List Word :=
  let w := fun (n : Nat) => BitVec.ofNat 32 n
  [w (r.code + faultClass r.code * 2 ^ 8 + (if r.job then 2 ^ 10 else 0) + (if r.imprecise && r.code == 0x31 then 2 ^ 11 else 0)
      + (if r.inh then 2 ^ 12 else 0) + (if diag.isSome then 2 ^ 13 else 0)),
   w team, w lseq, w (lseq / 2 ^ 32), w group, w r.thread, r.pc.off, w r.pc.ix,
   w r.address.toNat, w (r.address.toNat / 2 ^ 32), r.detail, r.compmask,
   w r.srcseq.toNat, w (r.srcseq.toNat / 2 ^ 32), w core, w (diag.getD 0xFFFFFFFF)]

/-- Words as bytes (R11). -/
def wordBytes (ws : List Word) : List Byte := ws.flatMap (fun w => natToBytes 4 w.toNat)

/-- The words of a group's record. -/
def State.groupRecord (s : State) (g : Group) (diag : Option Nat) (r : FaultRec) : List Word :=
  let team := (s.teamOf g).elim 0xFFFFFFFF (·.tix)
  recordWords team g.lseq (if g.team.isSome then g.gix else g.serial.toNat) r.core diag r

/-- Append a record to a fault area: none when the area has no room (R337). -/
def State.appendRecord (s : State) (l : Nat) (ws : List Word) : Option State :=
  match s.launches.get? l with
  | none => some s
  | some n =>
    if n.area = 0 then some s
    else
      let log := bitsOf (s.devNat (n.area + 4) 4) 4 0
      let put := s.devNat (n.area + 8) 8
      let get := s.devNat (n.area + 16) 8
      if put - get ≥ 2 ^ log then none
      else some ((s.devWrite (n.area + 0x1000 + 64 * (put % 2 ^ log)) (wordBytes ws)).devWrite (n.area + 8)
        (natToBytes 8 (put + 1)))

/-- A record as it is written: that of a job names the lowest-indexed live thread and the place where it stands then
(R146). -/
def FaultRec.placed (r : FaultRec) (g : Group) : FaultRec :=
  if r.job then
    let t := (Tbl.keys g.threads).headD 0
    { r with thread := t, pc := (Tbl.get? g.threads t).elim Pc.zero (·.pc) }
  else r

/-- Write the unwritten records of group g in order, as far as there is room (R337). -/
def State.writeRecords (s : State) (g : Nat) (gr : Group) : List FaultRec → State × List FaultRec
  | [] => (s, [])
  | r :: rest =>
    if r.written then let (s, rs) := s.writeRecords g gr rest; (s, r :: rs)
    else
      let r := r.placed gr
      match s.appendRecord gr.lseq (s.groupRecord gr none r) with
      | some s => let (s, rs) := s.writeRecords g gr rest; (s, { r with written := true } :: rs)
      | none => (s, r :: rest)

/-- Write the records of a stopped group; true when every record is written. -/
def State.settleRecords (s : State) (g : Nat) : State × Bool :=
  match s.groups.get? g with
  | none => (s, true)
  | some gr =>
    let (s, rs) := s.writeRecords g gr gr.faults
    (s.onGroup g (fun gr => { gr with faults := rs, lastRec := rs.getLast? }), rs.all (·.written))

/-! ## Status records (R183) -/

/-- The 32 bytes of a launch's status record. -/
def Launch.statusBytes (n : Launch) : List Byte :=
  natToBytes 8 n.rc.lseq ++ natToBytes 4 (n.state + n.reason * 2 ^ 8 + n.detail % 2 ^ 16 * 2 ^ 16)
    ++ natToBytes 4 n.terminated ++ natToBytes 4 n.stepNow ++ natToBytes 4 n.firstTerm ++ natToBytes 8 0

/-- The device writes a status word at a physical address, and the mirror holds it too (R377, R379). -/
def State.statusWord (s : State) (pa : Nat) (bytes : List Byte) : State :=
  (s.devWrite pa bytes).replicate (fun r => { r with status := r.status.put pa bytes })

/-- Rewrite the status record of a launch at STATADDR (R380). -/
def State.writeStatus (s : State) (l : Nat) : State :=
  match s.launches.get? l with
  | none => s
  | some n => s.statusWord n.statAddr n.statusBytes

/-- Change a launch and rewrite its status record. -/
def State.setStatus (s : State) (l : Nat) (f : Launch → Launch) : State := (s.onLaunch l f).writeStatus l

/-! ## Ending groups, teams and grids (R78, R222, R235, R347, R348) -/

/-- Return the accumulator slots of a group to the tail of the free list, in ascending handle order (R235). -/
def State.freeAcc (s : State) (gr : Group) : State :=
  s.onCore gr.core (fun c => { c with accFree := c.accFree ++ gr.acc.vals })

/-- Take a group out of its active entry and its trap reserve. -/
def State.leaveQuad (s : State) (g : Nat) (gr : Group) : State :=
  s.onCore gr.core (fun c => { c with quads := c.quads.map (fun q => { q with
    active := q.active.map (fun a => if a.g = some g then { a with g := none } else a)
    trap := if q.trap = some g then none else q.trap }) })

/-- The request has been performed. -/
def Req.isDone (r : Req) : Bool :=
  match r.stage with
  | .performed _ _ => true
  | _ => false

/-- The request is of a blocking wait: its group's end ends it (R124, R347). -/
def Req.waits (r : Req) : Bool :=
  match r.kind, r.stage with
  | .rclaim, .issued | .rclaim, .queued _ | .rawait, .issued | .rawait, .queued _ | .putq, .issued | .putq, .queued _ => true
  | _, _ => false

/-- A waiting access goes with group g: its fetches, the accesses of its threads' own words, and its blocking waits. -/
def State.goesWith (s : State) (g : Nat) (a : Agent) : Bool :=
  match a with
  | .fetch h => h == g
  | .thread h t => h == g && !s.reqs.any (fun e => e.2.g == g && e.2.t == t && e.2.kind == .putq && !e.2.waits)
  | .req r => (s.reqs.get? r).elim true (fun q => q.g == g && q.waits)
  | .job _ | .record _ => false

/-- End group g: its slots, rows, waits and matrix operations go, and its team keeps the PC at which it left.  The words
that it has issued complete, and their results are discarded (R347). -/
def State.endGroup (s : State) (g : Nat) (pc : Pc) : State :=
  match s.groups.get? g with
  | none => s
  | some gr =>
    let s := (s.freeAcc gr).leaveQuad g gr
    let gone := (s.mops.filter (fun e => e.2.g = g)).map (·.1)
    let s := s.onCore gr.core (fun c => { c with mops := c.mops.filter (fun m => !gone.contains m) })
    let s := { s with
      groups := s.groups.del g
      passed := s.passed.filter (fun p => !s.goesWith g p.agent)
      mops := s.mops.filter (fun e => e.2.g ≠ g)
      reqs := s.reqs.filter (fun e => !(e.2.g = g && e.2.waits)) }
    match gr.team with
    | none => s
    | some t => s.onTeam t (fun tm => { tm with exited := tm.exited.put gr.gix pc })

/-- The live groups of a team. -/
def State.teamGroups (s : State) (t : Nat) : List (Nat × Group) := s.groups.filter (fun e => e.2.team = some t)

/-- The device leaves issue slots and chunk steps empty to meet a power limit below the package maximum; which ones is the
implementation's (R3, R388; log 7). -/
def State.throttled (s : State) (k : Nat) : Bool :=
  decide ((s.pkg (k / 384)).powerLimit < 4200) && Config.idleSlot s.ticks

/-- A team whose groups have all left ends: it counts toward its step (R176). -/
def State.teamDone (s : State) (t : Nat) : State :=
  match s.teams.get? t with
  | none => s
  | some tm =>
    if tm.ended || !(s.teamGroups t).isEmpty then s
    else (s.onTeam t (fun tm => { tm with ended := true })).onLaunch tm.lseq
      (fun n => { n with teamsLeft := n.teamsLeft - 1 })

/-- End the last thread's group and, with its last group, the team. -/
def State.exitGroup (s : State) (g : Nat) (pc : Pc) : State :=
  let team := (s.groups.get? g).bind (·.team)
  let s := s.endGroup g pc
  match team with
  | none => s
  | some t => s.teamDone t

/-- The core of a job-table key. -/
def jobCore (key : Nat) : Nat := key / 32

/-- A job has ended: its entry joins the free order and the jobs that waited on it may start (R141, R273). -/
def State.freeJob (s : State) (key : Nat) : State :=
  let s := { s with jobs := s.jobs.map (fun (e : Nat × Job) =>
    (e.1, { e.2 with waits := e.2.waits.filter (· ≠ key) })) }
  s.onCore (jobCore key) (fun c => { c with jobFree := c.jobFree.filter (· ≠ key % 32) ++ [key % 32] })

/-- End a job in a state. -/
def State.endJob (s : State) (key : Nat) (st : JobState) : State :=
  let s := { s with passed := s.passed.filter (fun p => p.agent != Agent.job key) }
  (s.onJob key (fun j => { j with
    state := st, paused := none, ringWait := none, waits := [], lags := [], unit := none, failing := none })).freeJob key

/-- Cancel the waiting jobs of an owner, and a ring GATH that waits for space (R269, R272, R275). -/
def State.cancelJobs (s : State) (mine : Job → Bool) : State :=
  let gone := s.jobs.filter (fun e => mine e.2 && (e.2.state == .waiting
    || (e.2.state == .running && e.2.ringWait.isSome && e.2.claim.isNone)))
  gone.foldl (fun s e => s.endJob e.1 .cancelled) s

/-- Team termination (R347): groups end with their resources, waiting jobs are cancelled, the launch counts it. -/
def State.terminateTeam (s : State) (t : Nat) : State :=
  match s.teams.get? t with
  | none => s
  | some tm =>
    if tm.ended then s
    else
      let s := s.cancelJobs (fun j => j.team = some t)
      let s := (s.teamGroups t).foldl (fun s e => s.endGroup e.1 ((e.2.threads.map (·.2.pc)).headD Pc.zero)) s
      let s := s.onTeam t (fun tm => { tm with ended := true, held := [] })
      s.setStatus tm.lseq (fun n => { n with
        teamsLeft := n.teamsLeft - 1
        terminated := min (n.terminated + 1) 0xFFFFFFFF
        firstTerm := if n.firstTerm = 0xFFFFFFFF then tm.tix else n.firstTerm })

/-- Termination of a kindled group alone (R338, R347). -/
def State.terminateKindled (s : State) (g : Nat) : State :=
  match s.groups.get? g with
  | none => s
  | some gr =>
    let s := s.cancelJobs (fun j => j.team.isNone && j.g = g)
    (s.endGroup g Pc.zero).setStatus gr.lseq (fun n => { n with terminated := min (n.terminated + 1) 0xFFFFFFFF })

/-- Terminate the team of a group, or the kindled group. -/
def State.terminateOwner (s : State) (g : Nat) : State :=
  match s.groups.get? g with
  | none => s
  | some gr =>
    match gr.team with
    | some t => s.terminateTeam t
    | none => s.terminateKindled g

/-- Discard the records of a launch that have not started, with their bins (R288, R348). -/
def State.discardRecords (s : State) (l : Nat) : State :=
  { s with
    recs := s.recs.filter (fun e => e.2.lseq ≠ l), bins := s.bins.filter (fun e => e.2.lseq ≠ l)
    passed := s.passed.filter (fun p => match p.agent with
      | .record r => (s.recs.get? r).elim false (·.lseq ≠ l)
      | _ => true) }

/-- Take a launch's teams out of every distributor. -/
def State.unqueue (s : State) (l : Nat) : State :=
  let f := fun (d : Dist) => { d with
    queue := d.queue.filter (fun e => e.1 ≠ l)
    held := if d.held.elim false (fun h => h.1 = l) then none else d.held
    spare := if d.held.elim false (fun h => h.1 = l) then [] else d.spare }
  { s with
    dies := s.dies.map (fun e => (e.1, { e.2 with dist := f e.2.dist }))
    packages := s.packages.map (fun e => (e.1, { e.2 with dist := f e.2.dist }))
    trays := s.trays.map (fun (e : Nat × Dist) => (e.1, f e.2))
    rack := f s.rack }

/-- End every team, kindled group, record and queued team of a launch, its TERMINATED unchanged (R348, R380). -/
def State.endLaunchWork (s : State) (l : Nat) : State :=
  let s := s.cancelJobs (fun j => j.lseq = l)
  let s := (s.groups.filter (fun e => e.2.lseq = l)).foldl (fun s e => s.endGroup e.1 Pc.zero) s
  let s := { s with teams := s.teams.map (fun (e : Nat × Team) => if e.2.lseq = l then (e.1, { e.2 with ended := true }) else e) }
  (s.discardRecords l).unqueue l

/-- A write of a launch's groups or jobs is still to be performed (R183). -/
def State.writesDue (s : State) (l : Nat) : Bool :=
  s.reqs.any (fun e => e.2.lseq == l && !e.2.isDone)
  || s.jobs.any (fun e => e.2.lseq == l && (e.2.state == .waiting || e.2.state == .running))

/-- Every dirty byte that a launch's dies hold for other homes is written back: the release of a step at rack scope;
none while a home in transition holds it (R176, R183). -/
def State.releaseStep (s : State) (n : Launch) : Option State :=
  if n.dies.all s.flushOpen then some (n.dies.foldl (fun s x => s.flushRemote x) s) else none

/-- The dirty bytes that a launch's dies hold for other packages go on their way (R176, R183). -/
def State.sendStep (s : State) (n : Launch) : State := n.dies.foldl (fun s x => s.sendLines x) s

/-- STATE 5 is written once every write of the grid has been performed, as a release at rack scope (R183). -/
def State.finishGrid (s : State) (l : Nat) : State :=
  match s.launches.get? l with
  | none => s
  | some n =>
    match n.ending with
    | none => s
    | some (reason, detail) =>
      if s.writesDue l then s
      else
        match s.releaseStep n with
        | none => s.sendStep n
        | some s => s.setStatus l (fun n => { n with
            state := 5, reason := reason, detail := detail, ending := none, dies := [] })

/-- End a grid with a reason: its work ends now, and STATE 5 follows once its writes are performed (R183, R348). -/
def State.endGrid (s : State) (l reason detail : Nat) : State :=
  if (s.launches.get? l).elim true (·.ending.isSome) then s
  else ((s.endLaunchWork l).onLaunch l (fun n => { n with
    ending := some (reason, detail), teamsLeft := 0, stepOpen := false
    savedTeams := [], savedKindled := [], savedRecs := [], savedJobs := [] })).finishGrid l

/-! ## Barrier registers (R66, R270) -/

/-- The completion check after an update (R66): whether it completes, and the register after it. -/
def Bar.check (b : Bar) : Bar × Bool :=
  if b.expGroups ≤ b.arrived ∧ b.expBytes ≤ b.bytes then ({ b with arrived := 0, bytes := 0, phase := !b.phase }, true)
  else (b, false)

/-- One group arrival, saturating at 511 (R67). -/
def Bar.arriveGroup (b : Bar) : Bar × Bool := Bar.check { b with arrived := min (b.arrived + 1) 511 }
/-- One byte arrival, whole (R140, R270). -/
def Bar.arriveBytes (b : Bar) (n : Nat) : Bar × Bool := Bar.check { b with bytes := (b.bytes + n) % 2 ^ 64 }

/-- A barrier that holds nothing. -/
def Bar.zero : Bar := ⟨0, 0, 0, 0, false⟩

/-- Barrier n of a team. -/
def State.bar (s : State) (t n : Nat) : Bar := (s.teams.get? t).elim Bar.zero (fun tm => tm.bars.getD n Bar.zero)

/-- A completion of barrier n as a wait sees it: a wait on barriers keeps it (R68, R69). -/
def GWait.meet (n : Nat) (w : GWait) : GWait :=
  match w.kind with
  | .barrier _ | .any _ => { w with met := n :: w.met.filter (· ≠ n) }
  | _ => w

/-- A completion of barrier n as a group of the team sees it: its packet count starts again, and its waits keep it (R68,
R216). -/
def Group.meet (n : Nat) (g : Group) : Group :=
  { g with packets := 0, waits := g.waits.map (fun (w : Nat × GWait) => (w.1, w.2.meet n)) }

/-- Apply one update to a barrier; the team's groups see a completion (R66). -/
def State.updateBar (s : State) (t n : Nat) (f : Bar → Bar × Bool) : State :=
  let (b, done) := f (s.bar t n)
  let s := s.onTeam t (fun tm => { tm with bars := tm.bars.set n b })
  if done then { s with groups := s.groups.map (fun (e : Nat × Group) =>
    if e.2.team = some t then (e.1, e.2.meet n) else e) } else s

/-- A byte or hand-over arrival from outside the team's groups reaches the barrier unit: discarded when the team has ended
(R270, R271). -/
def State.arriveAt (s : State) (t : Nat) (a : Arrival) : State :=
  match s.teams.get? t with
  | none => s
  | some tm => if tm.ended then s else s.onTeam t (fun tm => { tm with due := tm.due ++ [a] })

/-- Arrivals in the order of one cycle: hand-overs by acceptance, then bytes by job-table entry (R270). -/
def Arrival.le (a b : Arrival) : Bool :=
  (a.bytes.isNone && b.bytes.isSome) || (a.bytes.isNone == b.bytes.isNone && decide (a.order ≤ b.order))

/-- The unit applies the arrivals that have reached it in a cycle, one per update, after the group arrivals of the cycle
(R270). -/
def State.applyArrivals (s : State) (t : Nat) : State :=
  match s.teams.get? t with
  | none => s
  | some tm =>
    (tm.due.sortBy Arrival.le).foldl (fun s a => s.updateBar t a.bar (a.bytes.elim Bar.arriveGroup (fun n b => b.arriveBytes n)))
      (s.onTeam t (fun tm => { tm with due := [] }))

/-- The barrier units of the teams whose first core is k end their cycle (R270). -/
def State.barrierCycle (s : State) (k : Nat) : State :=
  (s.teams.filter (fun e => e.2.cores.head? == some k && !e.2.due.isEmpty)).foldl (fun s e => s.applyArrivals e.1) s

/-! ## Taking an exception and returning from one (R341 to R344) -/

/-- A thread in a blocking wait or a signing does not enter a handler (R340, R341). -/
def Thread.blocked (t : Thread) : Bool :=
  match t.place with
  | .signing _ => true
  | .waiting (.exit _) _ _ _ _ => false
  | .waiting _ _ _ _ _ => true
  | .returned _ _ => true
  | _ => false

/-- A convergence register with the given members, nothing signed and no bound PC. -/
def Conv.fresh (members : List Nat) : Conv := ⟨members, [], none⟩

/-- The faults that a handler may take. -/
def Group.takeable (g : Group) : List FaultRec := g.faults.filter (fun r => handlerTakes r.code)

/-- Where thread t stopped, or resumes after its record, with what it keeps of the word there; a thread whose records are all
of words after which it has issued others goes on after the last of those (R15, R135, R338, R344). -/
def Group.backOf (g : Group) (t : Nat) : Back :=
  match Tbl.get? g.threads t with
  | none => ⟨Pc.zero, false, 0⟩
  | some th =>
    match g.faults.find? (fun r => r.thread = t ∧ !r.job ∧ !r.imprecise) with
    | some r => ⟨r.resume, decide (r.resume = r.pc) && th.past, if r.resume = th.pc then th.chunk else 0⟩
    | none => ⟨th.pc, th.past, th.chunk⟩

/-- A count stops: the cycles since it began to run are added. -/
def Watch.freeze (now : Nat) (w : Watch) : Watch := ⟨w.acc + (now - w.from_), now⟩
/-- A count runs from now. -/
def Watch.thaw (now : Nat) (w : Watch) : Watch := ⟨w.acc, now⟩

/-- The place with its count changed. -/
def Place.mapWatch (f : Watch → Watch) : Place → Place
  | .waiting w a h k dead => .waiting w a h (f k) dead
  | .returned p k => .returned p (f k)
  | p => p

/-- The register with the count of its signing changed. -/
def Conv.mapWatch (f : Watch → Watch) (c : Conv) : Conv :=
  { c with bound := c.bound.map (fun b => { b with watch := f b.watch }) }

/-- Every watchdog count of a group's waits changed. -/
def Group.mapWatch (f : Watch → Watch) (g : Group) : Group :=
  { g with
    threads := g.threads.map (fun (e : Nat × Thread) => (e.1, { e.2 with place := e.2.place.mapWatch f }))
    waits := g.waits.map (fun (e : Nat × GWait) => (e.1, { e.2 with watch := f e.2.watch }))
    conv := g.conv.map (Conv.mapWatch f)
    handler := g.handler.map (fun h => { h with savedConv := h.savedConv.map (Conv.mapWatch f) }) }

/-- The word waits at issue for the matrix engine: a token wait (R126). -/
def isMatrix : Instr → Bool
  | .tmma _ _ _ _ _ _ | .tmmat _ _ _ _ _ _ | .acczero _ _ | .accst _ _ _ _ | .accld _ _ _ _ _ | .accrel _ _
  | .accscl _ _ _ | .accadd _ _ _ _ | .accrd _ _ _ _ => true
  | _ => false

/-- The wait of a word that waits at issue, and has not issued. -/
def GWait.atIssue (w : GWait) : Bool :=
  match w.kind with
  | .again _ _ => isMatrix w.i
  | _ => false

/-- Words that wait at issue go back to their word: their signers sign again (R126, R340). -/
def Group.unissue (g : Group) : Group :=
  let back := (g.waits.filter (·.2.atIssue)).flatMap (fun w => w.2.sigs.map (·.t))
  { g with
    waits := g.waits.filter (fun w => !w.2.atIssue)
    threads := g.threads.map (fun e => if back.contains e.1 then (e.1, { e.2 with place := .ready }) else e) }

/-- A group stops at its faults: it counts nothing for the watchdog, and a word that waits at issue has not issued
(R340, R346). -/
def Group.halt (now : Nat) (g : Group) : Group := { g.unissue.mapWatch (Watch.freeze now) with stop := .stopped }
/-- A stopped group goes on, its counts with it (R346). -/
def Group.go (now : Nat) (g : Group) : Group := { g.mapWatch (Watch.thaw now) with stop := .none }

/-- Marks of shadowed names. -/
def isShadow (n : Nat) : Bool := decide (128 ≤ n)

/-- A thread enters the handler: its slots owed run on, the shadowed names read zero (R26, R224, R341). -/
def Thread.enter (handler : Word) (t : Thread) : Thread :=
  { t with pc := ⟨handler, 0⟩, place := .ready, past := false, age := 0, hv := [], chunk := 0, savedP := some t.p }

/-- Steps 6 and 7 of R341 for a group: every fixed-latency write of the group completes (R27), convergence registers and
predicates are set aside, and the entering threads start at the handler. -/
def Group.enter (g : Group) (handler : Word) (entering : List Nat) : Group :=
  { g with
    handler := some ⟨entering, g.conv, [], g.faults ++ g.resolved, entering.map (fun t => (t, g.backOf t))⟩
    conv := List.replicate 8 (Conv.fresh entering)
    faults := []
    resolved := []
    entering := none
    stop := .none
    threads := g.threads.map (fun e =>
      let t := Thread.flush false e.2
      (e.1, if entering.contains e.1 then t.enter handler else t)) }

/-- A thread leaves the handler: the set-aside predicates return, the reserve's rows are freed with their marks, and a
write of a shadowed name or a predicate that is still to complete is lost with them (R224, R344). -/
def Thread.leave (b : Back) (t : Thread) : Thread :=
  { t with
    pc := b.pc, place := .ready, past := b.past, chunk := b.chunk, age := 0, hv := []
    vpois := t.vpois.filter (!isShadow ·), vsoft := t.vsoft.filter (!isShadow ·), vhard := t.vhard.filter (!isShadow ·)
    pend := t.pend.filter (fun p => p.file == .vec && decide (p.reg < 112))
    p := t.savedP.getD t.p, savedP := none }

/-- TRAPRET's end of handler mode (R344): the set-aside state returns, the trap reserve is freed, names that REGREL
discarded meanwhile go, and each thread resumes where R338 gives. -/
def Group.leave (g : Group) : Group :=
  match g.handler with
  | none => g
  | some h =>
    { g with
      handler := none
      conv := h.savedConv.map (fun c => { c with members := c.members.filter (fun t => (Tbl.get? g.threads t).isSome) })
      spois := g.spois.filter (!isShadow ·), ssoft := g.ssoft.filter (!isShadow ·), shard := g.shard.filter (!isShadow ·)
      threads := g.threads.map (fun e =>
        let t := if h.entering.contains e.1 then e.2.leave (h.back.getD e.1 ⟨e.2.pc, e.2.past, e.2.chunk⟩) else e.2
        (e.1, { t with
          v := t.v.filter (fun x => decide (x.1 < g.ceil)), vpois := t.vpois.filter (fun n => decide (n < g.ceil))
          vsoft := t.vsoft.filter (fun n => decide (n < g.ceil)), vhard := t.vhard.filter (fun n => decide (n < g.ceil)) })) }

/-- The handler of a launch: HANDLER of its fault area, none for 0xFFFF_FFFF (R337). -/
def State.handlerOf (s : State) (l : Nat) : Option Word :=
  match s.launches.get? l with
  | none => none
  | some n =>
    if n.area = 0 then none
    else
      let h := BitVec.ofNat 32 (s.devNat n.area 4)
      if h = 0xFFFFFFFF then none else some h

/-- The group is stopped: no thread of it issues, and every live thread stands at a word, waits or has faulted (R340). -/
def Group.isStopped (g : Group) : Bool := g.stop != .none && g.stop != .last

/-- The thread is inside a word it has issued, in no blocking wait: the word completes or faults (R340). -/
def State.inWord (s : State) (t : Thread) : Bool :=
  match t.place with
  | .waiting (.request r) _ _ _ _ => (s.reqs.get? r).elim false (fun q => match q.stage with
      | .queued _ => false
      | _ => true)
  | .waiting (.spawn r) _ _ _ _ => (s.recs.get? r).elim false (·.status.isSome)
  | .waiting (.cinv _ _ _) _ _ _ _ => true
  | _ => false

/-- The group is stopped and none of its words is still running (R340). -/
def State.isStopped (s : State) (gr : Group) : Bool :=
  gr.isStopped && !gr.threads.any (fun e => s.inWord e.2) && !gr.waits.any (fun w => match w.2.kind with
    | .handover _ _ | .form _ _ _ | .again _ _ => true
    | _ => false)

/-- The threads that enter the handler of a stopped group: the live ones that are in no blocking wait (R341). -/
def Group.entrants (g : Group) : List Nat := (g.threads.filter (fun e => !e.2.blocked)).map (·.1)

/-- The entering threads of a group are fixed when it has stopped at a fault that a handler may take: a wait that ends later
changes nothing of it (R341, R342). -/
def State.fixEntering (s : State) (g : Nat) : State :=
  match s.groups.get? g with
  | none => s
  | some gr =>
    if gr.entering.isNone && s.isStopped gr && !gr.handling && !gr.takeable.isEmpty && (s.handlerOf gr.lseq).isSome then
      s.onGroup g (fun gr => { gr with entering := some gr.entrants })
    else s

/-- The end of a group's owner has been decided, and waits for room for its records (R337). -/
def State.convicted (s : State) (gr : Group) : Bool :=
  gr.verdict.isSome || gr.team.elim false (fun t => (s.teamGroups t).any (·.2.verdict.isSome))

/-- Give the trap reserve of a quadrant to a group. -/
def State.takeReserve (s : State) (k q g : Nat) : State :=
  s.onCore k (fun c => { c with quads := c.quads.modify q (fun u => { u with trap := some g }) })

/-- A group waits for the trap reserve of its quadrant, or will: it has stopped at a fault that a handler takes, or was
saved in handler mode (R224, R341, R355). -/
def Group.needsReserve (g : Group) : Bool :=
  match g.stop with
  | .none | .driver => false
  | .reserve _ => true
  | _ => !g.handling && !g.takeable.isEmpty && !g.faults.any (fun r => r.code = 0x10 ∨ r.code = 0x60)

/-- The trap reserve of a group's quadrant is its own, or is free, and no group of the quadrant that needs it faulted
before (R224). -/
def State.reserveFree (s : State) (gr : Group) (g : Nat) : Bool :=
  match (((s.core gr.core).quads.getD gr.quad Quad.reset).trap) with
  | none => !(s.residentOn gr.core).any (fun e => e.1 ≠ g && e.2.quad == gr.quad && !e.2.halted && e.2.needsReserve
      && (s.handlerOf e.2.lseq).isSome
      && (decide (e.2.faultAt < gr.faultAt) || (e.2.faultAt == gr.faultAt && decide (e.1 < g))))
  | some o => o = g

/-- Taking an exception (R341): a stopped group with a fault that a handler may take enters handler mode. -/
def State.enterTrap (s : State) (g : Nat) : State :=
  let s := s.fixEntering g
  match s.groups.get? g with
  | none => s
  | some gr =>
    match s.handlerOf gr.lseq with
    | none => s
    | some h =>
      let entering := (gr.entering.getD []).filter gr.threads.keys.contains
      let drained := gr.threads.all (fun e => !entering.contains e.1 || e.2.tok.all (· = 0))
      if s.convicted gr || !s.isStopped gr || gr.handling || gr.takeable.isEmpty || gr.faults.any (fun r => r.code = 0x10 ∨ r.code = 0x60)
        || entering.isEmpty || !drained then s
      else if !s.reserveFree gr g then
        s.onGroup g (fun gr => { gr with stop := match gr.stop with
          | .reserve w => .reserve w
          | _ => .reserve ⟨0, s.now gr.core⟩ })
      else
        let s := (s.takeReserve gr.core gr.quad g).onGroup g (fun gr => { gr with stop := .stopped })
        match s.settleRecords g with
        | (s, false) => s
        | (s, true) =>
          match s.checkPad g gr.core (s.codeBase gr) h 3 none with
          | (s, .hold) => s
          | (s, .ok) => ({ s with passed := s.passed.filter (fun p => !s.goesWith g p.agent) }).onGroup g
              (fun gr => (gr.enter h entering).go (s.now gr.core))
          | (s, .bad c a d) =>
            let first := gr.takeable.headD (FaultRec.make c 0 Ctx.zero 0 0 0 0)
            let r := { FaultRec.make c first.thread { Ctx.zero with pc := first.pc } a d 0 0 with core := coreWord gr.core }
            if c = 0x10 then s.addFault g r
            else
              match s.appendRecord gr.lseq (s.groupRecord gr none r) with
              | none => s
              | some s => s.terminateOwner g

/-- Return from an exception (R153, R344): when every live entering thread has executed TRAPRET, the group leaves
handler mode. -/
def State.trapReturn (s : State) (g : Nat) : State :=
  match s.groups.get? g with
  | none => s
  | some gr =>
    match gr.handler with
    | none => s
    | some h =>
      let all := gr.threads.all (fun e => !h.entering.contains e.1 || (match e.2.place with
        | .returned _ _ => true
        | _ => false))
      if all then
        let s := s.onGroup g Group.leave
        s.onCore gr.core (fun c => { c with quads := c.quads.map (fun q =>
          if q.trap = some g then { q with trap := none } else q) })
      else s

/-- A handler takes a fault of the group (R338, R341, R345). -/
def State.toHandler (s : State) (gr : Group) : Bool :=
  (s.handlerOf gr.lseq).isSome && !gr.handling && !gr.takeable.isEmpty

/-- A fault of the group ends its team or the grid: no handler takes it, and it is not the driver's (R338, R345). -/
def State.willEnd (s : State) (gr : Group) : Bool :=
  gr.faults.any (fun r => faultClass r.code = 2) || (gr.faults.any (fun r => r.code ≠ 0x10) && !s.toHandler gr)

/-- What a stopped group does when no handler takes its faults; faults raised after the end of its owner has been decided are
discarded (R338, R345 to R348). -/
def State.settle (s : State) (g : Nat) : State :=
  match s.groups.get? g with
  | none => s
  | some gr =>
    if s.convicted gr || !s.isStopped gr || gr.faults.isEmpty then s
    else
      let toHandler := s.toHandler gr
      match gr.faults.find? (fun r => faultClass r.code = 2) with
      | some r =>
        match s.settleRecords g with
        | (s, false) => s
        | (s, true) => s.endGrid gr.lseq 3 r.code
      | none =>
        if gr.faults.all (fun r => r.code = 0x10) ∨ (toHandler ∧ gr.faults.any (fun r => r.code = 0x10)) then
          match s.settleRecords g with
          | (s, false) => s
          | (s, true) => s.onGroup g (fun gr => { gr with stop := .driver })
        else if toHandler then s
        else
          match s.settleRecords g with
          | (s, false) => s
          | (s, true) => s.terminateOwner g

/-! ## A word of predicate-guarded threads (R21, R34, R84, R228) -/

/-- The ECC check that a packet makes of a word's sources: the lanes of every packet thread and the uniforms (R228). -/
def State.scrub (s : State) (sh : Shape) : State :=
  (s.cur.tids.foldl (fun s t => s.scrubLanes s.cur.g t sh.vs) s).scrubUniforms s.cur.g sh.us

/-- What happens to one thread of a packet at a predicate-guarded word, up to the word's effect. -/
inductive Front where
  /-- The thread does not exist. -/
  | gone
  /-- It does not take part. -/
  | skip
  | fault (code detail : Nat)
  | run (g : Group) (th : Thread)
  deriving DecidableEq, Repr

/-- The front of a word for thread t: its guard read under the scoreboard, then the checks of a taking-part thread
(R21, R27, R30, R71, R229). -/
def State.front (s : State) (h : Hd) (sh : Shape) (always : Bool) (t : Nat) : Front :=
  match s.groups.get? s.cur.g with
  | none => .gone
  | some g =>
    match Tbl.get? g.threads t with
    | none => .gone
    | some th =>
      let guard := h.guard.toNat
      match if s.checking g then th.violation [(File.pred, guard)] else none with
      | some d => .fault 0x05 d
      | none =>
        if !always && !th.pr guard then .skip
        else
          match wordFault (s.checking g) g t th sh (some guard) with
          | some (c, d) => .fault c d
          | none => .run g th

/-- One thread of the packet at a word: it is skipped, raises, or takes the word's own effect. -/
def State.part (s : State) (h : Hd) (sh : Shape) (always : Bool) (t : Nat)
    (body : State → Group → Thread → State) : State :=
  match s.front h sh always t with
  | .gone => s
  | .skip => s.retire s.cur.g t h s.cur.at_ sh.dead
  | .fault c d => s.raise s.cur.g t s.cur.at_ c 0 d
  | .run g th => body s g th

/-- The word has had its effect for thread t: the thread took part and a word of its group has retired. -/
def State.applied (s s' : State) (h : Hd) (sh : Shape) (always : Bool) (t : Nat) : Bool :=
  match s.front h sh always t with
  | .run g _ => (s'.groups.get? s.cur.g).elim true (fun g' => g'.retired != g.retired)
  | _ => false

/-- The completion mask of a record of thread t: the threads of its 32 for which the word has had its effect (R336). -/
def compMask (done : List Nat) (t : Nat) : Nat :=
  ((done.filter (fun x => x / 32 = t / 32)).map (fun x => 2 ^ (x % 32))).sum

/-- A record of a poisoned uniform word (R229). -/
def FaultRec.ofUniform (r : FaultRec) : Bool := r.code == 0x30 && decide (r.detail.toNat / 2 ^ 7 = 1)

/-- Of the records of one word that read a poisoned uniform, the first stands, which names the lowest thread (R228). -/
def oneUniform : List FaultRec → List FaultRec
  | [] => []
  | r :: rest => if r.ofUniform then r :: rest.filter (!·.ofUniform) else r :: oneUniform rest

/-- Enter the completion mask in the records that the present word has added after the first n (R336), and let one
record stand for a poisoned uniform (R228). -/
def State.markApplied (s : State) (n : Nat) (done : List Nat) : State :=
  s.onGroup s.cur.g (fun g => { g with faults := g.faults.take n ++ oneUniform ((g.faults.drop n).map (fun r =>
    if r.pc = s.cur.at_.pc then { r with compmask := BitVec.ofNat 32 (compMask done r.thread) } else r)) })

/-- The records against the present group. -/
def State.faultCount (s : State) : Nat := (s.groups.get? s.cur.g).elim 0 (·.faults.length)

/-- The threads of a packet at a predicate-guarded word in turn, with those for which it has had its effect. -/
def State.packetThreads (h : Hd) (sh : Shape) (always : Bool) (body : Nat → State → Group → Thread → State) :
    List Nat → State × List Nat → State × List Nat
  | [], a => a
  | t :: rest, (s, done) =>
    let s' := s.part h sh always t (body t)
    State.packetThreads h sh always body rest (s', if s.applied s' h sh always t then done ++ [t] else done)

/-- Every thread of the packet at a predicate-guarded word, in ascending index (R34, R336). -/
def State.packet (s : State) (h : Hd) (sh : Shape) (always : Bool)
    (body : Nat → State → Group → Thread → State) : State :=
  let r := State.packetThreads h sh always body s.cur.tids (s.scrub sh, [])
  r.1.markApplied s.faultCount r.2

/-- A word for which the present group lacks a right: a taking-part thread raises 0x11, whatever else the word would
meet; the others go past it (R116, R151). -/
def State.denied (s : State) (h : Hd) (sh : Shape) : State :=
  s.cur.tids.foldl (fun s t =>
    match (s.groups.get? s.cur.g).bind (fun g => Tbl.get? g.threads t) with
    | none => s
    | some th =>
      if th.pr h.guard.toNat then s.raise s.cur.g t s.cur.at_ 0x11 0 0 else s.part h sh false t (fun s _ _ => s)) s

/-- Retire the present word for a thread of the packet. -/
def State.done (s : State) (h : Hd) (sh : Shape) (t : Nat) : State := s.retire s.cur.g t h s.cur.at_ sh.dead

/-- Change the present group's thread t, told whether it runs a handler. -/
def State.onCur (s : State) (t : Nat) (f : Bool → Thread → Thread) : State :=
  s.onGroup s.cur.g (fun g => g.onThread t (f (g.inHandler t)))

/-- Raise a fault of the present word against thread t, for a request of a sequence number (R255, R336). -/
def State.raiseSeq (s : State) (t code addr detail seq : Nat) : State :=
  s.raiseRec s.cur.g (FaultRec.make code t s.cur.at_ addr detail 0 seq)

/-- Raise a fault of the present word against thread t. -/
def State.raiseCur (s : State) (t code addr detail : Nat) : State := s.raise s.cur.g t s.cur.at_ code addr detail

end Sys2Proof.Machine
end

