-- ==== Sys2Proof/Machine/Request.lean ====
section
/-! DEFINITION. Memory requests in flight: program order, performing at the home or on the die, acquire and release,
atomics, seals, the ring descriptor and its forms, PUTQ, and replies (R107 to R123, R253 to R268). -/

namespace Sys2Proof.Machine

/-! ## Lost memory (R349, R366) -/

/-- The detail of a 0x60 record of a request (R366): reason, reporting package, destination package, class. -/
def noticeDetail (reason from_ dest : Nat) (response : Bool) : Nat :=
  reason + from_ % 256 * 2 ^ 8 + dest % 256 * 2 ^ 16 + (if response then 2 ^ 24 else 0)

/-- The detail of a 0x60 of a request from a die to lost memory (R349, R366). -/
def State.lostDetail (s : State) (x pa : Nat) : Nat :=
  noticeDetail (if (s.pkg (paPkg pa)).lost then 1 else 3) (x / 4) (paPkg pa) false

/-! ## Scratchpad -/

/-- Bytes of a team core's scratchpad, and whether a poisoned byte is among them. -/
def State.scratchRead (s : State) (t q a n : Nat) : List Byte × Bool :=
  match s.teams.get? t with
  | none => (List.replicate n 0, false)
  | some tm => (Memory.readBytes (tm.scratch.getD q []) a n,
      (upTo n).any (fun i => (tm.scratchBad.getD q []).contains (a + i)))

/-- Store bytes to a team core's scratchpad. -/
def State.scratchWrite (s : State) (t q a : Nat) (bytes : List Byte) : State :=
  s.onTeam t (fun tm => { tm with
    scratch := tm.scratch.set q (Memory.writeBytes (tm.scratch.getD q []) a bytes)
    scratchBad := tm.scratchBad.set q ((tm.scratchBad.getD q []).filter (fun b =>
      !(decide (a ≤ b) && decide (b < a + bytes.length)))) })

/-- Advance the operand-cache generation of a team on one of its cores; a wrap drops its sectors (R234). -/
def State.advanceGen (s : State) (t q : Nat) : State :=
  match s.teams.get? t with
  | none => s
  | some tm =>
    let n := tm.gens.getD q 0 + 1
    let s := s.onTeam t (fun tm => { tm with gens := tm.gens.set q n })
    if n = 0 then s.onCore (tm.cores.getD q 0) (fun c => { c with opcache := c.opcache.filter (·.team ≠ t) }) else s

/-- The SFENCE that a barrier or DBAR implies for a group (R68, R73, R234). -/
def State.impliedSfence (s : State) (g : Nat) : State :=
  match s.groups.get? g with
  | none => s
  | some gr => match gr.team with
    | none => s
    | some t => s.advanceGen t (s.teamCore gr)

/-! ## Program order (R108, R114, R256, R257) -/

/-- The request carries a write (R255). -/
def Req.writes (r : Req) : Bool :=
  match r.kind with
  | .load | .fence | .sfence | .pref | .seal | .unseal | .rawait => false
  | _ => true

/-- A form that acts on a ring descriptor (R120). -/
def ReqKind.isRing : ReqKind → Bool
  | .rclaim | .rcommit | .rawait | .rretire | .putq => true
  | _ => false

/-- The request names an address in global memory. -/
def Req.isGlobal (r : Req) : Bool :=
  !r.sp && (match r.kind with
    | .fence | .sfence | .seal | .unseal | .pref => false
    | _ => true)

/-- Uncached: UC pages, host-die DRAM and the register window (R245, R251). -/
def Req.uncached (r : Req) : Bool := r.isGlobal && (r.uc || paSpace r.pa != 0)

/-- The scope at which a request acts: rack for an uncached access (R245, R251). -/
def Req.reachScope (r : Req) : Nat := if r.uncached then 4 else r.scope

/-- The access is an acquire (R108). -/
def Req.acquires (r : Req) : Bool :=
  match r.kind with
  | .store | .rcommit | .rretire | .putq | .fence | .sfence | .pref => false
  | _ => r.order == 1 || r.order == 3 || r.order == 4

/-- The access is a release (R108). -/
def Req.releases (r : Req) : Bool :=
  match r.kind with
  | .load | .rclaim | .rawait | .fence | .sfence | .pref => false
  | .seal => true
  | _ => r.order == 2 || r.order == 3 || r.order == 4

/-- The request touches bytes lo to lo + n - 1 of core k's scratchpad. -/
def Req.touches (q : Req) (k lo n : Nat) : Bool :=
  q.sp && q.core == k && decide (q.ea < lo + n) && decide (lo < q.ea + q.size)

/-- Two accesses touch a common byte of one space; a PUTQ reads its payload from the scratchpad. -/
def Req.overlaps (q r : Req) : Bool :=
  (q.sp == r.sp && (if q.sp then q.touches r.core r.ea r.size
    else decide (q.pa < r.pa + r.size) && decide (r.pa < q.pa + q.size)))
  || (r.kind == .putq && q.touches r.core r.m2 r.m)

/-- A write that is applied at its home in issue order with the source's others to one stack (R256). -/
def Req.ordered (r : Req) : Bool := r.writes && r.isGlobal && (r.kind != .store || decide (2 ≤ r.reachScope))

/-- Request q of a thread must be performed before a later request r of it. -/
def Req.before (q r : Req) : Bool :=
  match q.kind, r.kind with
  | .pref, _ => false
  | .fence, _ | .sfence, _ => true
  | _, .fence => r.order ≠ 1 || q.kind != .store
  | _, .sfence => q.sp && q.kind == .store
  | _, _ => q.overlaps r || q.acquires || r.releases || (q.order == 4 && r.order == 4)
      || (q.ordered && r.ordered && paHome q.pa == paHome r.pa)

/-- Lane q of the same word goes before lane r: a common byte, or any lane of an atomic; at a ring descriptor, until lane q
has arrived (R34, R113, R120, R121). -/
def Req.laneBefore (q r : Req) : Bool :=
  q.word == r.word && decide (q.ord < r.ord) && (if r.kind.isRing then q.stage == .issued else
    q.overlaps r || (match r.kind with
      | .atomic _ => true
      | _ => false))

/-- Nothing that must come before request rid is still outstanding: requests are numbered in issue order. -/
def State.inTurn (s : State) (rid : Nat) (r : Req) : Bool :=
  s.reqs.all (fun e => e.2.isDone || !((e.2.g == r.g && e.2.t == r.t && decide (e.1 < rid) && e.2.before r)
    || e.2.laneBefore r))

/-- The die of core k holds a copy of the line of an address, or is its home (R253). -/
def State.onDieCopy (s : State) (k pa : Nat) : Bool :=
  (Tbl.get? (s.core k).l1 (pa / 64)).isSome || (s.l2 (k / 96) (pa / 64)).isSome || s.homeDie pa == k / 96

/-- The request has to be served at its home or base die, as the machine stands: a load at package scope or wider of a page
that is not sealed, a load that no copy on its die can serve, a store at those scopes, an atomic, a ring form (R108, R112,
R117, R253, R368). -/
def State.needsHome (s : State) (r : Req) : Bool :=
  r.isGlobal && (match r.kind with
    | .load => r.uncached || (decide (2 ≤ r.scope) && !s.sealedPage r.ea) || !s.onDieCopy r.core r.pa
    | .store => decide (2 ≤ r.reachScope)
    | _ => true) && s.names r.pa

/-- A packet still carries the request of r, or its response (R363, R368). -/
def State.inFabric (s : State) (r : Nat) : Bool :=
  s.packets.any (fun e => e.2.cargo == .request r || e.2.cargo == .response r)

/-! ## Acquire and release (R254) -/

/-- The action of AcquireAt at a scope for core k. -/
def State.acquireAt (s : State) (k scope : Nat) : State :=
  if 2 ≤ scope then s.acquireLines (k / 96) false else s

/-- AcquireAt at a scope for core k need not wait for a home in transition (R254, R316). -/
def State.mayAcquire (s : State) (k scope : Nat) : Bool := decide (scope < 2) || s.acquireOpen (k / 96) false

/-- The write-backs of ReleaseAt at a scope for core k; none while one of their homes is in transition. -/
def State.releaseLines (s : State) (k scope : Nat) : Option State :=
  if 2 ≤ scope then (if s.flushOpen (k / 96) then some (s.flushRemote (k / 96)) else none) else some s

/-! ## Atomics (R111, R112) -/

/-- The new memory value of an atomic of w bits (R111). -/
def AtomOp.apply (op : AtomOp) (w x m m2 : Nat) : Nat :=
  let sx := signedBits x w
  let sm := signedBits m w
  match op with
  | .add => (x + m) % 2 ^ w
  | .fadd => (Sys2Proof.Machine.fadd (BitVec.ofNat 32 x) (BitVec.ofNat 32 m)).toNat
  | .min => if sx ≤ sm then x else m
  | .max => if sx ≤ sm then m else x
  | .minn => Nat.min x m
  | .maxn => Nat.max x m
  | .and => x &&& m
  | .or => x ||| m
  | .xor => x ^^^ m
  | .xchg => m
  | .cas => if x = m then m2 else x

/-- A read-modify-write at the base die or at the home: the state, the old value, poisoned (R109, R112, R264). -/
def State.rmw (s : State) (k pa n : Nat) (memSide : Bool) (f : Nat → Nat) : State × Nat × Bool :=
  let x := k / 96
  let ln := pa / 64
  let s := if paSpace pa = 0 ∧ s.homeDie pa ≠ x then (s.writeBackLine x ln).dropL2 x ln else s
  let s := if memSide ∧ paSpace pa = 0 then (s.writeBackLine (s.homeDie pa) ln).dropL2 (s.homeDie pa) ln else s
  let (b, bad) := s.homeRead pa n
  let old := bytesToNat b
  if bad then (s, old, true)
  else
    let new := f old
    (if new = old then s else s.homeWrite pa (natToBytes n new), old, false)

/-! ## The ring descriptor (R119, R120) -/

/-- A ring descriptor (R119). -/
structure Ring where
  base : Nat
  log : Nat
  head : Nat
  tail : Nat
  claim : Nat
  openStart : Nat
  openWord : Nat
  res : Nat
  window : Nat
  deriving DecidableEq, Repr

/-- Read the descriptor at a physical address. -/
def State.readRing (s : State) (pa : Nat) : Ring × Bool :=
  let (a, p) := s.homeRead pa 64
  let (b, q) := s.homeRead (pa + 64) 64
  let n := fun (o : Nat) => bytesToNat ((a.drop o).take 8)
  (⟨n 0, n 8, n 16, n 24, n 32, n 40, n 48, n 56, bytesToNat b⟩, p || q)

/-- Write back the descriptor's counters, open claim and window. -/
def State.writeRing (s : State) (pa : Nat) (d : Ring) : State :=
  let s := s.homeWrite (pa + 16) (natToBytes 8 d.head ++ natToBytes 8 d.tail ++ natToBytes 8 d.claim
    ++ natToBytes 8 d.openStart ++ natToBytes 8 d.openWord)
  s.homeWrite (pa + 64) (natToBytes 64 d.window)

namespace Ring

/-- Granules of the array. -/
def size (d : Ring) : Nat := 2 ^ d.log
/-- The window bit of granule i. -/
def bit (d : Ring) (i : Nat) : Bool := d.window.testBit (i % 512)
/-- The address of granule i (R119). -/
def granule (d : Ring) (i : Nat) : Nat := d.base + 64 * (i % d.size)

/-- The descriptor passes the checks of reason 1 (R120). -/
def ok (d : Ring) : Bool :=
  decide (d.log ≤ 32) && d.base % 64 == 0 && d.res == 0 && bitsOf d.openWord 31 18 == 0
  && decide (d.head ≤ d.tail) && decide (d.tail ≤ d.claim) && decide (d.claim - d.head ≤ d.size)
  && decide (d.claim - d.tail ≤ 512)
  && (upTo 512).all (fun i => !d.bit (d.tail + i) || decide (d.tail + i < d.claim))

/-- There is room to claim n granules (R121). -/
def room (d : Ring) (n : Nat) : Bool :=
  decide (d.claim + n - d.head ≤ d.size) && decide (d.claim + n - d.tail ≤ 512)

/-- Claim n granules. -/
def take (d : Ring) (n : Nat) : Ring := { d with claim := d.claim + n }

/-- Move TAIL over committed granules (R121). -/
def advance : Nat → Ring → Ring
  | 0, d => d
  | k + 1, d =>
    if d.bit d.tail then advance k { d with window := d.window ^^^ 2 ^ (d.tail % 512), tail := d.tail + 1 } else d

/-- Commit n granules from index i (R121). -/
def commit (d : Ring) (i n : Nat) : Ring :=
  advance 512 { d with window := (upTo n).foldl (fun w j => w ||| 2 ^ ((i + j) % 512)) d.window }

/-- The range of a commit is claimed and not committed (R121). -/
def mayCommit (d : Ring) (i n : Nat) : Bool :=
  decide (d.tail ≤ i) && decide (i + n ≤ d.claim) && (upTo n).all (fun j => !d.bit (i + j))

/-- What the checks of a ring form against the descriptor find, with counts n and start i: the reason of 0x15 (R120,
R121). -/
def refuses (d : Ring) (kind : ReqKind) (n i : Nat) : Option Nat :=
  if !d.ok then some 1
  else
    match kind with
    | .rclaim => if n > 512 ∨ n > d.size then some 2 else none
    | .rawait => if n > d.size then some 2 else none
    | .rcommit => if n > 512 then some 2 else if n ≠ 0 && !d.mayCommit i n then some 3 else none
    | .rretire => if d.head + n > d.tail then some 4 else none
    | _ => none

/-- Enter an open claim (R122). -/
def leaveOpen (d : Ring) (start gran placed : Nat) : Ring :=
  { d with
    openStart := start
    openWord := gran % 65536 + (if d.openWord.testBit 17 then 2 ^ 16 else 0) + 2 ^ 17 + placed * 2 ^ 32 }

end Ring

/-! ## Finishing a request -/

/-- Lower the token of a thread and forget what the word owed (R28). -/
def Thread.lower (t : Thread) (k : Nat) (owed : List Owed) : Thread :=
  { t.setToken k (t.token k - 1) with owed := owed.foldl (fun l o => l.erase o) t.owed }

/-- The destination registers of a request. -/
def Req.dests (r : Req) : List Nat :=
  let n := match r.kind with
    | .load => if r.size = 16 then 4 else if r.size = 8 then 2 else 1
    | .atomic _ => if r.size = 8 then 2 else 1
    | .rclaim | .rawait => 2
    | _ => 0
  (upTo n).map (r.d + ·)

/-- The request is of a blocking word (R109). -/
def Req.blocking (r : Req) : Bool :=
  match r.kind with
  | .seal | .unseal | .rclaim | .rcommit | .rawait | .rretire | .putq => true
  | _ => false

/-- A request leaves the table, and with the last of its word what the table of words holds of it; the word has completed
for its thread, or not (R336). -/
def State.dropReq (s : State) (rid : Nat) (r : Req) (applied : Bool) : State :=
  let s := ({ s with reqs := s.reqs.del rid }).unawait (.req rid)
  if s.reqs.any (fun e => e.2.word == r.word) then
    (if applied then { s with words := s.words.put r.word (s.words.getD r.word [] ++ [r.t]) } else s)
  else { s with words := s.words.del r.word }

/-- The completion mask of a record of request r: the threads of its 32 for which the word has been performed without a
fault (R336). -/
def State.maskOf (s : State) (r : Req) : Nat :=
  let sent := (s.reqs.filter (fun e => e.2.word == r.word && e.2.t != r.t && (match e.2.stage with
    | .performed _ bad => !bad
    | _ => false))).map (·.2.t)
  compMask ((s.words.getD r.word [] ++ sent).dedup.filter (· ≠ r.t)) r.t

/-- The token of a request falls, and what the word owes its thread goes; that of an accepted store has fallen (R28,
R109). -/
def State.lowerReq (s : State) (r : Req) : State :=
  if r.accepted then s
  else s.onThread r.g r.t (fun t => t.lower r.tok (r.dests.map (fun n => (⟨.vec, n, r.tok⟩ : Owed))))

/-- L1 accepts a store that is still to be performed: the word completes for its thread (R109, R214). -/
def State.acceptStore (s : State) (rid : Nat) : State :=
  match s.reqs.get? rid with
  | none => s
  | some r =>
    if r.kind == .store && r.isGlobal && !r.isDone && !r.accepted then
      (s.lowerReq r).onReq rid (fun r => { r with accepted := true })
    else s

/-- The request ends: its token falls and it leaves the table; a blocking word retires. -/
def State.endReq (s : State) (rid : Nat) (r : Req) (dead : List Nat) : State :=
  let s := (s.dropReq rid r true).lowerReq r
  if r.blocking then (s.fixEntering r.g).retire r.g r.t r.hd r.at_ dead else s

/-- Thread t has issued a later word than its nth: one has completed, or it waits in one, signs one or has faulted at one
(R339). -/
def Group.wentOn (g : Group) (t nth : Nat) (th : Thread) : Bool :=
  th.words != nth || (match th.place with
    | .ready => false
    | .faulted => g.faults.any (fun f => f.thread == t && !f.imprecise && !f.job)
        || !g.faults.any (fun f => f.thread == t && f.imprecise)
    | _ => true)

/-- The thread of request r has issued a later word by now (R339). -/
def Req.overtaken (r : Req) (g : Group) (th : Thread) : Bool := !r.blocking && g.wentOn r.t r.nth th

/-- The word of r has not been applied for its thread: the unwritten records of its packet say so (R336). -/
def State.unmark (s : State) (r : Req) : State :=
  s.onGroup r.g (fun g => { g with faults := g.faults.map (fun f =>
    if !f.written && f.pc == r.at_.pc && f.thread / 32 == r.t / 32 then
      { f with compmask := f.compmask &&& ~~~(BitVec.ofNat 32 (2 ^ (r.t % 32))) }
    else f) })

/-- The request faults: its token falls, and its thread raises at the word, with what died there back for its replay.  A
thread that has issued a later word keeps its place in it, or stands where it is, and the record of poisoned data is
imprecise (R28, R34, R336, R339, R340). -/
def State.failReq (s : State) (rid : Nat) (r : Req) (code addr detail : Nat) : State :=
  let fr := { FaultRec.make code r.t r.at_ addr detail (s.maskOf r) r.seq with nth := r.nth }
  let s := ((s.dropReq rid r false).lowerReq r).unmark r
  match s.groups.get? r.g with
  | none => s
  | some gr =>
    match Tbl.get? gr.threads r.t with
    | none => s
    | some th =>
      if r.overtaken gr th then
        (s.addFault r.g { fr with imprecise := true, resume := th.pc }).onThread r.g r.t (fun t =>
          if t.place = .ready then { t with place := .faulted } else t)
      else
        let hm := gr.inHandler r.t
        (s.onThread r.g r.t (fun t => r.died.foldl (fun t e => t.wv hm e.1 e.2) t)).raiseRec r.g fr

/-- Mark a request performed with a value. -/
def State.donePerform (s : State) (rid value : Nat) (bad : Bool) : State :=
  s.onReq rid (fun r => { r with stage := .performed value bad })

/-! ## Sealing (R116, R117) -/

/-- Invalidate every L1 and remote-partition copy of a 4 KiB physical page in the domain, dirty lines first written
back (R117). -/
def State.purgePage (s : State) (pa : Nat) : State :=
  s.allDies.foldl (fun s x => (upTo 64).foldl (fun s i =>
    let n := pa / 4096 * 64 + i
    let s := s.writeBackLine x n
    if s.homeDie (64 * n) = x then s.dropL1 x n none else s.dropL2 x n) s) s

/-- A die holds dirty bytes of a physical page for another package, or has some on their way there (R254). -/
def State.pageOut (s : State) (pa : Nat) : Bool :=
  s.allDies.any (fun x => (upTo 64).any (fun i => !s.settled x (pa / 4096 * 4096 + 64 * i)))

/-- The dies send the dirty bytes of a physical page to its home on another package. -/
def State.sendPage (s : State) (pa : Nat) : State :=
  s.allDies.foldl (fun s x => (upTo 64).foldl (fun s i => s.sendLine x (pa / 4096 * 64 + i)) s) s

/-- How a seal form ends, or a page of it. -/
inductive SealEnd where
  | done
  | fault (code va detail : Nat)
  | hold
  deriving DecidableEq, Repr

/-- The page in the midst of which a SEAL or UNSEAL waits (R117): it has been translated, and pages before it are done. -/
def Req.sealing (r : Req) : Option Nat :=
  if (r.kind == .seal || r.kind == .unseal) && decide (r.m % 2 = 1) then some (r.ea + 4096 * (r.m / 2)) else none

/-- A write translated for the physical page of an address before its seal bit was set has yet to be performed (R117,
step 3). -/
def State.writePending (s : State) (pa : Nat) : Bool :=
  s.reqs.any (fun e => !e.2.isDone && e.2.writes && e.2.isGlobal && (e.2.pa / 4096 == pa / 4096 || (match e.2.stage with
    | .claimed _ _ (some p) _ => p.2.1 == pa / 4096
    | _ => false)))
  || s.passed.any (fun p => p.write && p.pa / 4096 == pa / 4096)

/-- Step 2 of SEAL for page i: its bit is set and its translations go; the request keeps the page; none where no header is
free (R117, R327). -/
def State.sealBitOf (s : State) (rid i va pa : Nat) : Option State :=
  (s.seal va).map (fun s => (s.dropTlbAll (some va)).onReq rid (fun r => { r with m := 2 * i + 1, pa := pa }))

/-- The page of a SEAL at physical address pa ends: steps 3 and 4, once the writes translated before are performed and no
home is in transition (R117, R318). -/
def State.sealFinish (s : State) (rid i pa : Nat) : State × SealEnd :=
  if s.writePending pa || !s.homeOpen pa then (s, .hold)
  else if s.pageOut pa then (s.sendPage pa, .hold)
  else ((s.purgePage pa).onReq rid (fun r => { r with m := 2 * i + 2, pa := 0 }), .done)

/-- The page of an UNSEAL at physical address pa, once it has been translated and no home is in transition: its copies go,
then its bit and its translations (R117, R313). -/
def State.unsealFinish (s : State) (rid i va pa : Nat) : State × SealEnd :=
  if !s.homeOpen pa || s.pageOut pa then
    ((s.sendPage pa).onReq rid (fun r => { r with m := 2 * i + 1, pa := pa }), .hold)
  else ((((s.purgePage pa).unseal va).dropTlbAll (some va)).onReq rid (fun r => { r with m := 2 * i + 2, pa := 0 }), .done)

/-- Page i of a SEAL or UNSEAL; each page is processed as a unit (R117). -/
def State.sealPage (s : State) (rid : Nat) (r : Req) (i : Nat) : State × SealEnd :=
  let va := r.ea + 4096 * i
  if r.m = 2 * i + 1 then (if r.kind == .seal then s.sealFinish rid i r.pa else s.unsealFinish rid i va r.pa)
  else if s.reqs.any (fun e => e.2.sealing == some va) then (s, .hold)
  else
    match s.translate r.core (BitVec.ofNat 64 va) .read with
    | (s, .hold) => (s, .hold)
    | (s, .bad c d) => (s, .fault c va d)
    | (s, .ok pa _) =>
      let pa := pa / 4096 * 4096
      if r.kind == .seal then
        match s.sealBitOf rid i va pa with
        | none => (s, .fault 0x11 va (6 * 256))
        | some s => s.sealFinish rid i pa
      else s.unsealFinish rid i va pa

/-- The pages of a SEAL or UNSEAL from page i upward (R117). -/
def State.sealPages (s : State) (rid : Nat) (r : Req) (i : Nat) : Nat → State × SealEnd
  | 0 => (s, .done)
  | n + 1 =>
    match s.sealPage rid r i with
    | (s, .done) => s.sealPages rid r (i + 1) n
    | e => e

/-! ## PUTQ placement (R122, R123) -/

/-- The pieces of a payload of len bytes from granule start: offset, virtual address, length. -/
def putPieces (d : Ring) (start len : Nat) : List (Nat × Nat × Nat) :=
  (upTo ((len + 63) / 64)).map (fun j => (64 * j, d.granule (start + j), min 64 (len - 64 * j)))

/-- An earlier write of the thread of request r that has yet to be performed touches n bytes at a physical address, or goes
to their stack in order with them (R256, R257). -/
def State.placedAfter (s : State) (rid : Nat) (r : Req) (pa n : Nat) : Bool :=
  s.reqs.any (fun e => !e.2.isDone && e.2.g == r.g && e.2.t == r.t && decide (e.1 < rid) && e.2.isGlobal
    && ((decide (e.2.pa < pa + n) && decide (pa < e.2.pa + e.2.size)) || (e.2.ordered && paHome e.2.pa == paHome pa)))

/-- How the placement of a PUTQ ends: whole, waiting, or with a fault: code, address, detail. -/
inductive PlaceEnd where
  | done
  | hold
  | fault (code addr detail : Nat)
  deriving DecidableEq, Repr

/-- The translation of a piece of a payload: that of its page, made once (R122, R313). -/
def State.placePage (s : State) (k va : Nat) (page : Option (Nat × Nat × Bool)) : State × Tr :=
  match page.filter (fun p => p.1 = va / 4096) with
  | some (_, n, uc) => (s, .ok (4096 * n + va % 4096) { TlbEntry.blank with uc := uc })
  | none => s.translate k (BitVec.ofNat 64 va) .write

/-- How far a placement has come: the bytes placed, the page translated last, and the package to which the rest of the
payload has gone on. -/
structure Placed where
  bytes : Nat
  page : Option (Nat × Nat × Bool)
  gone : Option Nat
  deriving DecidableEq, Repr

/-- Packets of one request with bytes of data, 256 to a packet (R363). -/
def State.packetsOut (s : State) (cargo : Cargo) (src tag seq : Nat) (b : PkgPlace) (bytes : Nat) : State :=
  (upTo (max 1 ((bytes + 255) / 256))).foldl (fun s i => s.packetOut cargo src tag seq b (min 256 (bytes - 256 * i))) s

/-- The source tag of a thread's requests (R255). -/
def Req.tag (r : Req) : Nat := 256 * r.g + r.t

/-- Place the pieces in order from the first byte not yet placed, each where its home admits it, and where that lies on
another package, after the payload has gone there (R122, R123, R316, R363). -/
def State.place (s : State) (rid : Nat) (r : Req) (bytes : List Byte) (pl : Placed) :
    List (Nat × Nat × Nat) → State × Placed × PlaceEnd
  | [] => (s, pl, .done)
  | (o, va, n) :: rest =>
    match s.placePage r.core va pl.page with
    | (s, .hold) => (s, pl, .hold)
    | (s, .bad c _) => (s, pl, .fault 0x61 va (pl.bytes + c * 2 ^ 16))
    | (s, .ok pa e) =>
      let at_ : Placed := { pl with page := some (va / 4096, pa / 4096, e.uc) }
      let me : Agent := .thread r.g r.t
      if s.stackLost pa then (s, pl, .fault 0x60 pa (s.lostDetail (r.core / 96) pa))
      else if s.placedAfter rid r pa n then (s, at_, .hold)
      else if !s.admits me pa then (s.await ⟨me, true, va, pa, TlbEntry.blank⟩, at_, .hold)
      else if paPkg pa ≠ r.core / 384 ∧ pl.gone ≠ some (paPkg pa) then
        (s.packetsOut (.request rid) (r.core / 384) r.tag r.seq (PkgPlace.home pa) (r.m - pl.bytes),
          { at_ with gone := some (paPkg pa) }, .hold)
      else
        ((s.unawait me).storeBytes r.core pa ((bytes.drop o).take n) ⟨max r.scope 2, false, e.uc, false⟩).place rid r bytes
          { at_ with bytes := pl.bytes + n } rest

/-! ## Performing (R107 to R122) -/

/-- A waiting thread's count runs from now (R330). -/
def Place.recount (p : Place) (now : Nat) : Place :=
  match p with
  | .waiting w a h k dead => .waiting w a h ⟨k.acc, now⟩ dead
  | p => p

/-- Read a descriptor for a ring form, the issuing die's dirty bytes of it written back first (R109); on an uncached page
it stands at the stack controller, which the home's copy leaves first (R112, R251). -/
def State.openRing (s : State) (k pa : Nat) (uc : Bool) : State × Ring × Bool :=
  let x := k / 96
  let out := fun (s : State) (y : Nat) =>
    ((((s.writeBackLine y (pa / 64)).dropL2 y (pa / 64)).writeBackLine y (pa / 64 + 1)).dropL2 y (pa / 64 + 1))
  let s := if s.homeDie pa ≠ x then out s x else s
  let s := if uc then out s (s.homeDie pa) else s
  let (d, bad) := s.readRing pa
  (s, d, bad)

/-- An older wait of the same kind stands before a request on its descriptor (R121). -/
def State.ringAhead (s : State) (rid pa : Nat) (space : Bool) (order : Nat) : Bool :=
  s.reqs.any (fun e => e.1 ≠ rid && e.2.pa == pa && (match e.2.stage with
    | .queued o => decide (o < order) && (if space then e.2.kind == .rclaim || e.2.kind == .putq
        else e.2.kind == .rawait)
    | _ => false))
  || (space && s.jobs.any (fun e => e.2.ringWait.elim false (fun w => w.1 == pa && decide (w.2 < order))))

/-- The team and team core of a request's scratchpad. -/
def State.reqScratch (s : State) (r : Req) : Nat × Nat :=
  match r.team with
  | none => (0, 0)
  | some t => (t, (s.teams.get? t).elim 0 (fun tm => tm.cores.findIdx (· = r.core)))

/-- A PUTQ whose claim from granule start is made places its payload, from where it waited last, and commits it as RCOMMIT
does; what fails leaves the claim open (R122, R123; a poisoned payload, and a descriptor that the commit's checks refuse, leave no entry of the
open claim, DESIGN CHOICE, log 88). -/
def State.putForm (s : State) (rid : Nat) (r : Req) (start : Nat) (pl : Placed) : State :=
  let g := (r.m + 63) / 64
  let (tm, q) := s.reqScratch r
  match s.scratchRead tm q r.m2 r.m with
  | (_, true) => s.failReq rid r 0x31 r.m2 0
  | (bytes, false) =>
    let (s, d, _) := s.openRing r.core r.pa r.uc
    match s.place rid r bytes pl ((putPieces d start r.m).filter (fun e => decide (pl.bytes ≤ e.1))) with
    | (s, pl, .hold) => s.onReq rid (fun r => { r with stage := .claimed start pl.bytes pl.page pl.gone })
    | (s, _, .done) =>
      let (s, d, bad) := s.openRing r.core r.pa r.uc
      match d.refuses .rcommit g start with
      | some n => s.failReq rid r 0x15 r.ea n
      | none =>
        if bad then s.failReq rid r 0x31 r.ea 0
        else (s.writeRing r.pa (d.commit start g)).donePerform rid 0 false
    | (s, pl, .fault c a n) =>
      let (s, d, _) := s.openRing r.core r.pa r.uc
      (s.writeRing r.pa (d.leaveOpen start g pl.bytes)).failReq rid r c a n

/-- A ring form or the claim of a PUTQ: its checks at the descriptor's home, then it waits in its order of arrival, or
takes its effect (R120 to R122).  `order` is its place among the waits. -/
def State.ringForm (s : State) (rid : Nat) (r : Req) (order : Nat) : State :=
  let (s, d, bad) := s.openRing r.core r.pa r.uc
  let wait := fun (s : State) => match r.stage with
    | .queued _ => s
    | _ => (s.tick.onReq rid (fun r => { r with stage := .queued order })).onThread r.g r.t
        (fun th => { th with place := th.place.recount (s.now r.core) })
  let acq := fun (s : State) => if r.acquires then s.acquireAt r.core r.reachScope else s
  match d.refuses r.kind r.m r.m2 with
  | some n => s.failReq rid r 0x15 r.ea n
  | none =>
    if bad then s.failReq rid r 0x31 r.ea 0
    else
      match r.kind with
      | .rclaim =>
        if r.m ≠ 0 && (!d.room r.m || s.ringAhead rid r.pa true order) then wait s
        else acq ((s.writeRing r.pa (d.take r.m)).donePerform rid d.claim false)
      | .rawait =>
        if r.m ≠ 0 && (decide (d.tail - d.head < r.m) || s.ringAhead rid r.pa false order) then wait s
        else acq (s.donePerform rid d.head false)
      | .rcommit =>
        if r.m = 0 then s.donePerform rid 0 false
        else (s.writeRing r.pa (d.commit r.m2 r.m)).donePerform rid 0 false
      | .rretire => (s.writeRing r.pa { d with head := d.head + r.m }).donePerform rid 0 false
      | .putq =>
        let g := (r.m + 63) / 64
        if !d.room g || s.ringAhead rid r.pa true order then wait s
        else (s.writeRing r.pa (d.take g)).onReq rid (fun r => { r with stage := .claimed d.claim 0 none none })
      | _ => s

/-- The lanes of the SFENCE of request r that are still to be performed. -/
def State.sfenceLanes (s : State) (r : Req) : List (Nat × Req) :=
  s.reqs.filter (fun e => e.2.word == r.word && e.2.kind == .sfence && !e.2.isDone)

/-- Every scratchpad store and ACCST that the thread of an SFENCE issued before it has been performed (R115, R234). -/
def State.sfenceDue (s : State) (rid : Nat) (r : Req) : Bool :=
  s.inTurn rid r && s.mops.all (fun m => !(m.2.kind == .accst && m.2.g == r.g && m.2.sigs.contains r.t && decide (m.1 < rid)))

/-- An SFENCE completes for every lane of its packet together: the generation advances once (R115). -/
def State.sfenceForm (s : State) (r : Req) : State :=
  let ls := s.sfenceLanes r
  if ls.all (fun e => s.sfenceDue e.1 e.2) then
    let (tm, q) := s.reqScratch r
    ls.foldl (fun s e => s.donePerform e.1 0 false) (s.advanceGen tm q)
  else s

/-- A PREF brings its line into the die's L2, and into L1 at level 0, where the access is cached; a dropped PREF, and one
whose stack is lost or in transition, brings nothing (R118, R246). -/
def State.prefForm (s : State) (rid : Nat) (r : Req) : State :=
  let n := r.pa / 64
  let x := r.core / 96
  if r.size = 0 || r.uc || paSpace r.pa != 0 || s.stackLost r.pa || !s.homeOpen r.pa then s.donePerform rid 0 false
  else
    let l := (s.l2 x n).getD (s.homeLine n)
    (if r.d = 0 then s.allocate r.core n l (s.sealedPage r.ea)
      else (s.allocateL2 x n l (s.sealedPage r.ea)).getD s).donePerform rid 0 false

/-- The effect of request r where its turn, its home and its release have come (R107 to R122, R253). -/
def State.effect (s : State) (rid : Nat) (r : Req) : State :=
  let acq := fun (s : State) => if r.acquires then s.acquireAt r.core r.reachScope else s
  let (tm, q) := s.reqScratch r
  match r.kind with
  | .load =>
    if r.sp then
      let (b, bad) := s.scratchRead tm q r.ea r.size
      acq (s.donePerform rid (bytesToNat b) bad)
    else
      let (s, b, bad) := s.loadBytes r.core r.pa r.size ⟨r.scope, r.nt, r.uc, s.sealedPage r.ea⟩
      acq (s.donePerform rid (bytesToNat b) bad)
  | .store =>
    if r.sp then (s.scratchWrite tm q r.ea (natToBytes r.size r.m)).donePerform rid 0 false
    else (s.storeBytes r.core r.pa (natToBytes r.size r.m) ⟨r.scope, r.nt, r.uc, false⟩).donePerform rid 0 false
  | .atomic op =>
    let f := fun (x : Nat) => op.apply (8 * r.size) x r.m r.m2
    if r.sp then
      let (b, bad) := s.scratchRead tm q r.ea r.size
      let old := bytesToNat b
      let s := if bad then s else s.scratchWrite tm q r.ea (natToBytes r.size (f old))
      acq (s.donePerform rid old bad)
    else
      let (s, old, bad) := s.rmw r.core r.pa r.size (r.ms || r.uc) f
      acq (s.donePerform rid old bad)
  | .fence => (if r.order = 2 then s else s.acquireAt r.core r.scope).donePerform rid 0 false
  | .sfence => s.sfenceForm r
  | .seal | .unseal =>
    match s.sealPages rid r (r.m / 2) (r.m2 / 4096 - r.m / 2) with
    | (s, .done) => (if r.kind == .unseal then s.acquireAt r.core 4 else s).donePerform rid 0 false
    | (s, .fault c va d) => s.failReq rid r c va d
    | (s, .hold) => s
  | .pref => s.prefForm rid r
  | _ =>
    match r.stage with
    | .claimed start placed page gone => s.putForm rid r start ⟨placed, page, gone⟩
    | .queued o => s.ringForm rid r o
    | _ => s.ringForm rid r s.fresh

/-- The request is a release, or has a release side (R108, R114). -/
def Req.hasRelease (r : Req) : Bool := r.releases || (r.kind == .fence && r.order ≠ 1)
/-- The request is an acquire, or has an acquire side (R108, R114, R117). -/
def Req.hasAcquire (r : Req) : Bool := r.acquires || (r.kind == .fence && r.order ≠ 2) || r.kind == .unseal

/-- The home of the request lies on another package. -/
def Req.abroad (r : Req) : Bool := r.far && paPkg r.pa != r.core / 384

/-- The lines whose dirty bytes on the issuing die must have come to their home, on another package, before the request is
served there (R109, R253). -/
def Req.ownLines (r : Req) : List Nat :=
  if !r.abroad || r.kind == .store then [] else r.pa / 64 :: (if r.kind.isRing then [r.pa / 64 + 1] else [])

/-- The lines of a request are settled. -/
def State.ownSettled (s : State) (r : Req) : Bool := r.ownLines.all (fun n => s.settled (r.core / 96) (64 * n))

/-- Perform request rid now, where its turn has come, the lines of its die are settled, its release is made, no home in
transition holds its acquire, and its own home admits it; else it waits there in its order of arrival, and the write-backs
that it waits for go out (R107 to R118, R253, R254, R316). -/
def State.perform (s : State) (rid : Nat) : State :=
  match s.reqs.get? rid with
  | none => s
  | some r =>
    if r.isDone || !s.inTurn rid r then s
    else if !s.ownSettled r then r.ownLines.foldl (fun s n => s.sendLine (r.core / 96) n) s
    else if r.hasAcquire && !s.mayAcquire r.core (if r.kind == .unseal then 4 else r.reachScope) then s.sendLines (r.core / 96)
    else
      match (if r.hasRelease then s.releaseLines r.core (if r.kind == .seal then 4 else r.reachScope) else some s) with
      | none => s.sendLines (r.core / 96)
      | some s =>
        if r.isGlobal && !s.admits (.req rid) r.pa && !s.admits (.thread r.g r.t) r.pa then s.await ⟨.req rid, r.writes, r.ea, r.pa, TlbEntry.blank⟩
        else (s.unawait (.req rid)).effect rid r

/-- The names that die when the word of a waiting thread retires (R29). -/
def State.deadOf (s : State) (g t : Nat) : List Nat :=
  match (s.groups.get? g).bind (fun gr => Tbl.get? gr.threads t) with
  | none => []
  | some th => match th.place with
    | .waiting _ _ _ _ dead => dead
    | _ => []

/-- The reply of a performed request: the result is written, the token falls, a blocking word retires; poisoned data
raise 0x31 and write no register (R107, R109). -/
def State.reply (s : State) (rid : Nat) : State :=
  match s.reqs.get? rid with
  | none => s
  | some r =>
    match r.stage with
    | .performed value bad =>
      if bad then s.failReq rid r 0x31 r.ea 0
      else
        let n := r.dests.length
        let s := s.onGroup r.g (fun g => g.onThread r.t (fun t =>
          Thread.arrive (g.inHandler r.t) t r.d (splitWords n value)))
        s.endReq rid r (s.deadOf r.g r.t)
    | _ => s

/-! ## Between packages (R255, R363, R368) -/

/-- The bytes of data of a request's packets, and of its response's (R363). -/
def Req.outBytes (r : Req) : Nat :=
  match r.kind with
  | .store => r.size
  | .atomic _ => 2 * r.size
  | .putq => r.m
  | _ => 0
def Req.backBytes (r : Req) : Nat :=
  match r.kind with
  | .load | .atomic _ => r.size
  | _ => 0

/-- A request that its die cannot serve goes to its home, by packets where that lies on another package. -/
def State.sendOut (s : State) (rid : Nat) : State :=
  let s := s.onReq rid (fun r => { r with far := true })
  match s.reqs.get? rid with
  | none => s
  | some r =>
    if r.abroad then s.packetsOut (.request rid) (r.core / 384) r.tag r.seq (PkgPlace.home r.pa) r.outBytes else s

/-- A performed request of another package answers with a packet (R363, R368). -/
def State.respond (s : State) (rid : Nat) : State :=
  match s.reqs.get? rid with
  | none => s
  | some r =>
    if r.isDone && r.abroad then
      s.packetOut (.response rid) (paPkg r.pa) r.tag r.seq (PkgPlace.die (r.core / 96)) r.backBytes
    else s

/-- The request still travels to its home. -/
def State.onTheWay (s : State) (rid : Nat) : Bool := s.packets.any (fun e => e.2.cargo == .request rid)

/-- A request goes on as far as it can: to its home where its die cannot serve it, and, once it is where it is served, it is
performed there and answered (R253, R368). -/
def State.advanceReq (s : State) (rid : Nat) : State :=
  match s.reqs.get? rid with
  | none => s
  | some r =>
    if r.isDone || s.onTheWay rid then s
    else if !r.far && s.needsHome r then s.sendOut rid
    else (s.perform rid).respond rid

/-! ## Release for a group or a thread (R254) -/

/-- Perform the outstanding requests of some threads in issue order, where they have come to their homes. -/
def State.drainThreads (s : State) (g : Nat) (tids : List Nat) : State :=
  (s.reqs.filter (fun e => e.2.g = g && tids.contains e.2.t)).foldl (fun s e => s.advanceReq e.1) s

/-- Every request of some threads has been performed and acknowledged. -/
def State.drained (s : State) (g : Nat) (tids : List Nat) : Bool :=
  s.reqs.all (fun e => (e.2.isDone && !s.inFabric e.1) || !(e.2.g == g && tids.contains e.2.t))

/-- ReleaseAt for threads of a group: their earlier words are performed and the write-backs made; none while a home in
transition holds one of them (R254). -/
def State.releaseAt (s : State) (g : Nat) (tids : List Nat) (scope : Nat) : Option State :=
  match s.groups.get? g with
  | none => some s
  | some gr =>
    let s := s.drainThreads g tids
    if s.drained g tids then
      (s.releaseLines gr.core scope).map (fun s =>
        if scope < 2 then s
        else s.onGroup g (fun x => { x with releasing := x.releasing.filter (!tids.contains ·) }))
    else none

/-- Threads of a group wait in a release at package scope or wider: its write-backs go out (R254, R366). -/
def State.releaseWait (s : State) (g : Nat) (tids : List Nat) (scope : Nat) : State :=
  match s.groups.get? g with
  | none => s
  | some gr =>
    if scope < 2 then s
    else (s.sendLines gr.die).onGroup g (fun x => { x with releasing := (x.releasing ++ tids).dedup })

end Sys2Proof.Machine
end

