-- ==== Sys2Proof/Machine/Converge.lean ====
section
/-! DEFINITION. Signing (R58 to R60, R100, R125): what a thread does at a word guarded by a convergence register, the
context in which the word then executes once, what its execution answers, and the end of a group's wait. -/

namespace Sys2Proof.Machine

/-- The context of a word that executes once for its group. -/
structure Once where
  g : Nat
  at_ : Ctx
  i : Instr
  hd : Hd
  /-- The signers, in ascending index. -/
  sigs : List Sig
  /-- The watchdog count, which runs from the first signature (R330). -/
  watch : Watch
  /-- The uniform registers and shadow words that a word which tries again reads (R125). -/
  snap : Option (Tbl Word × Tbl Word)
  deriving DecidableEq, Repr

/-- What the execution of such a word answers. -/
inductive OnceRes where
  /-- Every signer retires. -/
  | done (s : State)
  /-- The signers wait in the word. -/
  | wait (s : State) (k : GKind)
  /-- A long-latency word: the signers retire, the result comes later (R28, R100). -/
  | later (s : State) (k : GKind)
  /-- A fault against the lowest-indexed signer (R60). -/
  | fault (s : State) (code addr detail : Nat)
  /-- A fault against a member (R100). -/
  | faultAt (s : State) (t code addr detail : Nat)
  /-- The word cannot act yet: its signers wait in it, and it tries again with the sources it has read (R125). -/
  | hold (s : State)

/-- The state of an answer changed. -/
def OnceRes.map (f : State → State) : OnceRes → OnceRes
  | .done s => .done (f s)
  | .wait s k => .wait (f s) k
  | .later s k => .later (f s) k
  | .fault s c a d => .fault (f s) c a d
  | .faultAt s t c a d => .faultAt (f s) t c a d
  | .hold s => .hold (f s)

/-- The signers' indexes. -/
def Once.tids (o : Once) : List Nat := o.sigs.map (·.t)
/-- The lowest-indexed signer. -/
def Once.low (o : Once) : Nat := (o.sigs.map (·.t)).headD 0
/-- The signature of a thread. -/
def Once.sig (o : Once) (t : Nat) : Option Sig := o.sigs.find? (·.t = t)
/-- The clause's token. -/
def Once.tok (o : Once) : Nat := o.at_.tok

/-- The group as a word that tries again reads it. -/
def Group.withSnap (g : Group) (u h : Tbl Word) : Group :=
  { g with s := u, handler := g.handler.map (fun x => { x with hs := h }) }

/-- Read the uniform sources of the word: the ECC check, and 0x30 for a poisoned word (R228, R229). -/
def Once.read (o : Once) (us : List Nat) (s : State) (k : State → Group → OnceRes) : OnceRes :=
  match o.snap with
  | some (u, h) =>
    match s.groups.get? o.g with
    | none => .done s
    | some gr => k s (gr.withSnap u h)
  | none =>
    let s := s.scrubUniforms o.g us
    match s.groups.get? o.g with
    | none => .done s
    | some gr =>
      match us.find? (fun n => gr.spois.contains (markKey gr.handling n)) with
      | some n => .fault s 0x30 0 (n + 2 ^ 7)
      | none => k s gr

/-- Add 1 to the token of every signer and note what the word will write (R28). -/
def State.raiseTokens (s : State) (g : Nat) (tids : List Nat) (tok : Nat) (owed : List Owed) : State :=
  tids.foldl (fun s t => s.onThread g t (fun th =>
    { th.setToken tok (th.token tok + 1) with owed := th.owed ++ owed })) s

/-- Lower the token of every signer that still lives (R28). -/
def State.lowerTokens (s : State) (g : Nat) (tids : List Nat) (tok : Nat) (owed : List Owed) : State :=
  tids.foldl (fun s t => s.onThread g t (·.lower tok owed)) s

/-- The signers retire. -/
def State.retireAll (s : State) (g : Nat) (tids : List Nat) (hd : Hd) (at_ : Ctx) (dead : List Nat) : State :=
  tids.foldl (fun s t => s.retire g t hd at_ dead) s

/-- Put threads back at their word, to sign again at their next slot. -/
def State.rejoin (s : State) (g : Nat) (tids : List Nat) : State := tids.foldl (fun s t => s.hold g t) s

/-- The vector sources of a group form that are not also destinations (R29). -/
def onceDead : Instr → List Nat
  | .gshfl _ d a b => ([a, b].filter (· ≠ d)).map (·.toNat)
  | .gred _ _ a _ => [a.toNat]
  | .gmaxi _ _ a _ => [a.toNat]
  | .gbcast _ _ a _ => [a.toNat]
  | .gscan _ d a _ => ([a].filter (· ≠ d)).map (·.toNat)
  | _ => []

/-- The count of a wait: it runs from the first signature (R330), that of a job-table entry from the moment at which
the table is found full (R140). -/
def GKind.count (k : GKind) (w : Watch) (now : Nat) : Watch :=
  match k with
  | .entry _ _ => ⟨0, now⟩
  | _ => w

/-- The barriers of a wait whose phase differs from the group's target when the wait begins (R68, R69). -/
def State.metAlready (s : State) (gr : Group) (k : GKind) (i : Instr) : List Nat :=
  let differs := fun (b : Nat) => (s.bar (gr.team.getD 0) b).phase != gr.tgt.getLsbD b
  match k, i with
  | .barrier b, _ => [b].filter differs
  | .any mask, .waitany _ _ _ b => (((upTo 8).filter mask.testBit).map (8 * b.toNat + ·)).filter differs
  | _, _ => []

/-- Enter a wait of the group. -/
def State.addWait (s : State) (o : Once) (k : GKind) : State :=
  match s.groups.get? o.g with
  | none => s
  | some gr =>
    let w : GWait := ⟨k, o.i, o.hd, o.at_, o.sigs, k.count o.watch (s.now gr.core), 0, s.metAlready gr k o.i, s.fresh⟩
    (s.onGroup o.g (fun gr => { gr with waits := gr.waits.put s.fresh w })).tick

/-- The snapshot of a group's uniform registers and shadow words. -/
def Group.snap (g : Group) : GKind := .again g.s (g.handler.elim [] (·.hs))

/-- What follows the execution of the word.  On a fault every signer stays at the word and issues nothing before the
fault is handled (R60). -/
def Once.after (o : Once) : OnceRes → State
  | .done s => s.retireAll o.g o.tids o.hd o.at_ (onceDead o.i)
  | .wait s k => s.addWait o k
  | .later s k => (s.addWait o k).retireAll o.g o.tids o.hd o.at_ (onceDead o.i)
  | .fault s c a d => (s.standStill o.g o.tids o.at_.pc).raise o.g o.low o.at_ c a d
  | .faultAt s t c a d => (s.standStill o.g o.tids o.at_.pc).raise o.g t o.at_ c a d
  | .hold s => match s.groups.get? o.g with
    | none => s
    | some gr => s.addWait o gr.snap

/-- A group's wait ends: it leaves the table. -/
def State.endWait (s : State) (g w : Nat) : State := s.onGroup g (fun gr => { gr with waits := gr.waits.del w })

/-- The context of a wait. -/
def GWait.once (w : GWait) (g : Nat) : Once := ⟨g, w.at_, w.i, w.hd, w.sigs, w.watch, none⟩

/-- A wait ends and its signers retire. -/
def State.finishWait (s : State) (g w : Nat) (x : GWait) : State :=
  (x.once g).after (.done ((s.fixEntering g).endWait g w))

/-- The moment since which a word has waited at issue: that of the group's own wait of the word, or now. -/
def State.bornOf (s : State) (o : Once) : Nat :=
  match (s.groups.get? o.g).bind (fun gr => gr.waits.find? (fun w => w.2.sigs == o.sigs && w.2.at_ == o.at_)) with
  | some w => w.2.born
  | none => s.fresh

/-- An ACCST. -/
def isAccst : Instr → Bool
  | .accst _ _ _ _ => true
  | _ => false

/-- Every scratchpad store and ACCST that the group issued before a moment has been performed, an ACCST that waits at issue
among them (R126). -/
def State.storesDone (s : State) (g before : Nat) : Bool :=
  s.reqs.all (fun e => !(e.2.g == g && e.2.sp && e.2.writes && !e.2.isDone && decide (e.1 < before)))
  && s.mops.all (fun e => !(e.2.g == g && e.2.kind == .accst && decide (e.1 < before)))
  && (s.groups.get? g).elim true (fun gr => gr.waits.all (fun w => !(isAccst w.2.i && decide (w.2.born < before))))

/-- Every scratchpad store and ACCST that some threads of a group issued earlier has been performed: what an SFENCE of theirs
waits for (R115, R234). -/
def State.fenceReady (s : State) (g : Nat) (tids : List Nat) : Bool :=
  s.reqs.all (fun e => !(e.2.g == g && tids.contains e.2.t && e.2.sp && e.2.writes && !e.2.isDone))
  && s.mops.all (fun e => !(e.2.g == g && e.2.kind == .accst && e.2.sigs.any tids.contains))

/-- A word that could not act tries again with the sources it has read (R125). -/
def State.retryWait (run : Instr → Once → State → OnceRes) (s : State) (g w : Nat) (x : GWait) : State :=
  match x.kind with
  | .again u h =>
    let o := { x.once g with snap := some (u, h) }
    match run x.i o s with
    | .hold s => s
    | r => o.after (r.map (·.endWait g w))
  | _ => s

/-- Every member of a convergence register has signed. -/
def Conv.full (c : Conv) : Bool := c.bound.isSome && c.members.all (fun t => c.signed.any (·.t = t))

/-- Add a signature, in ascending index. -/
def Conv.sign (c : Conv) (g : Sig) : List Sig :=
  c.signed.filter (·.t < g.t) ++ [g] ++ c.signed.filter (fun x => g.t < x.t)

/-- The signature of a thread: its source lanes at this slot (R100). -/
def Thread.signature (hm : Bool) (th : Thread) (t : Nat) (sh : Shape) : Sig :=
  let lane := fun (n : Nat) => (sh.vs[n]?).elim 0 (th.rd hm)
  ⟨t, lane 0, lane 1, (sh.ps[0]?).elim false th.pr, sh.vs.find? (fun n => th.vpois.contains (markKey hm n))⟩

/-- One thread of the packet reaches a convergence-guarded word: it raises, waits for its token, or signs
(R28, R30, R58, R59, R71). -/
def State.signOne (s : State) (i : Instr) (h : Hd) (sh : Shape) (long : Bool) (t : Nat) : State :=
  let c := h.guard.toNat
  match s.groups.get? s.cur.g with
  | none => s
  | some gr =>
    match Tbl.get? gr.threads t with
    | none => s
    | some th =>
      let hm := gr.inHandler t
      match (sh.vs ++ sh.vd).find? (gr.overCeiling hm ·) with
      | some n => s.raiseCur t 0x11 0 n
      | none =>
        match if s.checking gr then th.violation (sh.uses none) else none with
        | some d => s.raiseCur t 0x05 0 d
        | none =>
          let cv := gr.conv.getD c (Conv.fresh [])
          if !cv.members.contains t then s.raiseCur t 0x24 0 c
          else if cv.bound.elim false (fun b => b.at_.pc ≠ s.cur.at_.pc) then s.raiseCur t 0x24 0 (c + 0x10)
          else if long && decide (63 ≤ th.token s.cur.at_.tok) then s.hold s.cur.g t
          else
            let b := cv.bound.getD ⟨i, h, s.cur.at_, ⟨th.wd, s.now gr.core⟩⟩
            s.onGroup s.cur.g (fun gr => { (gr.onThread t (fun th => { th with place := .signing c })) with
              conv := gr.conv.set c { cv with signed := cv.sign (th.signature hm t sh), bound := some b } })

/-- Complete the signing of convergence register c of a group, where every member has signed: the word executes once
for the group (R58). -/
def State.completeSigning (run : Instr → Once → State → OnceRes) (s : State) (g c : Nat) : State :=
  match s.groups.get? g with
  | none => s
  | some gr =>
    let cv := gr.conv.getD c (Conv.fresh [])
    match cv.bound with
    | none => s
    | some b =>
      if cv.full then
        let o : Once := ⟨g, b.at_, b.i, b.hd, cv.signed, b.watch, none⟩
        let s := s.onGroup g (fun gr => { gr with conv := gr.conv.set c (Conv.fresh cv.members) })
        o.after (run b.i o s)
      else s

/-- A packet at a convergence-guarded word: its threads sign, and a completed signing executes the word (R58). -/
def State.signPacket (run : Instr → Once → State → OnceRes) (s : State) (i : Instr) (h : Hd) (sh : Shape) (long : Bool) :
    State :=
  let s := s.cur.tids.foldl (fun s t => s.signOne i h sh long t) (s.scrub { sh with us := [] })
  s.completeSigning run s.cur.g h.guard.toNat

/-- Thread t leaves every convergence register; a signing that this completes executes its word (R60). -/
def State.leaveConv (run : Instr → Once → State → OnceRes) (s : State) (g t : Nat) : State :=
  let s := s.onGroup g (fun gr => { gr with conv := gr.conv.map (fun c =>
    { c with members := c.members.filter (· ≠ t), signed := c.signed.filter (·.t ≠ t) }) })
  (upTo 8).foldl (fun s c => s.completeSigning run g c) s

end Sys2Proof.Machine
end

