-- ==== Sys2Proof/Machine/Engine.lean ====
section
/-! DEFINITION. Engine jobs (R139 to R148, R266, R269, R272 to R275): descriptors and their checks, footprints, issue,
the requests of a running job, its completion, its faults, and cancelling it. -/

namespace Sys2Proof.Machine

/-! ## Virtual memory as an engine sees it -/

/-- What a virtual access answers. -/
inductive Access1 where
  | ok (bytes : List Byte)
  | fault (code va detail : Nat)
  | hold
  deriving DecidableEq, Repr

/-- A packet of a job travels, or the answer to one (R363). -/
def State.jobOut (s : State) (key born : Nat) : Bool :=
  s.packets.any (fun e => match e.2.cargo with
    | .engine k b _ | .engineBack k b | .coll k b | .collBack k b => k == key && b == born
    | _ => false)

/-- The request of a job has come to where it is served: on its own package at once, on another one by a packet.  The
translation goes with it, so an access that waits on its way, or for its home, is not checked again (R255, R313, R316,
R363). -/
def State.travel (s : State) (key k : Nat) (va : Nat) (kind : Acc) (far : State → Nat → TlbEntry → Bool) (bytes : Nat) :
    State × Tr :=
  match s.jobs.get? key with
  | none => (s, .hold)
  | some j =>
    match j.trips.find? (fun t => t.va / 4096 == va / 4096 && t.write == kind.changes) with
    | some t =>
      let pa := t.pa / 4096 * 4096 + va % 4096
      if !t.there then (s, .hold)
      else if s.admits (.job key) pa then (s.unawait (.job key), .ok pa t.entry)
      else (s.await ⟨.job key, kind.changes, va, pa, t.entry⟩, .hold)
    | none =>
      match s.reach (some (.job key)) k (BitVec.ofNat 64 va) kind with
      | (s, .ok pa e) =>
        if paPkg pa = k / 384 ∨ !far s pa e then (s, .ok pa e)
        else
          let seq := if kind.changes then j.seq else 0
          (((s.onJob key (fun j => { j with trips := j.trips ++ [⟨va, kind.changes, pa, e, false⟩] })).packetOut
            (.engine key j.born (va / 4096)) (k / 384) (jobTag key) seq (PkgPlace.home pa) bytes), .hold)
      | r => r

/-- An access of an agent reaches what serves it; that of a job travels there. -/
def State.reachFor (s : State) (a : Option Agent) (k : Nat) (va : Nat) (kind : Acc) (far : State → Nat → TlbEntry → Bool)
    (bytes : Nat) : State × Tr :=
  match a with
  | some (.job key) => s.travel key k va kind far bytes
  | a => s.reach a k (BitVec.ofNat 64 va) kind

/-- A read of an agent of core k at a scope is served by its home (R251, R253, R266). -/
def readFar (k scope va : Nat) (s : State) (pa : Nat) (e : TlbEntry) : Bool :=
  e.uc || (decide (2 ≤ scope) && !s.pageSealed e va) || !s.onDieCopy k pa

/-- Read pieces by core k at a scope, for an agent; a line whose dirty bytes stand on its die for another package goes there
first (R253). -/
def State.readPieces (s : State) (a : Option Agent) (k scope : Nat) : List (Nat × Nat) → List Byte → State × Access1
  | [], acc => (s, .ok acc)
  | (va, n) :: rest, acc =>
    match s.reachFor a k va .read (readFar k scope va) 0 with
    | (s, .hold) => (s, .hold)
    | (s, .bad c d) => (s, .fault c va d)
    | (s, .ok pa e) =>
      if s.stackLost pa then (s, .fault 0x60 pa 0)
      else if readFar k scope va s pa e && !s.settled (k / 96) pa then (s.sendLine (k / 96) (pa / 64), .hold)
      else
        match s.loadBytes k pa n ⟨scope, false, e.uc, s.pageSealed e va⟩ with
        | (s, _, true) => (s, .fault 0x31 va 0)
        | (s, b, false) => s.readPieces a k scope rest (acc ++ b)

/-- Read n bytes at va by core k at a scope, for an agent. -/
def State.readVa (s : State) (a : Option Agent) (k scope va n : Nat) : State × Access1 :=
  s.readPieces a k scope (linePieces n va n) []

/-- Write pieces by core k at a scope, for an agent; with the bytes written. -/
def State.writePieces (s : State) (a : Option Agent) (k scope : Nat) :
    List (Nat × Nat) → List Byte → Nat → State × Nat × Access1
  | [], _, m => (s, m, .ok [])
  | (va, n) :: rest, bytes, m =>
    match s.reachFor a k va .write (fun _ _ e => e.uc || decide (2 ≤ scope)) n with
    | (s, .hold) => (s, m, .hold)
    | (s, .bad c d) => (s, m, .fault c va d)
    | (s, .ok pa e) =>
      if s.stackLost pa then (s, m, .fault 0x60 pa 0)
      else (s.storeBytes k pa (bytes.take n) ⟨scope, false, e.uc, false⟩).writePieces a k scope rest (bytes.drop n) (m + n)

/-- Write bytes at va by core k at a scope, for an agent; with the bytes written. -/
def State.writeVa (s : State) (a : Option Agent) (k scope va : Nat) (bytes : List Byte) : State × Nat × Access1 :=
  s.writePieces a k scope (linePieces bytes.length va bytes.length) bytes 0

/-! ## Descriptor fields -/

/-- A descriptor. -/
abbrev Desc := List Word

namespace Desc

def w (d : Desc) (i : Nat) : Nat := (List.getD d i 0).toNat
/-- A 64-bit field. -/
def q (d : Desc) (i : Nat) : Nat := w d i + 2 ^ 32 * w d (i + 1)
/-- A signed 32-bit field. -/
def i32 (d : Desc) (i : Nat) : Int := (List.getD d i 0).toInt
/-- A bit of word i. -/
def bit (d : Desc) (i n : Nat) : Bool := (w d i).testBit n

/-! CPY (R142) -/
def n0 (d : Desc) : Nat := bitsOf (d.w 4) 15 0 + 1
def n1 (d : Desc) : Nat := bitsOf (d.w 4) 31 16 + 1
def n2 (d : Desc) : Nat := bitsOf (d.w 5) 15 0 + 1
def n3 (d : Desc) : Nat := bitsOf (d.w 5) 31 16 + 1
def conv (d : Desc) : Bool := d.bit 12 3
def esize (d : Desc) : Nat := bitsOf (d.w 12) 2 0
def sfmt (d : Desc) : Nat := bitsOf (d.w 12) 7 4
def dfmt (d : Desc) : Nat := bitsOf (d.w 12) 11 8
def srcSp (d : Desc) : Bool := d.bit 12 15
def dstSp (d : Desc) : Bool := d.bit 12 16
def cpyScope (d : Desc) : Nat := bitsOf (d.w 12) 19 17
def mck (d : Desc) : Nat := bitsOf (d.w 12) 21 20
def mcmask (d : Desc) : Nat := bitsOf (d.w 12) 25 22
def swz (d : Desc) : Nat := bitsOf (d.w 12) 28 26
/-- Bytes of an element of a format code 0 to 5. -/
def fmtBytes (code : Nat) : Nat := if code = 0 then 4 else if code ≤ 2 then 2 else 1
/-- Source element size. -/
def ses (d : Desc) : Nat := if d.conv then fmtBytes d.sfmt else 2 ^ d.esize
/-- Destination element size. -/
def des (d : Desc) : Nat := if d.conv then fmtBytes d.dfmt else 2 ^ d.esize
/-- Elements of a copy. -/
def elems (d : Desc) : Nat := d.n0 * d.n1 * d.n2 * d.n3

/-! GATH and SCAT (R144) -/
def count (d : Desc) : Nat := d.w 6
def rows (d : Desc) : Nat := d.w 7
def gsize (d : Desc) : Nat := bitsOf (d.w 8) 15 0
def tstride (d : Desc) : Nat := d.w 9
def bstride (d : Desc) : Nat := d.w 10
def idxSp (d : Desc) : Bool := d.bit 11 0
def tabSp (d : Desc) : Bool := d.bit 11 1
def bufSp (d : Desc) : Bool := d.bit 11 2
def ring (d : Desc) : Bool := d.bit 11 3
def gathScope (d : Desc) : Nat := bitsOf (d.w 11) 6 4
def idx64 (d : Desc) : Bool := d.bit 11 7
def idxBytes (d : Desc) : Nat := if d.idx64 then 8 else 4
/-- Requests of one element. -/
def parts (d : Desc) : Nat := (d.gsize + 63) / 64

/-! COLL (R145) -/
def op (d : Desc) : Nat := bitsOf (d.w 6) 3 0
def red (d : Desc) : Nat := bitsOf (d.w 6) 7 4
def fmt (d : Desc) : Nat := bitsOf (d.w 6) 11 8
def axis (d : Desc) : Nat := bitsOf (d.w 6) 14 12
def gen (d : Desc) : Nat := d.w 7
def cl (d : Desc) : Nat := d.q 4
def es (d : Desc) : Nat := if d.fmt = 1 ∨ d.fmt = 2 then 2 else 4

end Desc

/-- The first descriptor word that breaks one of its rules, from a list of word and violation. -/
def firstBad (l : List (Nat × Bool)) : Option Nat := (l.filter (·.2)).map (·.1) |>.min?

/-- The word that holds a nonzero bit above 19 of a 64-bit scratchpad field (R143, R144). -/
def spField (d : Desc) (sp : Bool) (i : Nat) : List (Nat × Bool) :=
  [(i, sp && decide (d.w i / 2 ^ 20 ≠ 0)), (i + 1, sp && decide (d.w (i + 1) ≠ 0))]

/-- The field checks of a copy descriptor (R142, R143), for a team of `cores` cores. -/
def cpyBad (d : Desc) (cores : Nat) : Option Nat :=
  firstBad (spField d d.srcSp 0 ++ spField d d.dstSp 2 ++
    [(12, decide (4 < d.esize) || decide (5 < d.sfmt) || decide (5 < d.dfmt)
        || (d.bit 12 14 && d.dfmt != 3 && d.dfmt != 5)
        || decide (4 < d.cpyScope) || d.mck == 3 || (d.mck == 1 && !d.dstSp) || (d.mck == 2 && d.dstSp)
        || (d.mck == 0 && d.mcmask != 0) || (d.mck != 0 && d.mcmask == 0)
        || (d.mck == 1 && decide (d.mcmask / 2 ^ cores ≠ 0))
        || (d.swz != 0 && !d.dstSp) || decide (6 < d.swz) || decide (bitsOf (d.w 12) 31 29 ≠ 0)),
     (13, d.mck == 0 && d.w 13 != 0), (14, d.mck == 0 && d.w 14 != 0), (15, d.w 15 != 0)])

/-- The field checks of a gather or scatter descriptor (R144). -/
def gathBad (d : Desc) (scat : Bool) : Option Nat :=
  firstBad (spField d d.idxSp 0 ++ spField d d.tabSp 2 ++ spField d d.bufSp 4 ++
    [(6, decide (2 ^ 24 < d.count)),
     (8, d.gsize % 4 != 0 || decide (d.gsize < 4) || decide (32768 < d.gsize) || (d.ring && d.gsize % 64 != 0)
        || decide (d.w 8 / 2 ^ 16 ≠ 0)),
     (11, (scat && d.ring) || (d.ring && d.bufSp) || decide (4 < d.gathScope) || decide (d.w 11 / 2 ^ 8 ≠ 0)),
     (12, d.w 12 != 0), (13, d.w 13 != 0), (14, d.w 14 != 0), (15, d.w 15 != 0)])

/-! ## Ranges -/

/-- Lowest and highest offset of n steps of a signed stride. -/
def strideRange (n : Nat) (stride : Int) : Int × Int :=
  let e := stride * (n - 1 : Nat)
  (min 0 e, max 0 e)

/-- The lowest and the highest byte of a row of n bytes whose 16-byte blocks are swizzled by 2 to the z at dimension-1 index b
(R129, R142). -/
def swzRow (n z b : Nat) : Int × Int :=
  let w := 2 ^ z
  let blocks := (n + 15) / 16
  let last := (blocks - 1) / w * w
  let lo := ((upTo (min blocks w)).map (fun i => i ^^^ (b % w))).min?.getD 0
  let hi := ((upTo (blocks - last)).map (fun i =>
    16 * (last + (i ^^^ (b % w))) + (if last + i + 1 = blocks then (n - 1) % 16 else 15))).foldl max 0
  (16 * lo, hi)

/-- The bounding offsets of a copy side, from the lowest to the highest byte addressed: rows of dimension 0 of es bytes each,
swizzled by the dimension-1 index (R142, R146). -/
def cpyRange (d : Desc) (es : Nat) (s1 s2 s3 : Int) (swz : Nat) : Int × Int :=
  let n := d.n0 * es
  let (a, b) := if swz = 0 then (let (a, b) := strideRange d.n1 s1; (a, b + n - 1)) else
    let w := 2 ^ swz
    let ends := (upTo (min w d.n1)).flatMap (fun r => [r, r + w * ((d.n1 - 1 - r) / w)])
    let at_ := ends.map (fun (i : Nat) => ((swzRow n swz i).1 + i * s1, (swzRow n swz i).2 + i * s1))
    let first := at_.headD (0, 0)
    (at_.foldl (fun m e => min m e.1) first.1, at_.foldl (fun m e => max m e.2) first.2)
  let (c, e) := strideRange d.n2 s2
  let (f, g) := strideRange d.n3 s3
  (a + c + f, b + e + g)

/-- A region from a base and bounding offsets: global addresses modulo 2 to the 64. -/
def mkRegion (space : Option Nat) (base : Nat) (r : Int × Int) : Region :=
  let lo := (BitVec.ofInt 64 (base + r.1)).toNat
  ⟨space, lo, lo + (r.2 - r.1).toNat⟩

/-- The source region of a copy. -/
def cpySrc (d : Desc) (k : Nat) : Region :=
  mkRegion (if d.srcSp then some k else none) (d.q 0) (cpyRange d d.ses (d.i32 6) (d.i32 7) (d.i32 8) 0)
/-- The destination regions of a copy by core k whose team has `cores` (R146). -/
def cpyDst (d : Desc) (k : Nat) (cores : List Nat) : List Region :=
  let r := cpyRange d d.des (d.i32 9) (d.i32 10) (d.i32 11) d.swz
  match d.mck with
  | 1 => ((upTo 4).filter (d.mcmask.testBit ·)).map (fun c => mkRegion (some (cores.getD c 0)) (d.q 2) r)
  | 2 => ((upTo 4).filter (d.mcmask.testBit ·)).map (fun c => mkRegion none ((d.q 2 + c * d.q 13) % 2 ^ 64) r)
  | _ => [mkRegion (if d.dstSp then some k else none) (d.q 2) r]

/-- The index, table and buffer regions of a gather or scatter; none where COUNT or ROWS is 0. -/
def idxRegion (d : Desc) (k : Nat) : List Region :=
  if d.count = 0 then [] else [⟨if d.idxSp then some k else none, d.q 0, d.q 0 + d.count * d.idxBytes - 1⟩]
def tabRegion (d : Desc) (k : Nat) : List Region :=
  if d.rows = 0 ∨ d.tstride = 0 then [] else [⟨if d.tabSp then some k else none, d.q 2, d.q 2 + d.rows * d.tstride - 1⟩]
def bufRegion (d : Desc) (k : Nat) : List Region :=
  if d.ring then [⟨none, d.q 4, d.q 4 + 127⟩]
  else if d.count = 0 then []
  else [⟨if d.bufSp then some k else none, d.q 4, d.q 4 + (d.count - 1) * d.bstride + d.gsize - 1⟩]

/-- Two regions share a byte (R273). -/
def Region.meets (a b : Region) : Bool := a.space == b.space && decide (a.lo ≤ b.hi) && decide (b.lo ≤ a.hi)

/-- The first scratchpad offset of regions that leaves an allocation. -/
def spOutside (size : Nat) (rs : List Region) : Option Nat :=
  ((rs.filter (fun r => r.space.isSome && (decide (size ≤ r.hi)))).map (fun r => max r.lo size)).min?

/-! ## Axes and shard maps (R369, R370, R374) -/

/-- Numbers of 4 bytes. -/
def fourBytes (b : List Byte) (i : Nat) : Nat := bytesToNat ((b.drop (4 * i)).take 4)

/-- A die number from an axis word, none where a reserved bit is set. -/
def axisDie (x : Nat) : Option Nat := if x / 2 ^ 10 ≠ 0 then none else some (4 * (x % 256) + x / 256 % 4)

/-- What reading an axis entry answers. -/
inductive AxisRes where
  | ok (members : List Nat)
  /-- One of the conditions of detail 6 (R370). -/
  | bad
  | fault (code va detail : Nat)
  | hold
  deriving DecidableEq, Repr

/-- The members of axis entry a of a launch as core k reads them. -/
def State.readAxis (s : State) (k axes a : Nat) : State × AxisRes :=
  if axes = 0 then (s, .bad)
  else
    match s.readVa none k 4 (axes + 256 * a) 256 with
    | (s, .fault c va d) => (s, .fault c va d)
    | (s, .hold) => (s, .hold)
    | (s, .ok b) =>
      let w0 := fourBytes b 0
      let n := w0 % 2 ^ 11
      let ext := w0.testBit 31
      let list := fourBytes b 2 + 2 ^ 32 * fourBytes b 3
      if n = 0 ∨ bitsOf w0 30 11 ≠ 0 ∨ 1024 < n ∨ (ext = false ∧ 63 < n) ∨ (ext ∧ list % 4 ≠ 0) then (s, .bad)
      else
        let done := fun (s : State) (b : List Byte) (o : Nat) =>
          let ms := (upTo n).map (fun p => axisDie (fourBytes b (o + p)))
          if ms.any (·.isNone) then (s, AxisRes.bad) else (s, AxisRes.ok (ms.filterMap id))
        if ext then
          match s.readVa none k 4 list (4 * n) with
          | (s, .fault c va d) => (s, .fault c va d)
          | (s, .hold) => (s, .hold)
          | (s, .ok l) => done s l 0
        else done s b 1

/-- The share of position j and its offset (R371). -/
def share (l d j : Nat) : Nat := if j < l % d then l / d + 1 else l / d
def shareOff (l d j : Nat) : Nat := ((upTo j).map (share l d)).sum

/-- A shard map: members, items, entries (R374). -/
structure ShardMap where
  members : Nat
  items : Nat
  reserved : Nat
  /-- OLDFIRST, OLDCOUNT, NEWFIRST, NEWCOUNT of each position. -/
  entries : List (Nat × Nat × Nat × Nat)
  deriving DecidableEq, Repr

/-- A shard map of n positions from its bytes. -/
def ShardMap.ofBytes (b : List Byte) (n : Nat) : ShardMap :=
  ⟨fourBytes b 0, fourBytes b 1, fourBytes b 2 + fourBytes b 3,
    (upTo n).map (fun p => (fourBytes b (4 + 4 * p), fourBytes b (5 + 4 * p), fourBytes b (6 + 4 * p), fourBytes b (7 + 4 * p)))⟩

/-- Ranges with a nonzero count cover items 0 to n - 1 with no gap and no overlap. -/
def covers (n : Nat) (rs : List (Nat × Nat)) : Bool :=
  let rs := (rs.filter (·.2 ≠ 0)).sortBy (fun a b => a.1 ≤ b.1)
  (rs.foldl (fun (acc : Option Nat) r => match acc with
    | some p => if r.1 = p then some (p + r.2) else none
    | none => none) (some 0)) == some n

/-- The map is good for an axis of n members and a count (R374). -/
def ShardMap.ok (m : ShardMap) (n count : Nat) : Bool :=
  m.members == n && m.items == count && m.reserved == 0
  && covers m.items (m.entries.map (fun e => (e.1, e.2.1))) && covers m.items (m.entries.map (fun e => (e.2.2.1, e.2.2.2)))

/-- The elements that a collective reads from SEND and writes to RECV at position i of n (R372). -/
def collCounts (d : Desc) (n i : Nat) (m : Option ShardMap) : Nat × Nat :=
  match d.op with
  | 0 => (d.cl, d.cl)
  | 1 => (d.cl, share d.cl n i)
  | 2 => (share d.cl n i, d.cl)
  | 3 => (d.cl, n * share d.cl n i)
  | _ =>
    let e := (m.map (fun m => m.entries.getD i (0, 0, 0, 0))).getD (0, 0, 0, 0)
    (e.2.1, e.2.2.2)

/-- The SEND and RECV regions of a member. -/
def collRegions (d : Desc) (n i : Nat) (m : Option ShardMap) : List Region × List Region :=
  let (a, b) := collCounts d n i m
  let r := fun (base c : Nat) => if c = 0 then [] else [(⟨none, base, base + c * d.es - 1⟩ : Region)]
  (r (d.q 0) a, r (d.q 2) b)

/-- The field checks of a COLL descriptor (R145, R370), with its regions where they are known. -/
def collBad (d : Desc) (rs : Option (List Region × List Region)) : Option Nat :=
  let overlap := match rs with
    | some (a, b) => a.any (fun x => b.any (fun y => x.meets y)) && !(d.op == 0 && d.q 0 == d.q 2)
    | none => false
  firstBad ([(2, overlap),
    (6, decide (4 < d.op) || decide (2 < d.red) || (d.red != 0 && decide (2 ≤ d.op)) || !([0, 1, 2, 13].contains d.fmt)
      || decide (d.w 6 / 2 ^ 15 ≠ 0)),
    (7, d.op == 4 && d.gen == 0),
    (8, (d.op == 4 && d.q 8 == 0) || (d.op != 4 && d.w 8 != 0)), (9, d.op != 4 && d.w 9 != 0)]
    ++ ((upTo 22).map (fun i => (10 + i, d.w (10 + i) != 0))))

/-- What reading a shard map answers. -/
inductive MapRes where
  | ok (m : Option ShardMap)
  | fault (code va detail : Nat)
  | hold
  deriving DecidableEq, Repr

/-- The shard map at SHARDMAP for n members as core k reads it, where a permute names one (R374). -/
def State.readMap (s : State) (k : Nat) (d : Desc) (n : Nat) : State × MapRes :=
  if d.op ≠ 4 ∨ d.q 8 = 0 then (s, .ok none)
  else
    match s.readVa none k 4 (d.q 8) (16 + 16 * n) with
    | (s, .ok b) => (s, .ok (some (ShardMap.ofBytes b n)))
    | (s, .fault c va x) => (s, .fault c va x)
    | (s, .hold) => (s, .hold)

/-! ## Issue (R140, R141, R273) -/

/-- Two jobs are of one team, or of one kindled group (R140). -/
def Job.sameOwner (a b : Job) : Bool := a.team == b.team && (a.team.isSome || a.g == b.g)

/-- The job is waiting or running. -/
def Job.live (j : Job) : Bool := j.state == .waiting || j.state == .running

/-- Two jobs overlap (R273). -/
def Job.meets (a b : Job) : Bool :=
  a.writes.any (fun x => (b.reads ++ b.writes).any (fun y => x.meets y))
  || b.writes.any (fun x => a.reads.any (fun y => x.meets y))

/-- The table of a core's jobs in order of acceptance. -/
def State.jobsOn (s : State) (k : Nat) : List (Nat × Job) :=
  (s.jobs.filter (fun e => jobCore e.1 = k)).sortBy (fun a b => a.2.born ≤ b.2.born)

/-- Accept a job on a free entry of core k: the entry, its identifier, its overlaps; none when the table is full. -/
def State.acceptJob (s : State) (k : Nat) (j : Job) : Option (State × Nat) :=
  match (s.core k).jobFree with
  | [] => none
  | n :: rest =>
    let key := 32 * k + n
    let issues := (s.jobs.get? key).elim 0 (·.issues) + 1
    let waits := ((s.jobsOn k).filter (fun e => e.1 ≠ key && e.2.live && e.2.sameOwner j && j.meets e.2)).map (·.1)
    let j := { j with issues := issues, born := s.fresh, waits := waits,
                      state := if waits.isEmpty then .running else .waiting }
    let s := s.onCore k (fun c => { c with jobFree := rest })
    some ({ s with jobs := s.jobs.put key j }.tick, j.ident key)

/-- A job before its acceptance.  GROUP of a kindled group's job is the low half of its SPAWNSER (R276; DESIGN CHOICE,
log 100). -/
def Job.fresh (kind : JobKind) (b : Option Nat) (o : Once) (gr : Group) (desc : Desc) (scope : Nat) (foot : Foot) :
    Job where
  kind := kind
  state := .unused
  fault := 0
  barrier := b
  issues := 0
  lseq := gr.lseq
  team := gr.team
  g := o.g
  gix := if gr.team.isSome then gr.gix else gr.serial.toNat
  desc := desc
  scope := scope
  reads := foot.reads
  writes := foot.writes
  axis := foot.axis
  born := 0
  waits := []
  bytes := 0
  next := 0
  off := 0
  index := none
  unit := none
  lags := []
  failing := none
  range := 0
  paused := none
  retry := false
  claim := none
  seq := 1
  collK := 0
  begun := false
  moves := false
  shard := none
  sent := []
  recv := none
  ringWait := none
  trips := []
  told := false

/-- The kind, destination register, descriptor length and barrier of a job word. -/
def jobFields : Instr → JobKind × Nat × Nat × Nat × Nat
  | .cpy _ d a b => (.cpy, d.toNat, a.toNat, 16, b.toNat)
  | .gath _ d a b => (.gath, d.toNat, a.toNat, 16, b.toNat)
  | .scat _ d a b => (.scat, d.toNat, a.toNat, 16, b.toNat)
  | .coll _ d a b => (.coll, d.toNat, a.toNat, 32, b.toNat)
  | _ => (.cpy, 0, 0, 16, 16)

/-- The cores of a group's team, or the one of a kindled group. -/
def State.coresOf (s : State) (gr : Group) : List Nat := (s.teamOf gr).elim [gr.core] (·.cores)

/-- The footprint of a copy, a gather or a scatter of a group (R146). -/
def State.footprint (s : State) (kind : JobKind) (gr : Group) (d : Desc) : Foot :=
  match kind with
  | .cpy => ⟨[cpySrc d gr.core], cpyDst d gr.core (s.coresOf gr), []⟩
  | .gath => ⟨idxRegion d gr.core ++ tabRegion d gr.core, bufRegion d gr.core, []⟩
  | .scat => ⟨idxRegion d gr.core ++ bufRegion d gr.core, tabRegion d gr.core, []⟩
  | .coll => ⟨[], [], []⟩

/-- The footprint of a collective at die x, for the members of its axis and its shard map (R372). -/
def collFoot (d : Desc) (x : Nat) (ms : List Nat) (m : Option ShardMap) : Foot :=
  let r := collRegions d ms.length (ms.findIdx (· = x)) m
  ⟨r.1, r.2, ms⟩

/-- The scope of a job. -/
def jobScope (kind : JobKind) (d : Desc) : Nat :=
  match kind with
  | .cpy => if d.mck = 2 then max d.cpyScope 2 else d.cpyScope
  | .coll => 4
  | _ => d.gathScope

/-- The accepted COLLs of a die under an entry and GEN so far in the step (R371). -/
def Launch.collCount (n : Launch) (x axis gen : Nat) : Nat :=
  (n.colls.filter (fun c => c.1 = x && c.2.1 = axis && c.2.2 = gen)).length

/-- Step 5 of R140: the job is accepted with its footprint and its identifier written to S(D); none while the table is
full. -/
def State.issueJob (s : State) (o : Once) (desc : Desc) (foot : Foot) : Option State :=
  match s.groups.get? o.g with
  | none => some s
  | some gr =>
    let (kind, d, _, _, b) := jobFields o.i
    let j := Job.fresh kind (if b < 16 then some b else none) o gr desc (jobScope kind desc) foot
    let k := (s.launchOf gr).elim 0 (fun n => n.collCount gr.die desc.axis desc.gen)
    match s.acceptJob gr.core { j with collK := if kind = .coll then k else 0 } with
    | none => none
    | some (s, id) =>
      let s := if kind = .coll then
          s.onLaunch gr.lseq (fun n => { n with colls := n.colls ++ [(gr.die, desc.axis, desc.gen)] })
        else s
      some (s.onGroup o.g (fun g => g.wsFor o.low d [BitVec.ofNat 32 id]))

/-- What the checks of step 1 answer: the fault, or the descriptor is good, with its footprint. -/
inductive JobCheck where
  | good (foot : Foot)
  | fault (code addr detail : Nat)
  | hold
  deriving DecidableEq, Repr

/-- The barrier, alignment and bounds checks of step 1, in order (R140). -/
def jobTail (bar barriers size : Nat) (aligned : Bool) (regions : List Region) (foot : Foot) : JobCheck :=
  if bar < 16 ∧ barriers ≤ bar then .fault 0x01 0 0
  else if !aligned then .fault 0x06 0 0
  else
    match spOutside size regions with
    | some x => .fault 0x14 x size
    | none => .good foot

/-- Step 1 of R140 for a copy. -/
def State.checkCpy (s : State) (gr : Group) (d : Desc) (bar : Nat) : JobCheck :=
  match cpyBad d (s.coresOf gr).length with
  | some w => .fault 0x01 0 (w + 0x80)
  | none =>
    let al := fun (n e : Nat) => n % e == 0
    let ok := al (d.q 0) d.ses && al (d.w 6) d.ses && al (d.w 7) d.ses && al (d.w 8) d.ses
      && al (d.q 2) d.des && al (d.w 9) d.des && al (d.w 10) d.des && al (d.w 11) d.des && al (d.q 13) d.des
    let foot := s.footprint .cpy gr d
    jobTail bar (s.barriers gr) (s.scratchSize gr) ok (foot.reads ++ foot.writes) foot

/-- Step 1 of R140 for a gather or scatter; IDX must be a multiple of the index size, TAB and BUF of 4, where R144 gives
no alignment (DESIGN CHOICE, log 88). -/
def State.checkGath (s : State) (gr : Group) (d : Desc) (bar : Nat) (scat : Bool) : JobCheck :=
  match gathBad d scat with
  | some w => .fault 0x01 0 (w + 0x80)
  | none =>
    let ok := d.q 0 % d.idxBytes == 0 && d.q 2 % 4 == 0 && d.tstride % 4 == 0 && d.bstride % 4 == 0
      && d.q 4 % (if d.ring then 128 else 4) == 0
    jobTail bar (s.barriers gr) (s.scratchSize gr) ok
      (idxRegion d gr.core ++ tabRegion d gr.core ++ (if d.ring then [] else bufRegion d gr.core))
      (s.footprint (if scat then .scat else .gath) gr d)

/-- The rules of a COLL's words, its axis, its barrier and its alignment, where its axis and its map have been read: the
ranges of SEND and RECV are compared where they are known, in an all-reduce whatever the axis (R140, R370). -/
def State.judgeColl (s : State) (gr : Group) (d : Desc) (bar : Nat) (axis : AxisRes) (map : MapRes) : JobCheck :=
  let ms := match axis with
    | .ok ms => ms
    | _ => []
  let m := match map with
    | .ok m => m
    | _ => none
  let foot := collFoot d gr.die ms m
  let known := d.op = 0 ∨ (ms.contains gr.die ∧ (d.op ≠ 4 ∨ m.isSome))
  match collBad d (if known then some (foot.reads, foot.writes) else none) with
  | some w => .fault 0x01 0 (w + 0x80)
  | none =>
    match axis, map with
    | .fault c va x, _ => .fault c va x
    | .hold, _ => .hold
    | _, .fault c va x => .fault c va x
    | _, .hold => .hold
    | _, _ =>
      let dies := (s.launchOf gr).elim [] (·.dies)
      if ms.isEmpty || !decide ms.Nodup || ms.any (fun x => !dies.contains x) || !ms.contains gr.die then .fault 0x01 0 0x86
      else jobTail bar (s.barriers gr) (s.scratchSize gr) (d.q 0 % d.es == 0 && d.q 2 % d.es == 0) [] foot

/-- Step 1 of R140 for a collective, with the checks of R370; a table of the axis or of the shards that cannot be read
raises the fault of the read (DESIGN CHOICE, log 30). -/
def State.checkColl (s : State) (gr : Group) (d : Desc) (bar : Nat) : State × JobCheck :=
  match s.readAxis gr.core ((s.launchOf gr).elim 0 (·.rc.axes)) d.axis with
  | (s, .ok ms) =>
    let (s, m) := s.readMap gr.core d ms.length
    (s, s.judgeColl gr d bar (.ok ms) m)
  | (s, r) => (s, s.judgeColl gr d bar r (.ok none))

/-- Steps 2 to 5 of R140. -/
def Once.issueChecked (o : Once) (gr : Group) (desc : Desc) (r : JobCheck) (s : State)
    (storesDone : State → Bool) : OnceRes :=
  match r with
  | .hold => .hold s
  | .fault c a d => .fault s c a d
  | .good foot =>
    if !storesDone s then .hold s
    else
      match s.releaseAt o.g o.tids (jobScope (jobFields o.i).1 desc) with
      | none => .hold (s.releaseWait o.g o.tids (jobScope (jobFields o.i).1 desc))
      | some s =>
        if (s.core gr.core).jobFree.isEmpty then .wait s (.entry desc foot)
        else match s.issueJob o desc foot with
          | some s => .done s
          | none => .wait s (.entry desc foot)

/-- The descriptor of the word, captured. -/
def Once.desc (o : Once) (gr : Group) : Desc :=
  let (_, _, a, n, _) := jobFields o.i
  (upTo n).map (fun i => gr.rs (a + i))

/-- The descriptor registers of the word. -/
def Once.descRegs (o : Once) : List Nat :=
  let (_, _, a, n, _) := jobFields o.i
  (upTo n).map (a + ·)

/-- CPY. -/
def onceCpy (o : Once) (b : Field) (s : State) : OnceRes :=
  o.read o.descRegs s (fun s gr =>
    o.issueChecked gr (o.desc gr) (s.checkCpy gr (o.desc gr) b.toNat) s (·.storesDone o.g (s.bornOf o)))
/-- GATH. -/
def onceGath (o : Once) (b : Field) (s : State) : OnceRes :=
  o.read o.descRegs s (fun s gr =>
    o.issueChecked gr (o.desc gr) (s.checkGath gr (o.desc gr) b.toNat false) s (·.storesDone o.g (s.bornOf o)))
/-- SCAT. -/
def onceScat (o : Once) (b : Field) (s : State) : OnceRes :=
  o.read o.descRegs s (fun s gr =>
    o.issueChecked gr (o.desc gr) (s.checkGath gr (o.desc gr) b.toNat true) s (·.storesDone o.g (s.bornOf o)))
/-- COLL. -/
def onceColl (o : Once) (b : Field) (s : State) : OnceRes :=
  o.read o.descRegs s (fun s gr =>
    let (s, r) := s.checkColl gr (o.desc gr) b.toNat
    o.issueChecked gr (o.desc gr) r s (·.storesDone o.g (s.bornOf o)))

/-! ## ENGRD and JOBCAN (R147, R148) -/

/-- The job that an identifier names, where it is the group's own. -/
def State.jobNamed (s : State) (gr : Group) (g : Nat) (id : Word) : Option (Nat × Job) :=
  let key := 32 * gr.core + id.toNat % 32
  match s.jobs.get? key with
  | none => none
  | some j =>
    if j.ident key = id.toNat ∧ j.team = gr.team ∧ (gr.team.isSome ∨ j.g = g) then some (key, j) else none

/-- ENGRD. -/
def onceEngrd (o : Once) (d a : Field) (s : State) : OnceRes :=
  o.read [a.toNat] s (fun s gr =>
    let ws := match s.jobNamed gr o.g (gr.rs a.toNat) with
      | none => [0, 0, 0, 0]
      | some (_, j) =>
        BitVec.ofNat 32 (j.state.code + (if j.state == .failed then j.fault else 0) * 2 ^ 8 + j.kind.code * 2 ^ 16)
          :: (splitWords 2 j.bytes ++ [BitVec.ofNat 32 (min j.range 0xFFFFFFFF)])
    .done (s.onGroup o.g (·.wsN d.toNat ws)))

/-- JOBCAN. -/
def onceJobcan (o : Once) (d a : Field) (s : State) : OnceRes :=
  o.read [a.toNat] s (fun s gr =>
    match s.jobNamed gr o.g (gr.rs a.toNat) with
    | some (key, j) =>
      if j.state = .waiting ∧ j.kind ≠ .coll then
        .done ((s.endJob key .cancelled).onGroup o.g (fun g => g.ws d.toNat 1))
      else .done (s.onGroup o.g (fun g => g.ws d.toNat 0))
    | none => .done (s.onGroup o.g (fun g => g.ws d.toNat 0)))

end Sys2Proof.Machine
end

