-- ==== Sys2Proof/Machine/Flags.lean ====
section
/-! DEFINITION. Predicate results: the compare conditions of VCMP, VCMPS and VFCMP and the 0 or 1 results of the
uniform compares (R62, R86, R91). -/

namespace Sys2Proof.Machine

/-- A comparison of two words under a condition code 0 to 11 (R86). -/
def cmpCond (c : Nat) (a b : Word) : Bool :=
  match c with
  | 0 => a == b
  | 1 => a != b
  | 2 => a.slt b
  | 3 => a.sle b
  | 4 => b.slt a
  | 5 => b.sle a
  | 6 => a.ult b
  | 7 => a.ule b
  | 8 => b.ult a
  | 9 => b.ule a
  | 10 => a &&& b != 0
  | _ => a &&& b == 0

/-- A comparison of two FP32 numbers under a condition code 0 to 7; -0 and +0 are equal (R91). -/
def fcmpCond (c : Nat) (a b : Word) : Bool :=
  match c, fcmp a b with
  | 0, o => o == some .eq
  | 1, o => o != some .eq
  | 2, o => o == some .lt
  | 3, o => o == some .lt || o == some .eq
  | 4, o => o == some .gt
  | 5, o => o == some .gt || o == some .eq
  | 6, o => o.isNone
  | _, o => o.isSome

/-- The result of a uniform compare: 1 or 0 (R62). -/
def boolWord (b : Bool) : Word := if b then 1 else 0

/-- The predicate that a compare's D field names (R86). -/
def condPred (d : Field) : Nat := d.toNat % 8
/-- The condition that a compare's D field names (R86). -/
def condCode (d : Field) : Nat := d.toNat / 8

/-! ## Integer operations of R62, used by the uniform and the vector forms -/

/-- High word of the signed product. -/
def mulHi (x y : Word) : Word := BitVec.ofInt 32 (x.toInt * y.toInt / 2 ^ 32)
/-- High word of the natural product. -/
def mulHiN (x y : Word) : Word := BitVec.ofNat 32 (x.toNat * y.toNat / 2 ^ 32)
/-- Shift left; 0 for a count of 32 or more. -/
def shl (x n : Word) : Word := x <<< n.toNat
/-- Logical shift right; 0 for a count of 32 or more. -/
def shr (x n : Word) : Word := x >>> n.toNat
/-- Arithmetic shift right; copies of bit 31 for a count of 32 or more. -/
def sar (x n : Word) : Word := x.sshiftRight n.toNat
/-- Signed minimum. -/
def sminOf (x y : Word) : Word := if x.sle y then x else y
/-- Signed maximum. -/
def smaxOf (x y : Word) : Word := if x.sle y then y else x
/-- Natural minimum. -/
def nminOf (x y : Word) : Word := if x.ule y then x else y
/-- Natural maximum. -/
def nmaxOf (x y : Word) : Word := if x.ule y then y else x
/-- Leading zeros among the low n bits. -/
def clzFrom (x : Word) : Nat → Nat
  | 0 => 0
  | n + 1 => if x.getLsbD n then 0 else 1 + clzFrom x n
/-- Leading zeros, 0 to 32. -/
def wordClz (x : Word) : Word := BitVec.ofNat 32 (clzFrom x 32)
/-- One bits among the low n bits. -/
def onesFrom (x : Word) : Nat → Nat
  | 0 => 0
  | n + 1 => (if x.getLsbD n then 1 else 0) + onesFrom x n
/-- One bits. -/
def wordPop (x : Word) : Word := BitVec.ofNat 32 (onesFrom x 32)
/-- A bit field as a literal describes: POS [4:0], LEN [10:5], SGN [11] (R63). -/
def bitField (lit x : Word) : Word :=
  let len := bitsOf lit.toNat 10 5
  let y := x.toNat / 2 ^ bitsOf lit.toNat 4 0 % 2 ^ len
  if lit.getLsbD 11 ∧ 2 ^ (len - 1) ≤ y then BitVec.ofNat 32 (y + (2 ^ 32 - 2 ^ len)) else BitVec.ofNat 32 y

end Sys2Proof.Machine
end

