-- ==== Sys2Proof/Machine/GroupForms.lean ====
section
/-! DEFINITION. The effects of the eight group forms of class 1, each executed once over its members (R100 to R104). -/

namespace Sys2Proof.Machine

/-- The number of a combining operation (R102). -/
structure RedOp where
  op : Word → Word → Word
  ident : Word

/-- Op and identity by code (R102). -/
def RedOp.ofCode : Nat → RedOp
  | 0 => ⟨fun x y => x + y, 0⟩
  | 1 => ⟨sminOf, 0x7FFFFFFF⟩
  | 2 => ⟨smaxOf, 0x80000000⟩
  | 3 => ⟨nminOf, 0xFFFFFFFF⟩
  | 4 => ⟨nmaxOf, 0⟩
  | 5 => ⟨fun x y => x &&& y, 0xFFFFFFFF⟩
  | 6 => ⟨fun x y => x ||| y, 0⟩
  | 7 => ⟨fun x y => x ^^^ y, 0⟩
  | 8 => ⟨fadd, 0⟩
  | 9 => ⟨fmin, 0x7F800000⟩
  | _ => ⟨fmax, 0xFF800000⟩

/-- Combine, an absent side giving the other. -/
def combine {α : Type} (f : α → α → α) : Option α → Option α → Option α
  | none, y => y
  | x, none => x
  | some x, some y => some (f x y)

/-- Node(l, i) of the fixed tree over leaves (R102). -/
def treeNode {α : Type} (f : α → α → α) (leaf : Nat → Option α) : Nat → Nat → Option α
  | 0, i => leaf i
  | l + 1, i => combine f (treeNode f leaf l (2 * i)) (treeNode f leaf l (2 * i + 1))

/-- The inclusive scan over the first m leaves: levels l downward from position pos (R102). -/
def scanFrom {α : Type} (f : α → α → α) (leaf : Nat → Option α) (m : Nat) : Nat → Nat → Option α → Option α
  | 0, pos, acc => if m.testBit 0 then combine f acc (treeNode f leaf 0 pos) else acc
  | l + 1, pos, acc =>
    if m.testBit (l + 1) then
      scanFrom f leaf m l (pos + 2 ^ (l + 1)) (combine f acc (treeNode f leaf (l + 1) (pos / 2 ^ (l + 1))))
    else scanFrom f leaf m l pos acc

/-- The lane of member t, source A. -/
def Once.leafA (o : Once) (t : Nat) : Option Word := (o.sig t).map (·.la)
/-- The lane of member u, or 0 where u is no member. -/
def Once.laneA (o : Once) (u : Nat) : Word := (o.leafA u).getD 0

/-- Scan(t) (R102). -/
def Once.scan (o : Once) (r : RedOp) (excl : Bool) (t : Nat) : Word :=
  if excl then (scanFrom r.op o.leafA t 8 0 none).getD r.ident
  else (scanFrom r.op o.leafA (t + 1) 8 0 none).getD r.ident

/-- Members with a true predicate. -/
def Once.trues (o : Once) : List Nat := (o.sigs.filter (·.pr)).map (·.t)

/-- The cycle by which the results of a group form that executes now are written (R100). -/
def State.formDue (s : State) (g : Nat) : Nat := (s.groups.get? g).elim 0 (fun gr => s.now gr.core + 64)

/-- Answer with the results: a poisoned source lane raises 0x30 against the lowest such member; otherwise the tokens
rise and the results stand in a wait until GROUP_FORM_RESULT, 64 cycles at the most (R28, R100). -/
def Once.result (o : Once) (lanes : Tbl Word) (vd : Option Nat) (uniforms : Tbl Word) (s : State) : OnceRes :=
  match o.sigs.find? (·.bad.isSome) with
  | some g => .faultAt s g.t 0x30 0 (g.bad.getD 0)
  | none =>
    let owed := vd.toList.map (fun n => (⟨.vec, n, o.tok⟩ : Owed))
      ++ uniforms.map (fun e => (⟨.uni, e.1, o.tok⟩ : Owed))
    .later (s.raiseTokens o.g o.tids o.tok owed) (.form (s.formDue o.g) lanes uniforms)

/-- A result in the members' lanes. -/
def Once.lanes (o : Once) (d : Field) (f : Sig → Word) (s : State) : OnceRes :=
  o.result (o.sigs.map (fun g => (g.t, f g))) (some d.toNat) [] s
/-- A result in uniform registers upward from D. -/
def Once.uniforms (o : Once) (d : Field) (ws : List Word) (s : State) : OnceRes :=
  o.result [] none ((upTo ws.length).map (fun i => (d.toNat + i, ws.getD i 0))) s

/-- GSHFL. -/
def onceGshfl (o : Once) (d : Field) (s : State) : OnceRes := o.lanes d (fun g => o.laneA (g.lb.toNat % 256)) s
/-- GBALLOT. -/
def onceGballot (o : Once) (d : Field) (s : State) : OnceRes :=
  o.uniforms d ((upTo 8).map (fun j => BitVec.ofNat 32
    (((upTo 32).filter (fun i => o.trues.contains (32 * j + i))).map (2 ^ ·)).sum)) s
/-- GPREF. -/
def onceGpref (o : Once) (d : Field) (s : State) : OnceRes :=
  o.lanes d (fun g => BitVec.ofNat 32 (o.trues.filter (· < g.t)).length) s
/-- GCNT. -/
def onceGcnt (o : Once) (d : Field) (s : State) : OnceRes := o.uniforms d [BitVec.ofNat 32 o.trues.length] s
/-- GRED. -/
def onceGred (o : Once) (d b : Field) (s : State) : OnceRes :=
  let r := RedOp.ofCode (b.toNat % 16)
  o.uniforms d [(treeNode r.op o.leafA 8 0).getD r.ident] s
/-- GSCAN. -/
def onceGscan (o : Once) (d b : Field) (s : State) : OnceRes :=
  o.lanes d (fun g => o.scan (RedOp.ofCode (b.toNat % 16)) (b.getLsbD 4) g.t) s
/-- GBCAST: the source lane's number stands in S(B). -/
def onceGbcast (o : Once) (d b : Field) (s : State) : OnceRes :=
  o.read [b.toNat] s (fun s gr => o.uniforms d [o.laneA ((gr.rs b.toNat).toNat % 256)] s)

/-- The format of a floating-point type of GMAXI. -/
def gmaxiFmt : Nat → FFmt
  | 1 => .f16
  | 2 => .bf16
  | _ => .f32

/-- The value and the rank of a leaf under a type of GMAXI (R104). -/
def gmaxiLeaf (type : Nat) (w : Word) : Word × Nat :=
  match type with
  | 3 => (w, (w ^^^ 0x80000000).toNat)
  | 4 => (w, w.toNat)
  | n =>
    let f := gmaxiFmt n
    let x := f.flush (w.toNat % 2 ^ f.width)
    if f.isNan x then (BitVec.ofNat 32 f.canon, 0) else (BitVec.ofNat 32 x, f.key x)

/-- GMAXI: the higher rank wins, an equal rank goes to the lower index (R104). -/
def onceGmaxi (o : Once) (d b : Field) (s : State) : OnceRes :=
  let leaf := fun (t : Nat) => (o.leafA t).map (fun w => (gmaxiLeaf b.toNat w, t))
  let pick := fun (x y : (Word × Nat) × Nat) => if y.1.2 ≤ x.1.2 then x else y
  match treeNode pick leaf 8 0 with
  | none => .done s
  | some r => o.uniforms d [r.1.1, BitVec.ofNat 32 r.2] s

/-- The results of a group form are written and its members' tokens fall (R100). -/
def State.deliverForm (s : State) (g w : Nat) : State :=
  match s.groups.get? g with
  | none => s
  | some gr =>
    match Tbl.get? gr.waits w with
    | none => s
    | some wt =>
      match wt.kind with
      | .form _ lanes uniforms =>
        let o := wt.once g
        let d := match wt.i with
          | .gshfl _ d _ _ => d.toNat
          | .gpref _ d _ => d.toNat
          | .gscan _ d _ _ => d.toNat
          | _ => 0
        let owed := (if lanes.isEmpty then [] else [(⟨.vec, d, o.tok⟩ : Owed)])
          ++ uniforms.map (fun e => (⟨.uni, e.1, o.tok⟩ : Owed))
        let s := lanes.foldl (fun s e => s.onGroup g (fun gr => gr.onThread e.1 (fun t =>
          Thread.arrive (gr.inHandler e.1) t d [e.2]))) s
        let s := s.onGroup g (fun gr => uniforms.foldl (fun gr e => gr.wsFor o.low e.1 [e.2]) gr)
        (s.lowerTokens g o.tids o.tok owed).endWait g w
      | _ => s

end Sys2Proof.Machine
end

