-- ==== Sys2Proof/Machine/Uniform.lean ====
section
/-! DEFINITION. The effects of the uniform forms of class 0, each executed once for the group (R62 to R73). -/

namespace Sys2Proof.Machine

/-- S(D) upward := the words that f computes from the group, whose uniform sources are us (R62). -/
def Once.uni (o : Once) (us : List Nat) (d : Field) (f : Group → List Word) (s : State) : OnceRes :=
  o.read us s (fun s gr => .done (s.onGroup o.g (·.wsN d.toNat (f gr))))
/-- S(D) := f(S(A)). -/
def Once.uni1 (o : Once) (d a : Field) (f : Word → Word) (s : State) : OnceRes :=
  o.uni [a.toNat] d (fun g => [f (g.rs a.toNat)]) s
/-- S(D) := f(S(A), S(B)). -/
def Once.uni2 (o : Once) (d a b : Field) (f : Word → Word → Word) (s : State) : OnceRes :=
  o.uni [a.toNat, b.toNat] d (fun g => [f (g.rs a.toNat) (g.rs b.toNat)]) s

/-! ## Data forms (R62, R63) -/

/-- SSEL: S(D) := S(A) if S(D) is not 0, else S(B). -/
def onceSsel (o : Once) (d a b : Field) (s : State) : OnceRes :=
  o.uni [d.toNat, a.toNat, b.toNat] d (fun g => [if g.rs d.toNat ≠ 0 then g.rs a.toNat else g.rs b.toNat]) s
/-- SLEA: SPair(D) := (SPair(A) + S(B)) mod 2 to the 64. -/
def onceSlea (o : Once) (d a b : Field) (s : State) : OnceRes :=
  o.uni (regs a 2 ++ [b.toNat]) d (fun g => splitWords 2 (g.rsN a.toNat 2 + (g.rs b.toNat).toNat)) s
/-- SADD64: SPair(D) := (SPair(A) + SPair(B)) mod 2 to the 64. -/
def onceSadd64 (o : Once) (d a b : Field) (s : State) : OnceRes :=
  o.uni (regs a 2 ++ regs b 2) d (fun g => splitWords 2 (g.rsN a.toNat 2 + g.rsN b.toNat 2)) s
/-- SWR: S(Bits(S(A), 6, 0)) := S(B). -/
def onceSwr (o : Once) (a b : Field) (s : State) : OnceRes :=
  o.read [a.toNat, b.toNat] s (fun s gr =>
    .done (s.onGroup o.g (fun g => g.ws ((gr.rs a.toNat).toNat % 128) (gr.rs b.toNat))))

/-- The words of special register n as group gr reads it in a word whose lowest signer is t (R64). -/
def State.special (s : State) (gr : Group) (t n : Nat) : List Word :=
  let w := fun (x : Nat) => [BitVec.ofNat 32 x]
  match n with
  | 0 => w t
  | 1 => w (if gr.team.isSome then gr.gix else 0)
  | 2 => w ((s.teamOf gr).elim 0xFFFFFFFF (·.tix))
  | 3 => [gr.dieix]
  | 4 => [gr.diecnt]
  | 5 => [gr.step]
  | 6 => w (if gr.team.isSome then gr.role else 0)
  | 7 => w (coreWord gr.core)
  | 8 => w gr.quad
  | 9 => splitWords 2 gr.lseq
  | 18 => splitWords 2 gr.dwbase.toNat
  | 19 => [gr.serial]
  | n => [(s.launchOf gr).elim 0 (fun l => l.rc.fmt.getD (n - 10) 0)]
/-- SRD (R64). -/
def onceSrd (o : Once) (d b : Field) (s : State) : OnceRes :=
  o.read [] s (fun s gr => .done (s.onGroup o.g (·.wsN d.toNat (s.special gr o.low b.toNat))))

/-! ## Convergence set-up (R65) -/

/-- Re-form convergence register d with members. -/
def Once.form (o : Once) (d : Nat) (members : Group → List Nat) (s : State) : OnceRes :=
  o.read [] s (fun s gr =>
    if (gr.conv.getD d (Conv.fresh [])).signed.isEmpty then
      .done (s.onGroup o.g (fun g => { g with conv := g.conv.set d (Conv.fresh (members gr)) }))
    else .fault s 0x24 0 (d + 0x20))
/-- CSETA: every thread that has not exited. -/
def onceCseta (o : Once) (d : Field) (s : State) : OnceRes := o.form d.toNat (fun gr => Tbl.keys gr.threads) s
/-- CSETP: the signers whose predicate is true. -/
def onceCsetp (o : Once) (d : Field) (s : State) : OnceRes :=
  o.form d.toNat (fun _ => (o.sigs.filter (·.pr)).map (·.t)) s

/-! ## Barriers (R66 to R70) -/

/-- A form that names barrier b: 0x01 when it stands at or above the barrier count (R66). -/
def Once.onBar (o : Once) (b : Nat) (us : List Nat) (s : State) (k : State → Group → Nat → OnceRes) : OnceRes :=
  o.read us s (fun s gr =>
    match gr.team with
    | none => .fault s 0x01 0 0
    | some t => if s.barriers gr ≤ b then .fault s 0x01 0 0 else k s gr t)

/-- The target phase of a group. -/
def Group.tgtOf (g : Group) (b : Nat) : Bool := g.tgt.getLsbD b
/-- Set a target phase. -/
def Group.setTgt (g : Group) (b : Nat) (v : Bool) : Group :=
  { g with tgt := if v then g.tgt ||| BitVec.ofNat 16 (2 ^ b) else g.tgt &&& ~~~(BitVec.ofNat 16 (2 ^ b)) }

/-- BARINIT. -/
def onceBarinit (o : Once) (d a b : Field) (s : State) : OnceRes :=
  o.onBar d.toNat [a.toNat, b.toNat] s (fun s gr t =>
    let e := (gr.rs a.toNat).toNat
    let n := (gr.rs b.toNat).toNat
    if 256 < e ∨ (e = 0 ∧ n = 0) then .fault s 0x01 0 0
    else .done (s.updateBar t d.toNat (fun bar => (⟨e, n, 0, 0, bar.phase⟩, false))))

/-- The arrival of BARARR: the release, the target, then one group arrival (R67). -/
def Once.arrive (o : Once) (t b : Nat) (s : State) : Option State :=
  (s.releaseAt o.g o.tids 1).map (fun s =>
    (s.onGroup o.g (fun g => g.setTgt b (s.bar t b).phase)).updateBar t b Bar.arriveGroup)

/-- The mark of a name that is carried stays, and so does that of a word of the trap reserve, which is no name of the
group's own (R68, R224, R229). -/
def keptKey (carry : BitVec 128) (key : Nat) : Bool := carry.getLsbD key || isShadow key

/-- Names that a launch carries across a parkable barrier; every other register of the group reads zero after it
(R68). -/
def Group.keepCarry (g : Group) (rc : LaunchRec) : Group :=
  { g with
    s := g.s.filter (fun e => rc.carryS.getLsbD e.1)
    spois := g.spois.filter (keptKey rc.carryS)
    ssoft := g.ssoft.filter (keptKey rc.carryS)
    shard := g.shard.filter (keptKey rc.carryS)
    threads := g.threads.map (fun e =>
      let t := Thread.flush (g.inHandler e.1) e.2
      (e.1, { t with
        v := t.v.filter (fun x => rc.carryV.getLsbD x.1)
        vpois := t.vpois.filter (keptKey rc.carryV)
        vsoft := t.vsoft.filter (keptKey rc.carryV)
        vhard := t.vhard.filter (keptKey rc.carryV)
        p := t.p &&& rc.carryP })) }

/-- What follows a barrier's completion for a waiter: the target, the SFENCE, and the zeroing of a parkable team
(R68). -/
def State.passBarrier (s : State) (g t b : Nat) : State :=
  let s := s.onGroup g (fun gr => { gr.setTgt b (s.bar t b).phase with recovering := false })
  let s := s.impliedSfence g
  match s.groups.get? g with
  | none => s
  | some gr =>
    match s.launchOf gr with
    | none => s
    | some l => if s.parkable gr then s.onGroup g (·.keepCarry l.rc) else s

/-- Wait until the phase of barrier b differs from the group's target and the SFENCE that follows can complete, or pass at
once (R68, R115). -/
def Once.barWait (o : Once) (t b : Nat) (s : State) : OnceRes :=
  match s.groups.get? o.g with
  | none => .done s
  | some gr =>
    if (s.bar t b).phase ≠ gr.tgtOf b ∧ s.fenceReady o.g o.tids then .done (s.passBarrier o.g t b) else .wait s (.barrier b)

/-- BARARR. -/
def onceBararr (o : Once) (d : Field) (s : State) : OnceRes :=
  o.onBar d.toNat [] s (fun s _ t =>
    match o.arrive t d.toNat s with
    | none => .hold s
    | some s => .done s)
/-- BARWAIT. -/
def onceBarwait (o : Once) (d : Field) (s : State) : OnceRes :=
  o.onBar d.toNat [] s (fun s _ t => o.barWait t d.toNat s)
/-- BARARRW. -/
def onceBararrw (o : Once) (d : Field) (s : State) : OnceRes :=
  o.onBar d.toNat [] s (fun s _ t =>
    match o.arrive t d.toNat s with
    | none => .hold s
    | some s => o.barWait t d.toNat s)

/-- The barrier that the scan of WAITANY finds, from the group's rotating start: one whose phase differs from the group's
target, or that has completed since the wait began (R69). -/
def State.scanAny (s : State) (gr : Group) (t bank mask : Nat) (met : List Nat) : Option Nat :=
  ((upTo 8).map (fun j => (gr.rot + j) % 8)).find? (fun i => mask.testBit i
    && ((s.bar t (8 * bank + i)).phase != gr.tgtOf (8 * bank + i) || met.contains (8 * bank + i)))

/-- A barrier wait of a group is over: the phase differs from its target, or the barrier has completed since the wait began
(R68, R292). -/
def State.barMet (s : State) (g : Group) (t b : Nat) (w : GWait) : Bool :=
  (s.bar t b).phase != g.tgtOf b || w.met.contains b

/-- The SFENCE that ends a wait of group g can complete: the stores and ACCSTs that its signers issued are performed (R68,
R69, R73, R115). -/
def State.waitFenced (s : State) (g : Nat) (w : GWait) : Bool := s.fenceReady g (w.sigs.map (·.t))

/-- WAITANY, signed by thread `low` the lowest, returns barrier 8 B + i (R69); one that began before a trap entry writes the
group's own word (R224, R342; DESIGN CHOICE, log 100). -/
def State.takeAny (s : State) (g t bank i d low : Nat) : State :=
  let ph := (s.bar t (8 * bank + i)).phase
  (s.onGroup g (fun gr => { ((gr.setTgt (8 * bank + i) ph).wsFor low d [BitVec.ofNat 32 (8 * bank + i)]) with
    rot := (i + 1) % 8, recovering := false })).impliedSfence g

/-- WAITANY's mask, captured when the word executes. -/
def anyMask (gr : Group) (a : Field) : Nat := (gr.rs a.toNat).toNat % 256

/-- WAITANY (R66, R69). -/
def onceWaitany (o : Once) (d a b : Field) (s : State) : OnceRes :=
  o.read [a.toNat] s (fun s gr =>
    let mask := anyMask gr a
    if (upTo 8).any (fun i => mask.testBit i && decide (s.barriers gr ≤ 8 * b.toNat + i)) then .fault s 0x01 0 0
    else if mask = 0 then .done (s.onGroup o.g (·.ws d.toNat 0xFFFFFFFF))
    else
      match (s.scanAny gr (gr.team.getD 0) b.toNat mask []).filter (fun _ => s.fenceReady o.g o.tids) with
      | some i => .done (s.takeAny o.g (gr.team.getD 0) b.toNat i d.toNat o.low)
      | none => .wait s (.any mask))

/-- The quad of BARRD (R70). -/
def Bar.words (b : Bar) (tgt : Bool) (rot : Nat) : List Word :=
  [BitVec.ofNat 32 (b.expGroups + b.arrived * 2 ^ 16 + (if b.phase then 2 ^ 31 else 0)),
   BitVec.ofNat 32 b.expBytes,
   BitVec.ofNat 32 (min b.bytes 0xFFFFFFFF),
   BitVec.ofNat 32 ((if tgt then 1 else 0) + rot * 2 ^ 8)]
/-- BARRD. -/
def onceBarrd (o : Once) (d a : Field) (s : State) : OnceRes :=
  o.onBar a.toNat [] s (fun s gr t =>
    .done (s.onGroup o.g (·.wsN d.toNat ((s.bar t a.toNat).words (gr.tgtOf a.toNat) gr.rot))))

/-! ## Register reservation (R71, R72, R220 to R223) -/

/-- The names of a group that its forms can release: in handler mode the group's own v112-v127 are kept, unreachable, and
the trap reserve's are not the group's (R224; DESIGN CHOICE, log 88). -/
def Group.own (g : Group) (dead : Nat → Bool) (n : Nat) : Bool := dead n && !(g.handling && decide (112 ≤ n))

/-- Every lane of some of the group's names becomes invalid in every thread. -/
def Group.dropLanes (g : Group) (dead : Nat → Bool) : Group :=
  { g with threads := g.threads.map (fun e => (e.1, { e.2 with
      v := e.2.v.filter (fun x => !dead x.1)
      vpois := e.2.vpois.filter (fun n => !dead n)
      vsoft := e.2.vsoft.filter (fun n => !dead n)
      vhard := e.2.vhard.filter (fun n => !dead n)
      pend := e.2.pend.filter (fun p => !(p.file == File.vec && dead p.reg)) })) }

/-- RELV, REGREL and REGCLM on some names (R72, R220). -/
def Group.dropNames (g : Group) (dead : Nat → Bool) : Group := g.dropLanes (g.own dead)

/-- REGREL n. -/
def onceRegrel (o : Once) (b : Field) (s : State) : OnceRes :=
  o.read [] s (fun s gr =>
    let n := b.toNat
    if gr.ceil < n + 1 then .fault s 0x01 0 0
    else .done (s.onGroup o.g (fun g =>
      { (g.dropNames (fun x => decide (gr.ceil - n ≤ x))) with ceil := g.ceil - n, resv := g.resv - n })))

/-- The claim that is served next: the oldest that fits, unless a passed-over claim holds the freed rows (R223). -/
def State.nextClaim (s : State) (k : Nat) : Option (Nat × Nat × Nat × Nat) :=
  let cs := s.claims k
  let cs := match cs.findIdx? (fun c => decide (64 ≤ c.2.2.2)) with
    | some i => cs.take (i + 1)
    | none => cs
  cs.find? (fun c => decide (c.2.2.1 ≤ s.freeRows k))

/-- What the kindled groups of a core wait for is served as far as it can be, before every other claimant: the rows of a
pool share, held ones among them, and then the AcquireAt of the first instruction (R223, R225, R283). -/
def State.serveShare (s : State) (k : Nat) : State :=
  ((s.residentOn k).filter (·.2.share.isSome)).foldl (fun s e =>
    match e.2.share with
    | none => s
    | some n =>
      if s.freeRows k < n.rows then s
      else
        let s := s.useSpare k n.rows 0
        if s.mayAcquire k n.scope then (s.onGroup e.1 (fun g => { g with share := none })).acquireAt k n.scope
        else (s.sendLines (k / 96)).onGroup e.1 (fun g => { g with share := some ⟨0, n.scope⟩ })) s

/-- Give n rows to a group: its ceiling rises, the new names read zero (R72). -/
def State.grant (s : State) (g n : Nat) : State :=
  ((s.groups.get? g).elim s (fun gr => s.useSpare gr.core n 0)).onGroup g (fun gr => { (gr.dropNames (fun x => decide (gr.ceil ≤ x))) with ceil := gr.ceil + n, resv := gr.resv + n })

/-- The claims that wait on a core and are older than a moment have one more younger claim served ahead of them
(R223). -/
def State.passOver (s : State) (k born : Nat) : State :=
  { s with groups := s.groups.map (fun (e : Nat × Group) => if e.2.core = k then
      (e.1, { e.2 with waits := e.2.waits.map (fun (w : Nat × GWait) => match w.2.kind with
        | .claim _ => if w.2.born < born then (w.1, { w.2 with passed := w.2.passed + 1 }) else w
        | _ => w) }) else e) }

/-- REGCLM n. -/
def onceRegclm (o : Once) (b : Field) (s : State) : OnceRes :=
  o.read [] s (fun s gr =>
    let n := b.toNat
    if 128 < gr.ceil + n then .fault s 0x01 0 0
    else if n = 0 then .done s
    else
      let s := s.serveShare gr.core
      if n ≤ s.freeRows gr.core ∧ (s.claims gr.core).all (fun c =>
          decide (s.freeRows gr.core < c.2.2.1) && decide (c.2.2.2 < 64)) then
        .done ((s.grant o.g n).passOver gr.core s.fresh).tick
      else .wait s (.claim n))

/-- REGRD; in a kindled group, which has no team, sD+2 holds the group's own reservation (DESIGN CHOICE, log 88). -/
def onceRegrd (o : Once) (d : Field) (s : State) : OnceRes :=
  o.read [] s (fun s gr =>
    let mine : List Nat := match gr.team with
      | some t => ((s.groupsOn gr.core).filter (fun e => e.2.team = some t)).map (·.2.resv)
      | none => [gr.resv]
    .done (s.onGroup o.g (·.wsN d.toNat
      [BitVec.ofNat 32 gr.ceil, BitVec.ofNat 32 gr.liveNames.length, BitVec.ofNat 32 mine.sum,
        BitVec.ofNat 32 (s.freeRows gr.core)])))

/-- RELV; it names rows to release and no operand, so a name at or above the ceiling is left alone and raises nothing
(R72; DESIGN CHOICE beside R71, log 88). -/
def onceRelv (o : Once) (a b : Field) (s : State) : OnceRes :=
  o.read [] s (fun s gr => .done (s.onGroup o.g (·.dropNames (fun x =>
    decide (a.toNat ≤ x) && decide (x < a.toNat + b.toNat) && decide (x < gr.ceil)))))

/-! ## The die barrier (R73) -/

/-- The live groups of a launch's die span on a die. -/
def State.dieGroups (s : State) (l x : Nat) : List Group :=
  (s.groups.filter (fun e => decide (e.2.lseq = l) && e.2.team.isSome && decide (e.2.core / 96 = x))).map (·.2)

/-- Every group of the die span that has not exited has executed at least n rounds; a die span's teams are admitted all
together (R73, R178). -/
def State.dbarDone (s : State) (l x n : Nat) : Bool := (s.dieGroups l x).all (fun g => decide (n ≤ g.dbars))

/-- DBAR. -/
def onceDbar (o : Once) (s : State) : OnceRes :=
  o.read [] s (fun s gr =>
    if !((s.launchOf gr).elim false (·.rc.dieres)) || gr.team.isNone then .fault s 0x11 0 0
    else
      match s.releaseAt o.g o.tids 1 with
      | none => .hold s
      | some s =>
        let s := s.onGroup o.g (fun g => { g with dbars := g.dbars + 1 })
        if s.dbarDone gr.lseq gr.die (gr.dbars + 1) && s.fenceReady o.g o.tids then .done (s.impliedSfence o.g)
        else .wait s .dbar)

end Sys2Proof.Machine
end

