-- ==== Sys2Proof/Machine/Handover.lean ====
section
/-! DEFINITION. Hand-over of a stack (R149, R150, R310 to R317): the HANDOVER word, the drain, the flip and the
completion.  A stack is named by its global number (R319). -/

namespace Sys2Proof.Machine

/-- The two port dies of a stack, by number in its package (R1). -/
def portDies (n : Nat) : List Nat := [n % 8 / 2, (n % 8 / 2 + 1) % 4]

/-- Step 5 of R149 for a die and a target: the die owns the stack, the target is its other port die, and the hand-over
sequence number is not at its end (R311). -/
def State.mayHand (s : State) (stack die target : Nat) : Bool :=
  let k := s.stack stack
  die == 4 * (stack / 8) + k.owner && target != k.owner && (portDies stack).contains target && k.hseq != 0xFFFFFFFF

/-- Steps 5 and 6 of R149 on a stack with no hand-over in progress: 0x12, or the stack enters closing. -/
def State.acceptHand (s : State) (o : Once) (gr : Group) (stack target : Nat) : OnceRes :=
  let b := match o.i with
    | .handover _ d _ _ => d.toNat
    | _ => 0
  if s.mayHand stack gr.die target then
    .done (s.onStack stack (fun k => { k with
      st := .closing, target := target, team := gr.team, bar := some b, order := s.fresh })).tick
  else .fault s 0x12 (stack % 8) (s.stack stack).word

/-- HANDOVER (R149). -/
def onceHandover (o : Once) (d a b : Field) (s : State) : OnceRes :=
  o.read [a.toNat, b.toNat] s (fun s gr =>
    let n := (gr.rs a.toNat).toNat
    let target := (gr.rs b.toNat).toNat
    if !s.right gr 0 then .fault s 0x11 0 0
    else if 7 < n ∨ 3 < target ∨ s.barriers gr ≤ d.toNat then .fault s 0x01 0 0
    else
      match s.releaseAt o.g o.tids 2 with
      | none => .hold (s.releaseWait o.g o.tids 2)
      | some s =>
        let stack := 8 * (gr.die / 4) + n
        if (s.stack stack).st = .steady then s.acceptHand o gr stack target
        else .wait s (.handover stack target))

/-! ## The drain (R314) -/

/-- A physical line belongs to a stack. -/
def lineOf (stack n : Nat) : Bool := paSpace (64 * n) == 0 && paHome (64 * n) == stack

/-- Die x writes back every dirty byte of a stack and drops every line of it, in the L2 and in every L1 (R314). -/
def State.drainDie (s : State) (stack x : Nat) : State :=
  let lines := (s.die x).l2.filter (fun e => lineOf stack e.1)
  let s := lines.foldl (fun s e => (s.writeBackLine x e.1).dropL2 x e.1) s
  { s with cores := s.cores.map (fun (e : Nat × Core) =>
      if e.1 / 96 = x then (e.1, { e.2 with l1 := e.2.l1.filter (fun l => !lineOf stack l.1) }) else e) }

/-- Drop every translation of die x whose home tag is a stack (R314 step 5). -/
def State.dropHome (s : State) (stack x : Nat) : State :=
  s.cutTlb x (fun e => e.home == some stack)

/-- Steps 2 to 5 of R314, the owner's home partition first. -/
def State.drainStack (s : State) (stack : Nat) : State :=
  let p := stack / 8
  let o := 4 * p + (s.stack stack).owner
  let s := (o :: ((upTo 4).map (4 * p + ·)).filter (· ≠ o)).foldl (fun s x => s.drainDie stack x) s
  ((upTo 4).map (4 * p + ·)).foldl (fun s x => s.dropHome stack x) s

/-- HANDOVER_DRAIN (R314): steps 2 to 5 of a closing stack. -/
def execHandoverDrain (stack : Nat) (s : State) : Outcome :=
  .next (if (s.stack stack).st = .closing then
    (s.drainStack stack).onStack stack (fun k => { k with st := .draining })
  else s)

/-- HANDOVER_FLIP (R314, R315): step 6 of a drained stack; every home map follows the ownership entry, so the requests
that were held go to the new owner. -/
def execHandoverFlip (stack : Nat) (s : State) : Outcome :=
  .next (if (s.stack stack).st = .draining then
    s.onStack stack (fun k => { k with st := .switching, owner := k.target, hseq := k.hseq + 1 })
  else s)

/-- The arrival of a completed hand-over at the issuer's barrier: held while the team is saved (R149, R270, R271). -/
def State.handArrive (s : State) (k : Stack) : State :=
  match k.team, k.bar with
  | some t, some b =>
    match s.teams.get? t with
    | none => s
    | some tm =>
      if tm.saved then s.onTeam t (fun tm => { tm with held := tm.held ++ [b] })
      else s.arriveAt t ⟨b, none, k.order⟩
  | _, _ => s

/-- The hand-over words that wait for a stack, in their order of arrival: group, wait, target (R149, R150). -/
def State.handWaits (s : State) (stack : Nat) : List (Nat × Nat × Nat) :=
  let all := s.groups.flatMap (fun e => e.2.waits.filterMap (fun w =>
    match w.2.kind with
    | .handover k t => if k = stack then some (w.2.born, e.1, w.1, t) else none
    | _ => none))
  (all.sortBy (fun a b => a.1 ≤ b.1)).map (·.2)

/-- Serve waiting hand-over words until one is accepted (R150). -/
def State.serveHand (s : State) (stack : Nat) : List (Nat × Nat × Nat) → State
  | [] => s
  | (g, w, target) :: rest =>
    match s.groups.get? g with
    | none => s.serveHand stack rest
    | some gr =>
      match Tbl.get? gr.waits w with
      | none => s.serveHand stack rest
      | some wt =>
        let o := wt.once g
        let s := o.after ((s.endWait g w).acceptHand o gr stack target)
        if (s.stack stack).st = .steady then s.serveHand stack rest else s

/-- HANDOVER_COMPLETE (R314): step 8, the issuer's arrival, and the words that wait for the stack. -/
def execHandoverComplete (stack : Nat) (s : State) : Outcome :=
  let k := s.stack stack
  .next (if k.st = .switching then
    let s := s.onStack stack (fun k => { k with st := .steady, team := none, bar := none })
    let s := s.handArrive k
    s.serveHand stack (s.handWaits stack)
  else s)

end Sys2Proof.Machine
end

