-- ==== Sys2Proof/Machine/Matrix.lean ====
section
/-! DEFINITION. The matrix engine (R125 to R138, R230 to R237): operand maps and their checks, binding of handles, the
issue of matrix operations and what the sequencer does with them. -/

namespace Sys2Proof.Machine

/-! ## Operand maps (R128 to R130) -/

/-- An operand map, its four words. -/
abbrev OpMap := List Word

namespace OpMap

/-- Word i of a map as a number. -/
def w (m : OpMap) (i : Nat) : Nat := (List.getD m i 0).toNat
def ebase (m : OpMap) : Nat := bitsOf (w m 0) 19 0
def stride (m : OpMap) : Nat := bitsOf (w m 0) 31 20
def xbase (m : OpMap) : Nat := bitsOf (w m 1) 19 0
def rows (m : OpMap) : Nat := bitsOf (w m 1) 26 20
def swz (m : OpMap) : Nat := bitsOf (w m 1) 31 27
def cols (m : OpMap) : Nat := bitsOf (w m 2) 10 0
def layout (m : OpMap) : Nat := bitsOf (w m 2) 12 11
def tag (m : OpMap) : Nat := bitsOf (w m 3) 15 0

end OpMap

/-- A format code is a BFP format. -/
def isBfp (code : Nat) : Bool := decide (6 ≤ code) && decide (code ≤ 12)
/-- The width in bits of a format code in a map (R129). -/
def codeWidth (code : Nat) : Nat := if isBfp code then bfpWidth code else if code = 5 then 8 else (FFmt.ofCode code).width

namespace OpMap

/-- The first failing check of a map, as the detail of 0x40 without bit 4 (R130): reasons 2 to 5 in order. -/
def check (m : OpMap) (code : Nat) (acc : Bool) : Option Nat :=
  let r := fun (reason value : Nat) => some (reason + value % 65536 * 2 ^ 16)
  if 64 < m.rows then r 2 m.rows
  else if 1024 < m.cols ∨ (acc ∧ 64 < m.cols) then r 3 m.cols
  else if isBfp code ∧ m.cols % 32 ≠ 0 then r 4 m.cols
  else if m.ebase % 16 ≠ 0 then r 5 m.ebase
  else if 6 < m.swz then r 5 m.swz
  else if m.layout ≠ 0 then r 5 m.layout
  else if m.w 2 / 2 ^ 13 ≠ 0 then r 5 2
  else if m.w 3 / 2 ^ 16 ≠ 0 then r 5 3
  else none

/-- The scratchpad offset of byte y of row r (R129). -/
def byteAt (m : OpMap) (r y : Nat) : Nat :=
  m.ebase + 16 * m.stride * r + 16 * ((y / 16) ^^^ (r % 2 ^ m.swz)) + y % 16

/-- The offset of the exponent byte of block b of row r (R129). -/
def expAt (m : OpMap) (r b : Nat) : Nat := m.xbase + r * ((m.cols + 31) / 32) + b

/-- The row bytes that element k of width w touches. -/
def elemBytes (k w : Nat) : List Nat := (upTo ((k * w + w - 1) / 8 + 1 - k * w / 8)).map (k * w / 8 + ·)

/-- Every byte that a form touches through a map. -/
def bytes (m : OpMap) (code : Nat) : List Nat :=
  (upTo m.rows).flatMap (fun r =>
    (upTo ((m.cols * codeWidth code + 7) / 8)).map (m.byteAt r)
    ++ (if isBfp code then (upTo (m.cols / 32)).map (m.expAt r) else []))

/-- The lowest byte outside an allocation, where there is one (R352). -/
def outside (m : OpMap) (code size : Nat) : Option Nat := ((m.bytes code).filter (size ≤ ·)).min?

end OpMap

/-- The map in four uniform registers. -/
def Group.mapAt (g : Group) (n : Nat) : OpMap := (upTo 4).map (fun i => g.rs (n + i))

/-! ## Reading and writing elements -/

/-- The scratchpad as an operation reads it: offset to byte, and poisoned offsets. -/
abbrev ByteAt := Nat → Byte

/-- The register bits of element k of row r. -/
def OpMap.raw (m : OpMap) (code r k : Nat) (at_ : ByteAt) : Nat :=
  let w := codeWidth code
  bytesToNat ((OpMap.elemBytes k w).map (fun y => at_ (m.byteAt r y))) / 2 ^ (k * w % 8) % 2 ^ w

/-- The exponent of the block of element k of row r. -/
def OpMap.exponent (m : OpMap) (code r k : Nat) (at_ : ByteAt) : Nat :=
  if isBfp code then (at_ (m.expAt r (k / 32))).toNat else 0

/-- The exact value of element k of row r (R133). -/
def OpMap.value (m : OpMap) (code r k : Nat) (at_ : ByteAt) : Val :=
  decodeVal (m.raw code r k at_) code (m.exponent code r k at_)

/-- The bytes of elements lo to hi - 1 of every row, exponents included. -/
def OpMap.chunkBytes (m : OpMap) (code lo hi : Nat) : List Nat :=
  (upTo m.rows).flatMap (fun r =>
    (upTo (hi - lo)).flatMap (fun i => (OpMap.elemBytes (lo + i) (codeWidth code)).map (m.byteAt r))
    ++ (if isBfp code then [m.expAt r (lo / 32)] else []))

/-! ## Accumulator slots and handles (R137, R235) -/

/-- An empty slot: every element reads +0. -/
def AccSlot.zero : AccSlot := ⟨[], []⟩
/-- Element (i, j) of a slot. -/
def AccSlot.at_ (a : AccSlot) (i j : Nat) : Word := a.el.getD (64 * i + j) 0
/-- Write element (i, j) of a slot. -/
def AccSlot.put (a : AccSlot) (i j : Nat) (w : Word) : AccSlot :=
  { a with el := if w = 0 then a.el.del (64 * i + j) else a.el.put (64 * i + j) w }

/-- The slot number of a group's handle. -/
def State.handle (s : State) (g h : Nat) : Option Nat := (s.groups.get? g).bind (fun gr => Tbl.get? gr.acc h)
/-- The contents of a slot of a core. -/
def State.slot (s : State) (k n : Nat) : AccSlot := Tbl.getD (s.core k).acc n AccSlot.zero
/-- Change a slot of a core. -/
def State.onSlot (s : State) (k n : Nat) (f : AccSlot → AccSlot) : State :=
  s.onCore k (fun c => { c with acc := c.acc.put n (f (c.acc.getD n AccSlot.zero)) })

/-- Bind handle h of a group to the slot at the head of the free list, zeroed; none when the list is empty (R235). -/
def State.bindHandle (s : State) (g h k : Nat) : Option State :=
  match (s.core k).accFree with
  | [] => none
  | n :: rest =>
    some (((s.onCore k (fun c => { c with accFree := rest })).onSlot k n (fun _ => AccSlot.zero)).onGroup g
      (fun gr => { gr with acc := gr.acc.put h n }))

/-- The operation is a TMMA or TMMAT. -/
def Mop.isTmma (m : Mop) : Bool :=
  match m.kind with
  | .tmma _ => true
  | _ => false

/-- The handles of a matrix operation: its own, and the source of ACCADD. -/
def Mop.handles (m : Mop) : List Nat :=
  m.h :: (match m.kind with
    | .accadd src => [src]
    | _ => [])

/-- A matrix operation of the group names handle h, as destination or source. -/
def Mop.names (m : Mop) (h : Nat) : Bool := m.handles.contains h

/-- The handles that a matrix word names (R126). -/
def handlesOf : Instr → List Nat
  | .tmma _ hr _ _ _ _ | .tmmat _ hr _ _ _ _ | .acczero _ hr | .accst _ hr _ _ | .accld _ hr _ _ _ | .accrel _ hr
  | .accscl _ hr _ | .accrd _ hr _ _ => [hr.toNat]
  | .accadd _ hr _ b => [hr.toNat, b.toNat]
  | _ => []

/-- The slot's format codes (R127, R195). -/
def fmtA (f : Word) : Nat := bitsOf f.toNat 3 0
def fmtB (f : Word) : Nat := bitsOf f.toNat 7 4
def fmtOut (f : Word) : Nat := bitsOf f.toNat 11 8

/-- A legal operand pair (R127). -/
def legalPair (a b : Nat) : Bool :=
  (a == 1 && b == 1) || (a == 2 && b == 2) || ((a == 5 || a == 6) && decide (5 ≤ b) && decide (b ≤ 12))

/-- The format slot of a group's launch. -/
def State.fmtOf (s : State) (g : Group) (n : Nat) : Word := (s.launchOf g).elim 0 (fun l => l.rc.fmt.getD n 0)

/-! ## Issue (R125, R126, R132, R136, R137) -/

/-- Step a stochastic generator n times. -/
def stepRandom : Nat → Dword → Dword
  | 0, r => r
  | n + 1, r => stepRandom n (nextRandom r)

/-- The generator with which an ACCST converts, which stands with the operation. -/
def Mop.rng (m : Mop) : Dword := BitVec.ofNat 64 (joinWords m.mapB)
/-- An ACCST with the stochastic bit: the lowest signer's generator steps once per element (R138, R194). -/
def Mop.draws (m : Mop) : Bool := m.kind == .accst && m.fmt.getLsbD 16

/-- Accept a matrix operation: it enters the sequencer and the signers' tokens rise. -/
def State.acceptMop (s : State) (m : Mop) : State :=
  let owed : List Owed := match m.kind with
    | .accrd d _ => [⟨.uni, d, m.tok⟩]
    | _ => []
  let s := { s with mops := s.mops.put s.fresh m }
  let s := s.onCore m.core (fun c => { c with mops := c.mops ++ [s.fresh] })
  let s := (s.raiseTokens m.g m.sigs m.tok owed).tick
  if m.draws then s.onThread m.g (m.sigs.headD 0) (fun t => { t with
    rng := stepRandom (OpMap.rows m.mapA * OpMap.cols m.mapA) m.rng }) else s

/-- The operation binds its handle: it writes one that is unbound, or that an earlier ACCREL of the group unbinds
(R137). -/
def State.mustBind (s : State) (m : Mop) : Bool :=
  m.binds && ((s.handle m.g m.h).isNone || s.mops.any (fun e => e.2.g == m.g && e.2.h == m.h && e.2.kind == .accrel))

/-- A word of the group on one of these handles has been waiting at issue since before a moment (R126). -/
def State.handleAhead (s : State) (g : Nat) (hs : List Nat) (born : Nat) : Bool :=
  (s.groups.get? g).elim false (fun gr => gr.waits.any (fun w => decide (w.2.born < born)
    && (match w.2.kind with
      | .bind _ => true
      | .again _ _ => true
      | _ => false)
    && (handlesOf w.2.i).any (hs.contains ·)))

/-- The handles that wait on a core for a slot, oldest first: group, wait and operation (R137). -/
def State.bindWaits (s : State) (k : Nat) : List (Nat × Nat × Nat × Mop) :=
  let all := (s.residentOn k).flatMap (fun e => e.2.waits.filterMap (fun w =>
    match w.2.kind with
    | .bind m => some (w.2.born, e.1, w.1, m)
    | _ => none))
  all.sortBy (fun a b => a.1 ≤ b.1)

/-- The oldest waiting handle of a core: group, wait and operation (R137). -/
def State.oldestBind (s : State) (k : Nat) : Option (Nat × Nat × Mop) := ((s.bindWaits k).head?).map (·.2)

/-- The matrix operations that a restore brought back to a core and that wait for a place in its sequencer (R135). -/
def State.mopsBack (s : State) (k : Nat) : List (Nat × Mop) :=
  s.mops.filter (fun e => e.2.core == k && !(s.core k).mops.contains e.1
    && (s.groups.get? e.2.g).elim false (fun gr => gr.residence == .resident && !gr.halted))

/-- The core has no place for another matrix operation: 8 are in flight or, brought back by a restore, wait for their place
before it (R126, R135, R231). -/
def State.mopsFull (s : State) (k : Nat) : Bool := decide (8 ≤ (s.core k).mops.length + (s.mopsBack k).length)

/-- Issue a matrix operation.  It waits at issue while the core holds 8, and while an earlier word of the group on its
handle waits there; a word that binds its handle is decided when its turn comes, and waits for a slot behind the older
waits of the core (R126, R137). -/
def Once.issueMop (o : Once) (m : Mop) (s : State) : OnceRes :=
  if s.mopsFull m.core || s.handleAhead m.g m.handles (s.bornOf o) then .hold s
  else if s.mustBind m then
    if s.mops.any (fun e => e.2.g = m.g && e.2.names m.h) then .hold s
    else if (s.oldestBind m.core).isSome then .wait s (.bind m)
    else
      match s.bindHandle m.g m.h m.core with
      | none => .wait s (.bind m)
      | some s => .done (s.acceptMop m)
  else .done (s.acceptMop m)

/-- Issue the matrix operation of a word with its captured sources (R125). -/
def Once.matrix (o : Once) (gr : Group) (binds : Bool) (kind : MopKind) (h : Nat) (clear : Bool) (slot : Nat)
    (ma mb : List Word) (chunk : Nat) (s : State) : OnceRes :=
  let nth := o.tids.map (fun t => (t, (Tbl.get? gr.threads t).elim 0 (·.words + 1)))
  o.issueMop ⟨gr.core, o.g, o.tids, kind, h, clear, s.fmtOf gr slot, ma, mb, binds, chunk, decide (chunk ≠ 0), o.tok, o.at_,
    slot, nth⟩ s

/-- The chunk at which the lowest signer's interrupted TMMA resumes (R135). -/
def Group.chunkOf (g : Group) (t : Nat) : Nat := (Tbl.get? g.threads t).elim 0 (·.chunk)

/-- TMMA and TMMAT (R132, R134). -/
def Once.tmma (o : Once) (tr : Bool) (hr : BitVec 3) (cl : Bool) (sl : BitVec 3) (a b : Field) (s : State) : OnceRes :=
  o.read (regs a 4 ++ regs b 4) s (fun s gr =>
    let f := s.fmtOf gr sl.toNat
    let ma := gr.mapAt a.toNat
    let mb := gr.mapAt b.toNat
    if !legalPair (fmtA f) (fmtB f) then .fault s 0x01 0 sl.toNat
    else
      match ma.check (fmtA f) false with
      | some d => .fault s 0x40 0 d
      | none =>
        match mb.check (fmtB f) false with
        | some d => .fault s 0x40 0 (d + 16)
        | none =>
          if mb.cols ≠ ma.cols then .fault s 0x40 0 (1 + 16 + mb.cols * 2 ^ 16)
          else if ma.rows = 0 ∨ mb.rows = 0 then .done s
          else
            let size := s.scratchSize gr
            match ([ma.outside (fmtA f) size, mb.outside (fmtB f) size].filterMap id).min? with
            | some x => .fault s 0x14 x size
            | none => o.matrix gr true (.tmma tr) hr.toNat cl sl.toNat ma mb (gr.chunkOf o.low) s)

/-- TMMA. -/
def onceTmma (o : Once) (hr : BitVec 3) (cl : Bool) (sl : BitVec 3) (a b : Field) (s : State) : OnceRes :=
  o.tmma false hr cl sl a b s
/-- TMMAT. -/
def onceTmmat (o : Once) (hr : BitVec 3) (cl : Bool) (sl : BitVec 3) (a b : Field) (s : State) : OnceRes :=
  o.tmma true hr cl sl a b s

/-- ACCZERO. -/
def onceAcczero (o : Once) (hr : BitVec 3) (s : State) : OnceRes :=
  o.read [] s (fun s gr => o.matrix gr true .acczero hr.toNat false 0 [] [] 0 s)
/-- ACCREL. -/
def onceAccrel (o : Once) (hr : BitVec 3) (s : State) : OnceRes :=
  o.read [] s (fun s gr => o.matrix gr false .accrel hr.toNat false 0 [] [] 0 s)
/-- ACCSCL. -/
def onceAccscl (o : Once) (hr : BitVec 3) (a : Field) (s : State) : OnceRes :=
  o.read [a.toNat] s (fun s gr => o.matrix gr false (.accscl (gr.rs a.toNat)) hr.toNat false 0 [] [] 0 s)
/-- ACCADD. -/
def onceAccadd (o : Once) (hr : BitVec 3) (cl : Bool) (b : Field) (s : State) : OnceRes :=
  o.read [] s (fun s gr => o.matrix gr true (.accadd b.toNat) hr.toNat cl 0 [] [] 0 s)
/-- ACCRD. -/
def onceAccrd (o : Once) (hr : BitVec 3) (a b : Field) (s : State) : OnceRes :=
  o.read [b.toNat] s (fun s gr => o.matrix gr false (.accrd a.toNat (gr.rs b.toNat)) hr.toNat false 0 [] [] 0 s)

/-- ACCST: the lowest signer's generator stands with the operation, and steps when it is accepted (R138, R194). -/
def onceAccst (o : Once) (hr sl : BitVec 3) (a : Field) (s : State) : OnceRes :=
  o.read (regs a 4) s (fun s gr =>
    let f := s.fmtOf gr sl.toNat
    let m := gr.mapAt a.toNat
    match m.check (fmtOut f) true with
    | some d => .fault s 0x40 0 d
    | none =>
      match m.outside (fmtOut f) (s.scratchSize gr) with
      | some x => .fault s 0x14 x (s.scratchSize gr)
      | none =>
        let rng := (Tbl.get? gr.threads o.low).elim 0 (·.rng)
        o.matrix gr false .accst hr.toNat false sl.toNat m (splitWords 2 rng.toNat) 0 s)

/-- ACCLD. -/
def onceAccld (o : Once) (hr : BitVec 3) (cl : Bool) (sl : BitVec 3) (a : Field) (s : State) : OnceRes :=
  o.read (regs a 4) s (fun s gr =>
    let f := s.fmtOf gr sl.toNat
    let m := gr.mapAt a.toNat
    match m.check (fmtOut f) true with
    | some d => .fault s 0x40 0 d
    | none =>
      match m.outside (fmtOut f) (s.scratchSize gr) with
      | some x => .fault s 0x14 x (s.scratchSize gr)
      | none => o.matrix gr true .accld hr.toNat cl sl.toNat m [] 0 s)

/-! ## The sequencer (R231) -/

/-- The operation was issued in the handler that its group runs, and another waits there for the group to resume: it
does not wait for it (R339). -/
def State.passes (s : State) (m q : Mop) : Bool :=
  q.tok == 4 && (s.groups.get? m.g).elim false (·.handling)

/-- An operation in the sequencer whose handles are free of earlier operations of its group, those among them that a restore
brought back and that wait for a place (R126). -/
def State.mopReady (s : State) (id : Nat) (m : Mop) : Bool :=
  (s.core m.core).mops.contains id && s.mops.all (fun e => decide (id ≤ e.1) || s.passes m e.2
    || !(e.2.g == m.g && m.handles.any e.2.names))

/-- A TMMA of a group that a pre-emption has stopped goes on only for an accumulator form of the group behind it, which
completes before the context is saved (R135, R161). -/
def State.mopFrozen (s : State) (m : Mop) : Bool :=
  (s.groups.get? m.g).elim false (·.halted) && m.isTmma
  && !((s.core m.core).mops.any (fun o => (s.mops.get? o).elim false (fun q => q.g == m.g && !q.isTmma)))

/-- The operation can take a step: its handles are free, the stores that it waits for are done, and a TMMA that met
poisoned data after a signer went on waits for its group to resume (R126, R231, R339). -/
def State.mopRuns (s : State) (id : Nat) (m : Mop) : Bool :=
  s.mopReady id m && !s.mopFrozen m
  && (m.tok != 4 || (s.groups.get? m.g).elim false (fun gr => gr.stop == .none && !gr.handling))
  && (match m.kind with
    | .accst | .accld => s.storesDone m.g id
    | _ => true)

/-- The operations of a core that can take a step, in acceptance order. -/
def State.mopsRun (s : State) (k : Nat) : List Nat :=
  (s.core k).mops.filter (fun id => (s.mops.get? id).elim false (s.mopRuns id))

/-- The engine steps that operation id, which can take one, has let pass. -/
def Core.passedBy (c : Core) (id : Nat) : Nat := Tbl.getD c.mopWait id 0

/-- After a step of operation n the others can each still take theirs within 8 steps: for each k, at most k of them must
take it within the next k (R231). -/
def State.mopFits (s : State) (k n : Nat) : Bool :=
  (upTo 8).all (fun j => decide (((s.mopsRun k).filter (fun i => i ≠ n && decide (7 ≤ (s.core k).passedBy i + j))).length ≤ j))

/-- The operation that takes the next step of a core's engine: the next in acceptance order after the last that took one,
among those that can; but where operations accepted since would then keep an earlier one from a step within 8, the one that
has waited longest (R231; DESIGN CHOICE, log 100). -/
def State.mopNext (s : State) (k : Nat) : Option Nat :=
  let run := s.mopsRun k
  match (run.find? ((s.core k).mopLast < ·)).or run.head? with
  | none => none
  | some n => if s.mopFits k n then some n
    else (run.sortBy (fun a b => (s.core k).passedBy b ≤ (s.core k).passedBy a)).head?

/-- An operation takes the step of the engine, which passes the others that could take it by. -/
def State.mopTurn (s : State) (id : Nat) (m : Mop) : State :=
  let others := ((s.mopsRun m.core).filter (· ≠ id)).map (fun i => (i, (s.core m.core).passedBy i + 1))
  s.onCore m.core (fun c => { c with mopLast := id, mopWait := others })

/-- The operation leaves the sequencer; its signers' tokens fall (R125). -/
def State.endMop (s : State) (id : Nat) (m : Mop) : State :=
  let owed : List Owed := match m.kind with
    | .accrd d _ => [⟨.uni, d, m.tok⟩]
    | _ => []
  let s := { s with mops := s.mops.del id }
  let s := s.onCore m.core (fun c => { c with mops := c.mops.filter (· ≠ id) })
  if m.tok < 4 then s.lowerTokens m.g m.sigs m.tok owed else s

/-- Some signer of the operation has issued a later word (R339). -/
def Mop.movedOn (m : Mop) (gr : Group) : Bool :=
  m.sigs.any (fun t => (Tbl.get? gr.threads t).elim false (gr.wentOn t (m.nth.getD t 0)))

/-- The signers of an operation stand at its word again, to execute it from a chunk (R60, R135). -/
def State.returnMop (s : State) (m : Mop) : State :=
  m.sigs.foldl (fun s t => s.onThread m.g t (fun th => { th with place := .faulted, pc := m.at_.pc, chunk := m.chunk })) s

/-- The lowest live signer of an operation. -/
def Mop.lowest (m : Mop) (gr : Group) : Option Nat := m.sigs.find? (fun t => (Tbl.get? gr.threads t).isSome)

/-- An operation of which a signer has issued a later word fails: its record stands against the lowest live signer, and the
signers stay where they are, with what they have drawn since.  A TMMA keeps the chunks that it has summed, and the others
run when the group resumes; any other operation ends without effect (R135, R339; for 0x30 DESIGN CHOICE, log 100). -/
def State.failLate (s : State) (id : Nat) (m : Mop) (gr : Group) (t code detail : Nat) : State :=
  let th := Tbl.get? gr.threads t
  let pc := th.elim m.at_.pc (·.pc)
  let s := if m.isTmma then
      let s := if m.tok < 4 then s.lowerTokens m.g m.sigs m.tok [] else s
      { s with mops := s.mops.put id { m with tok := 4 } }
    else s.endMop id m
  let s := s.addFault m.g { FaultRec.make code t m.at_ 0 detail 0 0 with imprecise := true, resume := pc, nth := m.nth.getD t 0 }
  if th.elim true (·.place != .ready) then s else s.standStill m.g [t] pc

/-- An operation meets poisoned data or a poisoned element: the fault against its lowest live signer.  Where no signer has
issued a later word the operation ends without effect, a TMMA with the chunks before this one kept, its draws taken back, and
its signers stand at the word (R135, R194, R235, R339). -/
def State.failMop (s : State) (id : Nat) (m : Mop) (code detail : Nat) : State :=
  match s.groups.get? m.g with
  | none => s
  | some gr =>
    match m.lowest gr with
    | none => s.endMop id m
    | some t0 =>
      if m.movedOn gr then s.failLate id m gr t0 code detail
      else
        let s := (s.endMop id m).returnMop m
        let s := if m.draws then s.onThread m.g (m.sigs.headD 0) (fun t => { t with rng := m.rng }) else s
        s.addFault m.g { FaultRec.make code t0 m.at_ 0 detail 0 0 with nth := m.nth.getD t0 0 }

/-- The team and team core of an operation's scratchpad. -/
def State.mopScratch (s : State) (m : Mop) : Nat × Nat :=
  match s.groups.get? m.g with
  | none => (0, 0)
  | some gr => (gr.team.getD 0, s.teamCore gr)

/-- The sector of 32 bytes at an offset of a scratchpad. -/
def State.sector (s : State) (t q off : Nat) : List Byte := (s.scratchRead t q (off / 32 * 32) 32).1

/-- The cached sector that a map read hits (R233). -/
def Core.hit (c : Core) (t tag : Nat) (gen : BitVec 16) (off : Nat) : Option Sector :=
  c.opcache.find? (fun e => e.team = t && e.tag = tag && e.gen = gen && e.off = off / 32 * 32)

/-- Log an uncorrectable error of a unit of the core that has no physical addresses (R160, log 96). -/
def State.logPlace (s : State) (k unit x : Nat) (pois : Bool) : State :=
  let a := Config.eccPlace unit k x
  s.logEcc k unit true pois (a % 2 ^ 32) (a / 2 ^ 32 % 2 ^ 20)

/-- The sectors that a map read hits with an uncorrectable error are dropped, and the event is logged (R160, R233). -/
def State.scrubSectors (s : State) (k t tag : Nat) (gen : BitVec 16) (offs : List Nat) : State :=
  let hurt := (s.core k).opcache.filter (fun e => e.bad && e.team == t && e.tag == tag && e.gen == gen
    && offs.any (fun o => o / 32 * 32 == e.off))
  hurt.foldl (fun s e => (s.onCore k (fun c => { c with opcache := c.opcache.filter (· ≠ e) })).logPlace k 5 e.off false) s

/-- Fill the sectors of some offsets for a map, hits moving to the end, the oldest tags giving way beyond 2,048
(R233). -/
def State.fillSectors (s : State) (k t q tag : Nat) (gen : BitVec 16) (offs : List Nat) : State :=
  if tag = 0 then s
  else
    let new := ((offs.map (fun o => o / 32 * 32)).dedup).map (fun o =>
      ((s.core k).hit t tag gen o).getD ⟨t, tag, gen, o, s.sector t q o, false⟩)
    s.onCore k (fun c =>
      let rest := c.opcache.filter (fun e => !(e.team = t && e.tag = tag))
      let same := c.opcache.filter (fun e => e.team = t && e.tag = tag && !new.contains e)
      let all := rest ++ same ++ new
      { c with opcache := all.drop (all.length - 2048) })

/-- A byte as a map read sees it: a cached sector of the team's generation, or the scratchpad (R234). -/
def State.cachedByte (s : State) (k t q tag : Nat) (gen : BitVec 16) (x : Nat) : Byte :=
  match if tag = 0 then none else (s.core k).hit t tag gen x with
  | some e => e.bytes.getD (x % 32) 0
  | none => (s.scratchRead t q x 1).1.getD 0 0

/-- An exact sum of a chunk: NaN and infinities as R133; an exact zero is +0. -/
def chunkSum (vs : List Val) : Val :=
  match vs.foldl (Val.add false) (.fin false 0 0) with
  | .fin n m e => if m = 0 then .fin false 0 0 else .fin n m e
  | v => v

/-- One chunk of a product at element (i, j) (R132). -/
def chunkStep (old : Word) (vs : List Val) : Word := fadd old (toF32 (chunkSum vs))

/-- Number of chunks of a TMMA. -/
def Mop.chunks (m : Mop) : Nat := (OpMap.cols m.mapA + 31) / 32

/-- The clear of a TMMA or an ACCLD, once (R132, R138). -/
def State.clearOnce (s : State) (id : Nat) (m : Mop) (n : Nat) : State :=
  if m.clear && !m.cleared then
    let s := s.onSlot m.core n (fun _ => AccSlot.zero)
    { s with mops := s.mops.modify id (fun m => { m with cleared := true }) }
  else s

/-- A poisoned element that an operation reads, as the detail of 0x30: of several, the one marked last (R235; DESIGN CHOICE,
log 100). -/
def AccSlot.badOf (a : AccSlot) (h : Nat) (reads : Nat → Bool) : Option Nat :=
  (a.bad.find? reads).map (fun e => h + 3 * 2 ^ 7 + e * 2 ^ 9)

/-- One chunk step of a TMMA or TMMAT, or its end; a power limit may leave the step empty (R132, R231, R388).  Poisoned
scratchpad bytes are met even where their sector is cached, and before a poisoned element (R233, R235; DESIGN CHOICE,
log 100). -/
def State.tmmaStep (s : State) (id : Nat) : State :=
  match s.mops.get? id with
  | none => s
  | some m =>
    match m.kind, s.handle m.g m.h with
    | .tmma tr, some n =>
      if s.mopNext m.core ≠ some id || s.throttled m.core then s
      else
        let s := (s.mopTurn id m).clearOnce id m n
        if m.chunks ≤ m.chunk then s.endMop id m
        else
          let (t, q) := s.mopScratch m
          let gen := (s.teams.get? t).elim 0 (fun tm => tm.gens.getD q 0)
          let a : OpMap := m.mapA
          let b : OpMap := m.mapB
          let lo := 32 * m.chunk
          let hi := min (lo + 32) a.cols
          let ra := a.chunkBytes (fmtA m.fmt) lo hi
          let rb := b.chunkBytes (fmtB m.fmt) lo hi
          let s := (s.scrubSectors m.core t a.tag gen ra).scrubSectors m.core t b.tag gen rb
          let s := (s.fillSectors m.core t q a.tag gen ra).fillSectors m.core t q b.tag gen rb
          let hurt := fun (l : List Nat) => l.any (fun x => (s.scratchRead t q x 1).2)
          let slot := s.slot m.core n
          let inTile := fun (e : Nat) =>
            let (i, j) := if tr then (e % 64, e / 64) else (e / 64, e % 64)
            decide (i < a.rows) && decide (j < b.rows)
          if hurt ra || hurt rb then s.failMop id m 0x31 m.chunk
          else
            match slot.badOf m.h inTile with
            | some d => s.failMop id m 0x30 d
            | none =>
              let ba := s.cachedByte m.core t q a.tag gen
              let bb := s.cachedByte m.core t q b.tag gen
              let new := (upTo a.rows).foldl (fun acc i => (upTo b.rows).foldl (fun (acc : AccSlot) j =>
                let vs := (upTo (hi - lo)).map (fun k =>
                  (a.value (fmtA m.fmt) i (lo + k) ba).mul (b.value (fmtB m.fmt) j (lo + k) bb))
                let (x, y) := if tr then (j, i) else (i, j)
                acc.put x y (chunkStep (acc.at_ x y) vs)) acc) slot
              let s := (s.onSlot m.core n (fun _ => new)).count m.core 7 1
              let s := { s with mops := s.mops.modify id (fun m => { m with chunk := m.chunk + 1, cleared := true }) }
              if m.chunk + 1 = m.chunks then s.endMop id m else s
    | _, _ => s

/-! ## Accumulator forms (R136, R138) -/

/-- The BFP exponent of a block of exact values (R138). -/
def blockExp (vs : List Val) : Nat :=
  let logs := vs.filterMap (fun v => match v with
    | .fin _ m e => if m = 0 then none else some (e + (Nat.log2 m : Int))
    | _ => none)
  match logs.max? with
  | none => 0
  | some l => (min 254 (max 0 (l + 128))).toNat

/-- Some finite element of a block leaves the mantissa range at an exponent (R138). -/
def blockOver (code e : Nat) (modes : List RMode) (vs : List Val) : Bool :=
  let w := bfpWidth code
  (List.zip vs modes).any (fun x => match x.1 with
    | .fin neg m p =>
      let n := roundAt x.2 neg m (p + 127 + (w - 1 : Nat) - e) 0
      if neg then decide (2 ^ (w - 1) < n) else decide (2 ^ (w - 1) ≤ n)
    | _ => false)

/-- The exponent and mantissas of a block (R138). -/
def blockEncode (code : Nat) (sat : Bool) (modes : List RMode) (vs : List Val) : Nat × List Word :=
  if vs.any (· == .nan) then (255, vs.map (fun _ => 0))
  else
    let e := blockExp vs
    let e := if e < 254 && blockOver code e modes vs then e + 1 else e
    (e, (List.zip vs modes).map (fun x => encodeVal x.1 code x.2 sat e))

/-- The rounding mode of each element of an ACCST in row-major order, from the generator before it (R138, R194). -/
def storeModes (f : Word) (n : Nat) (rng : Dword) : List RMode :=
  if f.getLsbD 16 then ((upTo n).foldl (fun (acc : List RMode × Dword) _ =>
    let r := nextRandom acc.2
    (acc.1 ++ [draw r], r)) ([], rng)).1
  else List.replicate n (RMode.ofCode (bitsOf f.toNat 14 12))

/-- Replace bits lo to lo + w - 1 of a number. -/
def spliceBits (x lo w v : Nat) : Nat :=
  x % 2 ^ lo + v % 2 ^ w * 2 ^ lo + x / 2 ^ (lo + w) * 2 ^ (lo + w)

/-- Store the register bits of element k of row r through a map. -/
def State.storeElem (s : State) (t q : Nat) (m : OpMap) (code r k : Nat) (v : Word) : State :=
  let w := codeWidth code
  let ys := OpMap.elemBytes k w
  let old := bytesToNat (ys.map (fun y => (s.scratchRead t q (m.byteAt r y) 1).1.getD 0 0))
  let new := natToBytes ys.length (spliceBits old (k * w % 8) w v.toNat)
  (List.zip ys new).foldl (fun s e => s.scratchWrite t q (m.byteAt r e.1) [e.2]) s

/-- Store one row of a tile through a map, with its modes (R138). -/
def State.storeRow (s : State) (t q : Nat) (m : OpMap) (f : Word) (r : Nat) (row : List Word) (modes : List RMode) :
    State :=
  let code := fmtOut f
  let vs := row.map f32
  let sat := f.getLsbD 15
  if isBfp code then
    (upTo (m.cols / 32)).foldl (fun s b =>
      let (e, ms) := blockEncode code sat ((modes.drop (32 * b)).take 32) ((vs.drop (32 * b)).take 32)
      let s := s.scratchWrite t q (m.expAt r b) [BitVec.ofNat 8 e]
      (upTo 32).foldl (fun s k => s.storeElem t q m code r (32 * b + k) (ms.getD k 0)) s) s
  else
    (upTo m.cols).foldl (fun s k =>
      s.storeElem t q m code r k (encodeVal (vs.getD k .nan) code (modes.getD k .rn) sat 0)) s

/-- Store the top-left of a slot through a map, rows in ascending order. -/
def State.storeTile (s : State) (t q : Nat) (m : OpMap) (f : Word) (rng : Dword) (a : AccSlot) : State :=
  let modes := storeModes f (m.rows * m.cols) rng
  (upTo m.rows).foldl (fun s r =>
    s.storeRow t q m f r ((upTo m.cols).map (a.at_ r)) ((modes.drop (r * m.cols)).take m.cols)) s

/-- The decoded elements of a map, as FP32. -/
def OpMap.tile (m : OpMap) (code : Nat) (at_ : ByteAt) : List (Nat × Nat × Word) :=
  (upTo m.rows).flatMap (fun r => (upTo m.cols).map (fun k => (r, k, toF32 (m.value code r k at_))))

/-- Every element of a slot changed. -/
def AccSlot.mapAll (a : AccSlot) (f : Nat → Nat → Word → Word) : AccSlot :=
  (upTo 64).foldl (fun acc i => (upTo 64).foldl (fun (acc : AccSlot) j => acc.put i j (f i j (a.at_ i j))) acc) a

/-- An accumulator form runs whole (R136, R138, R231).  An ACCADD that meets poisoned elements in both its handles names the
destination's (R235; DESIGN CHOICE, log 100); what ACCRD reads goes where its signers' words go (R342). -/
def State.accForm (s : State) (id : Nat) : State :=
  match s.mops.get? id with
  | none => s
  | some m =>
    if s.mopNext m.core ≠ some id ∨ m.isTmma then s
    else
      let s := s.mopTurn id m
      let slotNo := s.handle m.g m.h
      let slot := slotNo.elim AccSlot.zero (s.slot m.core)
      let (t, q) := s.mopScratch m
      let put := fun (s : State) (a : AccSlot) => match slotNo with
        | some n => s.onSlot m.core n (fun _ => a)
        | none => s
      let bad := fun (reads : Nat → Bool) => if slotNo.isSome then slot.badOf m.h reads else none
      let map : OpMap := m.mapA
      let code := fmtOut m.fmt
      match m.kind with
      | .tmma _ => s
      | .acczero => (put s AccSlot.zero).endMop id m
      | .accrel =>
        let s := match slotNo with
          | some n => (s.onCore m.core (fun c => { c with accFree := c.accFree ++ [n] })).onGroup m.g
              (fun gr => { gr with acc := gr.acc.del m.h })
          | none => s
        s.endMop id m
      | .accscl x =>
        match bad (fun _ => true) with
        | some d => s.failMop id m 0x30 d
        | none => (put s (slot.mapAll (fun _ _ e => fmul e x))).endMop id m
      | .accadd src =>
        let srcNo := s.handle m.g src
        let other := srcNo.elim AccSlot.zero (s.slot m.core)
        match (if m.clear then none else bad (fun _ => true)).or (if srcNo.isSome then other.badOf src (fun _ => true) else none) with
        | some d => s.failMop id m 0x30 d
        | none =>
          let base := if m.clear && src ≠ m.h then AccSlot.zero else { slot with bad := if m.clear then [] else slot.bad }
          (put s (base.mapAll (fun i j e => fadd (if m.clear then 0 else e) (other.at_ i j)))).endMop id m
      | .accrd d sel =>
        let i := bitsOf sel.toNat 5 0
        let j := bitsOf sel.toNat 13 8
        match bad (· == 64 * i + j) with
        | some x => s.failMop id m 0x30 x
        | none => (s.onGroup m.g (fun gr => gr.wsFor (m.sigs.headD 0) d [slot.at_ i j])).endMop id m
      | .accst =>
        match bad (fun e => decide (e / 64 < map.rows) && decide (e % 64 < map.cols)) with
        | some d => s.failMop id m 0x30 d
        | none => (s.storeTile t q map m.fmt m.rng slot).endMop id m
      | .accld =>
        if (map.bytes code).any (fun x => (s.scratchRead t q x 1).2) then s.failMop id m 0x31 0
        else
          let base := if m.clear then AccSlot.zero else slot
          let tile := map.tile code (fun x => (s.scratchRead t q x 1).1.getD 0 0)
          (put s (tile.foldl (fun (a : AccSlot) e => a.put e.1 e.2.1 e.2.2) base)).endMop id m

end Sys2Proof.Machine
end

