-- ==== Sys2Proof/Machine/Once.lean ====
section
/-! DEFINITION. The convergence-guarded forms (R58, R62, R100, R125): the data forms of class 0, the effect that each
form has when it executes once for its group, and the meaning of each word, which is to sign and, with the last
signature, to execute. -/

namespace Sys2Proof.Machine

/-! ## Data forms of class 0 (R62, R63) -/

/-- SMOV. -/
def onceSmov (o : Once) (d a : Field) (s : State) : OnceRes := o.uni1 d a (fun x => x) s
/-- SMOVL. -/
def onceSmovl (o : Once) (d : Field) (lit : Word) (s : State) : OnceRes := o.uni [] d (fun _ => [lit]) s
/-- SADD. -/
def onceSadd (o : Once) (d a b : Field) (s : State) : OnceRes := o.uni2 d a b (fun x y => x + y) s
/-- SADDL. -/
def onceSaddl (o : Once) (d a : Field) (lit : Word) (s : State) : OnceRes := o.uni1 d a (fun x => x + lit) s
/-- SSUB. -/
def onceSsub (o : Once) (d a b : Field) (s : State) : OnceRes := o.uni2 d a b (fun x y => x - y) s
/-- SMUL. -/
def onceSmul (o : Once) (d a b : Field) (s : State) : OnceRes := o.uni2 d a b (fun x y => x * y) s
/-- SMULHI. -/
def onceSmulhi (o : Once) (d a b : Field) (s : State) : OnceRes := o.uni2 d a b (mulHi) s
/-- SMULHIN. -/
def onceSmulhin (o : Once) (d a b : Field) (s : State) : OnceRes := o.uni2 d a b (mulHiN) s
/-- SAND. -/
def onceSand (o : Once) (d a b : Field) (s : State) : OnceRes := o.uni2 d a b (fun x y => x &&& y) s
/-- SOR. -/
def onceSor (o : Once) (d a b : Field) (s : State) : OnceRes := o.uni2 d a b (fun x y => x ||| y) s
/-- SXOR. -/
def onceSxor (o : Once) (d a b : Field) (s : State) : OnceRes := o.uni2 d a b (fun x y => x ^^^ y) s
/-- SSHL. -/
def onceSshl (o : Once) (d a b : Field) (s : State) : OnceRes := o.uni2 d a b (shl) s
/-- SSHR. -/
def onceSshr (o : Once) (d a b : Field) (s : State) : OnceRes := o.uni2 d a b (shr) s
/-- SSAR. -/
def onceSsar (o : Once) (d a b : Field) (s : State) : OnceRes := o.uni2 d a b (sar) s
/-- SMIN. -/
def onceSmin (o : Once) (d a b : Field) (s : State) : OnceRes := o.uni2 d a b (sminOf) s
/-- SMAX. -/
def onceSmax (o : Once) (d a b : Field) (s : State) : OnceRes := o.uni2 d a b (smaxOf) s
/-- SMINN. -/
def onceSminn (o : Once) (d a b : Field) (s : State) : OnceRes := o.uni2 d a b (nminOf) s
/-- SMAXN. -/
def onceSmaxn (o : Once) (d a b : Field) (s : State) : OnceRes := o.uni2 d a b (nmaxOf) s
/-- SCEQ. -/
def onceSceq (o : Once) (d a b : Field) (s : State) : OnceRes := o.uni2 d a b (fun x y => boolWord (x == y)) s
/-- SCNE. -/
def onceScne (o : Once) (d a b : Field) (s : State) : OnceRes := o.uni2 d a b (fun x y => boolWord (x != y)) s
/-- SCLT. -/
def onceSclt (o : Once) (d a b : Field) (s : State) : OnceRes := o.uni2 d a b (fun x y => boolWord (x.slt y)) s
/-- SCLE. -/
def onceScle (o : Once) (d a b : Field) (s : State) : OnceRes := o.uni2 d a b (fun x y => boolWord (x.sle y)) s
/-- SCLTN. -/
def onceScltn (o : Once) (d a b : Field) (s : State) : OnceRes := o.uni2 d a b (fun x y => boolWord (x.ult y)) s
/-- SCLEN. -/
def onceSclen (o : Once) (d a b : Field) (s : State) : OnceRes := o.uni2 d a b (fun x y => boolWord (x.ule y)) s
/-- SCLZ. -/
def onceSclz (o : Once) (d a : Field) (s : State) : OnceRes := o.uni1 d a (wordClz) s
/-- SPOP. -/
def onceSpop (o : Once) (d a : Field) (s : State) : OnceRes := o.uni1 d a (wordPop) s
/-- SBFE (R63). -/
def onceSbfe (o : Once) (d a : Field) (lit : Word) (s : State) : OnceRes := o.uni1 d a (bitField lit) s

/-! ## The effect of a word that executes once -/

/-- The effect of a form when it executes once for its group; no other form is ever bound to a convergence register. -/
def runOnce : Instr → Once → State → OnceRes
  | .smov _ d a, o, s => onceSmov o d a s
  | .smovl _ d lit, o, s => onceSmovl o d lit s
  | .sadd _ d a b, o, s => onceSadd o d a b s
  | .saddl _ d a lit, o, s => onceSaddl o d a lit s
  | .ssub _ d a b, o, s => onceSsub o d a b s
  | .smul _ d a b, o, s => onceSmul o d a b s
  | .smulhi _ d a b, o, s => onceSmulhi o d a b s
  | .smulhin _ d a b, o, s => onceSmulhin o d a b s
  | .sand _ d a b, o, s => onceSand o d a b s
  | .sor _ d a b, o, s => onceSor o d a b s
  | .sxor _ d a b, o, s => onceSxor o d a b s
  | .sshl _ d a b, o, s => onceSshl o d a b s
  | .sshr _ d a b, o, s => onceSshr o d a b s
  | .ssar _ d a b, o, s => onceSsar o d a b s
  | .smin _ d a b, o, s => onceSmin o d a b s
  | .smax _ d a b, o, s => onceSmax o d a b s
  | .sminn _ d a b, o, s => onceSminn o d a b s
  | .smaxn _ d a b, o, s => onceSmaxn o d a b s
  | .sceq _ d a b, o, s => onceSceq o d a b s
  | .scne _ d a b, o, s => onceScne o d a b s
  | .sclt _ d a b, o, s => onceSclt o d a b s
  | .scle _ d a b, o, s => onceScle o d a b s
  | .scltn _ d a b, o, s => onceScltn o d a b s
  | .sclen _ d a b, o, s => onceSclen o d a b s
  | .ssel _ d a b, o, s => onceSsel o d a b s
  | .slea _ d a b, o, s => onceSlea o d a b s
  | .sadd64 _ d a b, o, s => onceSadd64 o d a b s
  | .sclz _ d a, o, s => onceSclz o d a s
  | .spop _ d a, o, s => onceSpop o d a s
  | .srd _ d b, o, s => onceSrd o d b s
  | .swr _ a b, o, s => onceSwr o a b s
  | .sbfe _ d a lit, o, s => onceSbfe o d a lit s
  | .cseta _ d, o, s => onceCseta o d s
  | .csetp _ d _, o, s => onceCsetp o d s
  | .barinit _ d a b, o, s => onceBarinit o d a b s
  | .bararr _ d, o, s => onceBararr o d s
  | .barwait _ d, o, s => onceBarwait o d s
  | .bararrw _ d, o, s => onceBararrw o d s
  | .waitany _ d a b, o, s => onceWaitany o d a b s
  | .barrd _ d a, o, s => onceBarrd o d a s
  | .regrel _ b, o, s => onceRegrel o b s
  | .regclm _ b, o, s => onceRegclm o b s
  | .regrd _ d, o, s => onceRegrd o d s
  | .dbar _, o, s => onceDbar o s
  | .relv _ a b, o, s => onceRelv o a b s
  | .gshfl _ d _ _, o, s => onceGshfl o d s
  | .gballot _ d _, o, s => onceGballot o d s
  | .gpref _ d _, o, s => onceGpref o d s
  | .gcnt _ d _, o, s => onceGcnt o d s
  | .gred _ d _ b, o, s => onceGred o d b s
  | .gmaxi _ d _ b, o, s => onceGmaxi o d b s
  | .gscan _ d _ b, o, s => onceGscan o d b s
  | .gbcast _ d _ b, o, s => onceGbcast o d b s
  | .tmma _ hr cl sl a b, o, s => onceTmma o hr cl sl a b s
  | .tmmat _ hr cl sl a b, o, s => onceTmmat o hr cl sl a b s
  | .acczero _ hr, o, s => onceAcczero o hr s
  | .accst _ hr sl a, o, s => onceAccst o hr sl a s
  | .accld _ hr cl sl a, o, s => onceAccld o hr cl sl a s
  | .accrel _ hr, o, s => onceAccrel o hr s
  | .accscl _ hr a, o, s => onceAccscl o hr a s
  | .accadd _ hr cl b, o, s => onceAccadd o hr cl b s
  | .accrd _ hr a b, o, s => onceAccrd o hr a b s
  | .cpy _ _ _ b, o, s => onceCpy o b s
  | .gath _ _ _ b, o, s => onceGath o b s
  | .scat _ _ _ b, o, s => onceScat o b s
  | .coll _ _ _ b, o, s => onceColl o b s
  | .handover _ d a b, o, s => onceHandover o d a b s
  | .engrd _ d a, o, s => onceEngrd o d a s
  | .jobcan _ d a, o, s => onceJobcan o d a s
  | .cjoin _ _, _, s => .done s
  | _, _, s => .done s

/-- CJOIN: taking-part threads sign convergence register d; the others go on (R74, R81). -/
def State.joinPacket (run : Instr → Once → State → OnceRes) (s : State) (h : Hd) (d : Field) : State :=
  let go := fun (s : State) (t : Nat) =>
    match s.front h Shape.none false t with
    | .gone => s
    | .skip => s.retire s.cur.g t h s.cur.at_ []
    | .fault c x => s.raiseCur t c 0 x
    | .run _ _ => s.signOne (.cjoin h d) { h with guard := BitVec.ofNat 3 d.toNat } Shape.none false t
  (s.cur.tids.foldl go s).completeSigning run s.cur.g d.toNat

/-! ## The meanings -/

/-- SMOV (R62). Copies uniform register sA to sD once for the group. -/
def execSmov (h : Hd) (d a : Field) (s : State) : Outcome :=
  .next (s.signPacket runOnce (.smov h d a) h ⟨[], [a.toNat], [], [], [], [d.toNat], 1⟩ false)

/-- SMOVL (R62). Writes the literal word to uniform register sD. -/
def execSmovl (h : Hd) (d : Field) (lit : Word) (s : State) : Outcome :=
  .next (s.signPacket runOnce (.smovl h d lit) h ⟨[], [], [], [], [], [d.toNat], 1⟩ false)

/-- SADD (R62). Adds two uniform registers modulo 2^32. -/
def execSadd (h : Hd) (d a b : Field) (s : State) : Outcome :=
  .next (s.signPacket runOnce (.sadd h d a b) h ⟨[], [a.toNat, b.toNat], [], [], [], [d.toNat], 1⟩ false)

/-- SADDL (R62). Adds the literal to a uniform register modulo 2^32. -/
def execSaddl (h : Hd) (d a : Field) (lit : Word) (s : State) : Outcome :=
  .next (s.signPacket runOnce (.saddl h d a lit) h ⟨[], [a.toNat], [], [], [], [d.toNat], 1⟩ false)

/-- SSUB (R62). Subtracts sB from sA modulo 2^32. -/
def execSsub (h : Hd) (d a b : Field) (s : State) : Outcome :=
  .next (s.signPacket runOnce (.ssub h d a b) h ⟨[], [a.toNat, b.toNat], [], [], [], [d.toNat], 1⟩ false)

/-- SMUL (R62). Writes the low 32 bits of the product of two uniform registers. -/
def execSmul (h : Hd) (d a b : Field) (s : State) : Outcome :=
  .next (s.signPacket runOnce (.smul h d a b) h ⟨[], [a.toNat, b.toNat], [], [], [], [d.toNat], 1⟩ false)

/-- SMULHI (R62). Writes the high 32 bits of the signed product. -/
def execSmulhi (h : Hd) (d a b : Field) (s : State) : Outcome :=
  .next (s.signPacket runOnce (.smulhi h d a b) h ⟨[], [a.toNat, b.toNat], [], [], [], [d.toNat], 1⟩ false)

/-- SMULHIN (R62). Writes the high 32 bits of the natural product. -/
def execSmulhin (h : Hd) (d a b : Field) (s : State) : Outcome :=
  .next (s.signPacket runOnce (.smulhin h d a b) h ⟨[], [a.toNat, b.toNat], [], [], [], [d.toNat], 1⟩ false)

/-- SAND (R62). Bitwise AND of two uniform registers. -/
def execSand (h : Hd) (d a b : Field) (s : State) : Outcome :=
  .next (s.signPacket runOnce (.sand h d a b) h ⟨[], [a.toNat, b.toNat], [], [], [], [d.toNat], 1⟩ false)

/-- SOR (R62). Bitwise OR of two uniform registers. -/
def execSor (h : Hd) (d a b : Field) (s : State) : Outcome :=
  .next (s.signPacket runOnce (.sor h d a b) h ⟨[], [a.toNat, b.toNat], [], [], [], [d.toNat], 1⟩ false)

/-- SXOR (R62). Bitwise XOR of two uniform registers. -/
def execSxor (h : Hd) (d a b : Field) (s : State) : Outcome :=
  .next (s.signPacket runOnce (.sxor h d a b) h ⟨[], [a.toNat, b.toNat], [], [], [], [d.toNat], 1⟩ false)

/-- SSHL (R62). Shifts a uniform register left, giving 0 for counts of 32 or more. -/
def execSshl (h : Hd) (d a b : Field) (s : State) : Outcome :=
  .next (s.signPacket runOnce (.sshl h d a b) h ⟨[], [a.toNat, b.toNat], [], [], [], [d.toNat], 1⟩ false)

/-- SSHR (R62). Shifts a uniform register logically right. -/
def execSshr (h : Hd) (d a b : Field) (s : State) : Outcome :=
  .next (s.signPacket runOnce (.sshr h d a b) h ⟨[], [a.toNat, b.toNat], [], [], [], [d.toNat], 1⟩ false)

/-- SSAR (R62). Shifts a uniform register arithmetically right. -/
def execSsar (h : Hd) (d a b : Field) (s : State) : Outcome :=
  .next (s.signPacket runOnce (.ssar h d a b) h ⟨[], [a.toNat, b.toNat], [], [], [], [d.toNat], 1⟩ false)

/-- SMIN (R62). Signed minimum of two uniform registers. -/
def execSmin (h : Hd) (d a b : Field) (s : State) : Outcome :=
  .next (s.signPacket runOnce (.smin h d a b) h ⟨[], [a.toNat, b.toNat], [], [], [], [d.toNat], 1⟩ false)

/-- SMAX (R62). Signed maximum of two uniform registers. -/
def execSmax (h : Hd) (d a b : Field) (s : State) : Outcome :=
  .next (s.signPacket runOnce (.smax h d a b) h ⟨[], [a.toNat, b.toNat], [], [], [], [d.toNat], 1⟩ false)

/-- SMINN (R62). Natural minimum of two uniform registers. -/
def execSminn (h : Hd) (d a b : Field) (s : State) : Outcome :=
  .next (s.signPacket runOnce (.sminn h d a b) h ⟨[], [a.toNat, b.toNat], [], [], [], [d.toNat], 1⟩ false)

/-- SMAXN (R62). Natural maximum of two uniform registers. -/
def execSmaxn (h : Hd) (d a b : Field) (s : State) : Outcome :=
  .next (s.signPacket runOnce (.smaxn h d a b) h ⟨[], [a.toNat, b.toNat], [], [], [], [d.toNat], 1⟩ false)

/-- SCEQ (R62). Writes 1 when two uniform registers are equal, else 0. -/
def execSceq (h : Hd) (d a b : Field) (s : State) : Outcome :=
  .next (s.signPacket runOnce (.sceq h d a b) h ⟨[], [a.toNat, b.toNat], [], [], [], [d.toNat], 1⟩ false)

/-- SCNE (R62). Writes 1 when two uniform registers differ, else 0. -/
def execScne (h : Hd) (d a b : Field) (s : State) : Outcome :=
  .next (s.signPacket runOnce (.scne h d a b) h ⟨[], [a.toNat, b.toNat], [], [], [], [d.toNat], 1⟩ false)

/-- SCLT (R62). Writes 1 when sA is signed-less than sB. -/
def execSclt (h : Hd) (d a b : Field) (s : State) : Outcome :=
  .next (s.signPacket runOnce (.sclt h d a b) h ⟨[], [a.toNat, b.toNat], [], [], [], [d.toNat], 1⟩ false)

/-- SCLE (R62). Writes 1 when sA is signed-less than or equal to sB. -/
def execScle (h : Hd) (d a b : Field) (s : State) : Outcome :=
  .next (s.signPacket runOnce (.scle h d a b) h ⟨[], [a.toNat, b.toNat], [], [], [], [d.toNat], 1⟩ false)

/-- SCLTN (R62). Writes 1 when sA is naturally less than sB. -/
def execScltn (h : Hd) (d a b : Field) (s : State) : Outcome :=
  .next (s.signPacket runOnce (.scltn h d a b) h ⟨[], [a.toNat, b.toNat], [], [], [], [d.toNat], 1⟩ false)

/-- SCLEN (R62). Writes 1 when sA is naturally less than or equal to sB. -/
def execSclen (h : Hd) (d a b : Field) (s : State) : Outcome :=
  .next (s.signPacket runOnce (.sclen h d a b) h ⟨[], [a.toNat, b.toNat], [], [], [], [d.toNat], 1⟩ false)

/-- SSEL (R62). Selects sA when sD is nonzero, else sB. -/
def execSsel (h : Hd) (d a b : Field) (s : State) : Outcome :=
  .next (s.signPacket runOnce (.ssel h d a b) h ⟨[], [d.toNat, a.toNat, b.toNat], [], [], [], [d.toNat], 1⟩ false)

/-- SLEA (R62). Adds a natural uniform register to a 64-bit uniform pair. -/
def execSlea (h : Hd) (d a b : Field) (s : State) : Outcome :=
  .next (s.signPacket runOnce (.slea h d a b) h ⟨[], regs a 2 ++ [b.toNat], [], [], [], regs d 2, 1⟩ false)

/-- SADD64 (R62). Adds two 64-bit uniform pairs modulo 2^64. -/
def execSadd64 (h : Hd) (d a b : Field) (s : State) : Outcome :=
  .next (s.signPacket runOnce (.sadd64 h d a b) h ⟨[], regs a 2 ++ regs b 2, [], [], [], regs d 2, 1⟩ false)

/-- SCLZ (R62). Counts leading zeros of a uniform register. -/
def execSclz (h : Hd) (d a : Field) (s : State) : Outcome :=
  .next (s.signPacket runOnce (.sclz h d a) h ⟨[], [a.toNat], [], [], [], [d.toNat], 1⟩ false)

/-- SPOP (R62). Counts one bits of a uniform register. -/
def execSpop (h : Hd) (d a : Field) (s : State) : Outcome :=
  .next (s.signPacket runOnce (.spop h d a) h ⟨[], [a.toNat], [], [], [], [d.toNat], 1⟩ false)

/-- SRD (R64). Reads the special register named by the B field into sD. -/
def execSrd (h : Hd) (d b : Field) (s : State) : Outcome :=
  .next (s.signPacket runOnce (.srd h d b) h ⟨[], [], [], [], [], if srdWide b then regs d 2 else [d.toNat], 1⟩ false)

/-- SWR (R62). Writes sB to the uniform register whose number stands in sA. -/
def execSwr (h : Hd) (a b : Field) (s : State) : Outcome :=
  .next (s.signPacket runOnce (.swr h a b) h ⟨[], [a.toNat, b.toNat], [], [], [], [], 1⟩ false)

/-- SBFE (R63). Extracts a bit field of a uniform register as the literal describes. -/
def execSbfe (h : Hd) (d a : Field) (lit : Word) (s : State) : Outcome :=
  .next (s.signPacket runOnce (.sbfe h d a lit) h ⟨[], [a.toNat], [], [], [], [d.toNat], 1⟩ false)

/-- CSETA (R65). Sets a convergence register's members to every live thread of the group. -/
def execCseta (h : Hd) (d : Field) (s : State) : Outcome :=
  .next (s.signPacket runOnce (.cseta h d) h ⟨[], [], [], [], [], [], 1⟩ false)

/-- CSETP (R65). Sets a convergence register's members to the signers whose predicate is true. -/
def execCsetp (h : Hd) (d a : Field) (s : State) : Outcome :=
  .next (s.signPacket runOnce (.csetp h d a) h ⟨[], [], [a.toNat], [], [], [], 1⟩ false)

/-- BARINIT (R67). Sets a barrier's expected group and byte arrivals and clears its counts. -/
def execBarinit (h : Hd) (d a b : Field) (s : State) : Outcome :=
  .next (s.signPacket runOnce (.barinit h d a b) h ⟨[], [a.toNat, b.toNat], [], [], [], [], 1⟩ false)

/-- BARARR (R67). Releases at die scope and adds one group arrival to a barrier. -/
def execBararr (h : Hd) (d : Field) (s : State) : Outcome :=
  .next (s.signPacket runOnce (.bararr h d) h ⟨[], [], [], [], [], [], 1⟩ false)

/-- BARWAIT (R68). Waits for the barrier phase to change from the group's target. -/
def execBarwait (h : Hd) (d : Field) (s : State) : Outcome :=
  .next (s.signPacket runOnce (.barwait h d) h ⟨[], [], [], [], [], [], 1⟩ false)

/-- BARARRW (R67). Arrives at a barrier and then waits on it as one word. -/
def execBararrw (h : Hd) (d : Field) (s : State) : Outcome :=
  .next (s.signPacket runOnce (.bararrw h d) h ⟨[], [], [], [], [], [], 1⟩ false)

/-- WAITANY (R69). Waits for any barrier of a mask in one bank and returns its number. -/
def execWaitany (h : Hd) (d a b : Field) (s : State) : Outcome :=
  .next (s.signPacket runOnce (.waitany h d a b) h ⟨[], [a.toNat], [], [], [], [d.toNat], 1⟩ false)

/-- BARRD (R70). Reads a barrier's state and the group's tgt and rot into a uniform quad. -/
def execBarrd (h : Hd) (d a : Field) (s : State) : Outcome :=
  .next (s.signPacket runOnce (.barrd h d a) h ⟨[], [], [], [], [], regs d 4, 1⟩ false)

/-- REGREL (R72). Lowers the group's ceiling by n and returns the rows to the core pool. -/
def execRegrel (h : Hd) (b : Field) (s : State) : Outcome :=
  .next (s.signPacket runOnce (.regrel h b) h ⟨[], [], [], [], [], [], 1⟩ false)

/-- REGCLM (R72). Claims n more rows from the core pool and raises the ceiling. -/
def execRegclm (h : Hd) (b : Field) (s : State) : Outcome :=
  .next (s.signPacket runOnce (.regclm h b) h ⟨[], [], [], [], [], [], 1⟩ false)

/-- REGRD (R72). Reads ceiling, live rows, team reservation and free rows into a uniform quad. -/
def execRegrd (h : Hd) (d : Field) (s : State) : Outcome :=
  .next (s.signPacket runOnce (.regrd h d) h ⟨[], [], [], [], [], regs d 4, 1⟩ false)

/-- DBAR (R73). Waits until every group of the die span has reached its next DBAR or exited. -/
def execDbar (h : Hd) (s : State) : Outcome :=
  .next (s.signPacket runOnce (.dbar h) h ⟨[], [], [], [], [], [], 1⟩ false)

/-- RELV (R72). Releases the rows of n vector names to the group's reservation. -/
def execRelv (h : Hd) (a b : Field) (s : State) : Outcome :=
  .next (s.signPacket runOnce (.relv h a b) h ⟨[], [], [], [], [], [], 1⟩ false)

/-- GSHFL (R101). Each member reads vA from the lane that its vB names. -/
def execGshfl (h : Hd) (d a b : Field) (s : State) : Outcome :=
  .next (s.signPacket runOnce (.gshfl h d a b) h ⟨[a.toNat, b.toNat], [], [], [d.toNat], [], [], 1⟩ true)

/-- GBALLOT (R101). Writes a 256-bit mask of members with a true predicate into eight uniform registers. -/
def execGballot (h : Hd) (d a : Field) (s : State) : Outcome :=
  .next (s.signPacket runOnce (.gballot h d a) h ⟨[], [], [a.toNat], [], [], regs d 8, 1⟩ true)

/-- GPREF (R101). Writes to each member the count of lower members with a true predicate. -/
def execGpref (h : Hd) (d a : Field) (s : State) : Outcome :=
  .next (s.signPacket runOnce (.gpref h d a) h ⟨[], [], [a.toNat], [d.toNat], [], [], 1⟩ true)

/-- GCNT (R101). Counts the members with a true predicate. -/
def execGcnt (h : Hd) (d a : Field) (s : State) : Outcome :=
  .next (s.signPacket runOnce (.gcnt h d a) h ⟨[], [], [a.toNat], [], [], [d.toNat], 1⟩ true)

/-- GRED (R102). Reduces members' values over the fixed tree into a uniform register. -/
def execGred (h : Hd) (d a b : Field) (s : State) : Outcome :=
  .next (s.signPacket runOnce (.gred h d a b) h ⟨[a.toNat], [], [], [], [], [d.toNat], 1⟩ true)

/-- GMAXI (R104). Finds the members' maximum and its thread index. -/
def execGmaxi (h : Hd) (d a b : Field) (s : State) : Outcome :=
  .next (s.signPacket runOnce (.gmaxi h d a b) h ⟨[a.toNat], [], [], [], [], regs d 2, 1⟩ true)

/-- GSCAN (R102). Writes each member's inclusive or exclusive scan over the fixed tree. -/
def execGscan (h : Hd) (d a b : Field) (s : State) : Outcome :=
  .next (s.signPacket runOnce (.gscan h d a b) h ⟨[a.toNat], [], [], [d.toNat], [], [], 1⟩ true)

/-- GBCAST (R101). Copies one lane of vA into a uniform register. -/
def execGbcast (h : Hd) (d a b : Field) (s : State) : Outcome :=
  .next (s.signPacket runOnce (.gbcast h d a b) h ⟨[a.toNat], [b.toNat], [], [], [], [d.toNat], 1⟩ true)

/-- TMMA (R132). Accumulates a matrix product of two scratchpad operands into a handle. -/
def execTmma (h : Hd) (hr : BitVec 3) (cl : Bool) (sl : BitVec 3) (a b : Field) (s : State) : Outcome :=
  .next (s.signPacket runOnce (.tmma h hr cl sl a b) h ⟨[], regs a 4 ++ regs b 4, [], [], [], [], 1⟩ true)

/-- TMMAT (R132). Accumulates a matrix product transposed into a handle. -/
def execTmmat (h : Hd) (hr : BitVec 3) (cl : Bool) (sl : BitVec 3) (a b : Field) (s : State) : Outcome :=
  .next (s.signPacket runOnce (.tmmat h hr cl sl a b) h ⟨[], regs a 4 ++ regs b 4, [], [], [], [], 1⟩ true)

/-- ACCZERO (R136). Binds a handle and zeroes it. -/
def execAcczero (h : Hd) (hr : BitVec 3) (s : State) : Outcome :=
  .next (s.signPacket runOnce (.acczero h hr) h ⟨[], [], [], [], [], [], 1⟩ true)

/-- ACCST (R138). Converts and stores a handle's tile through a map into scratchpad. -/
def execAccst (h : Hd) (hr sl : BitVec 3) (a : Field) (s : State) : Outcome :=
  .next (s.signPacket runOnce (.accst h hr sl a) h ⟨[], regs a 4, [], [], [], [], 1⟩ true)

/-- ACCLD (R138). Binds a handle and loads decoded scratchpad elements into it. -/
def execAccld (h : Hd) (hr : BitVec 3) (cl : Bool) (sl : BitVec 3) (a : Field) (s : State) : Outcome :=
  .next (s.signPacket runOnce (.accld h hr cl sl a) h ⟨[], regs a 4, [], [], [], [], 1⟩ true)

/-- ACCREL (R136). Returns a handle's slot to the free list. -/
def execAccrel (h : Hd) (hr : BitVec 3) (s : State) : Outcome :=
  .next (s.signPacket runOnce (.accrel h hr) h ⟨[], [], [], [], [], [], 1⟩ true)

/-- ACCSCL (R136). Scales every element of a handle by a uniform value. -/
def execAccscl (h : Hd) (hr : BitVec 3) (a : Field) (s : State) : Outcome :=
  .next (s.signPacket runOnce (.accscl h hr a) h ⟨[], [a.toNat], [], [], [], [], 1⟩ true)

/-- ACCADD (R136). Adds another handle's elements into a handle. -/
def execAccadd (h : Hd) (hr : BitVec 3) (cl : Bool) (b : Field) (s : State) : Outcome :=
  .next (s.signPacket runOnce (.accadd h hr cl b) h ⟨[], [], [], [], [], [], 1⟩ true)

/-- ACCRD (R136). Reads one accumulator element into a uniform register. -/
def execAccrd (h : Hd) (hr : BitVec 3) (a b : Field) (s : State) : Outcome :=
  .next (s.signPacket runOnce (.accrd h hr a b) h ⟨[], [b.toNat], [], [], [], [a.toNat], 1⟩ true)

/-- CPY (R142). Issues a copy job from a 16-register descriptor. -/
def execCpy (h : Hd) (d a b : Field) (s : State) : Outcome :=
  .next (s.signPacket runOnce (.cpy h d a b) h ⟨[], regs a 16, [], [], [], [d.toNat], 1⟩ true)

/-- GATH (R144). Issues a gather job, optionally into a ring. -/
def execGath (h : Hd) (d a b : Field) (s : State) : Outcome :=
  .next (s.signPacket runOnce (.gath h d a b) h ⟨[], regs a 16, [], [], [], [d.toNat], 1⟩ true)

/-- SCAT (R144). Issues a scatter job. -/
def execScat (h : Hd) (d a b : Field) (s : State) : Outcome :=
  .next (s.signPacket runOnce (.scat h d a b) h ⟨[], regs a 16, [], [], [], [d.toNat], 1⟩ true)

/-- COLL (R145). Issues a collective job from a 32-register descriptor. -/
def execColl (h : Hd) (d a b : Field) (s : State) : Outcome :=
  .next (s.signPacket runOnce (.coll h d a b) h ⟨[], regs a 32, [], [], [], [d.toNat], 1⟩ true)

/-- HANDOVER (R149). Checks and accepts a hand-over of a stack to its other port die, closing admission. -/
def execHandover (h : Hd) (d a b : Field) (s : State) : Outcome :=
  .next (s.signPacket runOnce (.handover h d a b) h ⟨[], [a.toNat, b.toNat], [], [], [], [], 1⟩ true)

/-- ENGRD (R147). Reads a job-table entry's state into a uniform quad. -/
def execEngrd (h : Hd) (d a : Field) (s : State) : Outcome :=
  .next (s.signPacket runOnce (.engrd h d a) h ⟨[], [a.toNat], [], [], [], regs d 4, 1⟩ true)

/-- JOBCAN (R148). Cancels a job that waits on its footprint. -/
def execJobcan (h : Hd) (d a : Field) (s : State) : Outcome :=
  .next (s.signPacket runOnce (.jobcan h d a) h ⟨[], [a.toNat], [], [], [], [d.toNat], 1⟩ true)

/-- CJOIN (R81). Signs a convergence register and continues when signing completes.  The signed register is the D field's; the guard is a predicate (R74, R81). -/
def execCjoin (h : Hd) (d : Field) (s : State) : Outcome := .next (s.joinPacket runOnce h d)

end Sys2Proof.Machine
end

