-- ==== Sys2Proof/Machine/Sched.lean ====
section
/-! DEFINITION. The group scheduler (R169, R208 to R218): when a thread and a group are ready, the active and pending
sets, filling an active entry, swapping, packing a packet, and the passing of a core cycle. -/

namespace Sys2Proof.Machine

/-! ## Readiness (R28, R169) -/

/-- The clause at a thread's PC, looked at without a trace; none while its fetch waits. -/
def State.peekClause (s : State) (g : Nat) (gr : Group) (pc : Pc) : Option (Option (Word × List Word)) :=
  match (s.clause g gr.core (s.codeBase gr) pc.off.toNat).2 with
  | .hold => none
  | .bad _ _ _ _ => some none
  | .ok h ws => some (some (h, ws))

/-- The header's WAIT holds the clause's word 0 for a thread (R28). -/
def Thread.waits (t : Thread) (hdr : Word) : Bool :=
  (upTo 4).any (fun k => (Header.wait hdr).testBit k && t.token k != 0)

/-- A long-latency word: class 2, class 3 and the convergent forms of class 1 (R28). -/
def isLong (cls op : Nat) : Bool := cls == 2 || cls == 3 || (cls == 1 && decide (0x38 ≤ op))

/-- A memory word or the issue of an engine job (R114). -/
def isOrdered (cls : Nat) (w lit : Word) : Bool :=
  cls == 2 || (match decodeLegal cls w lit with
    | some (.cpy _ _ _ _) | some (.gath _ _ _ _) | some (.scat _ _ _ _) | some (.coll _ _ _ _) => true
    | _ => false)

/-- Thread t takes part in the word at its PC: the word is legal, and the guard predicate is true, or the guarding register
has the thread as a member at that PC. -/
def Group.takesPart (gr : Group) (tid : Nat) (t : Thread) (hdr : Word) (ws : List Word) : Bool :=
  let w := ws.getD t.pc.ix 0
  let guard := (hdOf w).guard.toNat
  let cv := gr.conv.getD guard (Conv.fresh [])
  (decodeLegal (Header.cls hdr) w (ws.getD (t.pc.ix + 1) 0)).isSome
  && (if Header.cls hdr == 2 then t.pr guard
      else cv.members.contains tid && cv.bound.elim true (fun b => b.at_.pc == t.pc))

/-- Thread t takes part in a long-latency word at its PC, which would raise a token counter that holds 63 (R28): the
word is legal, and the guard predicate is true or the guarding register has the thread as a member at that PC. -/
def Group.full (gr : Group) (tid : Nat) (t : Thread) (hdr : Word) (ws : List Word) : Bool :=
  let w := ws.getD t.pc.ix 0
  isLong (Header.cls hdr) (opOf w).toNat && decide (63 ≤ t.token (Header.token hdr)) && gr.takesPart tid t hdr ws

/-- A request of a kind of thread t of group g is outstanding. -/
def State.owes (s : State) (g t : Nat) (k : ReqKind) : Bool :=
  s.reqs.any (fun e => e.2.g == g && e.2.t == t && e.2.kind == k)

/-- The fence of thread t holds the memory word or job issue at its PC, in which it would take part (R114). -/
def State.fenced (s : State) (g : Nat) (gr : Group) (tid : Nat) (t : Thread) (hdr : Word) (ws : List Word) : Bool :=
  s.owes g tid .fence && isOrdered (Header.cls hdr) (ws.getD t.pc.ix 0) (ws.getD (t.pc.ix + 1) 0)
    && gr.takesPart tid t hdr ws

/-- What holds a thread: nothing, STALL demand, a token, a fetch that waits, a signing or a wait, or a fault of its
group. -/
inductive Held where
  | ready
  | demand
  | token
  | fetch
  | wait
  | stopped
  deriving DecidableEq, Repr

/-- Why a thread does not issue, or that it is ready (R169, R211); a thread with a fault to be handled issues nothing (R340);
the wait of EXIT is a token wait (R78), and an SFENCE
holds its thread (R115). -/
def State.heldBy (s : State) (g : Nat) (gr : Group) (tid : Nat) (t : Thread) : Held :=
  match t.place with
  | .waiting (.exit _) _ _ _ _ => if t.tok.all (· = 0) then .wait else .token
  | .signing _ | .waiting _ _ _ _ _ | .returned _ _ => .wait
  | .faulted => .stopped
  | .ready =>
    if (gr.handling && !gr.inHandler tid) || gr.faults.any (fun r => r.thread == tid && !r.job) then .stopped
    else if t.demand ≠ 0 then .demand
    else if s.owes g tid .sfence then .token
    else
      match s.peekClause g gr t.pc with
      | none => .fetch
      | some none => .ready
      | some (some (h, ws)) =>
        if headerOk h ws && ((t.pc.ix == 0 && !t.past && t.waits h) || gr.full tid t h ws || s.fenced g gr tid t h ws) then .token else .ready

/-- A group may issue at all: no fault has stopped it, and it has its pool share (R225, R340). -/
def Group.mayIssue (g : Group) : Bool :=
  g.residence == .resident && !g.halted && g.share.isNone && (g.stop == .none || g.stop == .last)

/-- The fetches of a group that wait are made at its slot: one that has passed its translation is performed where its home
is then (R16, R313, R316). -/
def State.touchFetch (s : State) (g : Nat) (gr : Group) : State :=
  let offs := (gr.threads.filter (fun e => s.heldBy g gr e.1 e.2 == .fetch)).map (·.2.pc.off.toNat)
  offs.dedup.foldl (fun s o => (s.clause g gr.core (s.codeBase gr) o).1) s

/-- The ready threads of a group. -/
def State.readyThreads (s : State) (g : Nat) (gr : Group) : List (Nat × Thread) :=
  if gr.mayIssue then gr.threads.filter (fun e => s.heldBy g gr e.1 e.2 == .ready) else []

/-- Every token counter of the thread reads zero (R78). -/
def Thread.quiet (t : Thread) : Bool := t.tok.all (· = 0)

/-- The threads of a group that wait in EXIT or EXITJ with every token counter at zero, and end at the group's next slot:
thread, EXITJ, the word's place (R78, R79). -/
def Group.exits (g : Group) : List (Nat × Bool × Ctx × Hd) :=
  if g.mayIssue then g.threads.filterMap (fun e => match e.2.place with
    | .waiting (.exit j) at_ hd _ _ => if e.2.quiet then some (e.1, j, at_, hd) else none
    | _ => none)
  else []

/-- The group has a ready thread, or a thread whose EXIT is due. -/
def State.groupReady (s : State) (g : Nat) (gr : Group) : Bool := !(s.readyThreads g gr).isEmpty || !gr.exits.isEmpty

/-! ## Active and pending sets (R208 to R213) -/

/-- Quadrant q of core k. -/
def State.quad (s : State) (k q : Nat) : Quad := (s.core k).quads.getD q Quad.reset
/-- Active entry e of quadrant q of core k. -/
def State.entry (s : State) (k q e : Nat) : Active := (s.quad k q).active.getD e ⟨none, 0⟩
/-- Change active entry e of a quadrant. -/
def State.setEntry (s : State) (k q e : Nat) (a : Active) : State :=
  s.onCore k (fun c => { c with quads := c.quads.modify q (fun u => { u with active := u.active.set e a }) })

/-- The resident groups of a quadrant that stand in no active entry. -/
def State.pending (s : State) (k q : Nat) : List (Nat × Group) :=
  (s.residentOn k).filter (fun e => e.2.quad == q && !(s.quad k q).active.any (·.g == some e.1))

/-- The ready pending group that has been ready longest, the lower slot winning a tie (R212). -/
def State.nextPending (s : State) (k q : Nat) : Option (Nat × Group) :=
  let rs := (s.pending k q).filter (fun e => s.groupReady e.1 e.2)
  let since := fun (e : Nat × Group) => e.2.readySince.getD (s.now k)
  (rs.sortBy (fun a b => decide (since a < since b) || (since a == since b && decide (a.2.slot ≤ b.2.slot)))).head?

/-- Put a group in an active entry: it may issue two cycles later (R212, R213). -/
def State.enterEntry (s : State) (k q e g : Nat) : State :=
  (s.setEntry k q e ⟨some g, s.now k + 2⟩).onGroup g (fun gr => { gr with
    readySince := none, activeSince := s.now k, yielded := false })

/-- Fill active entry e where it is empty and a ready group waits (R213). -/
def State.fillEntry (s : State) (k q e : Nat) : State :=
  if (s.entry k q e).g.isSome then s
  else
    match s.nextPending k q with
    | none => s
    | some p => s.enterEntry k q e p.1

/-- The slots that a quadrant of a core may give to groups off the ember reserve (R208). -/
def quadSlots (q : Nat) : Nat := if q = 3 then 31 else 32

/-- The quadrant and the slot that a new resident group takes: the quadrant with the fewest resident groups, its
lowest free slot; Q3 is full with 31 groups beside the ember group (R208). -/
def State.pickSlot (s : State) (k : Nat) : Option (Nat × Nat) :=
  let on := s.residentOn k
  let size := fun (q : Nat) => (on.filter (fun e => e.2.quad == q)).length
  let others := fun (q : Nat) => (on.filter (fun e => e.2.quad == q && !e.2.ember)).length
  let free := (upTo 4).filter (fun q => decide (others q < quadSlots q))
  match (free.sortBy (fun a b => size a ≤ size b)).head? with
  | none => none
  | some q =>
    ((upTo 32).find? (fun n => !(on.any (fun e => e.2.slot == 32 * q + n)))).map (fun n => (q, 32 * q + n))

/-- The wait of a group that blocks its signers (R83, R161). -/
def GWait.blocks (w : GWait) : Bool :=
  match w.kind with
  | .barrier _ | .any _ | .dbar | .claim _ | .bind _ | .entry _ _ => true
  | .handover _ _ | .form _ _ _ => false
  | .again _ _ => match w.i with
    | .bararrw _ _ | .dbar _ => true
    | _ => false

/-- The result of a group form is still to come; its signers have gone on (R100). -/
def GWait.isForm (w : GWait) : Bool :=
  match w.kind with
  | .form _ _ _ => true
  | _ => false

/-- The thread signs or stands in a blocking wait: a ring form waits from the moment at which its descriptor has been found
without room or granules (R58, R83, R121, R124, R161). -/
def State.blocks (s : State) (gr : Group) (tid : Nat) (t : Thread) : Bool :=
  match t.place with
  | .signing _ => gr.waits.all (fun w => w.2.blocks || w.2.isForm || !(w.2.sigs.any (·.t = tid)))
  | .waiting (.join _) _ _ _ _ | .returned _ _ => true
  | .waiting (.spawn r) _ _ _ _ => (s.recs.get? r).elim false (·.status.isNone)
  | .waiting (.request r) _ _ _ _ => (s.reqs.get? r).elim false (fun q =>
      (match q.kind with
       | .rclaim | .rawait | .putq => true
       | _ => false) && (match q.stage with
       | .queued _ => true
       | _ => false))
  | _ => false

/-- A group is swap-eligible at its slot: it has no ready thread, and every live thread signs, is in a blocking wait, or
is held by a token (R211). -/
def State.swapEligible (s : State) (g : Nat) (gr : Group) : Bool :=
  gr.threads.all (fun e => s.blocks gr e.1 e.2 || s.heldBy g gr e.1 e.2 == .token)

/-- The active group of an entry has been active longer than every other of its quadrant. -/
def State.longestActive (s : State) (k q g : Nat) (gr : Group) : Bool :=
  (s.quad k q).active.all (fun a => match a.g with
    | none => true
    | some o => o == g || (match s.groups.get? o with
        | none => true
        | some u => decide (gr.activeSince < u.activeSince)))

/-- A swap of the group in an entry is due at its slot, with the incoming group (R212). -/
def State.swapDue (s : State) (k q e : Nat) : Option Nat :=
  match (s.entry k q e).g with
  | none => none
  | some g =>
    match s.groups.get? g, s.nextPending k q with
    | some gr, some p =>
      let old := decide (p.2.readySince.getD (s.now k) + 1024 ≤ s.now k) && s.longestActive k q g gr
      if s.swapEligible g gr || gr.yielded || old then some p.1 else none
    | _, _ => none

/-- Swap the group of an entry for an incoming group; the entry's slot is empty in this cycle (R212). -/
def State.swapEntry (s : State) (k q e inn : Nat) : State :=
  let s := match (s.entry k q e).g with
    | some g => s.onGroup g (fun gr => { gr with
        yielded := false
        readySince := if s.groupReady g gr then some (s.now k) else none })
    | none => s
  s.enterEntry k q e inn

/-! ## Slots and packets (R26, R169, R215, R216) -/

/-- An issue slot of a group passes: owed slots run down by one. -/
def Group.slotPass (g : Group) : Group :=
  { g with threads := g.threads.map (fun e => (e.1, { e.2 with demand := e.2.demand - 1 })) }

/-- A slot of the group passes at a cycle, where its last lies 8 cycles back (R26). -/
def Group.slotAt (g : Group) (now : Nat) : Group :=
  if g.lastSlot.elim true (fun c => decide (c + 8 ≤ now)) then { g.slotPass with lastSlot := some now } else g

/-- The order of PCs: clause offset, then index. -/
def Pc.le (a b : Pc) : Bool := decide (a.off.toNat < b.off.toNat) || (a.off == b.off && decide (a.ix ≤ b.ix))

/-- The packet's PC and threads from the ready threads (R169). -/
def packPacket (ready : List (Nat × Thread)) : Option (Pc × List Nat) :=
  let oldest := (ready.map (·.2.age)).foldl max 0
  let pool := if 7 ≤ oldest then ready.filter (fun e => e.2.age = oldest) else ready
  match (pool.sortBy (fun a b => a.2.pc.le b.2.pc)).head? with
  | none => none
  | some t =>
    let here := ready.filter (fun e => e.2.pc = t.2.pc)
    let byAge := here.sortBy (fun a b => decide (b.2.age < a.2.age) || (a.2.age == b.2.age && decide (a.1 ≤ b.1)))
    some (t.2.pc, ((byAge.take 32).map (·.1)).sortBy (· ≤ ·))

/-- The ages of ready threads that are not packed rise by one; a packed thread starts again (R169). -/
def Group.ageThreads (g : Group) (ready packed : List Nat) : Group :=
  { g with threads := g.threads.map (fun e =>
      (e.1, { e.2 with age := if packed.contains e.1 then 0 else if ready.contains e.1 then e.2.age + 1 else e.2.age })) }

/-- The group of an active entry that may issue in it now, its previous issue lying 8 cycles back (R26, R212, R216). -/
def State.openEntry (s : State) (k q e : Nat) : Option (Nat × Group) :=
  match (s.entry k q e).g with
  | none => none
  | some g =>
    if (s.entry k q e).from_ ≤ s.now k then
      match s.groups.get? g with
      | some gr => if gr.lastIssue.elim true (fun c => decide (c + 8 ≤ s.now k)) then some (g, gr) else none
      | none => none
    else none

/-- The active entry that a quadrant serves in the present cycle: by the barrel, the cycle modulo 8; in urgency order,
the ready group of the lowest packet count, or else an entry whose group has nothing ready and whose next slot passes
empty (R26, R215, R216; the passing of empty slots is DEDUCED, log 10). -/
def State.servedEntry (s : State) (k q : Nat) : Option Nat :=
  let now := s.now k
  match (s.core k).mode with
  | .barrel => if (s.openEntry k q (now % 8)).isSome then some (now % 8) else none
  | _ =>
    let rd := (upTo 8).filter (fun e => (s.openEntry k q e).elim false (fun x => s.groupReady x.1 (x.2.slotAt now)))
    let key := fun (e : Nat) => (s.openEntry k q e).elim 0 (fun x => x.2.packets)
    match (rd.sortBy (fun a b => key a ≤ key b)).head? with
    | some e => some e
    | none => (upTo 8).find? (fun e => (s.openEntry k q e).elim false (fun x =>
        x.2.lastSlot.elim true (fun c => decide (c + 8 ≤ now))))

/-- An issue slot stays empty (R157). -/
def State.emptySlot (s : State) (k : Nat) : State := s.count k 3 1

/-- A swap at the slot of the group in entry e: the slot stays empty, and the group's ready threads grow older (R169,
R212). -/
def State.serveSwap (s : State) (k q e g inn : Nat) : State :=
  let s := s.onGroup g (fun gr => gr.ageThreads ((s.readyThreads g gr).map (·.1)) [])
  ((s.swapEntry k q e inn).count k 4 1).emptySlot k

/-! ## The passing of a cycle (R210, R217) -/

/-- What the passing of a core cycle does to a pending group: every eighth cycle one owed slot runs down, which ends the
run of a group that has faulted (DEDUCED, log 10), and the cycle in which it became ready is kept: the one that ends, where
what it waited for came in it, or the one that begins (R210, R212). -/
def State.pendingTick (s : State) (k : Nat) : State :=
  let now := s.now k
  let ids := (upTo 4).flatMap (fun q => (s.pending k q).map (·.1))
  { s with groups := s.groups.map (fun (e : Nat × Group) =>
      if ids.contains e.1 then
        let g := if now % 8 = 0 then (if e.2.stop = .last then (e.2.slotAt now).halt now else e.2.slotAt now) else e.2
        (e.1, { g with readySince :=
          if s.groupReady e.1 g then some (g.readySince.getD (if s.groupReady e.1 e.2 then now - 1 else now)) else none })
      else e) }

/-- The next quadrant of the core; after the fourth, the next cycle: its barrier units end theirs, counter 0 rises, a pending
mode change takes effect at a multiple of 8 (R157, R217, R270). -/
def State.nextTurn (s : State) (k : Nat) : State :=
  if (s.core k).turn < 3 then s.onCore k (fun c => { c with turn := c.turn + 1 })
  else
    let s := ((s.barrierCycle k).onCore k (fun c => { c with turn := 0 })).count k 0 1
    let s := if s.now k % 8 = 0 then
        s.onCore k (fun c => { c with mode := c.nextMode.getD c.mode, nextMode := none })
      else s
    s.pendingTick k

end Sys2Proof.Machine
end

