-- ==== Sys2Proof/Machine/Control.lean ====
section
/-! DEFINITION. The control forms of class 4 (R31 to R33, R74 to R82): transfers, pads, spawning, exits and joins,
YIELD, TRAP, BKPT and NOP. -/

namespace Sys2Proof.Machine

/-! ## Transfers -/

/-- The present word retires and thread t continues at a clause (R75). -/
def State.jump (s : State) (h : Hd) (sh : Shape) (t : Nat) (target : Word) : State :=
  (s.done h sh t).onThread s.cur.g t (fun th => { th with pc := ⟨target, 0⟩ })

/-- What follows a pad check for thread t. -/
def State.afterPad (_s : State) (t : Nat) (r : State × Pad) (k : State → State) : State :=
  match r with
  | (s, .hold) => s.hold s.cur.g t
  | (s, .bad c a d) => s.raiseCur t c a d
  | (s, .ok) => k s

/-- BRA (R75). Branches to a literal code offset. -/
def execBra (h : Hd) (lit : Word) (s : State) : Outcome :=
  .next (s.packet h .none false (fun t s _ _ =>
    if lit.toNat % 4 ≠ 0 then s.raiseCur t 0x06 lit.toNat 0 else s.jump h .none t lit))

/-- CALL (R75). Checks a call pad, writes the link register and transfers. -/
def execCall (h : Hd) (d : Field) (lit : Word) (s : State) : Outcome :=
  let sh : Shape := { Shape.none with vd := [d.toNat] }
  .next (s.packet h sh false (fun t s g _ =>
    s.afterPad t (s.checkPad s.cur.g g.core (s.codeBase g) lit 1 none) (fun s =>
      (s.onCur t (fun hm th => th.writeNow hm d.toNat s.cur.at_.after)).jump h sh t lit)))

/-- RET (R75). Returns to a return-point pad at the link address. -/
def execRet (h : Hd) (a : Field) (s : State) : Outcome :=
  let sh : Shape := { Shape.none with vs := [a.toNat] }
  .next (s.packet h sh false (fun t s g th =>
    let target := th.rd (g.inHandler t) a.toNat
    s.afterPad t (s.checkPad s.cur.g g.core (s.codeBase g) target 0 (some 0)) (fun s => s.jump h sh t target)))

/-- One thread at a JTAB: the table's first word, the index, the target and its pad, in the order of R33; a table offset
that is no multiple of 4, for which R33 names no fault, is fetched where it stands (DESIGN CHOICE, log 88). -/
def State.jtabThread (s : State) (h : Hd) (sh : Shape) (table : Word) (t : Nat) (g : Group) (index : Word) : State :=
  let base := s.codeBase g
  match s.fetch s.cur.g g.core base table.toNat with
  | (s, .hold) => s.hold s.cur.g t
  | (s, .bad c a d) => s.raiseCur t c a d
  | (s, .word w0) =>
    let n := if bitsOf w0.toNat 11 0 = 0 then 4096 else bitsOf w0.toNat 11 0
    let label := bitsOf w0.toNat 31 20
    if bitsOf w0.toNat 19 12 ≠ 0 ∨ label = 0 then s.raiseCur t 0x04 table.toNat 0
    else if n ≤ index.toNat then s.raiseCur t 0x04 table.toNat index.toNat
    else
      match s.fetch s.cur.g g.core base (table.toNat + 4 * (index.toNat + 1)) with
      | (s, .hold) => s.hold s.cur.g t
      | (s, .bad c a d) => s.raiseCur t c a d
      | (s, .word target) =>
        s.afterPad t (s.checkPad s.cur.g g.core base target 0 (some label)) (fun s => s.jump h sh t target)

/-- JTAB (R33). Transfers through a checked jump table to a jump pad. -/
def execJtab (h : Hd) (a : Field) (lit : Word) (s : State) : Outcome :=
  let sh : Shape := { Shape.none with vs := [a.toNat] }
  .next (s.packet h sh false (fun t s g th => s.jtabThread h sh lit t g (th.rd (g.inHandler t) a.toNat)))

/-- LPAD (R31). Marks a landing pad and has no effect. -/
def execLpad (h : Hd) (_ : BitVec 2) (_ : BitVec 12) (s : State) : Outcome :=
  .next (s.packet h .none false (fun t s _ _ => s.done h .none t))

/-! ## Spawning (R76, R77, R281 to R283) -/

/-- The operands of a SPAWN or SPAWNB: its status predicate (none for SPAWNB), N, VP, SJ, H and the entry. -/
structure SpawnOps where
  status : Option Nat
  n : Nat
  vp : Nat
  sj : Nat
  hashed : Bool
  entry : Word
  deriving DecidableEq, Repr

/-- The registers of a spawning word. -/
def SpawnOps.shape (o : SpawnOps) : Shape :=
  { Shape.none with
    vs := (upTo (o.n + (if o.hashed then 1 else 0))).map (o.vp + ·)
    us := [o.sj, o.sj + 1]
    pd := o.status.toList }

/-- The record that a thread builds (R77 step 4, R281, R282). -/
def SpawnOps.record (o : SpawnOps) (s : State) (g : Group) (gid t : Nat) (hm : Bool) (th : Thread) (j : Dword) :
    SpawnRec where
  lseq := g.lseq
  entry := o.entry
  payload := (upTo 4).map (fun i => if i < o.n then th.rd hm (o.vp + i) else 0)
  join := j
  prio := (s.launchOf g).elim 0 (·.rc.prio)
  n := o.n
  hashed := o.hashed
  core := if o.hashed then (th.rd hm (o.vp + o.n)).toNat / (8 * s.npkg) % 96 else g.core % 96
  home := if o.hashed then (th.rd hm (o.vp + o.n)).toNat % (8 * s.npkg) else 0
  hash := if o.hashed then th.rd hm (o.vp + o.n) else 0
  srcG := gid
  srcT := t
  srcCore := g.core
  status := o.status
  seq := (s.core g.core).recSeq
  place := .routing
  born := s.fresh
  die := g.die
  spilt := false
  again := false
  mate := none
  bound := none

/-- One thread at a SPAWN or SPAWNB: the checks, the release, the record; the thread waits until the record's target
die has placed or refused it (R77, R282). -/
def State.spawnThread (s : State) (h : Hd) (o : SpawnOps) (t : Nat) (g : Group) (th : Thread) : State :=
  let hm := g.inHandler t
  s.afterPad t (s.checkPad s.cur.g g.core (s.codeBase g) o.entry 2 none) (fun s =>
    let j := g.rsN o.sj 2
    if j % 8 ≠ 0 then s.raiseCur t 0x06 0 0
    else
      let r := o.record s g s.cur.g t hm th (BitVec.ofNat 64 j)
      let far := o.hashed && r.home / 8 != g.die / 4
      match s.releaseAt s.cur.g [t] (if far then 4 else 1) with
      | none => (s.releaseWait s.cur.g [t] (if far then 4 else 1)).hold s.cur.g t
      | some s =>
        let id := s.fresh
        let s := { s with recs := s.recs.put id { r with born := id } }.tick
        let s := s.onCore g.core (fun c => { c with recSeq := c.recSeq + 1 })
        let s := if far then s.packetOut (.record id) (g.die / 4) (unitTag g.core) r.seq (PkgPlace.die (4 * (r.home / 8) + (s.stack r.home).owner)) 32 else s
        s.onThread s.cur.g t (fun th => { th with
          place := .waiting (.spawn id) s.cur.at_ h ⟨th.wd, s.now g.core⟩ o.shape.dead }))

/-- SPAWN (R77). Builds a spawn record and writes whether it was placed. -/
def execSpawn (h : Hd) (ps n : BitVec 3) (vp sj : Field) (hh : Bool) (lit : Word) (s : State) : Outcome :=
  let o : SpawnOps := ⟨some ps.toNat, n.toNat, vp.toNat, sj.toNat, hh, lit⟩
  .next (s.packet h o.shape false (fun t s g th => s.spawnThread h o t g th))

/-- SPAWNB (R77). Builds a spawn record and waits until it is placed. -/
def execSpawnb (h : Hd) (n : BitVec 3) (vp sj : Field) (hh : Bool) (lit : Word) (s : State) : Outcome :=
  let o : SpawnOps := ⟨none, n.toNat, vp.toNat, sj.toNat, hh, lit⟩
  .next (s.packet h o.shape false (fun t s g th => s.spawnThread h o t g th))

/-! ## Exits (R78, R79) -/

/-- A signing of the group that is complete executes its word: after threads have left (R60, R344). -/
def State.completeAll (s : State) (g : Nat) : State :=
  (upTo 8).foldl (fun s c => s.completeSigning runOnce g c) s

/-- The return from an exception (R153, R344), with the signings that it completes. -/
def State.tryTrapReturn (s : State) (g : Nat) : State := (s.trapReturn g).completeAll g

/-- Thread t of the present group ends: its word retires, it leaves every convergence register, and the last thread
ends the group (R78). -/
def State.exitThread (s : State) (h : Hd) (t : Nat) : State :=
  let g := s.cur.g
  let pc := s.cur.at_.pc
  let s := s.done h .none t
  let s := s.onGroup g (fun gr => { gr with
    threads := gr.threads.del t
    exitPc := pc
    handler := gr.handler.map (fun x => { x with entering := x.entering.filter (· ≠ t) }) })
  match s.groups.get? g with
  | none => s
  | some gr =>
    if gr.threads.isEmpty then s.exitGroup g pc
    else
      let s := s.leaveConv runOnce g t
      if gr.handling then s.tryTrapReturn g else s

/-- The present thread waits in EXIT or EXITJ (R78, R79). -/
def State.waitExit (s : State) (h : Hd) (t : Nat) (join : Bool) : State :=
  s.onThread s.cur.g t (fun th => { th with place := .waiting (.exit join) s.cur.at_ h ⟨0, 0⟩ [] })

/-- EXIT (R78). Ends the thread once its tokens are zero. -/
def execExit (h : Hd) (s : State) : Outcome :=
  .next (s.packet h .none false (fun t s _ th =>
    if !th.quiet then s.waitExit h t false else s.exitThread h t))

/-- EXITJ's atomic add of -1 at join address j by thread t (R79): the fault, none while it must wait, or the state
after the add. -/
def State.joinAdd (s : State) (g : Group) (t j : Nat) : State × Option (Option (Nat × Nat)) :=
  match s.releaseAt s.cur.g [t] 4 with
  | none => (s.releaseWait s.cur.g [t] 4, none)
  | some s =>
    match s.reach (some (.thread s.cur.g t)) g.core (BitVec.ofNat 64 j) .atomic with
    | (s, .hold) => (s, none)
    | (s, .bad c d) => (s, some (some (c, d)))
    | (s, .ok pa _) =>
      if s.stackLost pa then (s, some (some (0x60, s.lostDetail g.die pa)))
      else if !s.settled g.die pa then (s.sendLine g.die (pa / 64), none)
      else
        match s.rmw g.core pa 8 true (fun x => (x + (2 ^ 64 - 1)) % 2 ^ 64) with
        | (s, _, true) => (s, some (some (0x31, 0)))
        | (s, _, false) => (s, some none)

/-- EXITJ of thread t, its tokens at zero: the add at the record's join address, then the thread ends (R79). -/
def State.exitJoin (s : State) (h : Hd) (t : Nat) (g : Group) (th : Thread) : State :=
  if g.team.isSome ∨ th.join = 0 then s.exitThread h t
  else
    match s.joinAdd g t th.join.toNat with
    | (s, none) => s.waitExit h t true
    | (s, some (some (c, d))) => s.raiseSeq t c th.join.toNat d (th.seq + 1)
    | (s, some none) => s.exitThread h t

/-- EXITJ (R79). Ends the thread after decrementing its record's join counter. -/
def execExitj (h : Hd) (s : State) : Outcome :=
  .next (s.packet h .none false (fun t s g th =>
    if !th.quiet then s.waitExit h t true else s.exitJoin h t g th))

/-- The threads of a group whose token wait in EXIT or EXITJ is over end at the group's slot (R78, R79). -/
def State.exitDue (s : State) (g : Nat) : State :=
  match s.groups.get? g with
  | none => s
  | some gr =>
    gr.exits.foldl (fun s e =>
      match s.groups.get? g with
      | none => s
      | some gr =>
        match Tbl.get? gr.threads e.1 with
        | none => s
        | some th =>
          if gr.mayIssue then
            let s := { s with cur := ⟨g, [e.1], e.2.2.1⟩ }
            if e.2.1 then s.exitJoin e.2.2.2 e.1 gr th else s.exitThread e.2.2.2 e.1
          else s) s

/-! ## Joins (R80, R81) -/

/-- What reading a join counter answers. -/
inductive JoinRead where
  | zero
  | more
  | fault (code detail : Nat)
  deriving DecidableEq, Repr

/-- Read the join counter at a virtual address for thread t of group g, at rack scope (R80). -/
def State.readJoin (s : State) (gid : Nat) (g : Group) (t a : Nat) : State × JoinRead :=
  match s.reach (some (.thread gid t)) g.core (BitVec.ofNat 64 a) .read with
  | (s, .hold) => (s, .more)
  | (s, .bad c d) => (s, .fault c d)
  | (s, .ok pa e) =>
    if s.stackLost pa then (s, .fault 0x60 (s.lostDetail g.die pa))
    else
      let s := if s.homeDie pa ≠ g.die then s.writeBackLine g.die (pa / 64) else s
      if !s.settled g.die pa then (s.sendLine g.die (pa / 64), .more)
      else match if e.uc then s.ucRead pa 8 else s.homeRead pa 8 with
      | (_, true) => (s, .fault 0x31 0)
      | (b, false) =>
        if bytesToNat b ≠ 0 then (s, .more)
        else if s.mayAcquire g.core 4 then (s, .zero) else (s.sendLines g.die, .more)

/-- JOINW (R80). Waits until a join counter reads zero, then acquires at rack scope. -/
def execJoinw (h : Hd) (a : Field) (s : State) : Outcome :=
  let sh : Shape := { Shape.none with us := regs a 2 }
  .next (s.packet h sh false (fun t s g _ =>
    let x := g.rsN a.toNat 2
    if x % 8 ≠ 0 then s.raiseCur t 0x06 0 0
    else
      match s.readJoin s.cur.g g t x with
      | (s, .fault c d) => s.raiseCur t c x d
      | (s, .zero) => (s.acquireAt g.core 4).done h sh t
      | (s, .more) => s.onThread s.cur.g t (fun th => { th with
          place := .waiting (.join (BitVec.ofNat 64 x)) s.cur.at_ h ⟨th.wd, s.now g.core⟩ [] })))

/-! ## The remaining forms (R82) -/

/-- YIELD (R82). Asks for the group to be swapped out at its next slot. -/
def execYield (h : Hd) (s : State) : Outcome :=
  .next (s.packet h .none false (fun t s g _ =>
    let s := if (s.nextPending g.core g.quad).isSome then s.onGroup s.cur.g (fun g => { g with yielded := true }) else s
    s.done h .none t))

/-- TRAP (R82). Raises fault 0x50 with a code. -/
def execTrap (h : Hd) (code : BitVec 21) (s : State) : Outcome :=
  .next (s.packet h .none false (fun t s _ _ => s.raiseCur t 0x50 0 code.toNat))

/-- BKPT (R82). Raises fault 0x51 with a code. -/
def execBkpt (h : Hd) (code : BitVec 21) (s : State) : Outcome :=
  .next (s.packet h .none false (fun t s _ _ => s.raiseCur t 0x51 0 code.toNat))

/-- NOP (R82). Has no effect. -/
def execNop (h : Hd) (s : State) : Outcome :=
  .next (s.packet h .none false (fun t s _ _ => s.done h .none t))

end Sys2Proof.Machine
end

