-- ==== Sys2Proof/Machine/Memory.lean ====
section
/-! DEFINITION. The memory forms of class 2 as they issue (R105 to R124): the operands of each form, the checks of
R107 in their order, the requests that a packet sends, and the page order of atomics. -/

namespace Sys2Proof.Machine

/-! ## What a lane asks for -/

/-- The request of one thread of a memory word. -/
structure MemOp where
  kind : ReqKind
  /-- The kind of its translation; none in the scratchpad and for fences. -/
  tr : Option Acc
  sp : Bool
  ea : Nat
  size : Nat
  align : Nat
  m : Nat
  m2 : Nat
  d : Nat
  scope : Nat
  deriving DecidableEq, Repr

/-- A lane of a memory word that takes part. -/
structure Lane where
  t : Nat
  op : MemOp
  deriving DecidableEq, Repr

/-- What the checks of a lane before its translation find: a fault with its code, address and detail (R107, R116). -/
def MemOp.early (op : MemOp) (alloc : Nat) : Option (Nat × Nat × Nat) :=
  if (op.kind == .seal || op.kind == .unseal) && (op.ea % 4096 != 0 || op.m2 % 4096 != 0 || decide (2 ^ 48 < op.m2)) then
    some (0x06, 0, op.m2)
  else if op.ea % op.align ≠ 0 then some (0x06, 0, 0)
  else if op.sp && decide (alloc < op.ea + op.size) then some (0x14, max op.ea alloc, alloc)
  else none

/-- The form checks of step 3 that are made at issue: PUTQ's length and source (R107, R122, R352). -/
def MemOp.late (op : MemOp) (alloc : Nat) : Option (Nat × Nat × Nat) :=
  match op.kind with
  | .putq =>
    if op.m = 0 ∨ 32768 < op.m then some (0x15, op.ea, 2)
    else if alloc < op.m2 + op.m then some (0x14, op.m2, alloc)
    else none
  | _ => none

/-- A word of a kind of request is a blocking word (R109). -/
def ReqKind.blocking : ReqKind → Bool
  | .seal | .unseal | .rclaim | .rcommit | .rawait | .rretire | .putq => true
  | _ => false

/-- A kind of request carries a write, a ring form among them (R255). -/
def ReqKind.carries : ReqKind → Bool
  | .load | .fence | .sfence | .pref | .seal | .unseal => false
  | _ => true

/-! ## Issuing lanes -/

/-- Where a packet of memory requests stands: the word's number, the place of the next lane, the lanes whose effect is
under way, and whether a page has faulted or waits (R113). -/
structure MemRun where
  word : Nat
  ord : Nat
  done : List Nat
  faulted : Bool
  held : Bool
  deriving DecidableEq, Repr

/-- The request of a lane with its translation. -/
def State.makeReq (s : State) (h : Hd) (acc : Word) (run : MemRun) (l : Lane) (pa : Nat) (e : Option TlbEntry)
    (sh : Shape) (g : Group) (th : Thread) : Req where
  g := s.cur.g
  t := l.t
  lseq := g.lseq
  team := g.team
  core := g.core
  kind := l.op.kind
  sp := l.op.sp
  ea := l.op.ea
  pa := pa
  size := l.op.size
  m := l.op.m
  m2 := l.op.m2
  d := l.op.d
  order := Access.order acc
  scope := l.op.scope
  ms := Access.ms acc || e.elim false (·.ms)
  nt := Access.nt acc
  uc := e.elim false (·.uc)
  far := false
  accepted := false
  lost := false
  nth := th.words + 1
  tok := s.cur.at_.tok
  seq := if l.op.kind.carries then th.seq + 1 else 0
  died := if s.cur.at_.dead then (sh.dead.filter (fun n => (Tbl.get? th.v n).isSome)).map (fun n =>
    (n, th.rd (g.inHandler l.t) n)) else []
  word := run.word
  ord := run.ord
  stage := .issued
  at_ := s.cur.at_
  hd := h

/-- Send a request: it enters the table, the token rises, a request that leaves the package becomes a packet, and the
thread goes on, or waits in a blocking word (R28, R109, R214, R363, R368). -/
def State.send (s : State) (h : Hd) (sh : Shape) (r : Req) : State :=
  let id := s.fresh
  let owed := r.dests.map (fun n => (⟨.vec, n, r.tok⟩ : Owed))
  let s := { s with reqs := s.reqs.put id r, fresh := s.fresh + 1 }
  let s := s.onThread r.g r.t (fun th => { th.setToken r.tok (th.token r.tok + 1) with
    owed := th.owed ++ owed, seq := if r.kind.carries then r.seq else th.seq })
  let s := if s.needsHome r then s.sendOut id else s
  if r.blocking then
    s.onThread r.g r.t (fun th => { th with
      place := .waiting (.request id) s.cur.at_ h ⟨th.wd, s.now r.core⟩ sh.dead })
  else s.done h sh r.t

/-- Issue a lane with its translation: step 3 of R107, and the request; a SEAL or UNSEAL of length 0 completes with no
effect (R116). -/
def State.sendLane (s : State) (h : Hd) (acc : Word) (sh : Shape) (run : MemRun) (l : Lane) (pa : Nat)
    (e : Option TlbEntry) : State × MemRun :=
  match s.groups.get? s.cur.g with
  | none => (s, run)
  | some g =>
    match Tbl.get? g.threads l.t with
    | none => (s, run)
    | some th =>
      match l.op.late (s.scratchSize g) with
      | some (c, a, d) => (s.raiseCur l.t c a d, run)
      | none =>
        if (l.op.kind == .seal || l.op.kind == .unseal) && l.op.m2 == 0 then (s.done h sh l.t, run)
        else
          let r := s.makeReq h acc run l pa e sh g th
          (s.send h sh r, { run with ord := run.ord + 1, done := if r.blocking then run.done else run.done ++ [l.t] })

/-- Raise a fault of a lane's translation: the record carries the number of a write-carrying request (R255, R336). -/
def State.raiseLane (s : State) (l : Lane) (code addr detail : Nat) : State :=
  let seq := match (s.groups.get? s.cur.g).bind (fun g => Tbl.get? g.threads l.t) with
    | some th => if l.op.kind.carries then th.seq + 1 else 0
    | none => 0
  s.raiseSeq l.t code addr detail seq

/-- A PREF that is dropped: it is accepted, and names no line (R118). -/
def Lane.dropped (l : Lane) : Lane := { l with op := { l.op with size := 0 } }

/-- Issue one lane that goes alone for core k: translate, then send; a PREF whose translation faults or waits is dropped
(R107, R110, R118). -/
def State.issueLane (s : State) (k : Nat) (h : Hd) (acc : Word) (sh : Shape) (run : MemRun) (l : Lane) :
    State × MemRun :=
  match l.op.tr with
  | none => s.sendLane h acc sh run l 0 none
  | some a =>
    match s.translate k (BitVec.ofNat 64 l.op.ea) a with
    | (s, .ok pa e) =>
      if s.stackLost pa && l.op.kind != .pref then (s.raiseLane l 0x60 pa (s.lostDetail (k / 96) pa), run)
      else s.sendLane h acc sh run l pa (some e)
    | (s', .hold) =>
      if l.op.kind = .pref then s.sendLane h acc sh run l.dropped 0 none else (s'.hold s.cur.g l.t, run)
    | (s', .bad c d) =>
      if l.op.kind = .pref then s.sendLane h acc sh run l.dropped 0 none else (s'.raiseLane l c l.op.ea d, run)

/-- Issue lanes one after another. -/
def State.issueLanes (k : Nat) (h : Hd) (acc : Word) (sh : Shape) : List Lane → State × MemRun → State × MemRun
  | [], a => a
  | l :: rest, (s, run) => State.issueLanes k h acc sh rest (s.issueLane k h acc sh run l)

/-- Threads of some lanes stay at the word; where a page of the word has faulted, until the group runs again: the slot
that the group still has does not take them (R113, R340). -/
def State.keep (s : State) (ls : List Lane) (faulted : Bool) : State :=
  ls.foldl (fun s l => (s.hold s.cur.g l.t).onThread s.cur.g l.t (fun th =>
    { th with demand := if faulted then 2 else th.demand })) s

/-- Issue the lanes of an atomic word that lie on one page: they wait behind a page that waits; the first page whose
translation faults raises for its lowest thread, and the others stay at the word (R113, R313). -/
def State.issuePage (s : State) (k : Nat) (h : Hd) (acc : Word) (sh : Shape) (run : MemRun) (ls : List Lane) :
    State × MemRun :=
  match ls with
  | [] => (s, run)
  | l :: rest =>
    if run.held then (s.keep ls run.faulted, run)
    else
      match s.translate k (BitVec.ofNat 64 l.op.ea) .atomic with
      | (s, .hold) => (s.keep ls run.faulted, { run with held := true })
      | (s, .bad c d) =>
        if run.faulted then (s.keep ls true, run)
        else ((s.keep rest true).raiseLane l c l.op.ea d, { run with faulted := true })
      | (s, .ok _ _) => State.issueLanes k h acc sh ls (s, run)

/-- Issue pages one after another. -/
def State.issuePages (k : Nat) (h : Hd) (acc : Word) (sh : Shape) : List (List Lane) → State × MemRun → State × MemRun
  | [], a => a
  | ls :: rest, (s, run) => State.issuePages k h acc sh rest (s.issuePage k h acc sh run ls)

/-- The page that a lane lies on: its translation's; or the 4 KiB page of an address that has none, or that is sealed
inside a larger page, which its translation refuses. -/
def State.lanePage (s : State) (k : Nat) (l : Lane) : Nat × Bool :=
  match (s.translate k (BitVec.ofNat 64 l.op.ea) .atomic).2 with
  | .ok _ e => (e.va, true)
  | _ => (l.op.ea / 4096 * 4096, false)

/-- The lanes by page, pages in the order of the lowest lane that lies on each (R113). -/
def State.pagesOf (s : State) (k : Nat) (ls : List Lane) : List (List Lane) :=
  let keyed := ls.map (fun l => (s.lanePage k l, l))
  ((keyed.map (·.1)).reverse.dedup.reverse).map (fun p => (keyed.filter (fun e => e.1 = p)).map (·.2))

/-! ## A memory word -/

/-- The threads of the packet that take part, those that raise and those that do not take part, before any address is
formed (R21, R30, R71, R229). -/
def State.lanes (h : Hd) (sh : Shape) (mk : Group → Bool → Thread → MemOp) : List Nat → State × List Lane →
    State × List Lane
  | [], a => a
  | t :: rest, (s, ls) =>
    match s.front h sh false t with
    | .gone => State.lanes h sh mk rest (s, ls)
    | .skip => State.lanes h sh mk rest (s.retire s.cur.g t h s.cur.at_ sh.dead, ls)
    | .fault c d => State.lanes h sh mk rest (s.raiseCur t c 0 d, ls)
    | .run g th =>
      let op := mk g (g.inHandler t) th
      match op.early (s.scratchSize g) with
      | some (c, a, d) => State.lanes h sh mk rest (s.raiseCur t c a d, ls)
      | none => State.lanes h sh mk rest (s, ls ++ [⟨t, op⟩])

/-- Requests outstanding on a core: a store only until L1 has accepted it (R214). -/
def State.outstanding (s : State) (k : Nat) : Nat := (s.reqs.filter (fun e => e.2.core = k && !e.2.accepted)).length

/-- The packet's records in ascending thread index (R337). -/
def State.sortRecords (s : State) (n : Nat) : State :=
  s.onGroup s.cur.g (fun g => { g with
    faults := g.faults.take n ++ (g.faults.drop n).sortBy (fun a b => a.thread ≤ b.thread) })

/-- A packet at a memory word: each lane is checked, translated and sent, an atomic in global memory page by page (R107,
R113). -/
def State.memory (s : State) (h : Hd) (acc : Word) (sh : Shape) (mk : Group → Bool → Thread → MemOp) : State :=
  match s.groups.get? s.cur.g with
  | none => s
  | some g =>
    let n := s.faultCount
    let (s, ls) := State.lanes h sh mk s.cur.tids (s.scrub sh, [])
    let run : MemRun := ⟨s.fresh, 0, [], false, false⟩
    let paged := ls.any (fun l => l.op.tr.isSome && (match l.op.kind with
      | .atomic _ => true
      | _ => false))
    let (s, run) := if paged then State.issuePages g.core h acc sh (s.pagesOf g.core ls) (s.tick, run)
      else State.issueLanes g.core h acc sh ls (s.tick, run)
    (s.sortRecords n).markApplied n run.done

/-! ## Loads and stores (R110) -/

/-- The translation of an access that may name the scratchpad. -/
def trOf (acc : Word) (k : Acc) : Option Acc := if Access.sp acc then none else some k

/-- A load or store of the access word's width at an effective address. -/
def lsOp (kind : ReqKind) (k : Acc) (acc : Word) (ea m d : Nat) : MemOp :=
  ⟨kind, trOf acc k, Access.sp acc, ea, widthBytes acc, widthBytes acc, m, 0, d, Access.scope acc⟩

/-- LD (R110). Loads from a per-thread address in global memory or scratchpad. -/
def execLd (h : Hd) (d a : Field) (acc : Word) (s : State) : Outcome :=
  .next (s.memory h acc { Shape.none with vs := baseRegs a acc, vd := regs d (widthRegs acc) }
    (fun _ hm th => lsOp .load .read acc (vectorEa hm th a acc) 0 d.toNat))

/-- LDX (R110). Loads from a uniform base plus a per-thread index. -/
def execLdx (h : Hd) (d a b : Field) (acc : Word) (s : State) : Outcome :=
  .next (s.memory h acc { Shape.none with vs := [b.toNat], us := ubaseRegs a acc, vd := regs d (widthRegs acc) }
    (fun g hm th => lsOp .load .read acc (uniformEa g hm th a b acc) 0 d.toNat))

/-- ST (R110). Stores to a per-thread address. -/
def execSt (h : Hd) (d a : Field) (acc : Word) (s : State) : Outcome :=
  .next (s.memory h acc { Shape.none with vs := regs d (widthRegs acc) ++ baseRegs a acc }
    (fun _ hm th => lsOp .store .write acc (vectorEa hm th a acc)
      (th.rdN hm d.toNat (widthRegs acc) % 2 ^ (8 * widthBytes acc)) 0))

/-- STX (R110). Stores to a uniform base plus a per-thread index. -/
def execStx (h : Hd) (d a b : Field) (acc : Word) (s : State) : Outcome :=
  .next (s.memory h acc { Shape.none with vs := regs d (widthRegs acc) ++ [b.toNat], us := ubaseRegs a acc }
    (fun g hm th => lsOp .store .write acc (uniformEa g hm th a b acc)
      (th.rdN hm d.toNat (widthRegs acc) % 2 ^ (8 * widthBytes acc)) 0))

/-! ## Atomics (R111 to R113) -/

/-- An atomic word of one operand. -/
def State.atomic (s : State) (h : Hd) (op : AtomOp) (d a b : Field) (acc : Word) : State :=
  let n := widthRegs acc
  s.memory h acc { Shape.none with vs := baseRegs a acc ++ regs b n, vd := regs d n }
    (fun _ hm th => lsOp (.atomic op) .atomic acc (vectorEa hm th a acc) (th.rdN hm b.toNat n) d.toNat)

/-- ATOMADD (R111). Atomic add returning the old value. -/
def execAtomadd (h : Hd) (d a b : Field) (acc : Word) (s : State) : Outcome := .next (s.atomic h .add d a b acc)
/-- ATOMFADD (R111). Atomic FP32 add returning the old value. -/
def execAtomfadd (h : Hd) (d a b : Field) (acc : Word) (s : State) : Outcome := .next (s.atomic h .fadd d a b acc)
/-- ATOMMIN (R111). Atomic signed minimum. -/
def execAtommin (h : Hd) (d a b : Field) (acc : Word) (s : State) : Outcome := .next (s.atomic h .min d a b acc)
/-- ATOMMAX (R111). Atomic signed maximum. -/
def execAtommax (h : Hd) (d a b : Field) (acc : Word) (s : State) : Outcome := .next (s.atomic h .max d a b acc)
/-- ATOMMINN (R111). Atomic natural minimum. -/
def execAtomminn (h : Hd) (d a b : Field) (acc : Word) (s : State) : Outcome := .next (s.atomic h .minn d a b acc)
/-- ATOMMAXN (R111). Atomic natural maximum. -/
def execAtommaxn (h : Hd) (d a b : Field) (acc : Word) (s : State) : Outcome := .next (s.atomic h .maxn d a b acc)
/-- ATOMAND (R111). Atomic AND. -/
def execAtomand (h : Hd) (d a b : Field) (acc : Word) (s : State) : Outcome := .next (s.atomic h .and d a b acc)
/-- ATOMOR (R111). Atomic OR. -/
def execAtomor (h : Hd) (d a b : Field) (acc : Word) (s : State) : Outcome := .next (s.atomic h .or d a b acc)
/-- ATOMXOR (R111). Atomic XOR. -/
def execAtomxor (h : Hd) (d a b : Field) (acc : Word) (s : State) : Outcome := .next (s.atomic h .xor d a b acc)
/-- ATOMXCHG (R111). Atomic exchange. -/
def execAtomxchg (h : Hd) (d a b : Field) (acc : Word) (s : State) : Outcome := .next (s.atomic h .xchg d a b acc)
/-- ATOMCAS (R111). Atomic compare-and-swap: the first operand is compared, the second written. -/
def execAtomcas (h : Hd) (d a b : Field) (acc : Word) (s : State) : Outcome :=
  let n := widthRegs acc
  .next (s.memory h acc { Shape.none with vs := baseRegs a acc ++ regs b (2 * n), vd := regs d n }
    (fun _ hm th => { lsOp (.atomic .cas) .atomic acc (vectorEa hm th a acc) (th.rdN hm b.toNat n) d.toNat with
      m2 := th.rdN hm (b.toNat + n) n }))

/-! ## Fences, seals and prefetch (R114 to R118) -/

/-- A form with no address. -/
def fenceOp (kind : ReqKind) (scope : Nat) : MemOp := ⟨kind, none, false, 0, 1, 1, 0, 0, 0, scope⟩

/-- FENCE (R114). Orders the thread's memory words at a scope with acquire, release or sequential consistency. -/
def execFence (h : Hd) (acc : Word) (s : State) : Outcome :=
  .next (s.memory h acc .none (fun _ _ _ => fenceOp .fence (Access.scope acc)))

/-- SFENCE (R115). Waits for earlier scratchpad stores and advances the team's operand-cache generation. -/
def execSfence (h : Hd) (acc : Word) (s : State) : Outcome :=
  .next (s.memory h acc .none (fun _ _ _ => fenceOp .sfence 0))

/-- A SEAL or UNSEAL: the right comes before every check but the field checks, then the shape of the region (R116). -/
def State.sealWord (s : State) (h : Hd) (kind : ReqKind) (a b : Field) (acc : Word) : State :=
  let sh : Shape := { Shape.none with vs := regs a 2 ++ regs b 2 }
  if (s.groups.get? s.cur.g).elim true (fun g => s.right g 1) then
    s.memory h acc sh (fun _ hm th => ⟨kind, none, false, vectorEa hm th a acc, 1, 1, 0, th.rdN hm b.toNat 2, 0, 4⟩)
  else s.denied h sh

/-- SEAL (R117). Seals a region page by page against writes. -/
def execSeal (h : Hd) (a b : Field) (acc : Word) (s : State) : Outcome := .next (s.sealWord h .seal a b acc)

/-- UNSEAL (R117). Unseals a region page by page. -/
def execUnseal (h : Hd) (a b : Field) (acc : Word) (s : State) : Outcome := .next (s.sealWord h .unseal a b acc)

/-- PREF (R118). Requests a line into L1 or the die's L2. -/
def execPref (h : Hd) (d a : Field) (acc : Word) (s : State) : Outcome :=
  .next (s.memory h acc { Shape.none with vs := regs a 2 }
    (fun _ hm th => ⟨.pref, some .read, false, vectorEa hm th a acc, 1, 1, 0, 0, d.toNat, 0⟩))

/-! ## Ring forms and PUTQ (R119 to R123) -/

/-- A ring form on the descriptor at an effective address. -/
def ringOp (kind : ReqKind) (k : Acc) (acc : Word) (ea m m2 d : Nat) : MemOp :=
  ⟨kind, some k, false, ea, 128, 128, m, m2, d, Access.scope acc⟩

/-- RCLAIM (R121). Claims granules of a ring, waiting for space. -/
def execRclaim (h : Hd) (d a b : Field) (acc : Word) (s : State) : Outcome :=
  .next (s.memory h acc { Shape.none with vs := [b.toNat], us := regs a 2, vd := regs d 2 }
    (fun g hm th => ringOp .rclaim .atomic acc (ringEa g a acc) (th.rd hm b.toNat).toNat 0 d.toNat))

/-- RCOMMIT (R121). Commits claimed granules and advances TAIL over contiguous commits. -/
def execRcommit (h : Hd) (d a b : Field) (acc : Word) (s : State) : Outcome :=
  .next (s.memory h acc { Shape.none with vs := regs d 2 ++ [b.toNat], us := regs a 2 }
    (fun g hm th => ringOp .rcommit .atomic acc (ringEa g a acc) (th.rd hm b.toNat).toNat (th.rdN hm d.toNat 2) 0))

/-- RAWAIT (R121). Waits until n granules are visible and returns HEAD. -/
def execRawait (h : Hd) (d a b : Field) (acc : Word) (s : State) : Outcome :=
  .next (s.memory h acc { Shape.none with vs := [b.toNat], us := regs a 2, vd := regs d 2 }
    (fun g hm th => ringOp .rawait .read acc (ringEa g a acc) (th.rd hm b.toNat).toNat 0 d.toNat))

/-- RRETIRE (R121). Retires n visible granules by advancing HEAD. -/
def execRretire (h : Hd) (a b : Field) (acc : Word) (s : State) : Outcome :=
  .next (s.memory h acc { Shape.none with vs := [b.toNat], us := regs a 2 }
    (fun g hm th => ringOp .rretire .atomic acc (ringEa g a acc) (th.rd hm b.toNat).toNat 0 0))

/-- PUTQ (R122). Claims ring space, places scratchpad bytes and commits them. -/
def execPutq (h : Hd) (d a b : Field) (acc : Word) (s : State) : Outcome :=
  .next (s.memory h acc { Shape.none with vs := [d.toNat, b.toNat], us := regs a 2 }
    (fun g hm th => ringOp .putq .atomic acc (ringEa g a acc) (th.rd hm b.toNat).toNat (th.rd hm d.toNat).toNat 0))

end Sys2Proof.Machine
end

