-- ==== Sys2Proof/Machine/EngineRun.lean ====
section
/-! DEFINITION. Running engine jobs (R142 to R146, R266, R269, R272 to R275, R371 to R375): their records and faults,
the requests of copies, gathers and scatters, collectives, and completion. -/

namespace Sys2Proof.Machine

/-! ## Records and faults of a job (R146) -/

/-- The group that a job's record names: the issuing group, else the lowest-numbered live group of its team. -/
def State.jobGroup (s : State) (j : Job) : Option (Nat × Group) :=
  match s.groups.get? j.g with
  | some g => some (j.g, g)
  | none =>
    match j.team with
    | none => none
    | some t => ((s.teamGroups t).sortBy (fun a b => a.2.gix ≤ b.2.gix)).head?

/-- A job's record; its thread and PC are filled when it is written (R146). -/
def jobRec (code addr id seq : Nat) : FaultRec :=
  ⟨code, true, false, 0, Pc.zero, BitVec.ofNat 64 addr, BitVec.ofNat 32 id, 0, BitVec.ofNat 64 seq, Pc.zero, false, false, 0, 0⟩

/-- The words of the record of a job whose groups have all left. -/
def State.orphanRecord (s : State) (key : Nat) (j : Job) (code addr seq : Nat) : List Word :=
  recordWords ((j.team.bind (s.teams.get? ·)).elim 0xFFFFFFFF (·.tix)) j.lseq j.gix (coreWord (jobCore key)) none
    (jobRec code addr (j.ident key) seq)

/-- Drop every L1 copy of a die and every remote line, dirty bytes first written back (R266). -/
def State.purgeDie (s : State) (x : Nat) : State :=
  let s := s.acquireLines x true
  { s with cores := s.cores.map (fun (e : Nat × Core) => if e.1 / 96 = x then (e.1, { e.2 with l1 := [] }) else e) }

/-- The die that holds the barriers of a job's team: that of its team core 0 (R270). -/
def State.barDie (s : State) (key : Nat) (j : Job) : Nat :=
  (j.team.bind (s.teams.get? ·)).elim (jobCore key / 96) (fun tm => tm.cores.getD 0 0 / 96)

/-- The byte arrival of a job that ends, after the invalidation on the barrier's die, in the order of its job-table entry and
then of its core (R266, R270; the core's place is DESIGN CHOICE, log 100); none while a dirty line of that die waits for its
home. -/
def State.jobArrives (s : State) (key : Nat) (j : Job) (st : JobState) : Option State :=
  match j.team, j.barrier with
  | some t, some b =>
    if s.flushOpen (s.barDie key j) then
      some (((s.purgeDie (s.barDie key j)).endJob key st).arriveAt t ⟨b, some j.bytes, 2 ^ 16 * (key % 32) + key / 32⟩)
    else none
  | _, _ => some (s.endJob key st)

/-- Raise the code of a failed job against the group that its record names; none while the record of a job without a
live group has no room (R146, R337). -/
def State.raiseJob (s : State) (key : Nat) (j : Job) (f : Failing) : Option State :=
  match s.jobGroup j with
  | some (g, gr) => some (s.onGroup g (fun x => { x with
      faults := x.faults ++ [(jobRec f.code f.addr (j.ident key) f.seq).against gr]
      faultAt := if x.stop = .none then s.ticks else x.faultAt
      stop := if x.stop ≠ .none then x.stop else if x.residence = .resident ∧ x.halted = false then .last else .stopped }))
  | none => s.appendRecord j.lseq (s.orphanRecord key j f.code f.addr f.seq)

/-- A failing job ends: its bytes arrive at the barrier and the code is raised, together (R146). -/
def State.finishFail (s : State) (key : Nat) : State :=
  match s.jobs.get? key with
  | none => s
  | some j =>
    match j.failing with
    | none => s
    | some f =>
      match (s.onJob key (fun j => { j with fault := f.code })).jobArrives key j .failed with
      | none => s.sendLines (s.barDie key j)
      | some s' => (s'.raiseJob key j f).getD s

/-- A job fails (R146): it stops, and ends as soon as its byte arrival can be applied and its record written. -/
def State.failJob (s : State) (key : Nat) (code addr seq : Nat) : State :=
  (s.onJob key (fun j => { j with failing := some ⟨code, addr, seq⟩ })).finishFail key

/-- A page fault of a job is recorded; none where the area has no room (R146, R337).  Counter 14 counts it, and the
record is the group's most recent one (R154, R157). -/
def State.jobPage (s : State) (key : Nat) (j : Job) (va seq : Nat) : Option State :=
  match s.jobGroup j with
  | some (g, gr) =>
    let r := (jobRec 0x10 va (j.ident key) seq).against gr
    let r := { r.placed gr with written := true }
    (s.appendRecord j.lseq (s.groupRecord gr none r)).map (fun s =>
      (s.count (jobCore key) 14 1).onGroup g (fun x => { x with lastRec := some r }))
  | none => (s.appendRecord j.lseq (s.orphanRecord key j 0x10 va seq)).map (·.count (jobCore key) 14 1)

/-- A job pauses at a page fault and a record is written; it tries again later where the area has no room (R146,
R337). -/
def State.pauseJob (s : State) (key : Nat) (j : Job) (va : Nat) (seq : Nat) : State :=
  match s.jobPage key j va seq with
  | none => s
  | some s => s.onJob key (fun j => { j with paused := some (BitVec.ofNat 64 va), retry := false })

/-- What follows an access of a job that did not succeed: seq is the number of the request, 0 for a read. -/
def State.jobTrouble (s : State) (key : Nat) (r : Access1) (seq : Nat) : State :=
  match s.jobs.get? key with
  | none => s
  | some j =>
    match r with
    | .fault 0x10 va _ => s.pauseJob key j va seq
    | .fault c va _ => s.failJob key c va seq
    | _ => s

/-- Bytes that a job has written (R146, R157). -/
def State.wrote (s : State) (key n : Nat) : State :=
  (s.count (jobCore key) 8 n).onJob key (fun j => { j with bytes := j.bytes + n })

/-- A write of a job did not succeed after n bytes: a failure counts them; a request that is tried again writes them
again. -/
def State.writeTrouble (s : State) (key : Nat) (r : Access1) (seq n : Nat) : State :=
  match r with
  | .fault 0x10 _ _ | .hold | .ok _ => s.jobTrouble key r seq
  | .fault _ _ _ => (s.wrote key n).jobTrouble key r seq

/-! ## Accesses of a job -/

/-- The team and the team core of a core's scratchpad, as a job sees it. -/
def State.jobScratch (s : State) (j : Job) (core : Nat) : Nat × Nat :=
  let t := j.team.getD 0
  (t, (s.teams.get? t).elim 0 (fun tm => tm.cores.findIdx (· = core)))

/-- The scratchpad allocation of a job's team (R352). -/
def State.jobSize (s : State) (j : Job) : Nat := (s.launches.get? j.lseq).elim 0 (fun l => 1024 * l.rc.scratch)

/-- Read n bytes of a job's region. -/
def State.jobRead (s : State) (key : Nat) (j : Job) (sp : Bool) (a n : Nat) : State × Access1 :=
  if sp then
    let (t, q) := s.jobScratch j (jobCore key)
    if s.jobSize j < a + n then (s, .fault 0x14 a 0)
    else
      match s.scratchRead t q a n with
      | (_, true) => (s, .fault 0x31 a 0)
      | (b, false) => (s, .ok b)
  else s.readVa (some (.job key)) (jobCore key) j.scope a n

/-- Write bytes of a job to a core's scratchpad, or to global memory; with the bytes written. -/
def State.jobWrite (s : State) (key : Nat) (j : Job) (sp : Option Nat) (a : Nat) (bytes : List Byte) :
    State × Nat × Access1 :=
  match sp with
  | some core =>
    let (t, q) := s.jobScratch j core
    if s.jobSize j < a + bytes.length then (s, 0, .fault 0x14 a 0)
    else (s.scratchWrite t q a bytes, bytes.length, .ok [])
  | none => s.writeVa (some (.job key)) (jobCore key) j.scope a bytes

/-- The 16 bytes of a unit, none for a poisoned byte, where n bytes from a are wanted: a unit that meets poison is read by
words (R247, R263). -/
def State.readUnit (s : State) (key : Nat) (j : Job) (sp : Bool) (u : Nat) : State × List (Option Byte) × Access1 :=
  match s.jobRead key j sp u 16 with
  | (s, .ok b) => (s, b.map some, .ok b)
  | (s, .fault 0x31 _ _) =>
    (s, (upTo 4).flatMap (fun i => match (s.jobRead key j sp (u + 4 * i) 4).2 with
      | .ok b => b.map some
      | _ => List.replicate 4 none), .ok [])
  | (s, r) => (s, [], r)

/-- Read a unit afresh and keep it, for n bytes of it from a. -/
def State.fillUnit (s : State) (key : Nat) (j : Job) (sp : Bool) (u a n : Nat) : State × Access1 :=
  match s.readUnit key j sp u with
  | (s, b, .ok _) =>
    let w := (b.drop (a - u)).take n
    (s.onJob key (fun j => { j with unit := some (u, b) }), if w.any (·.isNone) then .fault 0x31 a 0 else .ok (w.filterMap id))
  | (s, _, r) => (s, r)

/-- The n bytes of a source that lie in one 16-byte unit, from the unit that the job has read, so that an aligned store of
a thread is seen whole (R263, R266). -/
def State.unitBytes (s : State) (key : Nat) (j : Job) (sp : Bool) (a n : Nat) : State × Access1 :=
  let u := a / 16 * 16
  match j.unit with
  | some (v, b) =>
    if v = u then
      let w := (b.drop (a - u)).take n
      (s, if w.any (·.isNone) then .fault 0x31 a 0 else .ok (w.filterMap id))
    else s.fillUnit key j sp u a n
  | none => s.fillUnit key j sp u a n

/-- Bytes of a source unit by unit; the fuel is n. -/
def State.sourceBytes (key : Nat) (sp : Bool) : Nat → State → Nat → Nat → List Byte → State × Access1
  | 0, s, _, _, acc => (s, .ok acc)
  | f + 1, s, a, n, acc =>
    if n = 0 then (s, .ok acc)
    else
      match s.jobs.get? key with
      | none => (s, .hold)
      | some j =>
        let m := min n (16 - a % 16)
        match s.unitBytes key j sp a m with
        | (s, .ok b) => State.sourceBytes key sp f s (a + m) (n - m) (acc ++ b)
        | (s, r) => (s, r)

/-! ## Copies (R142, R143, R274) -/

/-- The four indexes of element i. -/
def Desc.ix (d : Desc) (i : Nat) : Nat × Nat × Nat × Nat :=
  (i % d.n0, i / d.n0 % d.n1, i / (d.n0 * d.n1) % d.n2, i / (d.n0 * d.n1 * d.n2))

/-- The source address of element i. -/
def Desc.srcAt (d : Desc) (i : Nat) : Nat :=
  let (a, b, c, e) := d.ix i
  (BitVec.ofInt 64 (d.q 0 + a * d.ses + b * d.i32 6 + c * d.i32 7 + e * d.i32 8)).toNat

/-- The destination address of element i, from a base: dimension 0 swizzled by the dimension-1 index (R142). -/
def Desc.dstAt (d : Desc) (base i : Nat) : Nat :=
  let (a, b, c, e) := d.ix i
  let y := a * d.des
  let y := 16 * ((y / 16) ^^^ (b % 2 ^ d.swz)) + y % 16
  (BitVec.ofInt 64 (base + y + b * d.i32 9 + c * d.i32 10 + e * d.i32 11)).toNat

/-- The destinations of a copy: scratchpad core or none, and the base. -/
def State.copies (s : State) (key : Nat) (j : Job) : List (Option Nat × Nat) :=
  let d : Desc := j.desc
  let cores := (j.team.bind (s.teams.get? ·)).elim [] (·.cores)
  match d.mck with
  | 1 => ((upTo 4).filter (d.mcmask.testBit ·)).map (fun c => (some (cores.getD c 0), d.q 2))
  | 2 => ((upTo 4).filter (d.mcmask.testBit ·)).map (fun c => (none, (d.q 2 + c * d.q 13) % 2 ^ 64))
  | _ => [(if d.dstSp then some (jobCore key) else none, d.q 2)]

/-- The bytes that a copy writes for source bytes (R142). -/
def Desc.convertElem (d : Desc) (b : List Byte) : List Byte :=
  if d.conv then
    natToBytes d.des (encodeVal (decodeVal (bytesToNat b) d.sfmt 0) d.dfmt (.ofCode (bitsOf (d.w 12) 13 12)) (d.bit 12 14)
      0).toNat
  else b

/-- Change the destination of a copy number. -/
def Job.onLag (j : Job) (c : Nat) (f : Lag → Lag) : Job := { j with lags := j.lags.map (fun l => if l.copy = c then f l else l) }

/-- A page fault at one destination of a multicast: it pauses alone, and a record is written; where the area has no room
the request is tried again (R274, R337). -/
def State.lagAt (s : State) (key : Nat) (j : Job) (c va seq : Nat) : State :=
  match s.jobPage key j va seq with
  | some s => s.onJob key (·.onLag c (fun l => { l with paused := some (BitVec.ofNat 64 va), retry := false }))
  | none => s

/-- Bytes of an element are written and counted; one sequence number covers one copy of one element (DESIGN CHOICE,
log 88). -/
def State.copied (s : State) (key n : Nat) : State := (s.wrote key n).onJob key (fun j => { j with seq := j.seq + 1 })

/-- The bytes that element i of a copy writes. -/
def State.elemBytes (s : State) (key : Nat) (j : Job) (i : Nat) : State × Access1 :=
  match State.sourceBytes key (Desc.srcSp j.desc) 16 s (Desc.srcAt j.desc i) (Desc.ses j.desc) [] with
  | (s, .ok b) => (s, .ok (Desc.convertElem j.desc b))
  | (s, r) => (s, r)

/-- One element of a copy to one destination; true when it has been done. -/
def State.cpyElem (s : State) (key : Nat) : State × Bool :=
  match s.jobs.get? key with
  | none => (s, false)
  | some j =>
    if Desc.elems j.desc ≤ j.next then (s, false)
    else
      match s.elemBytes key j j.next, (s.copies key j).head? with
      | (s, .ok b), some (sp, base) =>
        match s.jobWrite key j sp (Desc.dstAt j.desc base j.next) b with
        | (s, n, .ok _) => ((s.copied key n).onJob key (fun j => { j with next := j.next + 1 }), true)
        | (s, n, r) => (s.writeTrouble key r j.seq n, false)
      | (s, .ok _), none => (s, false)
      | (s, r), _ => (s.jobTrouble key r 0, false)

/-- Element i of a multicast is read, once for all its destinations (R274); true when it has been done. -/
def State.readElem (s : State) (key : Nat) : State × Bool :=
  match s.jobs.get? key with
  | none => (s, false)
  | some j =>
    if Desc.elems j.desc ≤ j.next then (s, false)
    else
      match s.elemBytes key j j.next with
      | (s, .ok b) => (s.onJob key (fun j => { j with
          next := j.next + 1, lags := j.lags.map (fun l => { l with queue := l.queue ++ [b] }) }), true)
      | (s, r) => (s.jobTrouble key r 0, false)

/-- Elements i and i + 1 of a copy belong to one request: they lie in one line of 64 bytes of the first destination
(R272). -/
def State.sameRequest (s : State) (key : Nat) (j : Job) (i : Nat) : Bool :=
  (s.copies key j).head?.elim false (fun e => Desc.dstAt j.desc e.2 i / 64 == Desc.dstAt j.desc e.2 (i + 1) / 64)

/-- A request of a copy: elements, one by one, as long as they belong to it, 64 at the most. -/
def State.cpyElems (one : State → State × Bool) (key : Nat) : Nat → State → State
  | 0, s => s
  | n + 1, s =>
    match s.jobs.get? key with
    | none => s
    | some j =>
      match one s with
      | (s, true) => if s.sameRequest key j j.next then State.cpyElems one key n s else s
      | (s, false) => s

/-- The 16-byte unit of a destination to which its next element goes has been read whole, so that it is not cut: every
element has been read, or a later one lies in another unit (R263, R266). -/
def Job.unitRead (j : Job) (l : Lag) (base : Nat) : Bool :=
  decide (Desc.elems j.desc ≤ j.next) || (upTo l.queue.length).any (fun m =>
    Desc.dstAt j.desc base (l.next + 1 + m) / 16 != Desc.dstAt j.desc base l.next / 16)

/-- The elements read for destination c of a multicast are written there in order, as far as they can be; a page fault pauses
it alone, and a home in transition holds it alone (R274). -/
def State.drainCopy (key c : Nat) (sp : Option Nat) (base : Nat) : Nat → State → State
  | 0, s => s
  | n + 1, s =>
    match s.jobs.get? key with
    | none => s
    | some j =>
      match j.lags.find? (·.copy = c) with
      | none => s
      | some l =>
        match l.queue with
        | [] => s
        | b :: rest =>
          if l.paused.isSome || !j.unitRead l base then s
          else
            match s.jobWrite key j sp (Desc.dstAt j.desc base l.next) b with
            | (s, n', .ok _) =>
              State.drainCopy key c sp base n ((s.copied key n').onJob key (·.onLag c (fun l => { l with
                next := l.next + 1, queue := rest })))
            | (s, _, .fault 0x10 va _) => s.lagAt key j c va j.seq
            | (s, n', r) => s.writeTrouble key r j.seq n'

/-- The destinations of a multicast write what has been read for them, until one fails. -/
def State.drainCopies (s : State) (key : Nat) (j : Job) : State :=
  (s.copies key j).zipIdx.foldl (fun s e =>
    match s.jobs.get? key with
    | none => s
    | some j => if j.failing.isSome || j.state != .running then s
      else State.drainCopy key e.2 e.1.1 e.1.2 ((j.lags.find? (·.copy = e.2)).elim 0 (·.queue.length)) s) s

/-- The request of a copy that its engine serves: the next elements of its source, and for a multicast what its destinations
have not written (R272, R274). -/
def State.cpyReq (s : State) (key : Nat) : State :=
  match s.jobs.get? key with
  | none => s
  | some j =>
    if Desc.mck j.desc = 0 then State.cpyElems (·.cpyElem key) key 64 s
    else
      let s := if j.lags.isEmpty then s.onJob key (fun x => { x with
          lags := (upTo (s.copies key j).length).map (fun c => ⟨c, j.next, [], none, false⟩) }) else s
      (State.cpyElems (·.readElem key) key 64 s).drainCopies key j

/-! ## Gathers and scatters (R144, R269) -/

/-- Bytes of the present element of a gather or a scatter have been moved: n of them, w of them written.  One sequence
number covers one request (DESIGN CHOICE, log 88). -/
def State.gathNext (s : State) (key n w : Nat) (range : Bool) : State :=
  (s.wrote key w).onJob key (fun j =>
    let ends := decide (Desc.gsize j.desc ≤ j.off + n)
    { j with
      next := if ends then j.next + 1 else j.next
      off := if ends then 0 else j.off + n
      index := if ends then none else j.index
      seq := j.seq + (if w = 0 then 0 else 1)
      range := if range then j.range + 1 else j.range })

/-- The ring of a gather: claim, place or commit for one request with its bytes (R144, R269). -/
def State.ringPlace (s : State) (key : Nat) (j : Job) (bytes : List Byte) (range : Bool) : State :=
  let d : Desc := j.desc
  let k := jobCore key
  match s.travel key k (d.q 4) .atomic (fun _ _ _ => true) bytes.length with
  | (s, .hold) => s
  | (s, .bad c x) => s.jobTrouble key (.fault c (d.q 4) x) j.seq
  | (s, .ok pa e) =>
    if s.stackLost pa then s.jobTrouble key (.fault 0x60 pa 0) j.seq
    else if !s.settled (k / 96) pa || !s.settled (k / 96) (pa + 64) then
      (s.sendLine (k / 96) (pa / 64)).sendLine (k / 96) (pa / 64 + 1)
    else
      let (s, ring, bad) := s.openRing k pa e.uc
      if !ring.ok then s.jobTrouble key (.fault 0x15 (d.q 4) 1) j.seq
      else if bad then s.jobTrouble key (.fault 0x31 (d.q 4) 0) j.seq
      else
        match j.claim with
        | none =>
          let order := j.ringWait.elim s.fresh (·.2)
          if !ring.room d.parts || s.ringAhead 0 pa true order then
            if j.ringWait.isSome then s
            else s.tick.onJob key (fun j => { j with ringWait := some (pa, order) })
          else (s.writeRing pa (ring.take d.parts)).onJob key (fun j => { j with claim := some ring.claim, ringWait := none })
        | some start =>
          match s.writeVa (some (.job key)) k j.scope (ring.granule (start + j.off / 64) + j.off % 64) bytes with
          | (s, n, .ok _) =>
            let s := s.gathNext key n n range
            if j.off + n = d.gsize then
              (s.writeRing pa (ring.commit start d.parts)).onJob key (fun j => { j with claim := none })
            else s
          | (s, n, .fault c va x) =>
            let s := if c = 0x10 then s else s.writeRing pa (ring.leaveOpen start d.parts (j.off + n))
            s.writeTrouble key (.fault c va x) j.seq n
          | (s, _, .hold) => s

/-- The index of the present element, read once (R144). -/
def State.elemIndex (s : State) (key : Nat) (j : Job) : State × Access1 × Nat :=
  match j.index with
  | some i => (s, .ok [], i)
  | none =>
    let d : Desc := j.desc
    match s.jobRead key j d.idxSp (d.q 0 + j.next * d.idxBytes) d.idxBytes with
    | (s, .ok b) => (s.onJob key (fun j => { j with index := some (bytesToNat b), unit := none }), .ok b, bytesToNat b)
    | (s, r) => (s, r, 0)

/-- The bytes of the present element that the next request moves: up to the end of a line of its destination. -/
def lineLen (left dst : Nat) : Nat := min left (64 - dst % 64)

/-- One request of a gather or a scatter. -/
def State.gathReq (s : State) (key : Nat) : State :=
  match s.jobs.get? key with
  | none => s
  | some j0 =>
    let d : Desc := j0.desc
    if d.count ≤ j0.next then s
    else
      match s.elemIndex key j0 with
      | (s, .ok _, i) =>
        match s.jobs.get? key with
        | none => s
        | some j =>
          let out := decide (d.rows ≤ i)
          let tab := (d.q 2 + i * d.tstride + j.off) % 2 ^ 64
          let buf := (d.q 4 + j.next * d.bstride + j.off) % 2 ^ 64
          let first := out && j.off == 0
          let left := d.gsize - j.off
          if j.kind = .scat then
            if out then s.gathNext key left 0 first
            else
              match State.sourceBytes key d.bufSp 64 s buf (lineLen left tab) [] with
              | (s, .ok b) =>
                match s.jobWrite key j (if d.tabSp then some (jobCore key) else none) tab b with
                | (s, n, .ok _) => s.gathNext key n n false
                | (s, n, r) => s.writeTrouble key r j.seq n
              | (s, r) => s.jobTrouble key r 0
          else
            let len := lineLen left (if d.ring then j.off else buf)
            match if out then (s, .ok (List.replicate len 0)) else State.sourceBytes key d.tabSp 64 s tab len [] with
            | (s, .ok b) =>
              if d.ring then s.ringPlace key j b first
              else
                match s.jobWrite key j (if d.bufSp then some (jobCore key) else none) buf b with
                | (s, n, .ok _) => s.gathNext key n n first
                | (s, n, r) => s.writeTrouble key r j.seq n
            | (s, r) => s.jobTrouble key r 0
      | (s, r, _) => s.jobTrouble key r 0

/-! ## One request, and completion (R266, R272) -/

/-- The engine that runs a kind of job. -/
def JobKind.engine : JobKind → Nat
  | .cpy => 0
  | .coll => 2
  | _ => 1

/-- The running jobs of the engine that runs a job: of its core, or for a collective those of every core of the die
(R272). -/
def State.engineJobs (s : State) (key : Nat) (j : Job) : List (Nat × Job) :=
  s.jobs.filter (fun e => e.2.state == .running && e.2.kind.engine == j.kind.engine
    && (if j.kind == .coll then jobCore e.1 / 96 == jobCore key / 96 else jobCore e.1 == jobCore key))

/-- The job is among the four that its engine runs, in order of acceptance (R272); a ring GATH that waits for space takes no
place (DESIGN CHOICE, log 100). -/
def State.engineHas (s : State) (key : Nat) (j : Job) : Bool :=
  ((s.engineJobs key j).filter (fun e => e.2.ringWait.isNone && decide (e.2.born < j.born))).length < 4

/-- The job is paused whole: its source, or every destination, waits for the driver. -/
def Job.stuck (j : Job) : Bool := j.paused.isSome

/-- The engine's next request is of this job: engines take their running jobs in turn, in order of acceptance (R272). -/
def State.engineTurn (s : State) (key : Nat) (j : Job) : Bool :=
  let c := s.core (jobCore key)
  let last := match j.kind with
    | .cpy => c.copyLast
    | .coll => (s.die (jobCore key / 96)).collLast
    | _ => c.gathLast
  let run := ((s.engineJobs key j).filter (fun e => !e.2.stuck && (e.2.kind != .coll || e.2.moves) && s.engineHas e.1 e.2)).sortBy
    (fun a b => a.2.born ≤ b.2.born)
  ((run.find? (fun e => decide (last < e.2.born))).or run.head?).elim false (fun e => e.1 == key)

/-- The engine has served a job. -/
def State.engineServed (s : State) (key : Nat) (j : Job) : State :=
  match j.kind with
  | .cpy => s.onCore (jobCore key) (fun c => { c with copyLast := j.born })
  | .coll => s.onDie (jobCore key / 96) (fun d => { d with collLast := j.born })
  | _ => s.onCore (jobCore key) (fun c => { c with gathLast := j.born })

/-- Elements of a job; a collective counts as one, and one of no elements completes at once (R372). -/
def Job.total (j : Job) : Nat :=
  match j.kind with
  | .cpy => Desc.elems j.desc
  | .coll => if Desc.cl j.desc = 0 then 0 else 1
  | _ => Desc.count j.desc

/-- A job whose writes are all performed and acknowledged completes: the copies of its bytes on the barrier's die go, and its byte
arrival is applied (R266, R272). -/
def State.completeJob (s : State) (key : Nat) : State :=
  match s.jobs.get? key with
  | none => s
  | some j =>
    if j.state ≠ .running ∨ j.next < j.total ∨ j.lags.any (!·.queue.isEmpty) ∨ j.failing.isSome ∨ s.jobOut key j.born then s
    else (s.jobArrives key j .complete).getD (s.sendLines (s.barDie key j))

/-- A job whose overlaps have ended starts (R273). -/
def State.startJob (s : State) (key : Nat) : State :=
  s.onJob key (fun j => if j.state = .waiting ∧ j.waits.isEmpty then { j with state := .running } else j)

/-- An invalidation of a page, or of all, covers the address of a page fault. -/
def coversPage (page : Option Nat) (va : Dword) : Bool := page.elim true (fun p => va.toNat / 4096 == p / 4096)

/-- An invalidation of a page, or of all, in die x has completed: paused jobs of the die, and paused destinations, may
try again (R146, R274). -/
def State.noteInvalidated (s : State) (x : Nat) (page : Option Nat) : State :=
  { s with jobs := s.jobs.map (fun (e : Nat × Job) =>
      if jobCore e.1 / 96 = x then
        (e.1, { e.2 with
          retry := e.2.retry || e.2.paused.elim false (coversPage page)
          lags := e.2.lags.map (fun l => if l.paused.elim false (coversPage page) then { l with retry := true } else l) })
      else e) }

/-! ## Collectives (R371 to R375) -/

/-- Red of two elements, as numbers of es bytes (R373). -/
def redElem (fmt red : Nat) (x y : Nat) : Nat :=
  let wx := BitVec.ofNat 32 x
  let wy := BitVec.ofNat 32 y
  match fmt with
  | 0 => (if red = 0 then fadd wx wy else if red = 1 then fmax wx wy else fmin wx wy).toNat
  | 13 => (if red = 0 then wx + wy else if red = 1 then smaxOf wx wy else sminOf wx wy).toNat
  | c =>
    let f := FFmt.ofCode c
    if red = 0 then f.round .rn false false ((f.decode x).add false (f.decode y))
    else if red = 1 then f.maxRule (f.flush x) (f.flush y)
    else f.minRule (f.flush x) (f.flush y)

/-- Element x of a buffer of elements of es bytes. -/
def elemOf (es : Nat) (b : List Byte) (x : Nat) : List Byte := (b.drop (es * x)).take es

/-- Red over the members' buffers at element x, by the fixed tree over positions (R373). -/
def redAll (d : Desc) (sends : List (List Byte)) (x : Nat) : List Byte :=
  let n := sends.length
  let leaf := fun (j : Nat) => if j < n then some (bytesToNat (elemOf d.es (sends.getD j []) x)) else none
  natToBytes d.es ((treeNode (redElem d.fmt d.red) leaf (Nat.log2 (2 * n - 1)) 0).getD 0)

/-- The RECV bytes of position i (R372). -/
def collResult (d : Desc) (sends : List (List Byte)) (m : Option ShardMap) (i : Nat) : List Byte :=
  let n := sends.length
  let l := d.cl
  let send := fun (j : Nat) => sends.getD j []
  match d.op with
  | 0 => (upTo l).flatMap (redAll d sends)
  | 1 => (upTo (share l n i)).flatMap (fun x => redAll d sends (shareOff l n i + x))
  | 2 => (upTo n).flatMap (fun j => (send j).take (share l n j * d.es))
  | 3 => (upTo n).flatMap (fun j => ((send j).drop (shareOff l n i * d.es)).take (share l n i * d.es))
  | _ =>
    let es := (m.map (·.entries)).getD []
    let mine := es.getD i (0, 0, 0, 0)
    (upTo mine.2.2.2).flatMap (fun x =>
      let item := mine.2.2.1 + x
      match (upTo n).find? (fun j =>
        let e := es.getD j (0, 0, 0, 0)
        decide (e.1 ≤ item) && decide (item < e.1 + e.2.1)) with
      | some j => elemOf d.es (send j) (item - (es.getD j (0, 0, 0, 0)).1)
      | none => [])

/-- The key and the job of the matching COLL on a die (R371). -/
def State.matching (s : State) (j : Job) (die : Nat) : Option (Nat × Job) :=
  s.jobs.find? (fun e => decide (jobCore e.1 / 96 = die) && e.2.kind == .coll && e.2.state == .running
    && e.2.lseq == j.lseq && Desc.axis e.2.desc == Desc.axis j.desc && Desc.gen e.2.desc == Desc.gen j.desc
    && e.2.collK == j.collK)

/-- The members of a collective, in position order, where every one has issued its own. -/
def State.collMembers (s : State) (j : Job) : Option (List (Nat × Job)) :=
  let ms := j.axis.map (s.matching j)
  if ms.isEmpty || ms.any (·.isNone) then none else some (ms.filterMap id)

/-- The packets by which a member sends the bytes of its SEND to the members on other packages, each at most 256 bytes, as
packets of its die's collective engine that bear the launch, the axis entry and the layout generation (R255, R363, R372,
R375; that each member's whole SEND goes to each package is DESIGN CHOICE, log 101). -/
def State.tellMembers (s : State) (key : Nat) (j : Job) : State :=
  let x := jobCore key / 96
  let tag : CollTag := ⟨j.lseq, Desc.axis j.desc, Desc.gen j.desc⟩
  let bytes := j.sent.length
  (j.axis.filter (fun y => y / 4 ≠ x / 4)).foldl (fun s y =>
    (upTo (max 1 ((bytes + 255) / 256))).foldl (fun s i =>
      (s.packetOut (.coll key j.born) (x / 4) (collTag x) (s.die x).collSeq (PkgPlace.die y) (min 256 (bytes - 256 * i)) tag).onDie x
        (fun d => { d with collSeq := d.collSeq + 1 })) s) (s.onJob key (fun j => { j with told := true }))

/-- A packet with bytes of the collective of a member is on its way to another member. -/
def State.collOut (s : State) (key : Nat) (j : Job) : Bool := s.packets.any (fun e => e.2.cargo == .coll key j.born)

/-- The lowest-numbered descriptor word in which the members differ (R371). -/
def collDiff (ms : List (Nat × Job)) : Option Nat :=
  ([4, 5, 6] : List Nat).find? (fun i => ms.any (fun a => ms.any (fun b => decide (Desc.w a.2.desc i ≠ Desc.w b.2.desc i))))

/-- Fail a collective at every member (R371, R374). -/
def State.failAll (s : State) (ms : List (Nat × Job)) (word : Nat) : State :=
  ms.foldl (fun s e => s.failJob e.1 0x01 (word + 0x80) 0) s

/-- Change every member's job. -/
def State.onMembers (s : State) (ms : List (Nat × Job)) (f : Job → Job) : State := ms.foldl (fun s e => s.onJob e.1 f) s

/-- The members of a permute read the shard map, each once (R374); the trouble with a job. -/
def State.readMaps (s : State) : List (Nat × Job) → State × Option (Nat × Access1)
  | [] => (s, none)
  | (key, j) :: rest =>
    if Desc.op j.desc ≠ 4 ∨ j.shard.isSome then s.readMaps rest
    else
      match s.readVa (some (.job key)) (jobCore key) 4 (Desc.q j.desc 8) (16 + 16 * j.axis.length) with
      | (s, .ok b) => (s.onJob key (fun j => { j with shard := some b })).readMaps rest
      | (s, r) => (s, some (key, r))

/-- The shard map that a member has read. -/
def Job.shardMap (j : Job) : Option ShardMap := j.shard.map (ShardMap.ofBytes · j.axis.length)

/-- The shard maps of the members are one, and good for the axis and the count (R371, R374). -/
def mapsOk (ms : List (Nat × Job)) (j : Job) : Bool :=
  ms.all (fun e => e.2.shard == j.shard) && j.shardMap.elim false (·.ok j.axis.length (Desc.cl j.desc))

/-- A collective begins once every member has issued its own and an engine runs each: their words agree, and a permute's
shard maps; a permute moves nothing yet (R371, R374, R375). -/
def State.startColl (s : State) (key : Nat) : State :=
  match s.jobs.get? key with
  | none => s
  | some j =>
    if j.kind ≠ .coll ∨ j.state ≠ .running ∨ j.begun ∨ Desc.cl j.desc = 0 then s
    else
      match s.collMembers j with
      | none => s
      | some ms =>
        if !ms.all (fun e => s.engineHas e.1 e.2 && e.2.failing.isNone && e.2.paused.isNone) then s
        else match collDiff ms with
        | some w => s.failAll ms w
        | none =>
          match s.readMaps ms with
          | (s, some (k, r)) => s.jobTrouble k r 0
          | (s, none) =>
            match s.jobs.get? key, s.collMembers j with
            | some j, some ms =>
              if Desc.op j.desc = 4 ∧ !mapsOk ms j then s.failAll ms 8
              else s.onMembers ms (fun j => { j with begun := true, moves := decide (Desc.op j.desc ≠ 4) })
            | _, _ => s

/-- Every lower-generation COLL that a permute must follow has completed at every member (R375). -/
def State.permuteFree (s : State) (ms : List (Nat × Job)) : Bool :=
  ms.all (fun e => s.jobs.all (fun o => !(decide (jobCore o.1 / 96 = jobCore e.1 / 96) && o.2.kind == .coll
    && o.2.lseq == e.2.lseq && decide (Desc.gen o.2.desc < Desc.gen e.2.desc) && decide (o.2.born < e.2.born) && o.2.live
    && o.2.writes.any (fun w => e.2.reads.any (fun r => w.meets r)))))

/-- A permute may move its bytes once no lower generation holds it (R375). -/
def State.permuteRelease (s : State) (key : Nat) : State :=
  match s.jobs.get? key with
  | none => s
  | some j =>
    if Desc.op j.desc ≠ 4 ∨ !j.begun ∨ j.moves then s
    else
      match s.collMembers j with
      | none => s
      | some ms => if s.permuteFree ms then s.onMembers ms (fun j => { j with moves := true }) else s

/-- The position of a member's job on its axis. -/
def Job.position (key : Nat) (j : Job) : Nat := j.axis.findIdx (· = jobCore key / 96)

/-- The bytes that a member reads from its SEND (R372). -/
def Job.sendBytes (key : Nat) (j : Job) : Nat :=
  (collCounts j.desc j.axis.length (j.position key) j.shardMap).1 * Desc.es j.desc

/-- Once every member has read its SEND and the others have it, each has what it writes to its RECV (R372). -/
def State.settleColl (s : State) (j : Job) : State :=
  match s.collMembers j with
  | none => s
  | some ms =>
    if ms.all (fun e => e.2.moves && e.2.recv.isNone && e.2.told && !s.collOut e.1 e.2
        && decide (e.2.sendBytes e.1 ≤ e.2.sent.length)) then
      ms.zipIdx.foldl (fun s e => s.onJob e.1.1 (fun j =>
        let out := collResult j.desc (ms.map (·.2.sent)) j.shardMap e.2
        { j with recv := some out, next := if out.isEmpty then 1 else 0 })) s
    else s

/-- One request of a collective at a member, 64 bytes at the most: of its SEND, or of its RECV once every SEND has been
read; one packet of its die's collective engine for each write (R255, R272, R372; the order of reads and writes is DESIGN
CHOICE, log 30). -/
def State.collReq (s : State) (key : Nat) : State :=
  match s.jobs.get? key with
  | none => s
  | some j =>
    if !j.moves ∨ j.next ≠ 0 then s
    else
      let piece := fun (base done all : Nat) => (base + done, min (all - done) (64 - (base + done) % 64))
      match j.recv with
      | some out =>
        let (a, n) := piece (Desc.q j.desc 2) j.off out.length
        let x := jobCore key / 96
        match s.jobWrite key j none a ((out.drop j.off).take n) with
        | (s, m, .ok _) => ((s.wrote key m).onDie x (fun d => { d with collSeq := d.collSeq + 1 })).onJob key (fun j =>
            { j with off := j.off + n, next := if out.length ≤ j.off + n then 1 else 0 })
        | (s, m, r) => s.writeTrouble key r (s.die x).collSeq m
      | none =>
        let (a, n) := piece (Desc.q j.desc 0) j.sent.length (j.sendBytes key)
        if n = 0 then (if j.told then s else s.tellMembers key j).settleColl j
        else
          match s.jobRead key j false a n with
          | (s, .ok b) => (s.onJob key (fun j => { j with sent := j.sent ++ b })).settleColl j
          | (s, r) => s.jobTrouble key r 0

/-! ## One request of any job (R146, R272) -/

/-- How far a job has come. -/
def Job.mark (j : Job) : Nat × Nat × Nat × Nat × Nat × List (Nat × Nat) × Bool :=
  (j.next, j.off, j.seq, j.bytes, j.sent.length, j.lags.map (fun l => (l.next, l.queue.length)),
    j.failing.isSome || j.paused.isSome || j.claim.isSome)

/-- The requests of a job that have been served on other packages are answered from there, where the job has come further
(R363, R368). -/
def State.answerJob (s : State) (key : Nat) (before : Job) : State :=
  match s.jobs.get? key with
  | none => s
  | some j =>
    if j.trips.isEmpty || j.mark == before.mark then s
    else (j.trips.filter (·.there)).foldl (fun s t =>
      s.packetOut (.engineBack key j.born) (paPkg t.pa) (jobTag key) 0 (PkgPlace.die (jobCore key / 96)) (if t.write then 0 else 64))
      (s.onJob key (fun j => { j with trips := j.trips.filter (!·.there) }))

/-- An engine serves one request of a running job; a job that fails ends once it can. -/
def State.jobRequest (s : State) (key : Nat) : State :=
  match s.jobs.get? key with
  | none => s
  | some j =>
    if j.failing.isSome then s.finishFail key
    else if j.state ≠ .running ∨ j.stuck ∨ !s.engineHas key j ∨ !s.engineTurn key j then s
    else
      let s := s.engineServed key j
      (match j.kind with
      | .cpy => s.cpyReq key
      | .coll => s.collReq key
      | _ => s.gathReq key).answerJob key j

/-- A paused job tries again once an invalidation has covered the page (R146). -/
def State.retryJob (s : State) (key : Nat) : State :=
  match s.jobs.get? key with
  | none => s
  | some j =>
    let s := if j.lags.any (·.retry) then s.onJob key (fun j => { j with lags := j.lags.map (fun l =>
        if l.retry then { l with paused := none, retry := false } else l) }) else s
    if j.paused.isSome ∧ j.retry then
      (s.onJob key (fun j => { j with paused := none, retry := false })).jobRequest key
    else s

end Sys2Proof.Machine
end

