-- ==== Sys2Proof/Machine/System.lean ====
section
/-! DEFINITION. The system forms of class 5 (R151 to R161): the return from an exception, the fault record, the
invalidation of translations and cache lines, counters, ownership entries and the ECC log. -/

namespace Sys2Proof.Machine

/-! ## The system right (R151) -/

/-- The present group holds a right: its launch's, or, for the system right, that of a handler (R116, R151). -/
def State.holdsRight (s : State) (n : Nat) : Bool :=
  (s.groups.get? s.cur.g).elim true (fun g => s.right g n || (n == 2 && g.handling))

/-- A privileged system word: without the right a taking-part thread raises 0x11 before any other check (R151). -/
def State.privileged (s : State) (h : Hd) (sh : Shape) (body : Nat → State → Group → Thread → State) : State :=
  if s.holdsRight 2 then s.packet h sh false body else s.denied h sh

/-- Write words upward from register d at once and retire. -/
def State.answer (s : State) (h : Hd) (sh : Shape) (t d : Nat) (ws : List Word) : State :=
  (s.onCur t (fun hm th => th.writeNowN hm d ws)).done h sh t

/-! ## Exceptions (R153, R154, R343, R344) -/

/-- TRAPRET (R153). Ends the thread's handler; the last one ends handler mode. -/
def execTrapret (h : Hd) (s : State) : Outcome :=
  .next (s.privileged h .none (fun t s g _ =>
    if !g.inHandler t then s.raiseCur t 0x11 0 0
    else
      let s := (s.done h .none t).onThread s.cur.g t (fun th => { th with place := .returned s.cur.at_.pc ⟨0, s.now g.core⟩ })
      s.tryTrapReturn s.cur.g))

/-- The record that thread t's FLTRD reads: its own, of several that of the word it issued first; else that of the
lowest-indexed thread whose fault a handler takes (R154, R343). -/
def Group.readRecord (g : Group) (t : Nat) : Option FaultRec :=
  match g.handler with
  | none => g.lastRec
  | some hd =>
    match ((hd.recs.filter (fun r => r.thread = t && !r.job)).sortBy (fun a b => a.nth ≤ b.nth)).head? with
    | some r => some r
    | none =>
      ((hd.recs.filter (fun r => handlerTakes r.code)).sortBy (fun a b => a.thread ≤ b.thread)).head?

/-- FLTRD (R154). Reads a word of the fault record being handled. -/
def execFltrd (h : Hd) (d a : Field) (s : State) : Outcome :=
  let sh : Shape := { Shape.none with vs := [a.toNat], vd := [d.toNat] }
  .next (s.privileged h sh (fun t s g th =>
    let n := (th.rd (g.inHandler t) a.toNat).toNat % 16
    let w := match g.readRecord t with
      | none => 0
      | some r => (s.groupRecord g none r).getD n 0
    s.answer h sh t d.toNat [w]))

/-! ## Invalidation (R155, R156) -/

/-- Invalidate translations in a die, and let paused jobs of the die try again (R146, R155). -/
def State.invalidateDie (s : State) (x : Nat) (page : Option Nat) : State :=
  (s.dropTlb x page).noteInvalidated x page

/-- Invalidate translations by extent (R155). -/
def State.invalidate (s : State) (x : Nat) (extent va : Nat) : State :=
  let page := if extent ≤ 1 then some (va / 4096 * 4096) else none
  if extent % 2 = 0 then s.invalidateDie x page else s.allDies.foldl (fun s y => s.invalidateDie y page) s

/-- TLBINV (R152, R155). Invalidates translations by page or wholly, in the die or the domain; an extent above 3 raises
0x01, after the right. -/
def execTlbinv (h : Hd) (a b : Field) (s : State) : Outcome :=
  let sh : Shape := { Shape.none with vs := regs a 2 }
  .next (s.privileged h sh (fun t s g th =>
    if 3 < b.toNat then s.raiseCur t 0x01 0 0
    else (s.invalidate g.die b.toNat (th.rdN (g.inHandler t) a.toNat 2)).done h sh t))

/-- One line under an operation of CINV: every die's copy, the home's last (R156). -/
def State.cacheLine (s : State) (op n : Nat) : State :=
  let o := s.homeDie (64 * n)
  let dies := s.allDies.filter (· ≠ o) ++ [o]
  let s := if op = 2 then s else dies.foldl (fun s x => s.writeBackLine x n) s
  if op = 0 then s else dies.foldl (fun s x => s.dropL2 x n) s

/-- A die holds dirty bytes of the line of an address for another package, or has some on their way there (R254). -/
def State.lineAway (s : State) (pa : Nat) : Bool := s.allDies.any (fun x => !s.settled x pa)

/-- The dies send the dirty bytes of a line to its home on another package. -/
def State.sendAll (s : State) (n : Nat) : State := s.allDies.foldl (fun s x => s.sendLine x n) s

/-- What CINV meets on its way; where it must wait, at a line with n lines left. -/
inductive CinvEnd where
  | done
  | fault (code va detail : Nat)
  | hold (va n : Nat)
  deriving DecidableEq, Repr

/-- CINV of an agent of core k over n lines of virtual addresses upward from va (R156). -/
def State.cacheLines (s : State) (a : Agent) (k op : Nat) : Nat → Nat → State × CinvEnd
  | 0, _ => (s, .done)
  | n + 1, va =>
    match s.reach (some a) k (BitVec.ofNat 64 va) .read with
    | (s, .hold) => (s, .hold va (n + 1))
    | (s, .bad c d) => (s, .fault c va d)
    | (s, .ok pa _) =>
      if paSpace pa ≠ 0 then s.cacheLines a k op n (va + 64)
      else if op ≠ 2 ∧ s.lineAway pa then (s.sendAll (pa / 64), .hold va (n + 1))
      else (s.cacheLine op (pa / 64)).cacheLines a k op n (va + 64)

/-- Thread t of group g goes on in its CINV of n lines from va, once its earlier memory words are performed: it retires,
faults, or waits in the word for a home in transition (R151, R156, R161). -/
def State.cinvGo (s : State) (g t k : Nat) (h : Hd) (at_ : Ctx) (dead : List Nat) (op va n : Nat) : State :=
  let wait := fun (s : State) (va n : Nat) => s.onThread g t (fun th => { th with
    place := .waiting (.cinv op va n) at_ h ⟨0, 0⟩ dead })
  match s.releaseAt g [t] 1 with
  | none => wait s va n
  | some s =>
    match s.cacheLines (.thread g t) k op n va with
    | (s, .hold va n) => wait s va n
    | (s, .fault c x e) => s.raise g t at_ c x e
    | (s, .done) => s.retire g t h at_ dead

/-- CINV (R152, R156). Writes back or invalidates cache lines of a range; an op above 2 raises 0x01, after the right. -/
def execCinv (h : Hd) (d a b : Field) (s : State) : Outcome :=
  let sh : Shape := { Shape.none with vs := regs a 2 ++ [b.toNat] }
  .next (s.privileged h sh (fun t s g th =>
    let hm := g.inHandler t
    let va := th.rdN hm a.toNat 2
    let len := (th.rd hm b.toNat).toNat
    if 2 < d.toNat then s.raiseCur t 0x01 0 0
    else if len = 0 then s.done h sh t
    else s.cinvGo s.cur.g t g.core h s.cur.at_ sh.dead d.toNat (va / 64 * 64) ((va % 64 + len + 63) / 64)))

/-- The threads of a group that wait in CINV try again. -/
def State.retryCinv (s : State) (g : Nat) (gr : Group) : State :=
  gr.threads.foldl (fun s e =>
    match e.2.place with
    | .waiting (.cinv op va n) at_ h _ dead => s.cinvGo g e.1 gr.core h at_ dead op va n
    | _ => s) s

/-! ## Reads of the device's state (R157 to R160) -/

/-- PERFRD (R157). Reads a 64-bit performance counter. -/
def execPerfrd (h : Hd) (d b : Field) (s : State) : Outcome :=
  let sh : Shape := { Shape.none with vd := regs d 2 }
  .next (s.packet h sh false (fun t s g _ =>
    s.answer h sh t d.toNat (splitWords 2 (if b.toNat = 15 then g.retired else s.counter g.core b.toNat))))

/-- STKRD (R158). Reads a stack's ownership entry. -/
def execStkrd (h : Hd) (d a : Field) (s : State) : Outcome :=
  let sh : Shape := { Shape.none with vs := [a.toNat], vd := regs d 2 }
  .next (s.packet h sh false (fun t s g th =>
    let x := (th.rd (g.inHandler t) a.toNat).toNat
    let p := bitsOf x 15 8
    let k := s.stack (8 * p + x % 8)
    s.answer h sh t d.toNat (if p < s.npkg then [BitVec.ofNat 32 k.word, k.hseq] else [0xFFFFFFFF, 0xFFFFFFFF])))

/-- CYCRD (R159). Reads the core cycle counter. -/
def execCycrd (h : Hd) (d : Field) (s : State) : Outcome :=
  let sh : Shape := { Shape.none with vd := regs d 2 }
  .next (s.packet h sh false (fun t s g _ => s.answer h sh t d.toNat (splitWords 2 (s.counter g.core 0))))

/-- ECCRD (R160). Reads an entry of the core's ECC log, optionally clearing it. -/
def execEccrd (h : Hd) (d a : Field) (s : State) : Outcome :=
  let sh : Shape := { Shape.none with vs := [a.toNat], vd := regs d 4 }
  .next (s.privileged h sh (fun t s g th =>
    let x := th.rd (g.inHandler t) a.toNat
    let e := (s.core g.core).ecc.getD (x.toNat % 64) [0, 0, 0, 0]
    let s := s.answer h sh t d.toNat e
    if x.getLsbD 31 then s.onCore g.core (fun c => { c with ecc := [] }) else s))

end Sys2Proof.Machine
end

