-- ==== Sys2Proof/Machine/Wakes.lean ====
section
/-! DEFINITION. The steps by which what a word has begun goes on or ends: replies, requests at the home, write-backs,
walks, the wakes of waiting groups and threads, matrix operations and engine jobs (R68 to R73, R80, R100, R107 to R123,
R137, R140, R231, R249, R272, R313, R322, R371, R375).  A step whose condition does not hold changes nothing. -/

namespace Sys2Proof.Machine

/-! ## Memory -/

/-- HOME_REQUEST (R112, R316). A request that has reached its home or base die is performed there; a request to lost
memory raises 0x60 (R349). -/
def execHomeRequest (rid : Nat) (s : State) : Outcome :=
  .next (match s.reqs.get? rid with
  | none => s
  | some r =>
    match r.stage with
    | .performed _ _ | .queued _ => s
    | _ =>
      if !r.far || s.onTheWay rid then s
      else if s.stackLost r.pa then s.failReq rid r 0x60 r.pa (s.lostDetail (r.core / 96) r.pa)
      else (s.perform rid).respond rid)

/-- MEMORY_REPLY (R6, R28, R109). A request completes: L1 accepts a store; one served on its own die is performed; the
result of a performed one is written and the thread's token falls. -/
def execMemoryReply (rid : Nat) (s : State) : Outcome :=
  .next (match s.reqs.get? rid with
  | none => s
  | some r =>
    if r.isDone then (if r.lost || s.inFabric rid then s else s.reply rid)
    else if r.far then s.acceptStore rid
    else ((s.advanceReq rid).acceptStore rid).reply rid)

/-- WRITE_BACK (R249). A partition of a die evicts a line: its dirty bytes are merged at the home, or at the DRAM
behind it, by byte; to a home on another package they go first, and the line leaves once it is clean. -/
def execWriteBack (x line : Nat) (s : State) : Outcome :=
  .next (match s.l2 x line with
  | none => s
  | some _ =>
    if !s.settled x (64 * line) then s.sendLine x line
    else if s.homeOpen (64 * line) then (s.writeBackLine x line).dropL2 x line else s)

/-- PAGE_WALK (R321, R322). A page-table walk that waited for a home completes and fills the TLBs. -/
def execPageWalk (w : Nat) (s : State) : Outcome :=
  .next (match s.walks.get? w with
  | none => s
  | some k => if k.fill then s else s.endWalk w)

/-- TLB_FILL (R313). A fill that waited for a steady stack records the owner. -/
def execTlbFill (w : Nat) (s : State) : Outcome :=
  .next (match s.walks.get? w with
  | none => s
  | some k => if k.fill then s.endWalk w else s)

/-! ## Rings (R121, R122) -/

/-- A waiting ring form is tried again at its descriptor. -/
def State.tryQueued (s : State) (rid : Nat) (space : Bool) : State :=
  match s.reqs.get? rid with
  | none => s
  | some r =>
    match r.stage with
    | .queued _ =>
      if (r.kind == .rclaim || r.kind == .putq) == space then
        if s.stackLost r.pa then s.failReq rid r 0x60 r.pa (s.lostDetail (r.core / 96) r.pa)
        else (s.perform rid).respond rid
      else s
    | _ => s

/-- RING_SPACE_GRANT (R121). Room in the ring serves the oldest waiting claim. -/
def execRingSpaceGrant (rid : Nat) (s : State) : Outcome := .next (s.tryQueued rid true)
/-- RAWAIT_WAKE (R121, R268). An advance of TAIL releases a waiting RAWAIT. -/
def execRawaitWake (rid : Nat) (s : State) : Outcome := .next (s.tryQueued rid false)

/-! ## Group waits -/

/-- A wait of a resident group. -/
def State.waitOf (s : State) (g w : Nat) : Option (Group × GWait) :=
  match s.groups.get? g with
  | none => none
  | some gr => if gr.residence == .resident && !gr.halted then (Tbl.get? gr.waits w).map (fun x => (gr, x)) else none

/-- GROUP_FORM_RESULT (R100). A group form's results are written and its members' tokens fall. -/
def execGroupFormResult (g w : Nat) (s : State) : Outcome := .next (s.deliverForm g w)

/-- A barrier wait that is over releases the group (R68). -/
def State.wakeBarrier (s : State) (g w : Nat) : State :=
  match s.waitOf g w with
  | none => s
  | some (gr, x) =>
    match x.kind, gr.team with
    | .barrier b, some t =>
      if s.barMet gr t b x && s.waitFenced g x then (s.passBarrier g t b).finishWait g w x else s
    | _, _ => s

/-- BARRIER_WAKE (R68). A barrier whose phase differs from the group's target, or that has completed since the wait began,
releases the group. -/
def execBarrierWake (g w : Nat) (s : State) : Outcome := .next (s.wakeBarrier g w)

/-- A WAITANY of which a barrier has completed releases the group (R69). -/
def State.wakeAny (s : State) (g w : Nat) : State :=
  match s.waitOf g w with
  | none => s
  | some (gr, x) =>
    match x.kind, x.i, gr.team with
    | .any mask, .waitany _ d _ b, some t =>
      match (s.scanAny gr t b.toNat mask x.met).filter (fun _ => s.waitFenced g x) with
      | some i => (s.takeAny g t b.toNat i d.toNat (x.once g).low).finishWait g w x
      | none => s
    | _, _, _ => s

/-- WAITANY_WAKE (R69). A barrier of the mask that has completed releases the group. -/
def execWaitanyWake (g w : Nat) (s : State) : Outcome := .next (s.wakeAny g w)

/-- The barrier waits of a core's groups that are over end (R68, R69). -/
def State.barrierWakes (s : State) (k : Nat) : State :=
  ((s.residentOn k).flatMap (fun e => (Tbl.keys e.2.waits).map (fun w => (e.1, w)))).foldl (fun s e =>
    (s.wakeBarrier e.1 e.2).wakeAny e.1 e.2) s

/-- The groups of a die span that wait in DBAR: group, wait. -/
def State.dbarWaits (s : State) (l x : Nat) : List (Nat × Nat × GWait × Nat) :=
  (s.groups.filter (fun e => e.2.lseq = l && decide (e.2.core / 96 = x) && e.2.residence == .resident
    && !e.2.halted)).flatMap (fun e => e.2.waits.filterMap (fun w =>
      if w.2.kind = .dbar then some (e.1, w.1, w.2, e.2.dbars) else none))

/-- DBAR_RELEASE (R73). Waiters whose round every live group of the die span has reached continue. -/
def execDbarRelease (l x : Nat) (s : State) : Outcome :=
  .next ((s.dbarWaits l x).foldl (fun s e =>
    if s.dbarDone l x e.2.2.2 && s.waitFenced e.1 e.2.2.1 then (s.impliedSfence e.1).finishWait e.1 e.2.1 e.2.2.1 else s) s)

/-- REGCLM_SERVE (R72, R223). Free rows serve the oldest waiting claim that fits, as the core's order allows. -/
def execRegclmServe (k : Nat) (s : State) : Outcome :=
  let s := s.serveShare k
  .next (match s.nextClaim k with
  | none => s
  | some (g, w, n, _) =>
    match s.waitOf g w with
    | none => s
    | some (_, x) => ((s.grant g n).passOver k x.born).finishWait g w x)

/-- HANDLE_BIND_SERVE (R126, R137, R235). A free accumulator slot binds the oldest waiting handle, where the core has a
place for its operation. -/
def execHandleBindServe (k : Nat) (s : State) : Outcome :=
  .next (match s.oldestBind k with
  | none => s
  | some (g, w, m) =>
    match s.waitOf g w with
    | none => s
    | some (_, x) =>
      if s.mopsFull k then s
      else
        match s.bindHandle g m.h k with
        | none => s
        | some s => (s.acceptMop m).finishWait g w x)

/-- The oldest engine issue that waits on a core for a job-table entry: group, wait, descriptor, footprint. -/
def State.oldestIssue (s : State) (k : Nat) : Option (Nat × Nat × List Word × Foot) :=
  let all := (s.residentOn k).flatMap (fun e => e.2.waits.filterMap (fun w =>
    match w.2.kind with
    | .entry d f => some (w.2.born, e.1, w.1, d, f)
    | _ => none))
  ((all.sortBy (fun a b => a.1 ≤ b.1)).head?).map (·.2)

/-- JOB_TABLE_ENTRY_GRANT (R140). A free job-table entry accepts the oldest waiting engine issue. -/
def execJobTableEntryGrant (k : Nat) (s : State) : Outcome :=
  .next (match s.oldestIssue k with
  | none => s
  | some (g, w, d, f) =>
    match s.waitOf g w with
    | none => s
    | some (_, x) =>
      match s.issueJob (x.once g) d f with
      | none => s
      | some s => s.finishWait g w x)

/-! ## JOINW (R80) -/

/-- A thread's wait ends at a fault of its word. -/
def State.raiseAt (s : State) (g t : Nat) (at_ : Ctx) (code addr detail : Nat) : State :=
  s.raise g t at_ code addr detail

/-- JOINW_WAKE (R80). A join counter that reads zero releases the thread, which acquires at rack scope; a fault of the
read leaves it at the word. -/
def execJoinwWake (g t : Nat) (s : State) : Outcome :=
  .next (match s.groups.get? g with
  | none => s
  | some gr =>
    match Tbl.get? gr.threads t with
    | none => s
    | some th =>
      match th.place with
      | .waiting (.join a) at_ hd _ dead =>
        if gr.residence ≠ .resident ∨ gr.halted then s
        else
          match s.readJoin g gr t a.toNat with
          | (s, .zero) => ((s.fixEntering g).acquireAt gr.core 4).retire g t hd at_ dead
          | (s, .more) => s
          | (s, .fault c d) => s.raiseAt g t at_ c a.toNat d
      | _ => s)

/-! ## Matrix operations and engine jobs -/

/-- TMMA_CHUNK_STEP (R132, R133, R231). One chunk step of a matrix operation. -/
def execTmmaChunkStep (m : Nat) (s : State) : Outcome := .next (s.tmmaStep m)
/-- ACCUMULATOR_FORM_COMPLETE (R136, R231). An accumulator form runs whole and its signers' tokens fall. -/
def execAccumulatorFormComplete (m : Nat) (s : State) : Outcome := .next (s.accForm m)
/-- JOB_START (R272, R273). A job that waited on its footprint starts. -/
def execJobStart (j : Nat) (s : State) : Outcome := .next (s.startJob j)
/-- ENGINE_JOB_REQUEST (R142, R144, R272). An engine serves one request of a running job. -/
def execEngineJobRequest (j : Nat) (s : State) : Outcome := .next (s.jobRequest j)
/-- JOB_COMPLETE (R266, R272). A job whose writes are performed completes and its byte arrival is applied. -/
def execJobComplete (j : Nat) (s : State) : Outcome := .next (s.completeJob j)
/-- JOB_FAULT_RETRY (R146). A paused job tries its request again after an invalidation of the page. -/
def execJobFaultRetry (j : Nat) (s : State) : Outcome := .next (s.retryJob j)
/-- COLLECTIVE_START (R371, R374). A collective begins once every member has issued its own. -/
def execCollectiveStart (j : Nat) (s : State) : Outcome := .next (s.startColl j)
/-- PERMUTE_RELEASE (R375). A permute may move its bytes once the collectives of lower generation have completed. -/
def execPermuteRelease (j : Nat) (s : State) : Outcome := .next (s.permuteRelease j)

end Sys2Proof.Machine
end

