-- ==== Sys2Proof/Machine/Kindle.lean ====
section
/-! DEFINITION. Kindling (R281 to R289): the routing and placement of spawn records, bins, spill rings, the formation
of kindled groups, and the start of a group's state (R174, R175). -/

namespace Sys2Proof.Machine

/-! ## Routing (R282, R283) -/

/-- The dies of a launch's step on which records may be placed: those of its set that are not lost (R282, R349). -/
def State.liveDies (s : State) (l : Nat) : List Nat :=
  (s.launches.get? l).elim [] (fun n => n.dies.filter (fun x => !(s.die x).lost))

/-- The target die of a record, its home stack being steady (R282). -/
def State.targetDie (s : State) (r : SpawnRec) : Nat :=
  let own := r.srcCore / 96
  let set := s.liveDies r.lseq
  let own := if set.contains own then own else ((set.find? (fun y => y / 4 = own / 4)).getD ((set.head?).getD own))
  if !r.hashed then own
  else
    let x := 4 * (r.home / 8) + (s.stack r.home).owner
    if set.contains x then x else (set.find? (fun y => y / 4 = r.home / 8)).getD own

/-- The address at which a record waits while its home stack is in transition (R282). -/
def SpawnRec.homePa (r : SpawnRec) : Nat := r.home / 8 * 2 ^ 44 + r.home % 8 * 2 ^ 41

/-- The home stack of a record admits it, where a hash routes it: it is steady, and the request that waits longest for it
is one of these records, which arrive together (R282, R304). -/
def State.routes (s : State) (ids : List Nat) (r : SpawnRec) : Bool :=
  !r.hashed || (s.homeOpen r.homePa && (s.firstFor r.homePa).elim true (fun p => match p.agent with
    | .record id => ids.contains id
    | _ => false))

/-- A record comes to its home stack: admitted, it is bound for the die that owns the stack then; else it waits there, with
the other requests in order of arrival (R282). -/
def State.comeHome (s : State) (ids : List Nat) (id : Nat) (r : SpawnRec) : State :=
  if r.bound.isSome then s
  else if s.routes ids r then (s.unawait (.record id)).onRec id (fun r => { r with bound := some (s.targetDie r) })
  else s.await ⟨.record id, true, 0, r.homePa, TlbEntry.blank⟩

/-- Two records are bound alike: by the same hash place, or for the same core. -/
def SpawnRec.alike (a b : SpawnRec) : Bool :=
  a.hashed == b.hashed && a.home == b.home && a.core == b.core && (a.hashed || a.srcCore == b.srcCore)

/-- A routed record stands behind an earlier one to the same unit: of its own thread, or of those that a restore routes
in their saved order (R77, R304); records that shared a bin stand together. -/
def State.behind (s : State) (id : Nat) (r : SpawnRec) : Bool :=
  s.recs.any (fun e => e.1 ≠ id && e.2.place == .routing && e.2.lseq == r.lseq && decide (e.2.born < r.born) && e.2.alike r
    && (r.mate.isNone || e.2.mate != r.mate)
    && ((e.2.srcG == r.srcG && e.2.srcT == r.srcT) || (e.2.again && r.again)))

/-- Record r leaves die src for die x: the remote partition of src is written back first; none while a home in transition
holds that.  A record that the spawning word sends to another package has been released at rack scope already (R77,
R283). -/
def State.depart (s : State) (src x : Nat) (fresh : Bool) : Option State :=
  if src = x ∨ (fresh ∧ src / 4 ≠ x / 4) then some s
  else if s.flushOpen src then some (s.flushRemote src) else none

/-! ## Placement (R286, R287, R289) -/

/-- Records that count toward a unit's queue: placed in it, or in its bins (R286). -/
def State.unitCount (s : State) (k : Nat) : Nat :=
  (s.recs.filter (fun e => match e.2.place with
    | .entering u => u = k
    | .binned b => (s.bins.get? b).elim false (fun x => x.core = k)
    | _ => false)).length

/-- The spill ring of a die for a launch, head first (R286). -/
def State.spillRing (s : State) (x l : Nat) : List (Nat × SpawnRec) :=
  (s.recs.filter (fun e => e.2.lseq = l && (match e.2.place with
    | .spilled y _ => y = x
    | _ => false))).sortBy (fun a b => a.2.born ≤ b.2.born)

/-- The unit that a spilled record is bound for. -/
def SpawnRec.unit (r : SpawnRec) : Nat :=
  match r.place with
  | .spilled _ k => k
  | .entering k => k
  | .refused k => k
  | _ => 0

/-- Where R286 sends a record bound for unit k: its queue, its die's spill ring, or nowhere (R287). -/
def State.placeFor (s : State) (l k : Nat) : Option RecPlace :=
  let ring := s.spillRing (k / 96) l
  if decide (8192 ≤ s.unitCount k) || ring.any (fun e => e.2.unit = k) then
    (if ring.length < (s.launches.get? l).elim 0 (·.rc.spill) then some (.spilled (k / 96) k) else none)
  else some (.entering k)

/-- The 32 bytes of a spawn record (R281). -/
def SpawnRec.bytes (r : SpawnRec) : List Byte :=
  natToBytes 4 r.entry.toNat ++ (upTo 4).flatMap (fun i => natToBytes 4 (r.payload.getD i 0).toNat) ++ natToBytes 8 r.join.toNat
    ++ natToBytes 4 (r.prio + r.n * 2 ^ 2 + (if r.hashed then 2 ^ 5 else 0) + r.core * 2 ^ 6 + r.home * 2 ^ 13)

/-- Write a record at the tail of a die's spill ring for its launch (R286, R379). -/
def State.spill (s : State) (x : Nat) (r : SpawnRec) : State :=
  match s.launches.get? r.lseq with
  | none => s
  | some n =>
    let put := n.spillPut.getD x 0
    (s.devWrite (n.spillBase + 32 * n.rc.spill * x + 32 * (put % n.rc.spill)) r.bytes).onLaunch r.lseq
      (fun (n : Launch) => { n with spillPut := n.spillPut.put x (put + 1) })

/-- Place record id at unit k, with the counters of R289, once for a record: none where it is refused. -/
def State.placeAt (s : State) (id : Nat) (r : SpawnRec) (k : Nat) : Option State :=
  (s.placeFor r.lseq k).map (fun p =>
    let s := (s.onRec id (fun r => { r with place := p, born := s.fresh, die := k / 96 })).tick
    let s := if r.again then s else s.count r.srcCore 9 1
    match p with
    | .spilled x _ => ((if r.spilt then s else s.count k 10 1).onRec id (fun r => { r with spilt := true })).spill x r
    | _ => s)

/-- The spawning thread learns the outcome: SPAWN writes its status, SPAWNB goes on once placed (R77, R287). -/
def State.tellSpawner (s : State) (id : Nat) (r : SpawnRec) (ok : Bool) : State :=
  match (s.groups.get? r.srcG).bind (fun g => Tbl.get? g.threads r.srcT) with
  | none => s
  | some th =>
    match th.place with
    | .waiting (.spawn n) at_ hd _ dead =>
      if n ≠ id then s
      else
        let s := match r.status with
          | some p => s.onThread r.srcG r.srcT (fun t => t.writePNow p ok)
          | none => s
        (s.fixEntering r.srcG).retire r.srcG r.srcT hd at_ dead
    | _ => s

/-- Try the refused records that wait at unit k, oldest first: one that stays refused holds the later ones (R287). -/
def State.retryRefused (s : State) (k : Nat) : List (Nat × SpawnRec) → State
  | [] => s
  | (id, r) :: rest =>
    match s.placeAt id r k with
    | some s => (s.tellSpawner id r true).retryRefused k rest
    | none => s

/-- The refused records that wait at unit k, oldest first. -/
def State.refusedAt (s : State) (k : Nat) : List (Nat × SpawnRec) :=
  (s.recs.filter (fun e => e.2.place == .refused k)).sortBy (fun a b => a.2.born ≤ b.2.born)

/-- Record id is refused at unit k: a SPAWN learns it, a SPAWNB waits and retries, and so does a record that a restore
routes again, which has been placed before (R287, R304; log 98). -/
def State.refuseRec (s : State) (id : Nat) (r : SpawnRec) (k : Nat) : State :=
  if r.status.isSome && !r.again then
    (({ s with recs := s.recs.del id }).count r.srcCore 11 1).tellSpawner id r false
  else (s.onRec id (fun r => { r with place := .refused k, born := s.fresh, die := k / 96 })).tick

/-- The arrival of record id at unit k: the refused ones that wait there are served first, and while one still waits no
later record is placed; then the record is placed or refused (R77, R286, R287). -/
def State.arriveAtUnit (s : State) (id : Nat) (r : SpawnRec) (k : Nat) : State :=
  let s := s.retryRefused k (s.refusedAt k)
  match s.placeAt id r k with
  | none => s.refuseRec id r k
  | some s' => if (s.refusedAt k).isEmpty then s'.tellSpawner id r true else s

/-- The die that a record reaches: the one for which its home has bound it, or, where that die is lost since, another
(R282, R349). -/
def State.boundFor (s : State) (r : SpawnRec) : Nat :=
  ((r.bound.filter (fun x => (s.liveDies r.lseq).contains x))).getD (s.targetDie r)

/-- A routed record reaches its target die, where its departure can be completed (R282, R283, R286). -/
def State.routeOne (s : State) (id : Nat) : State :=
  match s.recs.get? id with
  | none => s
  | some r =>
    let x := s.boundFor r
    match s.depart r.die x (!r.again) with
    | none => s.sendLines r.die
    | some s => s.arriveAtUnit id r (96 * x + r.core)

/-- The routed records that arrive with record id: those that shared its bin, in their saved order, or it alone (R304). -/
def State.mates (s : State) (id : Nat) (r : SpawnRec) : List (Nat × SpawnRec) :=
  match r.mate with
  | none => [(id, r)]
  | some b => (s.recs.filter (fun e => e.2.place == .routing && e.2.lseq == r.lseq && e.2.mate == some b)).sortBy
      (fun a b => a.2.born ≤ b.2.born)

/-- RECORD_ROUTE_ARRIVAL (R282, R286). A routed record reaches its target die and is queued, spilled or refused; it is
held while its home stack is in transition. Records that shared a bin before a save arrive one after another. -/
def execRecordRouteArrival (id : Nat) (s : State) : Outcome :=
  .next (match s.recs.get? id with
  | none => s
  | some r =>
    let ms := s.mates id r
    if r.place ≠ .routing || ms.any (fun e => s.packets.any (fun p => p.2.cargo == .record e.1) || s.behind e.1 e.2) then s
    else
      let s := ms.foldl (fun s e => s.comeHome (ms.map (·.1)) e.1 e.2) s
      if ms.all (fun e => (s.recs.get? e.1).elim true (·.bound.isSome)) then ms.foldl (fun s e => s.routeOne e.1) s else s)

/-- SPAWNB_RETRY (R287). A refused SPAWNB is placed once its unit, or the spill ring, has room. -/
def execSpawnbRetry (g t : Nat) (s : State) : Outcome :=
  .next (match (s.groups.get? g).bind (fun gr => Tbl.get? gr.threads t) with
  | none => s
  | some th =>
    match th.place with
    | .waiting (.spawn id) _ _ _ _ =>
      match s.recs.get? id with
      | none => s
      | some r =>
        match r.place with
        | .refused k => s.retryRefused k (s.refusedAt k)
        | _ => s
    | _ => s)

/-- SPILL_REFILL (R286). The head of a spill ring enters its unit once the unit's queue has room. -/
def execSpillRefill (x l : Nat) (s : State) : Outcome :=
  .next (match (s.spillRing x l).head? with
  | none => s
  | some (id, r) =>
    if 8192 ≤ s.unitCount r.unit then s
    else (s.onRec id (fun q => { q with place := .entering r.unit, born := s.fresh })).tick)

/-! ## Bins (R284) -/

/-- The open bins of a unit. -/
def State.openBins (s : State) (k : Nat) : List (Nat × Bin) :=
  s.bins.filter (fun e => e.2.core = k && e.2.closed.isNone)

/-- Change a bin. -/
def State.onBin (s : State) (b : Nat) (f : Bin → Bin) : State := { s with bins := s.bins.modify b f }

/-- Close a bin: it takes its place in the closing order. -/
def State.closeBin (s : State) (b : Nat) : State :=
  (s.onBin b (fun x => if x.closed.isNone then { x with closed := some s.fresh } else x)).tick

/-- Open a bin for a key: a 65th closes the one whose first record entered earliest (R284). -/
def State.openBin (s : State) (k l : Nat) (entry : Word) : State × Nat :=
  let os := s.openBins k
  let s := if 64 ≤ os.length then
      (match (os.sortBy (fun a b => a.2.opened ≤ b.2.opened)).head? with
       | some e => s.closeBin e.1
       | none => s)
    else s
  let b := s.fresh
  ({ s with bins := s.bins.put b ⟨k, l, entry, s.now k, [], none, b⟩ }.tick, b)

/-- The gather window of a launch in core cycles (R171, R284). -/
def LaunchRec.window (r : LaunchRec) : Nat := if r.gather = 0 then 512 else r.gather

/-- The cycle at which the gather window of a bin ends (R284). -/
def State.windowEnd (s : State) (b : Bin) : Nat := b.start + (s.launches.get? b.lseq).elim 512 (·.rc.window)

/-- The open bins of a unit whose gather window has passed close, in the order in which their windows ended (R284). -/
def State.expireBins (s : State) (k : Nat) : State :=
  (((s.openBins k).filter (fun e => decide (s.windowEnd e.2 ≤ s.now k))).sortBy
    (fun a b => s.windowEnd a.2 ≤ s.windowEnd b.2)).foldl (fun s e => s.closeBin e.1) s

/-- A record enters its unit (R284). -/
def State.enterBin (s : State) (id : Nat) (r : SpawnRec) (k : Nat) : State :=
  let s := s.expireBins k
  let (s, b) := match (s.openBins k).find? (fun e => e.2.lseq = r.lseq && e.2.entry = r.entry) with
    | some e => (s, e.1)
    | none => s.openBin k r.lseq r.entry
  let s := (s.onBin b (fun x => { x with recs := x.recs ++ [id] })).onRec id (fun r => { r with place := .binned b })
  if (s.bins.get? b).elim false (fun x => decide (256 ≤ x.recs.length)) then s.closeBin b else s

/-- RECORD_ENTRY (R284). The record placed earliest in a unit's queue enters its bin. -/
def execRecordEntry (id : Nat) (s : State) : Outcome :=
  .next (match s.recs.get? id with
  | none => s
  | some r =>
    match r.place with
    | .entering k =>
      if s.recs.any (fun e => e.2.place == .entering k && decide (e.2.born < r.born)) then s else s.enterBin id r k
    | _ => s)

/-- BIN_WINDOW_EXPIRY (R284). An open bin whose gather window has passed closes. -/
def execBinWindowExpiry (b : Nat) (s : State) : Outcome :=
  .next (match s.bins.get? b with
  | none => s
  | some x => if x.closed.isNone && decide (s.windowEnd x ≤ s.now x.core) then s.expireBins x.core else s)

/-! ## The start of a group (R174, R175, R193) -/

/-- The seed of a thread's generator (R193). -/
def startRng (seed gidx : Dword) : Dword := seed ^^^ (gidx * 0x9E3779B97F4A7C15)

/-- A thread at the entry with some first lanes, those at or above the ceiling lost (R174, R175). -/
def Thread.start (entry : Word) (ceil : Nat) (lanes : List Word) (seed gidx join : Dword) : Thread where
  pc := ⟨entry, 0⟩
  v := (((upTo lanes.length).map (fun i => (i, lanes.getD i 0))).filter (fun e => e.1 < ceil))
  vpois := []
  vsoft := []
  vhard := []
  p := 0
  pend := []
  tok := [0, 0, 0, 0]
  owed := []
  rng := startRng seed gidx
  demand := 0
  age := 0
  place := .ready
  past := false
  seq := 0
  gidx := gidx
  join := join
  hv := []
  chunk := 0
  savedP := none
  wd := 0
  words := 0

/-- A group as it starts: its uniforms, threads and place. -/
def Group.start (n : Launch) (lseq : Nat) (team : Option Nat) (gix role : Nat) (serial : Word) (core quad slot : Nat)
    (ember : Bool) (s : Tbl Word) (ceil resv : Nat) (threads : Tbl Thread) (dwbase : Dword) (dieix : Nat) : Group where
  lseq := lseq
  team := team
  gix := gix
  role := role
  serial := serial
  core := core
  quad := quad
  slot := slot
  ember := ember
  residence := .resident
  s := s
  spois := []
  ssoft := []
  shard := []
  rows := []
  conv := List.replicate 8 (Conv.fresh threads.keys)
  acc := []
  ceil := ceil
  resv := resv
  share := none
  threads := threads
  size := threads.length
  tgt := 0
  rot := 0
  waits := []
  retired := 0
  dwbase := dwbase
  dieix := BitVec.ofNat 32 dieix
  diecnt := BitVec.ofNat 32 n.dies.length
  step := BitVec.ofNat 32 n.stepNow
  faults := []
  lastRec := none
  resolved := []
  verdict := none
  stop := .none
  entering := none
  releasing := []
  faultAt := 0
  handler := none
  packets := 0
  readySince := none
  activeSince := 0
  lastIssue := none
  lastSlot := none
  yielded := false
  dbars := 0
  exitPc := Pc.zero
  recovering := false
  halted := false
  savedAcc := []

/-- The first uniforms of a group (R174, R175). -/
def startUniforms (n : Launch) (s2 s3 : Word) (dieix role : Nat) : Tbl Word :=
  let w := fun (x : Nat) => BitVec.ofNat 32 x
  [(0, w n.rc.args), (1, w (n.rc.args / 2 ^ 32)), (2, s2), (3, s3), (4, w dieix), (5, w n.dies.length), (6, w role),
    (7, w n.stepNow)]

/-! ## The claimants of a core (R223, R292) -/

/-- A parked group whose barrier wait is over waits for a slot of its core (R292). -/
def Group.mayResume (s : State) (g : Group) : Bool :=
  g.residence == .parked && !g.halted && (g.stop == .none) && g.waits.any (fun w => match w.2.kind, g.team with
    | .barrier b, some t => s.barMet g t b w.2
    | _, _ => false)

/-- The parked groups of a core that are ready to resume. -/
def State.resumable (s : State) (k : Nat) : List (Nat × Group) :=
  (s.groupsOn k).filter (fun e => Group.mayResume s e.2)

/-- The core is open for launches, its die not lost (R217, R349). -/
def State.coreOpen (s : State) (k : Nat) : Bool :=
  ((s.core k).mode == .barrel || (s.core k).mode == .recovery) && !(s.die (k / 96)).dying

/-- How a kindled group of a ceiling gets its place on a core: slot, and whether it is the ember reserve; none where it
must wait.  On the ember reserve it takes the slot at once, and waits there for a pool share (R223, R225, R292). -/
def State.kindleRoom (s : State) (k ceil : Nat) : Option (Nat × Nat × Bool) :=
  if !s.coreOpen k then none
  else if s.slots k < 127 ∧ ceil ≤ s.openRows k then
    (if (s.nextClaim k).isSome || !(s.resumable k).isEmpty then none
     else (s.pickSlot k).map (fun p => (p.1, p.2, false)))
  else if s.emberUsed k then none
  else some (3, 127, true)

/-! ## Formation (R285) -/

/-- The choice of R296 among priorities that hold something: the highest that has been skipped 64 times below the top,
else the top. -/
def choosePrio (skip : List Nat) (has : Nat → Bool) : Option Nat :=
  match ([3, 2, 1, 0] : List Nat).find? has with
  | none => none
  | some top => some ((([3, 2, 1, 0] : List Nat).find? (fun q => decide (q < top) && has q && decide (64 ≤ skip.getD q 0))).getD top)

/-- The skip counts after a dispatch at priority p (R296). -/
def bumpSkip (skip : List Nat) (has : Nat → Bool) (p : Nat) : List Nat :=
  (upTo 4).map (fun q => if q = p then 0 else if q < p && has q then skip.getD q 0 + 1 else skip.getD q 0)

/-- The bin that a unit forms next: the one it holds capacity for, else the choice of R285 and R296. -/
def State.nextBin (s : State) (k : Nat) : Option (Nat × Bin) :=
  let rs := s.readyBins k
  match (s.core k).kheld.bind (fun h => rs.find? (fun e => e.1 = h.bin)) with
  | some e => some e
  | none =>
    match choosePrio (s.core k).kskip (fun p => rs.any (fun e => s.prio e.2.lseq = p)) with
    | none => none
    | some p => ((rs.filter (fun e => s.prio e.2.lseq = p)).sortBy (fun a b =>
        a.2.closed.getD 0 ≤ b.2.closed.getD 0)).head?

/-- The widest scope between a group's die and the dies where its records were released (R283). -/
def bornScope (x : Nat) (rs : List SpawnRec) : Nat :=
  (rs.map (fun r => if r.srcCore / 96 = x then 1 else if r.srcCore / 384 = x / 4 then 2 else 4)).foldl max 1

/-- The global thread index of thread i of a kindled group (R175). -/
def kindledIndex (k serial i : Nat) : Dword := BitVec.ofNat 64 (2 ^ 63 + k * 2 ^ 40 + serial * 256 + i)

/-- The threads of a kindled group (R175). -/
def kindledThreads (n : Launch) (k serial : Nat) (entry : Word) (ceil : Nat) (rs : List SpawnRec) : Tbl Thread :=
  (upTo rs.length).map (fun i =>
    let r := rs[i]?
    let pay := r.elim [] (·.payload)
    (i, Thread.start entry ceil ((upTo 4).map (fun j => pay.getD j 0) ++ [BitVec.ofNat 32 i]) n.rc.seed
      (kindledIndex k serial i) (r.elim 0 (·.join))))

/-- Form the kindled group of a closed bin on its place (R175, R225, R285, R289). -/
def State.formGroup (s : State) (b : Nat) (x : Bin) (n : Launch) (place : Nat × Nat × Bool) : State :=
  let (q, slot, ember) := place
  let rs := x.recs.filterMap (fun id => s.recs.get? id)
  let serial := n.kcount.getD x.core 0
  let ceil := n.rc.ceils.getD 0 0
  let die := x.core / 96
  let dieix := n.dies.findIdx (· = die)
  let resv := if ember then max 32 ceil else ceil
  let g := Group.start n x.lseq none 0 0 (BitVec.ofNat 32 serial) x.core q slot ember
    (startUniforms n 0xFFFFFFFF (BitVec.ofNat 32 serial) dieix 0) ceil resv
    (kindledThreads n x.core serial x.entry ceil rs) (s.die die).window dieix
  let g := { g with share := some ⟨if ember then ceil - 32 else 0, bornScope die rs⟩ }
  let s := { s with
    groups := s.groups.put s.fresh g
    fresh := s.fresh + 1
    bins := s.bins.del b
    recs := s.recs.filter (fun e => !x.recs.contains e.1) }
  let s := if ember then s else s.useSpare x.core ceil 1
  let s := s.onLaunch x.lseq (fun n => { n with kcount := n.kcount.put x.core ((serial + 1) % 2 ^ 32) })
  (s.count x.core 12 1).serveShare x.core

/-- The unit holds capacity for a bin from now, where it does not yet (R285, R297). -/
def State.holdFor (s : State) (k b : Nat) : State :=
  if (s.core k).kheld.elim false (·.bin = b) then s
  else s.onCore k (fun c => { c with kheld := some ⟨b, s.openRows k, 127 - s.slots k⟩ })

/-- KINDLED_GROUP_FORMATION (R285). The bin that a unit chooses forms a group when its core grants a slot and rows;
otherwise capacity is held for it. -/
def execKindledGroupFormation (k : Nat) (s : State) : Outcome :=
  let s := (s.expireBins k).serveShare k
  .next (match s.nextBin k with
  | none => s
  | some (b, x) =>
    match s.launches.get? x.lseq with
    | none => s
    | some n =>
      match s.kindleRoom k (n.rc.ceils.getD 0 0) with
      | none => s.holdFor k b
      | some place =>
        let has := fun (p : Nat) => (s.readyBins k).any (fun e => s.prio e.2.lseq = p)
        (s.onCore k (fun c => { c with kskip := bumpSkip c.kskip has (s.prio x.lseq), kheld := none })).formGroup b x n place)

end Sys2Proof.Machine
end

