-- ==== Sys2Proof/Machine/Distribute.lean ====
section
/-! DEFINITION. The life of a launch on the machine (R168, R171 to R180, R183, R294 to R300): the start of a launch and
of a step, the die set, the four distributors, admission of teams, stealing, the step boundary and the end of a grid. -/

namespace Sys2Proof.Machine

/-! ## Distributors (R294 to R297) -/

/-- The distributors by number: 0 the rack's, 1 to 64 the trays', 65 and up the packages'. -/
def State.distAt (s : State) (n : Nat) : Dist :=
  if n = 0 then s.rack else if n ≤ 64 then s.trays.getD (n - 1) Dist.reset else (s.pkg (n - 65)).dist

/-- Change a distributor. -/
def State.onDist (s : State) (n : Nat) (f : Dist → Dist) : State :=
  if n = 0 then { s with rack := f s.rack }
  else if n ≤ 64 then { s with trays := s.trays.put (n - 1) (f (s.trays.getD (n - 1) Dist.reset)) }
  else s.onPkg (n - 65) (fun p => { p with dist := f p.dist })

/-- Change the distributor of a die. -/
def State.onDieDist (s : State) (x : Nat) (f : Dist → Dist) : State := s.onDie x (fun d => { d with dist := f d.dist })

/-- The teams of a queue at a priority, head first: ascending launch, then ascending team (R295, R298). -/
def State.queueAt (s : State) (d : Dist) (p : Nat) : List (Nat × Nat) :=
  (d.queue.filter (fun e => s.mayRun e.1 && s.prio e.1 = p)).sortBy (fun a b =>
    decide (a.1 < b.1) || (a.1 == b.1 && decide (a.2 ≤ b.2)))

/-- The queue at a priority holds a team. -/
def State.hasTeam (s : State) (d : Dist) (p : Nat) : Bool := !(s.queueAt d p).isEmpty

/-- The team that a distributor dispatches next: the one that capacity is held for, else the head of the queue that R296
chooses (R296, R297). -/
def State.nextTeam (s : State) (d : Dist) : Option (Nat × Nat) :=
  match s.heldTeam d with
  | some h => some h
  | none => (choosePrio d.skip (s.hasTeam d)).bind (fun p => (s.queueAt d p).head?)

/-- A team has been dispatched from a distributor (R296). -/
def State.sent (s : State) (d : Dist) (e : Nat × Nat) : Dist :=
  { d with queue := d.queue.erase e, skip := bumpSkip d.skip (s.hasTeam d) (s.prio e.1), held := none, spare := [] }

/-- A team joins a queue. -/
def Dist.add (d : Dist) (e : Nat × Nat) : Dist := { d with queue := d.queue ++ [e] }

/-- The placement hash of a team (R179). -/
def LaunchRec.hash (r : LaunchRec) (team : Nat) : Nat :=
  if r.hfixed then r.hashBase else (r.hashBase + team * r.hashStride) % 2 ^ 32

/-- The home stack of a team (R179). -/
def State.teamHome (s : State) (r : LaunchRec) (team : Nat) : Nat := r.hash team % (8 * s.npkg)

/-- The die on which R179 places a team now: the owner of its home stack, where that die belongs to the step's set, or
else the lowest die of the set; a die out of service takes only pinned teams of its own (R381); none where the set has no
die left for it, and the team waits (DESIGN CHOICE, log 100). -/
def State.teamDie (s : State) (n : Launch) (team : Nat) : Option Nat :=
  let h := s.teamHome n.rc team
  let own := 4 * (h / 8) + (s.stack h).owner
  let set := n.dies.filter (fun x => (s.die x).inService)
  if set.contains own || (n.rc.pinned && n.dies.contains own) then some own else set.head?

/-- The package to which a team goes: its home's where the set has a die there, else the one of the die of R179. -/
def State.teamPackage (s : State) (n : Launch) (team : Nat) : Option Nat :=
  let p := s.teamHome n.rc team / 8
  if n.dies.any (fun x => x / 4 = p && (s.die x).inService) || n.rc.pinned then some p else (s.teamDie n team).map (· / 4)

/-- The home die of a pinned team is x. -/
def State.pinnedTo (s : State) (x : Nat) (e : Nat × Nat) : Bool :=
  (s.launches.get? e.1).elim false (fun n =>
    let h := s.teamHome n.rc e.2
    n.rc.pinned && 4 * (h / 8) + (s.stack h).owner == x)

/-- A distributor holds capacity for a team from now, where it does not yet; at a die, for what comes free on its cores
(R297). -/
def State.holdTeam (s : State) (cores : List Nat) (e : Nat × Nat) (d : Dist) : Dist :=
  if d.held = some e then d
  else { d with held := some e, spare := cores.map (fun k => (k, (s.openRows k, 127 - s.slots k))) }

/-- TEAM_DISPATCH (R179, R294, R296). A distributor of the rack, a tray or a package sends the team it chooses to a
child; a package waits for a steady home stack; capacity is held
for a team that has to wait (R297). -/
def execTeamDispatch (d : Nat) (s : State) : Outcome :=
  .next (match s.nextTeam (s.distAt d) with
  | none => s
  | some e =>
    match s.launches.get? e.1 with
    | none => s
    | some n =>
      let out := s.onDist d (fun x => s.sent x e)
      if d ≤ 64 then
        match s.teamPackage n e.2 with
        | none => s.onDist d (s.holdTeam [] e)
        | some p => out.onDist (if d = 0 then 1 + (s.pkg p).tray else 65 + p) (·.add e)
      else
        match (s.teamDie n e.2).filter (fun _ => (s.stack (s.teamHome n.rc e.2)).st = .steady) with
        | none => s.onDist d (s.holdTeam [] e)
        | some x => out.onDieDist x (·.add e))

/-! ## Admission (R168, R208, R222, R294) -/

/-- The role of group g of a team: role-major (R168). -/
def LaunchRec.roleOf (r : LaunchRec) (g : Nat) : Nat :=
  ((upTo r.roles).find? (fun i => decide (g < ((upTo (i + 1)).map (fun j => r.ngroups.getD j 0)).sum))).getD 0

/-- The groups on team core q (R168). -/
def LaunchRec.groupsOf (r : LaunchRec) (q : Nat) : List Nat := (upTo r.groups).filter (fun g => g % r.cores = q)

/-- The rows that team core q needs (R168, R222). -/
def LaunchRec.rowsOf (r : LaunchRec) (q : Nat) : Nat := ((r.groupsOf q).map (fun g => r.ceils.getD (r.roleOf g) 0)).sum

/-- What a team core takes on its core: rows, group slots and KiB of scratchpad (R3, R168, R222). -/
structure Need where
  rows : Nat
  slots : Nat
  scratch : Nat
  deriving DecidableEq, Repr

/-- Both needs together. -/
def Need.add (a b : Need) : Need := ⟨a.rows + b.rows, a.slots + b.slots, a.scratch + b.scratch⟩

/-- What team core q of a launch's team needs. -/
def LaunchRec.need (r : LaunchRec) (q : Nat) : Need := ⟨r.rowsOf q, (r.groupsOf q).length, r.scratch⟩

/-- KiB of core k's scratchpad that stand allocated to teams (R3, R168). -/
def State.scratchUsed (s : State) (k : Nat) : Nat :=
  ((s.teams.filter (fun e => !e.2.ended && !e.2.saved && e.2.cores.contains k)).map (fun e =>
    (s.launches.get? e.2.lseq).elim 0 (·.rc.scratch))).sum

/-- A kindled group's pool share comes first on core k (R223). -/
def State.shareFirst (s : State) (k : Nat) : Bool :=
  (s.residentOn k).any (fun e => e.2.share.elim false (fun n => n.rows ≠ 0 && decide (n.rows ≤ s.freeRows k)))

/-- Core k can take a need in rows and slots that it holds for no one else, and in its 1,024 KiB of scratchpad (R3, R222,
R223, R285, R294): no pool share and no claim that fits, no group that resumes and no bin that can form stands before it. -/
def State.canTake (s : State) (k : Nat) (n : Need) : Bool :=
  s.coreOpen k && decide (n.rows ≤ (s.spare k).1) && decide (n.slots ≤ (s.spare k).2)
  && decide (s.scratchUsed k + n.scratch ≤ 1024)
  && !s.shareFirst k && (s.nextClaim k).isNone && (s.resumable k).isEmpty
  && (match s.nextBin k with
      | none => true
      | some e => (s.launches.get? e.2.lseq).elim true (fun n => (s.kindleRoom k (n.rc.ceils.getD 0 0)).isNone))

/-- The cores of a die chosen for a team, greedily by free rows (R294); `used` gives what a span's earlier teams take. -/
def State.chooseCores (s : State) (x : Nat) (r : LaunchRec) (used : Tbl Need) : Nat → Nat → List Nat → Option (List Nat)
  | 0, _, acc => some acc
  | n + 1, q, acc =>
    let u := fun (k : Nat) => used.getD k ⟨0, 0, 0⟩
    let ks := ((upTo 96).map (96 * x + ·)).filter (fun k => !acc.contains k && s.canTake k ((r.need q).add (u k)))
    let free := fun (k : Nat) => s.openRows k - (u k).rows
    match (ks.sortBy (fun a b => decide (free b < free a) || (free a == free b && decide (a ≤ b)))).head? with
    | none => none
    | some k => s.chooseCores x r used n (q + 1) (acc ++ [k])

/-- The barrier registers of a team at its start (R66). -/
def startBars (r : LaunchRec) : List Bar :=
  (upTo 16).map (fun b => if b < r.barriers then { Bar.zero with expGroups := r.groups } else Bar.zero)

/-- The threads of group gix of team tix (R174). -/
def launchedThreads (n : Launch) (tix gix ceil : Nat) : Tbl Thread :=
  (upTo 256).map (fun t =>
    let gidx := (tix * n.rc.groups + gix) * 256 + t
    (t, Thread.start n.rc.entry ceil [BitVec.ofNat 32 t, BitVec.ofNat 32 gidx] n.rc.seed (BitVec.ofNat 64 gidx) 0))

/-- Start group gix of a team on a core, in the slot that R208 gives. -/
def State.startGroup (s : State) (l : Nat) (n : Launch) (team tix gix core : Nat) : State :=
  match s.pickSlot core with
  | none => s
  | some (q, slot) =>
    let role := n.rc.roleOf gix
    let ceil := n.rc.ceils.getD role 0
    let die := core / 96
    let dieix := n.dies.findIdx (· = die)
    let g := Group.start n l (some team) gix role 0xFFFFFFFF core q slot false
      (startUniforms n (BitVec.ofNat 32 tix) (BitVec.ofNat 32 gix) dieix role) ceil ceil
      (launchedThreads n tix gix ceil) (s.die die).window dieix
    { s with groups := s.groups.put s.fresh g, fresh := s.fresh + 1 }

/-- Admit a team on its cores: its registers, scratchpads and groups (R168, R174). -/
def State.admitTeam (s : State) (l : Nat) (n : Launch) (tix : Nat) (cores : List Nat) : State :=
  let team := s.fresh
  let t : Team := ⟨l, tix, n.stepNow, cores, startBars n.rc, cores.map (fun _ => []), cores.map (fun _ => []),
    cores.map (fun _ => 0), [], [], false, false, none, false, []⟩
  let s := { s with teams := s.teams.put team t, fresh := s.fresh + 1 }
  let s := (upTo cores.length).foldl (fun s q => s.useSpare (cores.getD q 0) (n.rc.need q).rows (n.rc.need q).slots) s
  (upTo n.rc.groups).foldl (fun s g => s.startGroup l n team tix g (cores.getD (g % n.rc.cores) 0)) s

/-- What a team's admission would take, added to a plan. -/
def LaunchRec.plan (r : LaunchRec) (used : Tbl Need) (cores : List Nat) : Tbl Need :=
  (upTo cores.length).foldl (fun u q =>
    let k := cores.getD q 0
    u.put k ((u.getD k ⟨0, 0, 0⟩).add (r.need q))) used

/-- The cores of every team of a die's span, chosen one after another; none where the span does not fit (R178). -/
def State.planSpan (s : State) (x : Nat) (r : LaunchRec) : List Nat → Tbl Need → List (Nat × List Nat) →
    Option (List (Nat × List Nat))
  | [], _, acc => some acc
  | t :: rest, used, acc =>
    match s.chooseCores x r used r.cores 0 [] with
    | none => none
    | some cs => s.planSpan x r rest (r.plan used cs) (acc ++ [(t, cs)])

/-- The teams of a launch that a die's distributor holds, ascending. -/
def State.spanTeams (s : State) (l x : Nat) : List Nat :=
  (((s.die x).dist.queue.filter (fun e => e.1 = l)).map (·.2)).sortBy (· ≤ ·)

/-- The plan of a launch's whole span on a die. -/
def State.spanPlan (s : State) (l x : Nat) (n : Launch) : Option (List (Nat × List Nat)) :=
  s.planSpan x n.rc (s.spanTeams l x) [] []

/-- The plans of every die span of a die-resident step; none while a team is still on its way, a distributor with a span
of the launch has chosen another team, or a span does not fit (R177, R178, R296, R297). -/
def State.planAll (s : State) (l : Nat) (n : Launch) : Option (List (Nat × List (Nat × List Nat))) :=
  let held := (n.dies.map (fun x => (s.spanTeams l x).length)).sum
  let on := n.dies.filter (fun x => !(s.spanTeams l x).isEmpty)
  if held ≠ n.rc.teams || on.any (fun x => (s.nextTeam (s.die x).dist).elim true (fun e => e.1 ≠ l)) then none
  else
    let ps := on.map (fun x => (s.spanPlan l x n).map (fun p => (x, p)))
    if ps.any (·.isNone) then none else some (ps.filterMap id)

/-- Admit every die span of a die-resident step. -/
def State.admitSpans (s : State) (l : Nat) (n : Launch) (ps : List (Nat × List (Nat × List Nat))) : State :=
  ps.foldl (fun s p =>
    p.2.foldl (fun s t => (s.onDieDist p.1 (fun d => s.sent d (l, t.1))).admitTeam l n t.1 t.2) s) s

/-- TEAM_ADMIT (R222, R294). A die distributor admits the team it chooses to cores with enough rows and slots, all the
spans of a die-resident step together (R177, R178); a team or a span that does not fit has capacity held for it (R297); a die out of
service admits only pinned teams of its own (R381). -/
def execTeamAdmit (x : Nat) (s : State) : Outcome :=
  .next (match s.nextTeam (s.die x).dist with
  | none => s
  | some e =>
    match s.launches.get? e.1 with
    | none => s
    | some n =>
      let hold := fun (s : State) => s.onDieDist x (s.holdTeam ((upTo 96).map (96 * x + ·)) e)
      if !(s.die x).inService && !s.pinnedTo x e then s
      else if n.rc.dieres then
        match s.planAll e.1 n with
        | some ps => s.admitSpans e.1 n ps
        | none => if (s.spanPlan e.1 x n).isNone then hold s else s
      else
        match s.chooseCores x n.rc [] n.rc.cores 0 [] with
        | some cs => (s.onDieDist x (fun d => s.sent d e)).admitTeam e.1 n e.2 cs
        | none => hold s)

/-! ## Steps and die sets (R176, R177, R179) -/

/-- A die may join a step: it belongs to a package of the domain that is not lost, and is in service (R177, R381). -/
def State.usable (s : State) (x : Nat) : Bool :=
  decide (x < 4 * s.npkg) && !(s.pkg (x / 4)).lost && !(s.die x).lost && (s.die x).inService

/-- The home dies of the pinned teams of a step, without repeats. -/
def State.pinnedDies (s : State) (r : LaunchRec) : List Nat :=
  if r.pinned then ((upTo r.teams).map (fun t =>
    let h := s.teamHome r t
    4 * (h / 8) + (s.stack h).owner)).dedup
  else []

/-- The die set of the next step, or the reason for which the grid ends (R177, R179; where a pinned home is not usable and too
few dies are usable as well, reason 2 is the one given: DESIGN CHOICE, log 100). -/
def State.chooseDies (s : State) (r : LaunchRec) : Except Nat (List Nat) :=
  let pins := s.pinnedDies r
  let all := s.allDies.filter s.usable
  if pins.any (fun x => !s.usable x) || decide (r.maxDies < pins.length) then .error 2
  else if all.length < r.minDies then .error 1
  else
    let more := (all.filter (fun x => !pins.contains x)).take (r.maxDies - pins.length)
    .ok ((pins ++ more).sortBy (· ≤ ·))

/-- The home stacks of a launch's pinned teams are steady: a step of it starts then, since a team is placed by the owner
of its home once that is steady (R177, R179, R309). -/
def State.pinsSteady (s : State) (r : LaunchRec) : Bool :=
  !r.pinned || (upTo r.teams).all (fun t => (s.stack (s.teamHome r t)).st == .steady)

/-- Start a step: its die set is chosen and its teams go to the rack distributor; each die acquires at rack scope, and
none where a home in transition holds that, or the choice (R176, R177, R179, R316). -/
def State.startStep (s : State) (l step : Nat) : Option State :=
  match s.launches.get? l with
  | none => none
  | some n =>
    if !s.pinsSteady n.rc then none
    else match s.chooseDies n.rc with
    | .error reason => some (s.endGrid l reason 0)
    | .ok dies =>
      if dies.all (fun x => s.acquireOpen x false) then
        let s := dies.foldl (fun s x => s.acquireLines x false) s
        let s := s.setStatus l (fun n => { n with
          stepNow := step, dies := dies, teamsLeft := n.rc.teams, stepOpen := true, colls := [] })
        some { s with rack := { s.rack with queue := s.rack.queue ++ (upTo n.rc.teams).map (fun t => (l, t)) } }
      else none

/-- The dirty bytes that the dies of a launch's next step hold for other packages go out before they acquire (R176, R254). -/
def State.sendChosen (s : State) (r : LaunchRec) : State :=
  match s.chooseDies r with
  | .ok dies => dies.foldl (fun s x => s.sendLines x) s
  | .error _ => s

/-- A prerequisite that has ended refused or grid terminated, by its place (R173). -/
def State.badPrereq (s : State) (r : LaunchRec) : Option Nat :=
  (upTo 4).find? (fun i => r.prereq.getD i 0 ≠ 0
    && (s.launches.get? (r.prereq.getD i 0)).elim false (fun n => n.state = 5 || n.state = 6))

/-- Every prerequisite has ended complete, or is neither queued nor running (R173). -/
def State.prereqsDone (s : State) (r : LaunchRec) : Bool :=
  r.prereq.all (fun q => q = 0 || (s.launches.get? q).elim true (fun n => n.state = 3 || n.state = 4))

/-- LAUNCH_START (R173). A launch that waits on its prerequisites starts, or is refused with reason 15. -/
def execLaunchStart (l : Nat) (s : State) : Outcome :=
  .next (match s.launches.get? l with
  | none => s
  | some n =>
    if n.state ≠ 1 || n.ending.isSome then s
    else
      match s.badPrereq n.rc with
      | some i => s.setStatus l (fun n => { n with state := 6, reason := 15, detail := i })
      | none =>
        if s.prereqsDone n.rc then ((s.setStatus l (fun n => { n with state := 2 })).startStep l 0).getD (s.sendChosen n.rc)
        else s)

/-- Everything of a launch's step has ended: its teams, kindled groups, records, jobs and writes, saved work included
(R176, R183, R305). -/
def State.stepDone (s : State) (l : Nat) (n : Launch) : Bool :=
  n.state = 2 && n.preempt.isNone && n.resuming.isNone && n.stepOpen && n.teamsLeft = 0
  && s.groups.all (fun e => e.2.lseq ≠ l) && s.recs.all (fun e => e.2.lseq ≠ l) && n.savedJobs.isEmpty
  && !s.writesDue l

/-- STEP_BOUNDARY (R176, R177). A completed step ends with a release at rack scope and the next one starts. -/
def execStepBoundary (l : Nat) (s : State) : Outcome :=
  .next (match s.launches.get? l with
  | none => s
  | some n =>
    if s.stepDone l n && decide (n.stepNow + 1 < n.rc.steps) then
      (match s.releaseStep n with
       | none => s.sendStep n
       | some s' => (s'.startStep l (n.stepNow + 1)).getD (s.sendChosen n.rc))
    else s)

/-- GRID_COMPLETE (R183). After the last step, or after the end of a grid's work, the final STATE is written, as a release
at rack scope. -/
def execGridComplete (l : Nat) (s : State) : Outcome :=
  .next (match s.launches.get? l with
  | none => s
  | some n =>
    if n.ending.isSome then s.finishGrid l
    else if s.stepDone l n && decide (n.rc.steps ≤ n.stepNow + 1) then
      (match s.releaseStep n with
       | none => s.sendStep n
       | some s => s.setStatus l (fun n => { n with
           state := if n.terminated = 0 then 3 else 4, stepOpen := false, dies := [] }))
    else s)

/-! ## Stealing (R283, R299, R300) -/

/-- Ready bins of a die that may be stolen to die x (R300). -/
def State.stealBins (s : State) (y x : Nat) : List (Nat × Bin) :=
  s.bins.filter (fun e => decide (e.2.core / 96 = y) && e.2.closed.isSome && s.mayRun e.2.lseq
    && (s.launches.get? e.2.lseq).elim false (fun n => !n.rc.pinned && n.dies.contains x))

/-- Distributors, by number as above, and dies among whose work an idle die looks for an item (R299). -/
structure Pool where
  key : Nat
  dists : List Nat
  dies : List Nat
  deriving DecidableEq, Repr

/-- The queues of a pool. -/
def State.poolQueues (s : State) (p : Pool) : List Dist := p.dists.map s.distAt ++ p.dies.map (fun y => (s.die y).dist)

/-- Queued teams plus ready bins of a pool (R299). -/
def State.poolWork (s : State) (p : Pool) : Nat :=
  ((s.poolQueues p).map (·.queue.length)).sum + (s.bins.filter (fun e => p.dies.contains (e.2.core / 96) && e.2.closed.isSome)).length

/-- Queued teams of a pool that may be stolen to die x (R300). -/
def State.poolTeams (s : State) (p : Pool) (x : Nat) : List (Nat × Nat) :=
  (s.poolQueues p).flatMap (fun d => d.queue.filter (fun e => s.mayRun e.1 && (s.launches.get? e.1).elim false (fun n =>
    !n.rc.pinned && !n.rc.dieres && n.dies.contains x)))

/-- Ready bins of a pool that may be stolen to die x (R300). -/
def State.poolBins (s : State) (p : Pool) (x : Nat) : List (Nat × Bin) := p.dies.flatMap (fun y => s.stealBins y x)

/-- A die distributor is idle (R299). -/
def State.idleDie (s : State) (x : Nat) : Bool :=
  (s.die x).dist.queue.isEmpty && s.bins.all (fun e => e.2.core / 96 ≠ x || e.2.closed.isNone)
  && ((upTo 96).any (fun i => decide (s.slots (96 * x + i) < 127)))

/-- Every die distributor of a package is idle. -/
def State.idlePackage (s : State) (p : Nat) : Bool := (upTo 4).all (fun i => s.idleDie (4 * p + i))

/-- The pool with the most queued teams plus ready bins among those that hold something for die x, the lowest key winning a
tie (R299). -/
def State.mostOf (s : State) (ps : List Pool) (x : Nat) : Option Pool :=
  ((ps.filter (fun p => !(s.poolTeams p x).isEmpty || !(s.poolBins p x).isEmpty)).sortBy (fun a b =>
    decide (s.poolWork b < s.poolWork a) || (s.poolWork a == s.poolWork b && decide (a.key ≤ b.key)))).head?

/-- A die as a pool. -/
def Pool.ofDie (y : Nat) : Pool := ⟨y, [], [y]⟩
/-- A package as a pool: its distributor and its dies. -/
def Pool.ofPackage (p : Nat) : Pool := ⟨p, [65 + p], (upTo 4).map (4 * p + ·)⟩
/-- A tray as a pool: its distributor, and those and the dies of its packages. -/
def State.trayPool (s : State) (t : Nat) : Pool :=
  let ps := (upTo s.npkg).filter (fun q => (s.pkg q).tray = t)
  ⟨t, (1 + t) :: ps.map (65 + ·), ps.flatMap (fun p => (upTo 4).map (4 * p + ·))⟩

/-- The pool from which die x steals: a sibling die of its package; where all four are idle, another package of the tray;
where every package of the tray is idle, another tray of the rack (R299). -/
def State.stealFrom (s : State) (x : Nat) : Option Pool :=
  let p := x / 4
  let tray := (s.pkg p).tray
  match s.mostOf ((((upTo 4).map (4 * p + ·)).filter (· ≠ x)).map Pool.ofDie) x with
  | some y => some y
  | none =>
    if !s.idlePackage p then none
    else
      let mates := (upTo s.npkg).filter (fun q => (s.pkg q).tray = tray)
      match s.mostOf ((mates.filter (· ≠ p)).map Pool.ofPackage) x with
      | some y => some y
      | none =>
        if mates.all s.idlePackage then
          s.mostOf (((((upTo s.npkg).map (fun q => (s.pkg q).tray)).dedup).filter (· ≠ tray)).map s.trayPool) x
        else none

/-- The youngest queued team that may be stolen: the highest team of the lowest priority (R299). -/
def State.youngest (s : State) (y : Pool) (x : Nat) : Option (Nat × Nat) :=
  ((s.poolTeams y x).sortBy (fun a b => decide (s.prio a.1 < s.prio b.1)
    || (s.prio a.1 == s.prio b.1 && (decide (b.2 < a.2) || (a.2 == b.2 && decide (b.1 ≤ a.1)))))).head?

/-- A team leaves the queue of a distributor, with the capacity that is held for it. -/
def Dist.remove (d : Dist) (e : Nat × Nat) : Dist :=
  { d with
    queue := d.queue.erase e
    held := if d.held = some e then none else d.held
    spare := if d.held = some e then [] else d.spare }

/-- A team leaves the queues of a pool. -/
def State.takeFrom (s : State) (y : Pool) (e : Nat × Nat) : State :=
  y.dies.foldl (fun s x => s.onDieDist x (·.remove e)) (y.dists.foldl (fun s n => s.onDist n (·.remove e)) s)

/-- The unit of a die that takes a stolen bin of n records: the core with the most free rows that can take its group, where
the unit's queue has room for the records (R294, R299; the room is DESIGN CHOICE, log 100). -/
def State.binCore (s : State) (x ceil n : Nat) : Option Nat :=
  let ks := ((upTo 96).map (96 * x + ·)).filter (fun k => s.coreOpen k && decide (s.slots k < 127) && decide (ceil ≤ s.openRows k)
    && decide (s.unitCount k + n ≤ 8192))
  (ks.sortBy (fun a b => decide (s.openRows b < s.openRows a) || (s.openRows a == s.openRows b && decide (a ≤ b)))).head?

/-- A stolen bin leaves its die and stands as a new closed bin on a unit that has room for its records (R283, R299; the room is
DESIGN CHOICE, log 100). -/
def State.moveBin (s : State) (b : Nat) (x : Bin) (k : Nat) : State :=
  match s.depart (x.core / 96) (k / 96) false with
  | none => s.sendLines (x.core / 96)
  | some s =>
    let s := (s.onBin b (fun x => { x with core := k, closed := some s.fresh })).tick
    x.recs.foldl (fun s id => s.onRec id (fun r => { r with die := k / 96 })) s

/-- WORK_STEAL (R299). An idle die in service takes one team or ready bin. -/
def execWorkSteal (x : Nat) (s : State) : Outcome :=
  .next (if !s.idleDie x || !(s.die x).inService then s
  else
    match s.stealFrom x with
    | none => s
    | some y =>
      match s.youngest y x with
      | some e => (s.takeFrom y e).onDieDist x (·.add e)
      | none =>
        match ((s.poolBins y x).sortBy (fun a b => b.2.closed.getD 0 ≤ a.2.closed.getD 0)).head? with
        | none => s
        | some (b, bin) =>
          match s.launches.get? bin.lseq with
          | none => s
          | some n =>
            match s.binCore x (n.rc.ceils.getD 0 0) bin.recs.length with
            | none => s
            | some k => s.moveBin b bin k)

end Sys2Proof.Machine
end

