-- ==== Sys2Proof/Machine/Park.lean ====
section
/-! DEFINITION. Parking (R290 to R293), the active sets' events (R210 to R217), wait codes (R331), the entry into a trap
handler by its events (R224, R337, R341), and the image of a group that is set aside (R291). -/

namespace Sys2Proof.Machine

/-! ## Waits as the watchdog counts and names them (R330, R331) -/

/-- What a count has reached at a cycle. -/
def Watch.count (w : Watch) (now : Nat) : Nat := w.acc + (now - w.from_)

/-- A wait of a group or a thread: its code, barrier, thread, PC and count (R331). -/
structure WaitInfo where
  code : Nat
  bar : Nat
  thread : Nat
  pc : Pc
  watch : Watch
  deriving DecidableEq, Repr

/-- The code and barrier of a group wait; none for what is a token wait, or no wait that R331 lists. -/
def GWait.code (w : GWait) : Option (Nat × Nat) :=
  match w.kind with
  | .barrier b => some (2, b)
  | .any _ => some (3, 0)
  | .dbar => some (4, 0)
  | .claim _ => some (5, 0)
  | .bind _ => some (9, 0)
  | .entry _ _ => some (10, 0)
  | .handover _ _ | .form _ _ _ => none
  | .again _ _ => match w.i with
    | .bararrw _ d => some (2, d.toNat)
    | .dbar _ => some (4, 0)
    | _ => none

/-- The code and barrier of a word during its signing: of the wait that follows it, or 1 (R331). -/
def signCode : Instr → Nat × Nat
  | .barwait _ d => (2, d.toNat)
  | .bararrw _ d => (2, d.toNat)
  | .waitany _ _ _ _ => (3, 0)
  | .dbar _ => (4, 0)
  | .regclm _ _ => (5, 0)
  | _ => (1, 0)

/-- The executed waits of a group, earliest first. -/
def Group.convWaits (g : Group) : List WaitInfo :=
  (g.waits.filterMap (fun w => w.2.code.map (fun c =>
    (⟨c.1, c.2, (w.2.sigs.map (·.t)).headD 0, w.2.at_.pc, w.2.watch⟩ : WaitInfo))))

/-- The signings of a group that have begun, those that a handler has set aside among them. -/
def Group.signWaits (g : Group) : List WaitInfo :=
  (g.conv ++ g.handler.elim [] (·.savedConv)).filterMap (fun c => match c.bound, c.signed with
    | some b, x :: _ => let k := signCode b.i; some ⟨k.1, k.2, x.t, b.at_.pc, b.watch⟩
    | _, _ => none)

/-- The wait of a thread alone (R83, R124, R161): SPAWN that is under way and a ring form that is not queued are none. -/
def State.threadWait (s : State) (t : Nat) (th : Thread) : Option WaitInfo :=
  match th.place with
  | .waiting (.join _) at_ _ w _ => some ⟨7, 0, t, at_.pc, w⟩
  | .waiting (.spawn id) at_ _ w _ =>
    if (s.recs.get? id).elim false (·.status.isNone) then some ⟨6, 0, t, at_.pc, w⟩ else none
  | .waiting (.request r) at_ _ w _ =>
    (match (s.reqs.get? r).map (·.stage) with
     | some (ReqStage.queued _) => some ⟨8, 0, t, at_.pc, w⟩
     | _ => none)
  | .returned pc w => some ⟨12, 0, t, pc, w⟩
  | _ => none

/-- The waits of a group's threads alone, in ascending thread. -/
def State.threadWaits (s : State) (g : Group) : List WaitInfo := g.threads.filterMap (fun e => s.threadWait e.1 e.2)

/-- The wait for the trap reserve: of the threads that will enter the handler, where they stand. -/
def Group.reserveWaits (g : Group) : List WaitInfo :=
  match g.stop with
  | .reserve w =>
    let t := (g.threads.find? (fun e => !e.2.blocked))
    [⟨11, 0, t.elim 0 (·.1), t.elim Pc.zero (·.2.pc), w⟩]
  | _ => []

/-- Every blocking wait of a group: convergent ones first. -/
def State.allWaits (s : State) (g : Group) : List WaitInfo :=
  g.convWaits ++ g.signWaits ++ g.reserveWaits ++ s.threadWaits g

/-- The waits of a group that count: a stopped group counts only its wait for the trap reserve (R224, R346). -/
def State.countingWaits (s : State) (g : Group) : List WaitInfo :=
  if g.residence == .saved || g.halted then []
  else if g.stop = .none ∨ g.stop = .last then s.allWaits g
  else g.reserveWaits

/-- The wait code of a group and its barrier (R331, R351). -/
def State.waitCode (s : State) (g : Group) : Nat × Nat :=
  match s.allWaits g with
  | [] => (0, 0)
  | w :: _ => if g.residence == .parked then (13, w.bar) else (w.code, w.bar)

/-- The PC that a diagnostic record gives for a group (R351). -/
def Group.diagPc (g : Group) : Pc :=
  match g.convWaits ++ g.signWaits with
  | w :: _ => w.pc
  | [] => (g.threads.head?).elim Pc.zero (·.2.pc)

/-! ## The image of a group (R291) -/

/-- Bytes of a set of numbers as a mask of n bytes. -/
def maskBytes (n : Nat) (l : List Nat) : List Byte := natToBytes n ((l.map (2 ^ ·)).foldl (· ||| ·) 0)

/-- Zero bytes. -/
def zeros (n : Nat) : List Byte := List.replicate n 0

/-- A PC in 8 bytes: offset, index. -/
def Pc.bytes (p : Pc) : List Byte := natToBytes 4 p.off.toNat ++ natToBytes 4 p.ix

/-- A convergence register in 80 bytes (R291). -/
def Conv.bytes (c : Conv) : List Byte :=
  maskBytes 32 c.members ++ maskBytes 32 (c.signed.map (·.t)) ++ (c.bound.elim (zeros 8) (fun b => b.at_.pc.bytes)) ++ zeros 8

/-- The head of a group's image, 4,096 bytes: PC, index and barrier of its wait, its count, the quad at 0x10, and the
names that are kept (R291, R354). -/
def Group.headBytes (g : Group) (pc : Word) (ix bar wd : Nat) (extra : Nat) (keepS keepP : Nat → Bool) : List Byte :=
  let th := fun (t : Nat) => Tbl.get? g.threads t
  natToBytes 4 pc.toNat ++ natToBytes 4 (ix % 16 + g.ceil * 2 ^ 4 + bar % 16 * 2 ^ 12) ++ natToBytes 8 wd
  ++ natToBytes 16 extra ++ maskBytes 32 g.threads.keys ++ g.conv.flatMap Conv.bytes
  ++ natToBytes 4 (g.tgt.toNat + g.rot * 2 ^ 16) ++ zeros 60
  ++ (upTo 128).flatMap (fun n => natToBytes 4 (if keepS n then (Tbl.getD g.s n 0).toNat else 0))
  ++ (upTo 256).flatMap (fun t => natToBytes 1 ((th t).elim 0 (fun x =>
      ((upTo 7).map (fun i => if keepP i && x.p.getLsbD i then 2 ^ i else 0)).sum)))
  ++ (upTo 256).flatMap (fun t => natToBytes 8 ((th t).elim 0 (·.rng.toNat)))
  ++ maskBytes 16 (g.spois.filter keepS) ++ zeros 496

/-- A row of a vector name in 1,088 bytes: lanes, valid bits, poisoned marks (R291). -/
def rowBytes (threads : Tbl Thread) (lane : Thread → Option Word) (bad : Thread → Bool) : List Byte :=
  (upTo 256).flatMap (fun t => natToBytes 4 (((Tbl.get? threads t).bind lane).elim 0 BitVec.toNat))
  ++ maskBytes 32 ((threads.filter (fun e => (lane e.2).isSome)).map (·.1))
  ++ maskBytes 32 ((threads.filter (fun e => bad e.2)).map (·.1))

/-- The row of vector name n of a group. -/
def Group.rowOf (g : Group) (n : Nat) : List Byte :=
  rowBytes g.threads (fun t => Tbl.get? t.v n) (fun t => t.vpois.contains n)

/-- The names of a carry mask, ascending. -/
def carried {w : Nat} (m : BitVec w) : List Nat := (upTo w).filter m.getLsbD

/-- The address of the phase record of group gix of team tix (R291). -/
def LaunchRec.phaseAt (r : LaunchRec) (tix gix : Nat) : Nat :=
  r.phaseRec + (tix * r.groups + gix) * (4096 + 1088 * (carried r.carryV).length)

/-- The phase record of a group that waits at barrier b (R291). -/
def Group.phaseRecord (g : Group) (r : LaunchRec) (w : GWait) (b now : Nat) : List Byte :=
  g.headBytes w.at_.pc.off w.at_.pc.ix b (w.watch.count now) 0 r.carryS.getLsbD r.carryP.getLsbD
  ++ (carried r.carryV).flatMap g.rowOf

/-! ## Parking and resumption (R290, R292) -/

/-- The barrier wait in which a group may park: every live thread signs it, no token is outstanding, no handler runs and
no fault is pending (R290). -/
def State.parkWait (s : State) (g : Group) : Option (Nat × GWait × Nat) :=
  match g.waits with
  | [(w, x)] =>
    match x.kind, g.team with
    | .barrier b, some t =>
      if s.parkable g && g.residence == .resident && !g.handling && g.stop == .none && !g.halted
        && !s.barMet g t b x
        && g.threads.all (fun e => x.sigs.any (fun q => q.t = e.1) && e.2.tok.all (· = 0)) then some (w, x, b)
      else none
    | _, _ => none
  | _ => none

/-- Something waits for a slot of core k and none is free: a parked group that resumes, a ready bin, or a team
(R290). -/
def State.slotWanted (s : State) (k : Nat) : Bool :=
  decide (127 ≤ s.slots k) && (!(s.resumable k).isEmpty || !(s.readyBins k).isEmpty
    || (s.nextTeam (s.die (k / 96)).dist).isSome)

/-- No group of the core that could park began its wait earlier (R290). -/
def State.parksFirst (s : State) (k born : Nat) : Bool :=
  (s.residentOn k).all (fun e => (s.parkWait e.2).elim true (fun p => decide (born ≤ p.2.1.born)))

/-- A pre-emption with a phase tier is pending for a group's launch (R301, R302). -/
def State.phaseTier (s : State) (g : Group) : Bool :=
  (s.launchOf g).elim false (fun n => n.preempt.any (fun p => !p.full))

/-- The ECC check of everything that a group's image holds: its own words, and a handler's words of the trap reserve
(R228). -/
def State.scrubAll (s : State) (g : Nat) (gr : Group) : State :=
  let keys := upTo 128 ++ (if gr.handling then (upTo 16).map (· + 240) else [])
  (gr.threads.keys.foldl (fun s t => s.scrubLaneKeys g t keys) s).scrubUniformKeys g keys

/-- A team that is parked or pre-empted loses its sectors of the operand cache on a core (R234). -/
def State.dropSectors (s : State) (k t : Nat) : State :=
  s.onCore k (fun c => { c with opcache := c.opcache.filter (·.team ≠ t) })

/-- Park a group: its phase record is written, its rows and its slot are freed (R221, R290). -/
def State.park (s : State) (g : Nat) (gr : Group) (n : Launch) (w : GWait) (b : Nat) : State :=
  let s := s.onGroup g (·.keepCarry n.rc)
  let s := s.scrubAll g gr
  match s.groups.get? g with
  | none => s
  | some gr =>
    let tix := (s.teamOf gr).elim 0 (·.tix)
    let s := (s.devWrite (n.rc.phaseAt tix gr.gix) (gr.phaseRecord n.rc w b (s.now gr.core))).dropSectors gr.core
      (gr.team.getD 0)
    (s.leaveQuad g gr).onGroup g (fun gr => { gr with residence := .parked, rows := [] })

/-- A number of n bytes at an offset. -/
def numAt (b : List Byte) (o n : Nat) : Nat := bytesToNat ((b.drop o).take n)

/-- The lane words of a thread in a phase record, of the m-th carried name n: its word where the lane is valid, and whether it
is poisoned, by its mark or in memory (R229, R247, R291; log 105). -/
def laneBack (b : List Byte) (bad : Nat → Bool) (t m : Nat) : Option Word × Bool :=
  let o := 4096 + 1088 * m
  if (numAt b (o + 1024 + t / 8) 1).testBit (t % 8) then
    (some (BitVec.ofNat 32 (numAt b (o + 4 * t) 4)), (numAt b (o + 1056 + t / 8) 1).testBit (t % 8) || bad (o + 4 * t))
  else (none, false)

/-- A thread takes its carried names, its predicates and its generator from a phase record (R291). -/
def Thread.readBack (b : List Byte) (bad : Nat → Bool) (names : List Nat) (t : Nat) (th : Thread) : Thread :=
  let lanes := names.mapIdx (fun m n => (n, laneBack b bad t m))
  { th with
    v := lanes.filterMap (fun e => e.2.1.map (fun w => (e.1, w)))
    vpois := (lanes.filter (·.2.2)).map (·.1)
    p := BitVec.ofNat 7 (numAt b (0x500 + t) 1)
    rng := BitVec.ofNat 64 (numAt b (0x600 + 8 * t) 8) }

/-- A group takes its ceiling, its tgt and rot, and its registers from its phase record; its wait, its members and its
convergence registers stand in State (R291, R292; log 105). -/
def Group.readBack (g : Group) (rc : LaunchRec) (b : List Byte) (bad : Nat → Bool) : Group :=
  let ss := carried rc.carryS
  { g with
    ceil := numAt b 4 4 / 16 % 256
    tgt := BitVec.ofNat 16 (numAt b 0x2C0 2)
    rot := numAt b 0x2C2 1 % 8
    s := ss.map (fun n => (n, BitVec.ofNat 32 (numAt b (0x300 + 4 * n) 4)))
    spois := ss.filter (fun n => (numAt b 0xE00 16).testBit n || bad (0x300 + 4 * n))
    threads := g.threads.map (fun e => (e.1, e.2.readBack b bad (carried rc.carryV) e.1)) }

/-- A parked group's phase record is read back (R291). -/
def State.unpark (s : State) (g : Nat) : State :=
  match s.groups.get? g with
  | none => s
  | some gr =>
    match s.launchOf gr with
    | none => s
    | some n =>
      let a := n.rc.phaseAt ((s.teamOf gr).elim 0 (·.tix)) gr.gix
      let b := s.devRead a (4096 + 1088 * (carried n.rc.carryV).length)
      s.onGroup g (·.readBack n.rc b (fun o => (s.homeRead (a + o) 4).2))

/-- A group that waits at a barrier of a parkable team parks, where a pre-emption or a claimant of its slot is pending
(R290). -/
def State.tryPark (s : State) (g : Nat) : State :=
  match s.groups.get? g with
  | none => s
  | some gr =>
    match s.parkWait gr, s.launchOf gr with
    | some (_, x, b), some n =>
      if s.phaseTier gr || (s.slotWanted gr.core && s.parksFirst gr.core x.born) then s.park g gr n x b else s
    | _, _ => s

/-- GROUP_PARK (R290). A group that waits at a barrier of a parkable team parks for a pending pre-emption or for a
claimant of its slot. -/
def execGroupPark (g : Nat) (s : State) : Outcome := .next (s.tryPark g)

/-- The groups of a core park at the first moment at which they may (R290). -/
def State.parkDue (s : State) (k : Nat) : State := (s.residentOn k).foldl (fun s e => s.tryPark e.1) s

/-- The cycle of a group's last issue or slot, on the core that it comes to: on another core its slots count from now, so
that none is less than 8 cycles from the next (R26). -/
def Group.lastOn (g : Group) (core now : Nat) (c : Option Nat) : Option Nat := if g.core = core then c else some now

/-- A group takes a slot of a core (R208). -/
def State.takeSlot (s : State) (g core : Nat) (p : Nat × Nat) : State :=
  (s.useSpare core 0 1).onGroup g (fun gr => { gr with
    core := core, quad := p.1, slot := p.2, residence := .resident, readySince := none, yielded := false, rows := []
    lastIssue := gr.lastOn core (s.now core) gr.lastIssue, lastSlot := gr.lastOn core (s.now core) gr.lastSlot })

/-- PARKED_GROUP_RESUME (R291, R292). A parked group whose barrier has completed takes a slot of its core and reads its
record back; its wait then takes effect. -/
def execParkedGroupResume (g : Nat) (s : State) : Outcome :=
  .next (match s.groups.get? g with
  | none => s
  | some gr =>
    if !Group.mayResume s gr || decide (127 ≤ s.slots gr.core) then s
    else
      match s.pickSlot gr.core, gr.waits, gr.team with
      | some p, (w, x) :: _, some t =>
        match x.kind with
        | .barrier b => (((s.takeSlot g gr.core p).unpark g).passBarrier g t b).finishWait g w x
        | _ => s
      | _, _, _ => s)

/-! ## Active sets and modes (R212, R213, R217) -/

/-- ACTIVE_ENTRY_FILL (R213). A ready pending group enters an empty active entry. -/
def execActiveEntryFill (k q e : Nat) (s : State) : Outcome := .next (s.fillEntry k q e)

/-- A core leaves recovery once every restored group has passed a barrier or exited, or 2^16 cycles after the last restore
began (R217). -/
def State.endRecovery (s : State) (k : Nat) : State :=
  if (s.core k).mode = .recovery ∧ (s.core k).nextMode = none
      ∧ ((s.groupsOn k).all (fun e => !e.2.recovering) ∨ (s.core k).restoreAt + 65536 ≤ s.now k) then
    s.onCore k (fun c => { c with nextMode := some .barrel })
  else s

/-- RECOVERY_MODE_END (R217). A core whose recovery is over goes back to the barrel. -/
def execRecoveryModeEnd (k : Nat) (s : State) : Outcome := .next (s.endRecovery k)

/-! ## Trap entry (R224, R337, R341) -/

/-- TRAP_ENTRY (R341). A stopped group enters its launch's trap handler. -/
def execTrapEntry (g : Nat) (s : State) : Outcome := .next (s.enterTrap g)

/-- The groups that wait for a quadrant's trap reserve, in the order of their faults (R224). -/
def State.reserveQueue (s : State) (k q : Nat) : List (Nat × Group) :=
  ((s.residentOn k).filter (fun e => e.2.quad = q && (match e.2.stop with
    | .reserve _ => true
    | _ => false))).sortBy (fun a b => decide (a.2.faultAt < b.2.faultAt) || (a.2.faultAt == b.2.faultAt && decide (a.1 ≤ b.1)))

/-- A group saved in handler mode goes on in it once it has the reserve of its new quadrant (R355). -/
def State.reenter (s : State) (g : Nat) (gr : Group) : State :=
  (s.takeReserve gr.core gr.quad g).onGroup g (fun gr => gr.go (s.now gr.core))

/-- TRAP_RESERVE_GRANT (R224). A free trap reserve serves the group that has waited longest. -/
def execTrapReserveGrant (k q : Nat) (s : State) : Outcome :=
  .next (match (s.reserveQueue k q).head? with
  | none => s
  | some (g, gr) =>
    if !s.reserveFree gr g then s
    else if gr.handling then s.reenter g gr else s.enterTrap g)

end Sys2Proof.Machine
end

