-- ==== Sys2Proof/Machine/Watch.lean ====
section
/-! DEFINITION. The watchdog and its diagnostic record (R330, R331, R350, R351), the two deadlocks that a core detects
(R226, R227, R237), and the loss of a die (R349). -/

namespace Sys2Proof.Machine

/-! ## Diagnostic records (R351) -/

/-- A barrier register in 16 bytes (R351). -/
def Bar.image (b : Bar) : List Byte :=
  natToBytes 4 (b.expGroups + min b.arrived 511 * 2 ^ 16 + (if b.phase then 2 ^ 31 else 0))
    ++ natToBytes 4 b.expBytes ++ natToBytes 8 b.bytes

/-- A group entry in 8 bytes: PC, wait code, barrier for codes 2 and 13 (R351). -/
def groupEntry (pc : Pc) (code bar : Nat) : List Byte :=
  natToBytes 4 pc.off.toNat ++ natToBytes 4 (pc.ix % 16 + code * 2 ^ 4 + (if code = 2 ∨ code = 13 then bar * 2 ^ 8 else 0))

/-- The entry of a live group. -/
def State.liveEntry (s : State) (g : Group) : List Byte :=
  let (c, b) := s.waitCode g
  groupEntry (g.diagPc) c b

/-- The bytes of a diagnostic record. -/
def diagBytes (lseq team groups barriers : Nat) (exited : List Nat) (bars : List (List Byte)) (entries : List (List Byte)) :
    List Byte :=
  natToBytes 8 lseq ++ natToBytes 4 team ++ natToBytes 4 (groups + barriers * 2 ^ 16) ++ maskBytes 32 exited ++ zeros 208
    ++ (bars.flatten ++ zeros 256).take 256 ++ (entries.flatten ++ zeros 2048).take 2048 ++ zeros 1536

/-- The diagnostic record of a team. -/
def State.teamDiag (s : State) (t : Nat) (tm : Team) (n : Launch) : List Byte :=
  let live := s.teamGroups t
  let entry := fun (g : Nat) => match live.find? (fun e => e.2.gix = g) with
    | some e => s.liveEntry e.2
    | none => groupEntry (tm.exited.getD g Pc.zero) 15 0
  diagBytes tm.lseq tm.tix n.rc.groups n.rc.barriers tm.exited.keys
    ((upTo n.rc.barriers).map (fun b => (tm.bars.getD b Bar.zero).image)) ((upTo n.rc.groups).map entry)

/-- The diagnostic record of a kindled group (R350). -/
def State.kindledDiag (s : State) (g : Group) : List Byte := diagBytes g.lseq 0xFFFFFFFF 1 0 [] [] [s.liveEntry g]

/-- Append a diagnostic record to a launch's fault area, with its index; none when there is no room (R337). -/
def State.appendDiag (s : State) (l : Nat) (bytes : List Byte) : Option (State × Nat) :=
  match s.launches.get? l with
  | none => some (s, 0)
  | some n =>
    if n.area = 0 then some (s, 0)
    else
      let logRec := bitsOf (s.devNat (n.area + 4) 4) 4 0
      let log := bitsOf (s.devNat (n.area + 4) 4) 12 8
      let put := s.devNat (n.area + 24) 8
      let get := s.devNat (n.area + 32) 8
      if put - get ≥ 2 ^ log then none
      else
        let s := s.devWrite (n.area + 0x1000 + 64 * 2 ^ logRec + 4096 * (put % 2 ^ log)) bytes
        some (s.devWrite (n.area + 24) (natToBytes 8 (put + 1)), put)

/-! ## Faults against a team -/

/-- A record that a rule builds for a team: code, thread, PC, detail. -/
def teamRec (code thread : Nat) (pc : Pc) (detail : Nat) : FaultRec :=
  ⟨code, false, false, thread, pc, 0, BitVec.ofNat 32 detail, 0, 0, pc, false, false, 0, 0⟩

/-- The groups of the owner of a group: its team's by index, or itself. -/
def State.owned (s : State) (g : Nat) (gr : Group) : List (Nat × Group) :=
  match gr.team with
  | some t => (s.teamGroups t).sortBy (fun a b => a.2.gix ≤ b.2.gix)
  | none => [(g, gr)]

/-- Write the records of faults that the groups of an owner have raised and not written, as far as there is room; true when
all are written: faults come before an expiry (R337, R347). -/
def State.settleAll (s : State) : List (Nat × Group) → State × Bool
  | [] => (s, true)
  | e :: rest =>
    match s.settleRecords e.1 with
    | (s, false) => (s, false)
    | (s, true) => s.settleAll rest

/-- A verdict against the owner of a group is carried out where its records have room: the records of its earlier faults,
the diagnostic record, the record, and the end of the team or of the kindled group (R337, R347, R350). -/
def State.carryOut (s : State) (g : Nat) (gr : Group) (v : Verdict) : State × Bool :=
  match s.settleAll (s.owned g gr) with
  | (s, false) => (s, false)
  | (s1, true) =>
    let noted : Option (State × Option Nat) := match v.diag with
      | none => some (s1, none)
      | some b => (s1.appendDiag gr.lseq b).map (fun e => (e.1, some e.2))
    match noted with
    | none => (s1, false)
    | some (s2, ix) =>
      match s2.appendRecord gr.lseq (recordWords ((s.teamOf gr).elim 0xFFFFFFFF (·.tix)) gr.lseq v.group v.record.core ix v.record) with
      | none => (s1, false)
      | some s3 => (s3.terminateOwner g, true)

/-- The end of a group's owner is decided: it is carried out, or the group stays stopped until its records have room
(R337). -/
def State.convict (s : State) (g : Nat) (gr : Group) (v : Verdict) : State :=
  match s.carryOut g gr v with
  | (s, true) => s
  | (s, false) => s.onGroup g (fun gr =>
      { (if gr.stop = .none ∨ gr.stop = .last then gr.halt (s.now gr.core) else gr) with verdict := some v })

/-- The GROUP word of a record against a group (R336). -/
def Group.number (g : Group) : Nat := if g.team.isSome then g.gix else g.serial.toNat

/-- End the team of a group, or the kindled group, with a record against it (R227, R237, R337). -/
def State.endWith (s : State) (g : Nat) (gr : Group) (r : FaultRec) : State :=
  s.convict g gr ⟨gr.number, r.against gr, none⟩

/-- A verdict that waits for room is carried out once there is some (R337). -/
def State.retryVerdict (s : State) (g : Nat) : State :=
  match s.groups.get? g with
  | none => s
  | some gr =>
    match gr.verdict with
    | none => s
    | some v => (s.carryOut g gr v).1

/-! ## The watchdog (R330, R331, R350) -/

/-- Some wait of a group has reached 2^WDOG cycles (R330). -/
def State.expired (s : State) (g : Group) (n : Launch) : Bool :=
  (s.countingWaits g).any (fun w => decide (2 ^ n.rc.wdog ≤ w.watch.count (s.now g.core)))

/-- The 0x20 record of an owner: of its lowest-numbered group in a blocking wait (R331). -/
def State.expiryRec (s : State) (n : Launch) (own : List (Nat × Group)) : Option (Group × FaultRec) :=
  own.findSome? (fun e => match s.allWaits e.2 with
    | [] => none
    | w :: _ =>
      let (c, b) := s.waitCode e.2
      some (e.2, teamRec 0x20 w.thread w.pc (c + (if c = 2 ∨ c = 13 then b * 2 ^ 4 else 0) + n.rc.wdog * 2 ^ 8)))

/-- The diagnostic record of a group's owner. -/
def State.ownerDiag (s : State) (gr : Group) (n : Launch) : List Byte :=
  match gr.team.bind (fun t => (s.teams.get? t).map (fun tm => (t, tm))) with
  | some (t, tm) => s.teamDiag t tm n
  | none => s.kindledDiag gr

/-- A wait of group g that has reached its limit writes the diagnostic record and the 0x20 record and ends its team, or
the kindled group, at once or when the records have room; a fault of the owner that no handler takes comes before it, and
ends it with its own record alone (R337, R347, R350). -/
def State.expire (s : State) (g : Nat) : State :=
  match s.groups.get? g with
  | none => s
  | some gr =>
    match s.launchOf gr with
    | none => s
    | some n =>
      if gr.verdict.isSome then s.retryVerdict g
      else if !s.expired gr n || s.convicted gr || (s.owned g gr).any (fun e => s.willEnd e.2) then s
      else
        match s.expiryRec n (s.owned g gr) with
        | none => s
        | some (who, r) => s.convict g gr ⟨who.number, r.against who, some (s.ownerDiag gr n)⟩

/-- WATCHDOG_EXPIRY (R330, R350). A wait that has reached its limit ends its team, or the kindled group. -/
def execWatchdogExpiry (g : Nat) (s : State) : Outcome := .next (s.expire g)

/-- FAULT_AREA_ROOM (R337). Room in a launch's fault area lets its stopped groups write their records and go on. -/
def execFaultAreaRoom (l : Nat) (s : State) : Outcome :=
  .next ((s.groups.filter (fun e => e.2.lseq = l)).foldl (fun s e =>
    if e.2.verdict.isSome then s.retryVerdict e.1
    else if e.2.stop = .stopped ∧ e.2.faults.any (fun r => !r.written) then (s.settle e.1).enterTrap e.1 else s) s)

/-! ## Register-claim deadlock (R226, R227) -/

/-- An outstanding engine job or hand-over of a team names a barrier (R226). -/
def State.barSource (s : State) (t b : Nat) : Bool :=
  s.jobs.any (fun e => e.2.team == some t && e.2.barrier == some b && (e.2.state == .waiting || e.2.state == .running))
  || s.packages.any (fun p => p.2.stks.any (fun k => k.st != .steady && k.team == some t && k.bar == some b))

/-- A live group is blocked on its team: all its threads sign, or wait in REGCLM or at barriers that have not completed
for it and that no job and no hand-over names, whatever group form is still to answer; a group that a pre-emption has set
aside is not (R226). -/
def State.blockedOn (s : State) (t : Nat) (g : Group) : Bool :=
  g.stop == .none && !g.halted && g.residence != .saved && g.threads.all (fun e => match e.2.place with
    | .signing _ => true
    | _ => false)
  && g.waits.all (fun w => match w.2.kind with
    | .claim _ | .form _ _ _ => true
    | .barrier b => !s.barMet g t b w.2 && !s.barSource t b
    | .any mask => (match w.2.i with
      | .waitany _ _ _ b => (s.scanAny g t b.toNat mask w.2.met).isNone && (upTo 8).all (fun i => !mask.testBit i || !s.barSource t (8 * b.toNat + i))
      | _ => false)
    | _ => false)

/-- The claims of a team that wait: group, its number, claim, wait. -/
def State.teamClaims (s : State) (t : Nat) : List (Nat × Group × Nat × GWait) :=
  (s.teamGroups t).flatMap (fun e => e.2.waits.filterMap (fun w => match w.2.kind with
    | .claim n => some (e.1, e.2, n, w.2)
    | _ => none))

/-- The conditions of R226 hold for a team: every live group is blocked on it, and no team core can meet a claim. -/
def State.claimDead (s : State) (t : Nat) : Bool :=
  (s.teamGroups t).all (fun e => s.blockedOn t e.2) && !(s.teamClaims t).isEmpty
    && (s.teamClaims t).all (fun c => decide (s.freeRows c.2.1.core < c.2.2.1))

/-- The 0x21 of a team for which the conditions hold: the lowest-numbered group of its smallest claims (R227). -/
def State.raiseClaim (s : State) (t : Nat) : State :=
  if !s.claimDead t then s
  else
    match ((s.teamClaims t).sortBy (fun a b => decide (a.2.2.1 < b.2.2.1) || (a.2.2.1 == b.2.2.1
        && decide (a.2.1.gix ≤ b.2.1.gix)))).head? with
    | none => s
    | some (g, gr, n, w) =>
      s.endWith g gr (teamRec 0x21 ((w.sigs.map (·.t)).headD 0) w.at_.pc (s.freeRows gr.core % 2 ^ 16 + n * 2 ^ 16))

/-- REGISTER_CLAIM_DEADLOCK (R226, R227). A team whose every live group is blocked on it, with a claim that no team core
can meet, ends with a 0x21 record. -/
def execRegisterClaimDeadlock (t : Nat) (s : State) : Outcome := .next (s.raiseClaim t)

/-! ## Accumulator deadlock (R237) -/

/-- A group waits to bind a handle. -/
def Group.binds (g : Group) : Bool := g.waits.any (fun w => match w.2.kind with
  | .bind _ => true
  | _ => false)

/-- The conditions of R237 hold on a core: no free slot, a group that waits to bind, and every holder of a slot waits to
bind. -/
def State.accDead (s : State) (k : Nat) : Bool :=
  (s.core k).accFree.isEmpty && (s.oldestBind k).isSome && (s.groupsOn k).all (fun e => e.2.acc.isEmpty
    || (e.2.residence == .resident && e.2.binds))

/-- The 0x22 of the team of the oldest requester on a core for which the conditions hold (R237). -/
def State.raiseAcc (s : State) (k : Nat) : State :=
  if !s.accDead k then s
  else
    match s.oldestBind k with
    | none => s
    | some (g, w, m) =>
      match s.groups.get? g, s.waitOf g w with
      | some gr, some (_, x) =>
        let slots := ((s.groupsOn k).filter (fun e => match gr.team with
          | some t => e.2.team = some t
          | none => e.1 = g)).map (fun e => e.2.acc.length)
        let waiting := ((s.residentOn k).filter (fun e => e.2.binds)).length
        s.endWith g gr (teamRec 0x22 ((x.sigs.map (·.t)).headD 0) x.at_.pc (m.h + slots.sum * 2 ^ 8 + waiting * 2 ^ 16))
      | _, _ => s

/-- ACCUMULATOR_DEADLOCK (R237). With no free slot, and every holder of one waiting to bind, the team of the oldest
requester ends with a 0x22 record. -/
def execAccumulatorDeadlock (k : Nat) (s : State) : Outcome := .next (s.raiseAcc k)

/-! ## What is due at a core's cycle (R100, R226, R237, R330, R389) -/

/-- Group forms of the core's groups whose results are due are written (R100). -/
def State.formsDue (s : State) (k : Nat) : State :=
  ((s.groupsOn k).flatMap (fun e => e.2.waits.filterMap (fun w => match w.2.kind with
    | .form due _ _ => if due ≤ s.now k then some (e.1, w.1) else none
    | _ => none))).foldl (fun s e => s.deliverForm e.1 e.2) s

/-- The cycle from which a condition has held without a break. -/
def sinceOf (holds : Bool) (old : Option Nat) (now : Nat) : Option Nat := if holds then some (old.getD now) else none

/-- A condition that has held for the 256 cycles of its window must be raised now. -/
def windowEnds (since : Option Nat) (now : Nat) : Bool := since.elim false (fun c => decide (c + 256 ≤ now))

/-- The conditions of R226 for the teams whose first core is k, and their detection at the end of its window. -/
def State.claimWindow (s : State) (k : Nat) : State :=
  (s.teams.filter (fun e => !e.2.ended && e.2.cores.head? == some k)).foldl (fun s e =>
    let since := sinceOf (s.claimDead e.1) e.2.stuck (s.now k)
    let s := s.onTeam e.1 (fun t => { t with stuck := since })
    if windowEnds since (s.now k) then s.raiseClaim e.1 else s) s

/-- The conditions of R237 on core k, and their detection at the end of its window. -/
def State.accWindow (s : State) (k : Nat) : State :=
  let since := sinceOf (s.accDead k) (s.core k).accSince (s.now k)
  let s := s.onCore k (fun c => { c with accSince := since })
  if windowEnds since (s.now k) then s.raiseAcc k else s

/-- The waits of the core's groups that have reached their limit expire (R330). -/
def State.expiries (s : State) (k : Nat) : State := (s.groupsOn k).foldl (fun s e => s.expire e.1) s

/-! ## The loss of a die (R349, R381) -/

/-- Teams that a die's distributor holds go back to their package's, or to the rack's where the package is lost; a
pinned team that its home die may still run stays (R349, R381). -/
def State.returnTeams (s : State) (x : Nat) (stay : Nat × Nat → Bool) : State :=
  let q := (s.die x).dist.queue
  let back := q.filter (fun e => !stay e)
  let s := s.onDieDist x (fun d => { d with queue := q.filter stay, held := none, spare := [] })
  let n := if (s.pkg (x / 4)).lost then 0 else 65 + x / 4
  s.onDist n (fun d => { d with queue := d.queue ++ back })

/-- The groups on a die, resident or parked, in index order. -/
def State.groupsAt (s : State) (x : Nat) : List (Nat × Group) :=
  (s.groups.filter (fun e => decide (e.2.core / 96 = x) && !e.2.aside)).sortBy (fun a b => a.2.gix ≤ b.2.gix)

/-- Step 1 of R349 for a die, and the stop of its groups: it is out of service, EVENTS rises, and each team and kindled group
on it is to end with one 0x62 record, written by the host die. -/
def State.startLoss (s : State) (x : Nat) : State :=
  let s := s.onDie x (fun d => { d with inService := false, dying := true })
  let s := s.onPkg (x / 4) (fun p => { p with events := min (p.events + 1) 65535 })
  (s.groupsAt x).foldl (fun s e =>
    let r := teamRec 0x62 0 Pc.zero (x / 4 % 256 + x % 4 * 2 ^ 8)
    let v := if s.convicted e.2 then e.2.verdict else some ⟨e.2.number, r.against e.2, none⟩
    s.onGroup e.1 (fun gr =>
      { (if gr.stop = .none ∨ gr.stop = .last then gr.halt (s.now gr.core) else gr) with verdict := v })) s

/-- A job ends as failed with 0x62 (R349). -/
def State.loseJob (s : State) (key : Nat) : State := (s.onJob key (fun j => { j with fault := 0x62 })).endJob key .failed

/-- Steps 2 and 3 of R349 for the teams and kindled groups of a lost die: each ends once its record has room, and its jobs
fail. -/
def State.carryLoss (s : State) (x : Nat) : State :=
  (s.groupsAt x).foldl (fun s e =>
    match s.groups.get? e.1 with
    | none => s
    | some gr =>
      match gr.verdict with
      | none => s
      | some v =>
        let jobs := s.jobs.filter (fun j => (j.2.state == .waiting || j.2.state == .running)
          && (if gr.team.isSome then j.2.team == gr.team else j.2.team.isNone && j.2.g == e.1))
        match s.carryOut e.1 gr v with
        | (s, true) => jobs.foldl (fun s j => s.loseJob j.1) s
        | (s, false) => s) s

/-- The jobs on a die fail with 0x62; so does every collective with a member on it, at every member (R349). -/
def State.failJobsOn (s : State) (x : Nat) : State :=
  let live := fun (j : Job) => j.state == .waiting || j.state == .running
  let mine := s.jobs.filter (fun e => live e.2 && decide (jobCore e.1 / 96 = x))
  let colls := s.jobs.filter (fun e => live e.2 && e.2.kind == .coll && decide (jobCore e.1 / 96 ≠ x)
    && e.2.axis.contains x)
  let s := mine.foldl (fun s e => s.loseJob e.1) s
  colls.foldl (fun s e => s.failJob e.1 0x62 0 0) s

/-- The unit of a bin's or a record's place lies on a die. -/
def State.recordOn (s : State) (x : Nat) (r : SpawnRec) : Bool :=
  match r.place with
  | .entering k => k / 96 = x
  | .spilled y _ => y = x
  | .binned b => (s.bins.get? b).elim false (fun n => n.core / 96 = x)
  | _ => false

/-- The records of a lost die are discarded; a refused one that waited there is routed again (R288, R349). -/
def State.discardOn (s : State) (x : Nat) : State :=
  let gone := s.recordOn x
  { s with
    recs := (s.recs.filter (fun e => !gone e.2)).map (fun (e : Nat × SpawnRec) => match e.2.place with
      | .refused k => if k / 96 = x then (e.1, { e.2 with place := .routing, bound := none }) else e
      | _ => e)
    bins := s.bins.filter (fun e => e.2.core / 96 ≠ x) }

/-- The stacks of a lost die pass to their other port die; a hand-over to the lost die ends with the owner as it was
(R349). -/
def State.passStacks (s : State) (x : Nat) : State :=
  (upTo 8).foldl (fun s i =>
    let n := 8 * (x / 4) + i
    let k := s.stack n
    let arrive := fun (s : State) => if k.st = .steady then s else s.handArrive k
    if k.owner = x % 4 then
      let other := ((portDies n).find? (· ≠ x % 4)).getD k.owner
      arrive (s.onStack n (fun k => { k with owner := other, hseq := k.hseq + 1, st := .steady, team := none, bar := none }))
    else if k.st ≠ .steady ∧ k.target = x % 4 then
      arrive (s.onStack n (fun k => { k with st := .steady, team := none, bar := none }))
    else s) s

/-- The launches with a pinned team that waits at a lost die, its home. -/
def State.pinnedAt (s : State) (x : Nat) : List Nat :=
  (((s.die x).dist.queue.filter (s.pinnedTo x)).map (·.1)).dedup

/-- The steps of R349 for a die, after the end of its teams and kindled groups. -/
def State.loseDie (s : State) (x : Nat) : State :=
  let pins := s.pinnedAt x
  let s := s.failJobsOn x
  let s := s.returnTeams x (fun _ => false)
  let s := pins.foldl (fun s l => s.endGrid l 2 0) s
  let s := s.discardOn x
  let s := s.onDie x (fun d => { d with l2 := [], tlb := [], inService := false, lost := true, dying := false })
  let s := { s with cores := s.cores.map (fun (e : Nat × Core) => if e.1 / 96 = x then (e.1, { e.2 with l1 := [], tlb := [] }) else e) }
  s.passStacks x

/-- The package that is the primary (R180, R377). -/
def State.primaryPkg (s : State) : Nat := ((s.packages.find? (fun e => e.2.primary)).map (·.1)).getD 0

/-- A package is lost: its links are down, or its host die has given no answer to the primary for 2^24 cycles of the
primary's clock (R349). -/
def State.pkgFailed (s : State) (p : Nat) : Bool :=
  (s.pkg p).lost || (s.pkg p).silent.elim false (fun c => decide (c + 2 ^ 24 ≤ s.clock s.primaryPkg))

/-- A cause of R349 for the loss of a die stands: its package is lost, its flues or its supply are down, or its command
processor has given no answer for 2^24 cycles of its package's clock. -/
def State.dieFailed (s : State) (x : Nat) : Bool :=
  s.pkgFailed (x / 4) || (match (s.die x).trouble with
    | .none => false
    | .silent c => decide (c + 2 ^ 24 ≤ s.clock (x / 4))
    | .down => true)

/-- LOST_DIE (R349). A die for whose loss a cause stands is lost: it goes out of service and its groups stop; its teams end
with a record each, as there is room (R337); then its jobs fail, its queued teams are placed again, its records are discarded
and its stacks pass on. -/
def execLostDie (x : Nat) (s : State) : Outcome :=
  .next (if (s.die x).lost || decide (4 * s.npkg ≤ x) || !s.dieFailed x then s
  else
    let s := if s.pkgFailed (x / 4) then s.onPkg (x / 4) (fun p => { p with lost := true }) else s
    let s := (if (s.die x).dying then s else s.startLoss x).carryLoss x
    if (s.groupsAt x).isEmpty then s.loseDie x else s)

end Sys2Proof.Machine
end

