-- ==== Sys2Proof/Machine/Preempt.lean ====
section
/-! DEFINITION. Rack-wide pre-emption (R301 to R305): stopping groups at the limit, saving teams, kindled groups,
jobs and records with their images in the context save area (R353, R354), the failure of a save, and restoring them
(R355). -/

namespace Sys2Proof.Machine

/-! ## Command slots (R379) -/

/-- The physical address of a queue slot (R378). -/
def State.slotAt (s : State) (i : Nat) : Nat := s.queue.qbase.toNat + 320 * (i % 2 ^ s.queue.log2.toNat)

/-- Write STATUS and DETAIL of a slot (R379). -/
def State.setSlot (s : State) (i status detail : Nat) : State :=
  let a := s.slotAt i
  (s.statusWord (a + 1) [BitVec.ofNat 8 status]).statusWord (a + 4) (natToBytes 4 detail)

/-- The commands in these slots have failed at a launch: they end with STATUS 4 and DETAIL 1 (R353, R380). -/
def State.failSlots (s : State) (slots : List Nat) : State :=
  slots.foldl (fun s i =>
    (State.replicateQueue { s with queue := { s.queue with failed := i :: s.queue.failed } }).setSlot i 4 1) s

/-- The commands in these slots end done, but for those whose work at another launch goes on, and those that have failed at
one (R379, R380). -/
def State.doneSlots (s : State) (slots : List Nat) : State :=
  slots.foldl (fun s i =>
    if s.launches.any (fun e => e.2.preempt.elim false (·.slots.contains i) || e.2.resuming == some i) then s
    else if s.queue.failed.contains i then
      State.replicateQueue { s with queue := { s.queue with failed := s.queue.failed.filter (· ≠ i) } }
    else s.setSlot i 2 0) s

/-! ## Stopping (R302, R303) -/

/-- The cycle limit of a pre-emption has passed on core k (R301). -/
def Preempt.due (p : Preempt) (k now : Nat) : Bool := p.full || decide (p.arrival.getD k 0 + 2 ^ p.limit ≤ now)

/-- Put threads back at their word, with the count that their wait had (R83, R124, R161). -/
def State.backTo (s : State) (g : Nat) (tids : List Nat) (acc : Nat) : State :=
  tids.foldl (fun s t => s.onThread g t (fun th => { th with place := .ready, demand := 0, wd := acc })) s

/-- A thread of a stopped group whose wait returns to its word: an unclaimed ring form, a refused SPAWNB (R124, R305). -/
def State.withdraw (s : State) (g t : Nat) (th : Thread) : State :=
  match th.place with
  | .waiting (.request rid) _ _ w _ =>
    (match s.reqs.get? rid with
     | some r => (match r.stage with
       | .queued _ =>
         ((s.dropReq rid r false).lowerReq r).backTo g [t] w.acc
       | _ => s)
     | none => s)
  | .waiting (.spawn id) _ _ w _ =>
    (match s.recs.get? id with
     | some r => (match r.place with
       | .refused _ => ({ s with recs := s.recs.del id }).backTo g [t] w.acc
       | _ => s)
     | none => s)
  | _ => s

/-- The issue of an engine job (R140). -/
def isIssue : Instr → Bool
  | .cpy _ _ _ _ | .gath _ _ _ _ | .scat _ _ _ _ | .coll _ _ _ _ => true
  | _ => false

/-- A group wait that returns to its word: a binding or an engine issue that waits (R161). -/
def State.withdrawWait (s : State) (g w : Nat) (x : GWait) : State :=
  let back := fun (acc : Nat) => (s.endWait g w).backTo g (x.sigs.map (·.t)) acc
  match x.kind with
  | .bind _ | .entry _ _ => back x.watch.acc
  | .again _ _ => if isIssue x.i then back 0 else s
  | _ => s

/-- The count of a wait for the trap reserve changed. -/
def Stop.mapWatch (f : Watch → Watch) : Stop → Stop
  | .reserve w => .reserve (f w)
  | st => st

/-- A group that a pre-emption stops: its counts stand still, and a word that waits at issue has not issued (R126,
R302). -/
def Group.freeze (now : Nat) (g : Group) : Group :=
  let h := g.unissue
  let h := if g.stop = .none ∨ g.stop = .last then h.mapWatch (Watch.freeze now) else h
  { h with halted := true, stop := if g.stop = .last then .stopped else g.stop.mapWatch (Watch.freeze now) }

/-- A group goes on after a pre-emption, its counts with it. -/
def Group.thaw (now : Nat) (g : Group) : Group :=
  { (if g.stop = .none then g.mapWatch (Watch.thaw now) else g) with
    halted := false, stop := g.stop.mapWatch (Watch.thaw now) }

/-- Stop a group for the full tier: the waits that return to their words do so, and its accesses that wait are made
again later. -/
def State.haltGroup (s : State) (g : Nat) (gr : Group) : State :=
  if gr.halted then s
  else
    let s := s.onGroup g (Group.freeze (s.now gr.core))
    let s := { s with passed := s.passed.filter (fun p => !s.goesWith g p.agent) }
    match s.groups.get? g with
    | none => s
    | some gr =>
      let s := gr.threads.foldl (fun s e => s.withdraw g e.1 e.2) s
      gr.waits.foldl (fun s w => s.withdrawWait g w.1 w.2) s

/-- Waits that arose while a stopped group's words completed return to their words too. -/
def State.withdrawAll (s : State) (g : Nat) (gr : Group) : State :=
  let s := gr.threads.foldl (fun s e => s.withdraw g e.1 e.2) s
  gr.waits.foldl (fun s w => s.withdrawWait g w.1 w.2) s

/-- Stop the resident groups of core k whose launch a pre-emption stops at its limit (R301, R302). -/
def State.haltCore (s : State) (k : Nat) : State :=
  (s.residentOn k).foldl (fun s e =>
    match (s.launchOf e.2).bind (·.preempt) with
    | some p => if p.due k (s.now k) then (s.haltGroup e.1 e.2) else s
    | none => s) s

/-- Stop every resident group of a launch whose core has reached the limit (R302). -/
def State.haltDue (s : State) (l : Nat) (p : Preempt) : State :=
  (s.groups.filter (fun e => e.2.lseq = l && e.2.residence == .resident && p.due e.2.core (s.now e.2.core))).foldl
    (fun s e => if e.2.halted then s.withdrawAll e.1 e.2 else s.haltGroup e.1 e.2) s

/-- Nothing of a stopped group is under way but interrupted TMMAs (R124, R161, R303). -/
def State.quietGroup (s : State) (g : Nat) (gr : Group) : Bool :=
  s.reqs.all (fun e => e.2.g ≠ g)
  && gr.waits.all (fun w => match w.2.kind with
    | .form _ _ _ | .handover _ _ | .bind _ | .entry _ _ => false
    | .again _ _ => w.2.blocks
    | _ => true)
  && s.mops.all (fun e => e.2.g ≠ g || (match e.2.kind with
    | .tmma _ => true
    | _ => false))
  && gr.threads.all (fun e => match e.2.place with
    | .waiting (.spawn _) _ _ _ _ | .waiting (.request _) _ _ _ _ | .waiting (.cinv _ _ _) _ _ _ _ => false
    | _ => true)

/-- A group may be saved: parked, or stopped with nothing under way. -/
def State.savable (s : State) (g : Nat) (gr : Group) : Bool :=
  gr.residence == .parked || (gr.halted && s.quietGroup g gr)

/-! ## Images (R353, R354) -/

/-- What TSTATE and TWD say of a thread that has signed a convergence register: it stands in the executed wait of the word, or
in the signing, with its count (R330, R354). -/
def Group.signState (g : Group) (t c : Nat) : Nat × Nat :=
  match g.waits.find? (fun w => w.2.sigs.any (·.t = t)) with
  | some w => (2, w.2.watch.acc)
  | none =>
    let cs := if g.handling && !g.inHandler t then g.handler.elim [] (·.savedConv) else g.conv
    (3, ((cs[c]?).bind (·.bound)).elim 0 (·.watch.acc))

/-- A context word pair of thread t (R354). -/
def Group.threadImage (g : Group) (t : Nat) (th : Thread) : List Byte :=
  let (st, wd) : Nat × Nat := match th.place with
    | .ready => (0, th.wd)
    | .signing c => g.signState t c
    | .waiting (.exit _) _ _ _ _ => (0, 0)
    | .waiting _ _ _ w _ => (2, w.acc)
    | .returned _ w => (2, w.acc)
    | .faulted => (4, 0)
  natToBytes 4 th.pc.off.toNat ++ natToBytes 4 (th.pc.ix % 16 + st * 2 ^ 4 + th.demand % 8 * 2 ^ 7) ++ natToBytes 8 wd

/-- An interrupted TMMA in 128 bytes (R354). -/
def Mop.image (m : Mop) : List Byte :=
  let tr := match m.kind with
    | .tmma true => 1
    | _ => 0
  natToBytes 4 1 ++ natToBytes 4 m.h ++ natToBytes 4 m.slot ++ natToBytes 4 tr ++ natToBytes 4 (if m.cleared then 1 else 0)
    ++ natToBytes 4 m.chunk ++ natToBytes 4 m.tok ++ m.at_.pc.bytes ++ wordBytes (m.mapA.take 4) ++ wordBytes (m.mapB.take 4)
    ++ maskBytes 32 m.sigs ++ zeros 28

/-- The context of a saved group (R354). -/
def State.contextBytes (s : State) (g : Nat) (gr : Group) : List Byte :=
  let ws := gr.convWaits
  let (c, b) := s.waitCode gr
  let pc := (ws.head?).map (·.pc)
  let extra := c + b * 2 ^ 4 + (if gr.handling then 2 ^ 8 else 0)
  let head := gr.headBytes (pc.elim 0xFFFFFFFF (·.off)) (pc.elim 0xF (·.ix)) (if pc.isSome then b else 0)
    ((ws.head?).elim 0 (·.watch.acc)) extra (fun _ => true) (fun _ => true)
  let threads := (upTo 256).flatMap (fun t => (Tbl.get? gr.threads t).elim (natToBytes 8 (2 ^ 36) ++ zeros 8) (gr.threadImage t))
  let hsave := match gr.handler with
    | none => zeros 1024
    | some h => h.savedConv.flatMap Conv.bytes
        ++ (upTo 256).flatMap (fun t => natToBytes 1 (((Tbl.get? gr.threads t).bind (·.savedP)).elim 0 BitVec.toNat))
        ++ (upTo 16).flatMap (fun n => natToBytes 4 (Tbl.getD h.hs (112 + n) 0).toNat) ++ zeros 64
  let mops := ((s.mops.filter (fun e => e.2.g = g)).map (fun e => e.2.image)).take 8
  let names := gr.liveNames
  let hnames := (upTo 16).filter (fun n => gr.threads.any (fun e => (Tbl.get? e.2.hv (112 + n)).isSome))
  head ++ threads ++ hsave ++ (mops.flatten ++ zeros 1024).take 1024 ++ maskBytes 16 names ++ maskBytes 2 hnames ++ zeros 46
    ++ names.flatMap gr.rowOf
    ++ hnames.flatMap (fun n => rowBytes gr.threads (fun t => Tbl.get? t.hv (112 + n)) (fun t => t.vpois.contains (112 + n + 128)))

/-- A group entry of a block: its state word, and its context where it is saved. -/
def State.entryBytes (s : State) (g : Nat) (gr : Group) : List Byte :=
  if gr.residence == .parked then natToBytes 4 1 else natToBytes 4 2 ++ s.contextBytes g gr

/-- The first element that a job has not moved for every destination (R274, R275). -/
def Job.nextElement (j : Job) : Nat := (j.lags.map (·.next)).foldl min j.next

/-- A job that is set aside stands at its next element: of what it has moved beyond, which is moved again, its byte count and
its range errors hold nothing; the open claim of a ring GATH stays, and a collective stays where it stands (R275; log 95). -/
def Job.restart (j : Job) : Job :=
  let j := { j with trips := [] }
  match j.kind with
  | .coll => j
  | .cpy =>
    let beyond := (j.lags.map (fun l => l.next - j.nextElement)).sum
    { j with next := j.nextElement, bytes := j.bytes - beyond * Desc.des j.desc, lags := [], unit := none }
  | _ =>
    let out := j.index.elim false (fun i => decide (Desc.rows j.desc ≤ i))
    { j with
      off := 0, index := none, unit := none, bytes := j.bytes - j.off
      range := if out && decide (0 < j.off) then j.range - 1 else j.range }

/-- A job record of 192 bytes (R353). -/
def jobBytes (key : Nat) (live : Job) : List Byte :=
  let j := live.restart
  (wordBytes j.desc ++ zeros 128).take 128
    ++ (natToBytes 4 j.word0 ++ natToBytes 4 j.gix ++ natToBytes 8 j.bytes ++ natToBytes 8 j.next
      ++ natToBytes 4 (j.ident key) ++ zeros 36)

/-- A block with its head, filled to a multiple of 64 bytes (R353). -/
def blockBytes (kind : Nat) (head : List Byte) (body : List Byte) : List Byte :=
  let n := 64 + body.length
  let len := (n + 63) / 64 * 64
  natToBytes 4 kind ++ zeros 4 ++ natToBytes 8 len ++ (head ++ zeros 48).take 48 ++ body ++ zeros (len - n)

/-- The accumulator images of a group (R353). -/
def State.accBytes (s : State) (gr : Group) : List Byte :=
  gr.acc.flatMap (fun e => natToBytes 4 gr.gix ++ natToBytes 12 e.1
    ++ (upTo 4096).flatMap (fun i => natToBytes 4 (((s.slot gr.core e.2).el.getD i 0).toNat)))

/-- The live jobs of an owner, in acceptance order. -/
def State.liveJobs (s : State) (mine : Job → Bool) : List (Nat × Job) :=
  (s.jobs.filter (fun e => mine e.2 && (e.2.state == .waiting || e.2.state == .running))).sortBy
    (fun a b => a.2.born ≤ b.2.born)

/-- The block of a team (R353). -/
def State.teamBlock (s : State) (t : Nat) (tm : Team) (n : Launch) : List Byte :=
  let gs := s.teamGroups t
  let jobs := s.liveJobs (fun j => j.team = some t)
  let entry := fun (g : Nat) => match gs.find? (fun e => e.2.gix = g) with
    | none => natToBytes 4 0
    | some e => s.entryBytes e.1 e.2
  blockBytes 1
    (natToBytes 4 tm.tix ++ natToBytes 4 (n.rc.groups + (n.rc.cores - 1) * 2 ^ 9)
      ++ natToBytes 4 ((gs.map (fun e => e.2.acc.length)).sum) ++ natToBytes 4 jobs.length)
    (tm.bars.flatMap Bar.image ++ zeros 16
      ++ tm.scratch.flatMap (fun (m : Memory) => m.readBytes 0 (1024 * n.rc.scratch))
      ++ gs.flatMap (fun e => s.accBytes e.2) ++ jobs.flatMap (fun e => jobBytes e.1 e.2)
      ++ (upTo n.rc.groups).flatMap entry)

/-- The block of a kindled group, or of one that has exited while its jobs run (R353). -/
def State.kindledBlock (s : State) (g : Nat) (serial : Nat) : List Byte :=
  let jobs := s.liveJobs (fun j => j.team.isNone && j.g = g)
  blockBytes 2 []
    (natToBytes 4 serial ++ (match s.groups.get? g with
      | some gr => s.entryBytes g gr
      | none => natToBytes 4 0) ++ natToBytes 4 jobs.length ++ jobs.flatMap (fun e => jobBytes e.1 e.2))

/-- The unit that holds a placed record. -/
def State.unitOf (s : State) (r : SpawnRec) : Nat :=
  match r.place with
  | .binned b => (s.bins.get? b).elim 0 (·.core)
  | _ => r.unit

/-- The records of a launch in the order of R303: by unit, bins in the order in which they opened, then those placed and
not yet in a bin; then the spill rings. -/
def State.recordOrder (s : State) (l : Nat) : List (Nat × Nat) :=
  let bins := (s.bins.filter (fun e => e.2.lseq = l)).sortBy (fun a b =>
    decide (a.2.core < b.2.core) || (a.2.core == b.2.core && decide (a.2.opened ≤ b.2.opened)))
  let inBins := bins.flatMap (fun e => (upTo e.2.recs.length).map (fun i => (e.2.recs.getD i 0, i)))
  let rest := (s.recs.filter (fun e => e.2.lseq = l && !(inBins.any (fun x => x.1 = e.1)))).sortBy
    (fun a b => a.2.born ≤ b.2.born)
  inBins ++ rest.map (fun e => (e.1, 0))

/-- The block of a launch's records (R353). -/
def State.recordBlock (s : State) (l : Nat) : List Byte :=
  blockBytes 3 [] ((s.recordOrder l).flatMap (fun e => match s.recs.get? e.1 with
    | none => []
    | some r => r.bytes ++ natToBytes 4 (s.unitOf r / 96) ++ natToBytes 4 (s.unitOf r % 96) ++ natToBytes 4 e.2
        ++ natToBytes 4 (match r.place with
          | .spilled _ _ => 1
          | _ => 0)))

/-! ## Saving (R302, R303, R353) -/

/-- Append a block to the save area of a launch; none when it does not fit. -/
def State.putBlock (s : State) (l : Nat) (p : Preempt) (block : List Byte) : Option State :=
  if p.saveLen < p.used + block.length then none
  else
    let s := s.devWrite (p.save + p.used) block
    some (s.onLaunch l (fun n => { n with preempt := n.preempt.map (fun p => { p with used := p.used + block.length }) }))

/-- A group leaves its core: its slots' contents go with it, and the count of a parked one stands still (R83, R221, R222,
R236). -/
def State.setAside (s : State) (g : Nat) (gr : Group) : State :=
  let kept := gr.acc.map (fun (e : Nat × Nat) => (e.1, s.slot gr.core e.2))
  let s := (s.freeAcc gr).leaveQuad g gr
  let gone := (s.mops.filter (fun e => e.2.g = g)).map (·.1)
  let s := s.onCore gr.core (fun c => { c with mops := c.mops.filter (fun m => !gone.contains m) })
  s.onGroup g (fun gr =>
    let gr := if gr.halted then gr else gr.freeze (s.now gr.core)
    { gr with
      residence := if gr.residence == .parked then .parked else .saved, halted := true, acc := [], savedAcc := kept })

/-- Every fixed-latency write of a group completes and its words are checked, before its image is made (R27, R228). -/
def State.settleWrites (s : State) (g : Nat) (gr : Group) : State :=
  (s.onGroup g (fun gr => { gr with threads := gr.threads.map (fun (e : Nat × Thread) =>
    (e.1, Thread.flush (gr.inHandler e.1) e.2)) })).scrubAll g gr

/-- The jobs of an owner leave the table and are saved with the launch (R275). -/
def State.saveJobs (s : State) (l : Nat) (mine : Job → Bool) : State :=
  (s.liveJobs mine).foldl (fun s e =>
    let s := s.onLaunch l (fun n => { n with savedJobs := n.savedJobs ++ [(e.1, { e.2.restart with ringWait := none })] })
    (s.onJob e.1 (fun j => { j with state := .unused, waits := [] })).freeJob e.1) s

/-- A job stands at a request boundary: no access of it waits for its home, and it is not failing (R275). -/
def State.atBoundary (s : State) (key : Nat) (j : Job) : Bool :=
  j.failing.isNone && !s.passed.any (fun p => p.agent == .job key) && !s.jobOut key j.born

/-- A save fails for want of room: the command ends with STATUS 4 and DETAIL 1 and the launch goes on (R353). -/
def State.failSave (s : State) (l : Nat) (p : Preempt) : State :=
  let s := s.onLaunch l (fun n => { n with preempt := none })
  let s := { s with groups := s.groups.map (fun (e : Nat × Group) =>
    if e.2.lseq = l ∧ e.2.halted ∧ e.2.residence = Residence.resident then
      (e.1, e.2.thaw (s.now e.2.core))
    else e) }
  s.failSlots p.slots

/-- What a team's block holds is brought up to date: its fixed-latency writes, its errors, and the arrivals that its barrier
unit has (R27, R228, R270). -/
def State.settleTeam (s : State) (t : Nat) : State :=
  (s.teamGroups t).foldl (fun s e => s.settleWrites e.1 e.2) (s.applyArrivals t)

/-- Save a team: its block is written, its groups, slots, registers and jobs leave their cores, and its sectors are lost on
each of them (R234, R302, R303). -/
def State.saveTeam (s : State) (l t : Nat) (n : Launch) : State :=
  match s.teams.get? t, (s.launches.get? l).bind (·.preempt) with
  | some tm, some p =>
    match s.putBlock l p (s.teamBlock t tm n) with
    | none => s.failSave l p
    | some s =>
      let s := s.saveJobs l (fun j => j.team = some t)
      let s := (s.teamGroups t).foldl (fun s e => s.setAside e.1 e.2) s
      let s := tm.cores.foldl (fun s k => s.dropSectors k t) s
      (s.onTeam t (fun tm => { tm with saved := true })).onLaunch l (fun n => { n with savedTeams := n.savedTeams ++ [t] })
  | _, _ => s

/-- Save some teams together: those of a die span, or one team.  Where the blocks of them all do not fit, none is saved and
the save fails (R178, R353). -/
def State.saveTeams (s : State) (l : Nat) (ts : List Nat) : State :=
  let s := ts.foldl (fun s t => s.settleTeam t) s
  match s.launches.get? l with
  | none => s
  | some n =>
    match n.preempt with
    | none => s
    | some p =>
      let size := (ts.map (fun t => (s.teams.get? t).elim 0 (fun tm => (s.teamBlock t tm n).length))).sum
      if p.saveLen < p.used + size then s.failSave l p else ts.foldl (fun s t => s.saveTeam l t n) s

/-- Save a kindled group, or the jobs of one that has exited (R303, R353). -/
def State.saveKindled (s : State) (l g serial : Nat) : State :=
  let s := match s.groups.get? g with
    | some gr => s.settleWrites g gr
    | none => s
  match s.launches.get? l with
  | none => s
  | some n =>
    match n.preempt with
    | none => s
    | some p =>
      match s.putBlock l p (s.kindledBlock g serial) with
      | none => s.failSave l p
      | some s =>
        let s := s.saveJobs l (fun j => j.team.isNone && j.g = g)
        let s := match s.groups.get? g with
          | some gr => s.setAside g gr
          | none => s
        s.onLaunch l (fun n => { n with savedKindled := n.savedKindled ++ [g] })

/-- A team may be saved: its groups stand parked or stopped, its jobs at a request boundary, and the bytes that its die
holds for other homes can be written back (R302, R303, R316). -/
def State.teamReady (s : State) (p : Preempt) (t : Nat) (tm : Team) : Bool :=
  let gs := s.teamGroups t
  let jobs := s.liveJobs (fun j => j.team = some t)
  let due := tm.cores.all (fun k => p.due k (s.now k))
  (!gs.isEmpty || (!jobs.isEmpty && due)) && gs.all (fun x => s.savable x.1 x.2)
    && jobs.all (fun e => s.atBoundary e.1 e.2) && s.flushOpen (tm.cores.getD 0 0 / 96)

/-- The teams of a launch that live on a die, each to be set aside and brought back with the others where the launch is
die-resident (R178). -/
def State.spanOn (s : State) (l x : Nat) : List (Nat × Team) :=
  s.teams.filter (fun e => e.2.lseq = l && !e.2.saved && e.2.cores.getD 0 0 / 96 = x
    && (!(s.teamGroups e.1).isEmpty || !(s.liveJobs (fun j => j.team = some e.1)).isEmpty))

/-- The teams of a launch that may be saved now: a die span as a whole (R178, R302). -/
def State.teamsToSave (s : State) (l : Nat) (p : Preempt) : List (Nat × Team) :=
  s.teams.filter (fun e => e.2.lseq = l && !e.2.saved && s.teamReady p e.1 e.2
    && (!(s.launches.get? l).elim false (·.rc.dieres)
      || (s.spanOn l (e.2.cores.getD 0 0 / 96)).all (fun y => s.teamReady p y.1 y.2)))

/-- The teams that may be saved now, those of one die span together (R178). -/
def State.spansToSave (s : State) (l : Nat) (p : Preempt) : List (Nat × List Nat) :=
  let ts := s.teamsToSave l p
  let die := fun (e : Nat × Team) => e.2.cores.getD 0 0 / 96
  if (s.launches.get? l).elim false (·.rc.dieres) then
    ((ts.map die).dedup).map (fun x => (x, (ts.filter (fun e => die e = x)).map (·.1)))
  else ts.map (fun e => (die e, [e.1]))

/-- The kindled groups of a launch that may be saved now, with their serial numbers. -/
def State.kindledToSave (s : State) (l : Nat) (p : Preempt) : List (Nat × Nat) :=
  ((s.groups.filter (fun e => e.2.lseq = l && e.2.team.isNone && e.2.residence == .resident && s.savable e.1 e.2
      && (s.liveJobs (fun j => j.team.isNone && j.g = e.1)).all (fun x => s.atBoundary x.1 x.2) && s.flushOpen e.2.die)).map (fun e => (e.1, e.2.serial.toNat)))
  ++ (((s.jobs.filter (fun e => e.2.lseq = l && e.2.team.isNone && (e.2.state == .waiting || e.2.state == .running)
      && s.atBoundary e.1 e.2 && (s.groups.get? e.2.g).isNone && p.due (jobCore e.1) (s.now (jobCore e.1)))).map (fun e => (e.2.g, e.2.gix))).dedup)

/-- Every group and job of a launch is saved. -/
def State.allAside (s : State) (l : Nat) : Bool :=
  s.groups.all (fun e => e.2.lseq ≠ l || (e.2.halted && e.2.residence != .resident))
  && (s.liveJobs (fun j => j.lseq = l)).isEmpty
  && s.teams.all (fun e => e.2.lseq ≠ l || e.2.ended || e.2.saved)

/-- Save the records of a launch, once every group is saved and none is in routing (R303). -/
def State.saveRecords (s : State) (l : Nat) : State :=
  match s.launches.get? l with
  | none => s
  | some n =>
    match n.preempt with
    | none => s
    | some p =>
      let mine := s.recs.filter (fun e => e.2.lseq = l)
      if !s.allAside l || mine.isEmpty || mine.any (fun e => match e.2.place with
          | .routing | .saved => true
          | .refused _ => !e.2.again
          | _ => false) then s
      else
        match s.putBlock l p (s.recordBlock l) with
        | none => s.failSave l p
        | some s1 =>
          let order := (s.recordOrder l).map (·.1)
          let s1 := s1.onLaunch l (fun n => { n with savedRecs := order })
          { s1 with
            recs := s1.recs.map (fun (e : Nat × SpawnRec) => if e.2.lseq = l then (e.1, { e.2 with
              place := .saved, mate := match e.2.place with
                | .binned b => some b
                | _ => none }) else e)
            bins := s1.bins.filter (fun e => e.2.lseq ≠ l) }

/-- The dirty bytes that the dies of a launch's work hold for other packages go on their way, once its groups have stopped
(R303, R316). -/
def State.sendHalted (s : State) (l : Nat) : State :=
  (((s.groups.filter (fun e => e.2.lseq = l && e.2.halted && e.2.residence == .resident)).map (fun (e : Nat × Group) => e.2.die)).dedup).foldl
    (fun s x => s.sendLines x) s

/-- FULL_TIER_PREEMPT (R302, R303). Groups whose limit has passed stop; teams, kindled groups and records that are ready
are saved. -/
def execFullTierPreempt (l : Nat) (s : State) : Outcome :=
  .next (match s.launches.get? l with
  | none => s
  | some n =>
    match n.preempt with
    | none => s
    | some p =>
      let s := (s.haltDue l p).sendHalted l
      let s := (s.spansToSave l p).foldl (fun s e => (s.flushRemote e.1).saveTeams l e.2) s
      let s := (s.kindledToSave l p).foldl (fun s e =>
        ((s.groups.get? e.1).elim s (fun g => s.flushRemote g.die)).saveKindled l e.1 e.2) s
      s.saveRecords l)

/-- The header of a save area (R353). -/
def Launch.saveHeader (n : Launch) (l size : Nat) : List Byte :=
  (natToBytes 8 l ++ natToBytes 4 n.stepNow ++ natToBytes 4 n.savedTeams.length ++ natToBytes 4 n.savedKindled.length
    ++ natToBytes 4 n.savedRecs.length ++ natToBytes 8 size ++ zeros 4096).take 4096

/-- PREEMPT_SAVE_COMPLETE (R303). Once every team, kindled group and record is saved, STATE becomes 7 and the command is
done; so it is where the launch has ended meanwhile. -/
def execPreemptSaveComplete (l : Nat) (s : State) : Outcome :=
  .next (match s.launches.get? l with
  | none => s
  | some n =>
    match n.preempt with
    | none => s
    | some p =>
      if n.state ≠ 2 || n.ending.isSome then (s.onLaunch l (fun n => { n with preempt := none })).doneSlots p.slots
      else if !s.allAside l || s.recs.any (fun e => e.2.lseq == l && e.2.place != .saved) then s
      else
        match s.putBlock l p (blockBytes 0xFFFFFFFF [] []) with
        | none => s.failSave l p
        | some s =>
          let s := s.devWrite p.save (n.saveHeader l (p.used + 64))
          (s.setStatus l (fun n => { n with state := 7, preempt := none, saveAt := p.save })).doneSlots p.slots)

/-! ## Restoring (R304, R355) -/

/-- What a team core, or a kindled group's core, needs of a core: beside rows, slots and scratchpad, accumulator slots and
job-table entries. -/
structure Want where
  base : Need
  accs : Nat
  jobs : Nat
  deriving DecidableEq, Repr

/-- Both wants together. -/
def Want.add (a b : Want) : Want := ⟨a.base.add b.base, a.accs + b.accs, a.jobs + b.jobs⟩

/-- The want of the groups on a team core. -/
def wantOf (gs : List Group) (jobs scratch : Nat) : Want :=
  ⟨⟨(gs.map (·.ceil)).sum, (gs.filter (fun g => g.residence != .parked)).length, scratch⟩,
    (gs.map (fun g => g.savedAcc.length)).sum, jobs⟩

/-- Core k meets a want, beside what a plan has given out and what its die's distributor holds for a team, and no home in
transition holds its acquire (R222, R236, R275, R297, R316). -/
def State.meets (s : State) (k : Nat) (used : Tbl Want) (n : Want) : Bool :=
  let n := n.add (used.getD k ⟨⟨0, 0, 0⟩, 0, 0⟩)
  s.canTake k n.base && decide (n.base.rows ≤ (s.teamSpare k).1) && decide (n.base.slots ≤ (s.teamSpare k).2)
    && decide (n.accs ≤ (s.core k).accFree.length) && decide (n.jobs ≤ (s.core k).jobFree.length)
    && s.mayAcquire k 4

/-- Cores of a die for a list of wants, greedily by free rows (R294). -/
def State.restoreCores (s : State) (x : Nat) (used : Tbl Want) : List Want → List Nat → Option (List Nat)
  | [], acc => some acc
  | n :: rest, acc =>
    let free := fun (k : Nat) => s.openRows k - (used.getD k ⟨⟨0, 0, 0⟩, 0, 0⟩).base.rows
    let ks := ((upTo 96).map (96 * x + ·)).filter (fun k => !acc.contains k && s.meets k used n)
    match (ks.sortBy (fun a b => decide (free b < free a) || (free a == free b && decide (a ≤ b)))).head? with
    | none => none
    | some k => s.restoreCores x used rest (acc ++ [k])

/-- A saved team and what each of its cores wants. -/
structure Return where
  team : Nat
  tm : Team
  wants : List Want
  deriving DecidableEq, Repr

/-- The cores of a die for several saved teams, one after another; none where one of them finds no place (R178). -/
def State.restoreAll (s : State) (x : Nat) : List Return → Tbl Want → Option (List (Return × List Nat))
  | [], _ => some []
  | r :: rest, used =>
    match s.restoreCores x used r.wants [] with
    | none => none
    | some cs =>
      let used := (upTo cs.length).foldl (fun u q =>
        let k := cs.getD q 0
        u.put k ((u.getD k ⟨⟨0, 0, 0⟩, 0, 0⟩).add (r.wants.getD q ⟨⟨0, 0, 0⟩, 0, 0⟩))) used
      (s.restoreAll x rest used).map (fun l => (r, cs) :: l)

/-- The first of some dies, of those usable in a launch's set, on which several saved teams find a place together; a die
span does not come to a die on which another stands (R178, R304). -/
def State.restorePlace (s : State) (l : Nat) (n : Launch) (dies : List Nat) (rs : List Return) :
    Option (List (Return × List Nat)) :=
  (dies.filter (fun x => n.dies.contains x && s.usable x && (!n.rc.dieres || (s.spanOn l x).isEmpty))).findSome?
    (fun x => s.restoreAll x rs [])

/-- The dies on which a saved team may come back, the preferred first: a pinned team on its home die alone (R179), any
other on the die that it left, on the one where R179 places it, or on any of the set (DESIGN CHOICE, log 14). -/
def State.restoreDies (s : State) (n : Launch) (tm : Team) : List Nat :=
  let home := (s.teamDie n tm.tix).toList
  if n.rc.pinned then home else tm.cores.getD 0 0 / 96 :: home ++ n.dies

/-- Bind the saved slots of a group again on a core (R236). -/
def State.rebind (s : State) (g k : Nat) (accs : Tbl AccSlot) : State :=
  accs.foldl (fun s e => match s.bindHandle g e.1 k with
    | none => s
    | some s => match s.handle g e.1 with
      | some n => s.onSlot k n (fun _ => e.2)
      | none => s) s

/-- What becomes of a restored group's faults: one that waited for a trap reserve, its count going on, or for room in its
fault area enters R341 again; any other faulted thread executes its word again; one in handler mode waits for its reserve
(R83, R355). -/
def Group.revive (now : Nat) (g : Group) : Group :=
  let waiting := (match g.stop with
    | .reserve _ => true
    | .stopped => g.faults.any (fun r => !r.written) || g.verdict.isSome
    | _ => false) && (!g.handling || g.verdict.isSome)
  let stop := g.stop.mapWatch (Watch.thaw now)
  let g := { (g.mapWatch (Watch.thaw now)) with
    halted := false, recovering := true, share := none, entering := none }
  if waiting then { g with stop := stop }
  else
    let g := { g with
      faults := []
      resolved := []
      threads := g.threads.map (fun (e : Nat × Thread) =>
        if e.2.place == Place.faulted then (e.1, { e.2 with place := .ready, demand := 0 }) else e) }
    { g with stop := if g.handling then (match stop with
        | .reserve w => .reserve w
        | _ => .reserve ⟨0, now⟩) else .none }

/-- A group comes back on a core (R355): a parked one stays parked there, its count going on; its interrupted matrix
operations enter the sequencer as it has room (R135, R231). -/
def State.reviveGroup (s : State) (g : Nat) (gr : Group) (k : Nat) : State :=
  let s := if gr.residence == .parked then
      s.onGroup g (fun gr => { gr.thaw (s.now k) with core := k, resv := gr.ceil, recovering := true })
    else (match s.pickSlot k with
      | none => s
      | some p => (s.takeSlot g k p).onGroup g (fun gr => { gr.revive (s.now k) with resv := gr.ceil, ember := false }))
  let s := (s.rebind g k gr.savedAcc).onGroup g (fun gr => { gr with savedAcc := [] })
  { s with mops := s.mops.map (fun (e : Nat × Mop) => if e.2.g = g then (e.1, { e.2 with core := k }) else e) }

/-- A region moved to the new cores of its team. -/
def Region.move (f : Nat → Nat) (r : Region) : Region := { r with space := r.space.map f }

/-- A job identifier that a restore changes: the core on which it named a job, the old and the new one (R275). -/
structure Renamed where
  core : Nat
  old : Word
  new : Word
  deriving DecidableEq, Repr

/-- Restore jobs on new cores in their old order, with the identifiers that change (R275). -/
def State.restoreJobs (s : State) (f : Nat → Nat) : List (Nat × Job) → List Renamed → State × List Renamed
  | [], ids => (s, ids)
  | (key, j) :: rest, ids =>
    let j' := { j with reads := j.reads.map (Region.move f), writes := j.writes.map (Region.move f), paused := none }
    match s.acceptJob (f (jobCore key)) j' with
    | none => (s, ids)
    | some (s, id) => s.restoreJobs f rest (ids ++ [⟨jobCore key, BitVec.ofNat 32 (j.ident key), BitVec.ofNat 32 id⟩])

/-- Rewrite the job identifiers that the uniforms and the shadow words of a group of an old core hold (R275). -/
def Group.rename (ids : List Renamed) (core : Nat) (g : Group) : Group :=
  let f := fun (e : Nat × Word) => (e.1, ((ids.find? (fun x => x.core = core ∧ x.old = e.2)).map (·.new)).getD e.2)
  { g with s := g.s.map f, handler := g.handler.map (fun h => { h with hs := h.hs.map f }) }

/-- The cores of a restore enter recovery (R217). -/
def State.beginRecovery (s : State) (ks : List Nat) : State :=
  ks.foldl (fun s k => s.onCore k (fun c => { c with
    restoreAt := s.now k, nextMode := if c.mode = .barrel ∨ c.nextMode = some .barrel then some .recovery else c.nextMode })) s

/-- Restore a saved team on the cores chosen, its groups in urgency order (R216, R217, R355). -/
def State.restoreTeam (s : State) (l t : Nat) (tm : Team) (n : Launch) (cs : List Nat) : State :=
  let f := fun (k : Nat) => cs.getD (tm.cores.findIdx (· = k)) k
  let s := cs.foldl (fun s k => s.acquireAt k 4) s
  let s := (upTo cs.length).foldl (fun s q =>
    let gs := ((s.teamGroups t).filter (fun e => e.2.core = tm.cores.getD q 0)).map (·.2)
    let w := wantOf gs 0 0
    s.useSpare (cs.getD q 0) w.base.rows 0) s
  let s := s.onTeam t (fun tm => { tm with cores := cs, saved := false, held := [] })
  let s := tm.held.foldl (fun s b => s.updateBar t b Bar.arriveGroup) s
  let jobs := n.savedJobs.filter (fun e => e.2.team = some t)
  let (s, ids) := s.restoreJobs f jobs []
  let gs := (s.teamGroups t).sortBy (fun a b => decide (a.2.packets < b.2.packets)
    || (a.2.packets == b.2.packets && decide (a.2.gix ≤ b.2.gix)))
  let s := gs.foldl (fun s e => (s.reviveGroup e.1 e.2 (f e.2.core)).onGroup e.1 (·.rename ids e.2.core)) s
  (s.beginRecovery cs).onLaunch l (fun n => { n with
    savedTeams := n.savedTeams.filter (· ≠ t), savedJobs := n.savedJobs.filter (fun e => e.2.team ≠ some t) })

/-- Restore a saved kindled group, or the jobs of one that has exited, on a core. -/
def State.restoreKindled (s : State) (l g : Nat) (n : Launch) (k : Nat) : State :=
  let s := (s.acquireAt k 4).useSpare k ((s.groups.get? g).elim 0 (·.ceil)) 0
  let mine := fun (e : Nat × Job) => e.2.team.isNone && e.2.g == g
  let (s, ids) := s.restoreJobs (fun _ => k) (n.savedJobs.filter mine) []
  let s := match s.groups.get? g with
    | some gr => (s.reviveGroup g gr k).onGroup g (·.rename ids gr.core)
    | none => s
  (s.beginRecovery [k]).onLaunch l (fun n => { n with
    savedKindled := n.savedKindled.filter (· ≠ g), savedJobs := n.savedJobs.filter (fun e => !mine e) })

/-- The saved records re-enter routing in their saved order (R304). -/
def State.rerouteRecords (s : State) (l : Nat) (order : List Nat) : State :=
  let s := order.foldl (fun s id =>
    (s.onRec id (fun r => { r with place := .routing, born := s.fresh, again := true, bound := none })).tick) s
  s.onLaunch l (fun n => { n with savedRecs := [] })

/-- Nothing of a launch is saved any longer. -/
def Launch.allBack (n : Launch) : Bool :=
  n.savedTeams.isEmpty && n.savedKindled.isEmpty && n.savedJobs.isEmpty && n.savedRecs.isEmpty

/-- A saved team with what its cores want. -/
def State.returnOf (s : State) (n : Launch) (t : Nat) : Option Return :=
  (s.teams.get? t).map (fun tm => ⟨t, tm, (upTo tm.cores.length).map (fun q =>
    wantOf (((s.teamGroups t).filter (fun e => e.2.core = tm.cores.getD q 0)).map (·.2))
      ((n.savedJobs.filter (fun e => e.2.team = some t ∧ jobCore e.1 = tm.cores.getD q 0)).length) n.rc.scratch)⟩)

/-- The saved teams that come back with one of them: its die span in a die-resident launch, else it alone (R178). -/
def State.returnsWith (s : State) (n : Launch) (t : Nat) : List Return :=
  let die := fun (r : Return) => r.tm.cores.getD 0 0 / 96
  match s.returnOf n t with
  | none => []
  | some r => if n.rc.dieres then (n.savedTeams.filterMap (s.returnOf n)).filter (fun y => die y = die r) else [r]

/-- One part of a saved launch comes back: its records first, then its teams, then its kindled groups. -/
def State.restoreOne (s : State) (l : Nat) (n : Launch) : State :=
  if !n.savedRecs.isEmpty then s.rerouteRecords l n.savedRecs
  else
    match n.savedTeams.findSome? (fun t => match s.returnsWith n t with
      | [] => none
      | r :: rest => s.restorePlace l n (s.restoreDies n r.tm) (r :: rest)) with
    | some ps => ps.foldl (fun s p => (s.launches.get? l).elim s (fun n => s.restoreTeam l p.1.team p.1.tm n p.2)) s
    | none =>
      match n.savedKindled.findSome? (fun g =>
        let want := wantOf ((s.groups.get? g).toList) ((n.savedJobs.filter (fun e => e.2.team.isNone && e.2.g == g)).length) 0
        let old := ((s.groups.get? g).map (·.core / 96)).toList
        ((old ++ n.dies).filter (fun x => n.dies.contains x && s.usable x)).findSome? (fun x =>
          (s.restoreCores x [] [want] []).map (fun cs => (g, cs.getD 0 0)))) with
      | some (g, k) => s.restoreKindled l g n k
      | none => s.sendStep n

/-- The die set on which a launch is restored: its own where every die is usable, else one chosen anew (R304). -/
def State.resumeDies (s : State) (n : Launch) : Option (List Nat) :=
  if n.dies.all s.usable then some n.dies
  else match s.chooseDies n.rc with
    | .ok ds => some ds
    | .error _ => none

/-- A launch with a lower LSEQ that the same command resumes is still to be restored (R301). -/
def State.resumesLater (s : State) (l : Nat) (n : Launch) : Bool :=
  s.launches.any (fun e => decide (e.1 < l) && e.2.resuming.isSome && e.2.resuming == n.resuming)

/-- A saved launch goes on with a die set: where it is another one, what the dies of the old one hold for other homes is
written back and the dies new to it acquire, at rack scope; none while a home in transition holds that (R176, R183, R258). -/
def State.changeDies (s : State) (n : Launch) (ds : List Nat) : Option State :=
  if ds = n.dies then some s
  else
    let new := ds.filter (!n.dies.contains ·)
    (s.releaseStep n).bind (fun s =>
      if new.all (fun x => s.acquireOpen x false) then some (new.foldl (fun s x => s.acquireLines x false) s) else none)

/-- TEAM_RESTORE (R304, R355). A part of a saved launch is restored; STATE is 2 before the first group issues, and the
command is done with the last part. -/
def execTeamRestore (l : Nat) (s : State) : Outcome :=
  .next (match s.launches.get? l with
  | none => s
  | some n =>
    if n.state = 7 ∧ n.resuming.isSome then
      if s.resumesLater l n then s
      else
        match (s.resumeDies n).bind (fun ds => (s.changeDies n ds).map (fun s => (s, ds))) with
        | none => (s.resumeDies n).elim s (fun ds => ds.foldl (fun s x => s.sendLines x) (s.sendStep n))
        | some (s, ds) => s.setStatus l (fun n => { n with state := 2, dies := ds })
    else if n.preempt.isSome then s
    else if n.state ≠ 2 ∨ n.allBack then
      (match n.resuming with
       | none => s
       | some i => (s.onLaunch l (fun n => { n with resuming := none })).doneSlots [i])
    else s.restoreOne l n)

end Sys2Proof.Machine
end

