-- ==== Sys2Proof/Machine/Commands.lean ====
section
/-! DEFINITION. The command queue (R377 to R381): its slots, the launch record and the checks of its acceptance
(R171, R172, R196, R337), and the effect of each command (R301, R346, R380, R381). -/

namespace Sys2Proof.Machine

/-! ## Slots (R378, R379) -/

/-- The command in a slot: the slot's number and its address. -/
structure Cmd where
  slot : Nat
  at_ : Nat
  deriving DecidableEq, Repr

/-- A field of n bytes of a command at an offset of its header or body. -/
def State.cmdNat (s : State) (c : Cmd) (off n : Nat) : Nat := s.devNat (c.at_ + off) n

/-- A field of the body. -/
def State.bodyNat (s : State) (c : Cmd) (off n : Nat) : Nat := s.cmdNat c (64 + off) n

/-- The TYPE of a command. -/
def State.cmdType (s : State) (c : Cmd) : Nat := s.cmdNat c 0 1

/-- A nonzero reserved bit in the header of a slot (R379). -/
def State.badHeader (s : State) (c : Cmd) : Bool :=
  s.cmdNat c 2 2 != 0 || s.cmdNat c 8 8 / 8 != 0 || s.cmdNat c 0x30 16 != 0

/-- A package of the domain holds the mirror's role and is not lost, where the domain has a mirror (R377). -/
def State.mirrorHolds (s : State) : Bool :=
  s.replica.isNone || (upTo s.npkg).any (fun p => (s.pkg p).mirror && !(s.pkg p).lost)

/-- The command at the head of the queue: HEAD has not reached TAIL, the domain is formed, and the mirror can hold its
replica (R360, R377, R378). -/
def State.headCmd (s : State) : Option Cmd :=
  let i := s.queue.head.toNat
  if s.formed && s.mirrorHolds && decide (i < s.queue.tail.toNat) then some ⟨i, s.slotAt i⟩ else none

/-- How a command ends at its acceptance: the state with its effect, STATUS and DETAIL (R379). -/
abbrev Accepted := State × Nat × Nat

/-- Write STATUS and DETAIL, hold the replica in the mirror and advance HEAD (R377, R379). -/
def State.accept (s : State) (c : Cmd) (status detail : Nat) : State :=
  let s := (s.replicate (fun r => { r with commands := r.commands.put c.slot (s.devRead c.at_ 320) })).setSlot c.slot status detail
  { s with queue := { s.queue with head := s.queue.head + 1 } }.replicateQueue

/-- The turn of a kind of command: where the command at the head is of this kind it is accepted or refused, a reserved
bit of its header refusing it with DETAIL 1 (R379). -/
def State.command (s : State) (mine : State → Cmd → Bool) (run : State → Cmd → Accepted) : Outcome :=
  match s.headCmd with
  | none => .next s
  | some c =>
    if !s.names c.at_ then .fault (.noSuchAddress c.at_)
    else if !mine s c then .next s
    else if s.badHeader c then .next (s.accept c 3 1)
    else
      let r := run s c
      .next (r.1.accept c r.2.1 r.2.2)

/-! ## The launch record (R171) -/

/-- Read the launch record of a command. -/
def State.launchRec (s : State) (c : Cmd) : LaunchRec :=
  let f := fun (off n : Nat) => s.bodyNat c off n
  let w := fun (off : Nat) => f off 4
  let b := fun (off hi lo : Nat) => bitsOf (w off) hi lo
  { lseq := f 0x00 8
    codebase := f 0x08 8
    args := f 0x10 8
    entry := BitVec.ofNat 32 (w 0x18)
    teams := w 0x1C
    steps := b 0x20 15 0
    groups := b 0x20 24 16
    cores := b 0x20 26 25 + 1
    roles := b 0x20 28 27 + 1
    ngroups := (upTo 4).map (fun r => b (0x24 + 4 * r) 8 0)
    ceils := (upTo 4).map (fun r => b (0x24 + 4 * r) 23 16)
    scratch := b 0x34 10 0
    barriers := b 0x34 20 16
    fmt := (upTo 8).map (fun n => BitVec.ofNat 32 (w (0x38 + 4 * n)))
    hashBase := w 0x58
    hashStride := w 0x5C
    hfixed := (w 0x60).testBit 0
    pinned := (w 0x60).testBit 1
    prio := b 0x60 3 2
    dieres := (w 0x60).testBit 4
    park := (w 0x60).testBit 5
    check := (w 0x60).testBit 6
    minDies := b 0x64 10 0
    maxDies := b 0x64 26 16
    gather := b 0x68 16 0
    wdog := b 0x68 29 24
    rights := BitVec.ofNat 3 (w 0x6C)
    seed := BitVec.ofNat 64 (f 0x70 8)
    spill := w 0x78
    carryV := BitVec.ofNat 128 (f 0x80 16)
    carryS := BitVec.ofNat 128 (f 0x90 16)
    carryP := BitVec.ofNat 7 (w 0xA0)
    phaseRec := f 0xA8 8
    axes := f 0xB0 8
    prereq := (upTo 4).map (fun i => f (0xC0 + 8 * i) 8) }

/-- The bits marked 0 of a launch record, by word: offset and mask (R171). -/
def zeroBits : List (Nat × Nat) :=
  [(0x20, 0xE0000000), (0x24, 0xFF00FE00), (0x28, 0xFF00FE00), (0x2C, 0xFF00FE00), (0x30, 0xFF00FE00),
   (0x34, 0xFFE0F800), (0x60, 0xFFFFFF80), (0x64, 0xF800F800), (0x68, 0xC0FE0000), (0x6C, 0xFFFFFFF8),
   (0x7C, 0xFFFFFFFF), (0xA0, 0xFFFFFF80), (0xA4, 0xFFFFFFFF), (0xB8, 0xFFFFFFFF), (0xBC, 0xFFFFFFFF)]
  ++ (upTo 8).map (fun i => (0xE0 + 4 * i, 0xFFFFFFFF))

/-! ## The checks of acceptance (R172) -/

/-- A format slot that R196 refuses. -/
def badFormat (w : Word) : Bool :=
  let n := w.toNat
  let ofmt := bitsOf n 11 8
  decide (13 ≤ bitsOf n 3 0) || decide (13 ≤ bitsOf n 7 4) || decide (13 ≤ ofmt) || decide (4 ≤ bitsOf n 14 12)
    || (n.testBit 15 && !(ofmt == 3 || (decide (5 ≤ ofmt) && decide (ofmt ≤ 12))))
    || (n.testBit 16 && bitsOf n 14 12 != 0) || decide (2 ^ 17 ≤ n)

/-- A role's fields are out of range (R172, reason 4). -/
def LaunchRec.badRole (r : LaunchRec) (i : Nat) : Bool :=
  let n := r.ngroups.getD i 0
  let c := r.ceils.getD i 0
  if i < r.roles then !(decide (1 ≤ n) && decide (n ≤ 256) && decide (1 ≤ c) && decide (c ≤ 128)) else n != 0 || c != 0

/-- The detail of reason 4, where it holds. -/
def LaunchRec.groupDetail (r : LaunchRec) : Option Nat :=
  if r.groups < 1 ∨ 256 < r.groups then some 0xFFFF
  else match (upTo 4).find? r.badRole with
    | some i => some i
    | none => if ((upTo r.roles).map (fun i => r.ngroups.getD i 0)).sum ≠ r.groups then some 0xFFFF else none

/-- Team core q of a team needs more than a core has (R172, reason 5). -/
def LaunchRec.tooBig (r : LaunchRec) (q : Nat) : Bool :=
  decide (127 < (r.groupsOf q).length) || decide (4096 < r.rowsOf q)

/-- How many of each share one core can hold, in every way: shares as rows and group slots, with the rows, slots and shares
that are left. -/
def coreLoads : List (Nat × Nat) → Nat → Nat → Nat → List (List Nat)
  | [], _, _, _ => [[]]
  | (r, k) :: rest, rows, slots, left =>
    (upTo (min left slots + 1)).flatMap (fun n =>
      if n * r ≤ rows ∧ n * k ≤ slots then (coreLoads rest (rows - n * r) (slots - n * k) (left - n)).map (n :: ·) else [])

/-- Every count of the one is at most that of the other. -/
def loadLe (a b : List Nat) : Bool := (a.zip b).all (fun p => decide (p.1 ≤ p.2))

/-- The loads that no other of a list exceeds. -/
def maxLoads (l : List (List Nat)) : List (List Nat) :=
  l.foldl (fun acc v => if acc.any (loadLe v) then acc else v :: acc.filter (fun w => !loadLe w v)) []

/-- The largest loads that n cores hold together, counts above a cap not told apart. -/
def coresLoads (one : List (List Nat)) (cap : Nat) : Nat → List (List Nat)
  | 0 => [(one.headD []).map (fun _ => 0)]
  | n + 1 => maxLoads ((coresLoads one cap n).flatMap (fun v => one.map (fun f => (v.zip f).map (fun p => min cap (p.1 + p.2)))))

/-- n teams fit on an empty die of 96 cores (R172, reason 14): by equal shares of the largest size, or else where the 96
cores can hold n of every share, none of them more than n.  A core holds at most one share of a team, and shares held so can
be given to the teams on distinct cores; a share without groups finds a core always (DEDUCED, log 11). -/
def LaunchRec.fitsDie (r : LaunchRec) (n : Nat) : Bool :=
  let shares := ((upTo r.cores).map (fun q => (r.rowsOf q, (r.groupsOf q).length))).filter (fun e => e.2 ≠ 0)
  let rows := (shares.map (·.1)).foldl max 1
  let slots := (shares.map (·.2)).foldl max 1
  decide (n ≤ 96 * min (127 / slots) (4096 / rows) / r.cores)
    || decide (n ≤ 96 * 127) && (coresLoads (maxLoads (coreLoads shares 4096 127 n)) n 96).any (fun v => v.all (fun x => decide (n ≤ x)))

/-- A power of two. -/
def isPow2 (n : Nat) : Bool := (upTo 32).any (fun i => n == 2 ^ i)

/-- The reason and detail for which the fault area refuses a launch (R337, R172 reason 16). -/
def State.badArea (s : State) (area len : Nat) : Option Nat :=
  let h := s.devNat (area + 4) 4
  let rec_ := bitsOf h 4 0
  let diag := bitsOf h 12 8
  let handler := s.devNat area 4
  if area = 0 ∨ area % 4096 ≠ 0 then some 0
  else if len < 0x1000 + 64 * 2 ^ rec_ + 4096 * 2 ^ diag then some 0
  else if rec_ < 4 ∨ 16 < rec_ ∨ 8 < diag ∨ h / 2 ^ 13 ≠ 0 ∨ bitsOf h 7 5 ≠ 0 then some 4
  else if handler ≠ 0xFFFFFFFF ∧ handler % 4 ≠ 0 then some 0
  else none

/-- The first reason of R172 that refuses the launch of a command, with its detail. -/
def State.refuse (s : State) (c : Cmd) (r : LaunchRec) : Option (Nat × Nat) :=
  let grant := s.cmdNat c 8 1 % 8
  let excess := r.rights &&& ~~~(BitVec.ofNat 3 grant)
  if r.lseq = 0 ∨ r.lseq ≤ s.queue.lastSeq then some (1, 0)
  else if r.codebase % 4096 ≠ 0 then some (2, 0x08)
  else if r.args % 64 ≠ 0 then some (2, 0x10)
  else if r.entry.toNat % 4 ≠ 0 then some (2, 0x18)
  else if r.teams = 0 ∨ r.steps = 0 then some (3, 0)
  else match r.groupDetail with
  | some d => some (4, d)
  | none =>
  match (upTo r.cores).find? r.tooBig with
  | some q => some (5, q)
  | none =>
  if 1024 < r.scratch ∨ r.scratch % 4 ≠ 0 ∨ 16 < r.barriers then some (6, 0)
  else match (upTo 8).find? (fun n => badFormat (r.fmt.getD n 0)) with
  | some n => some (7, n)
  | none =>
  if r.minDies < 1 ∨ 1024 < r.minDies ∨ r.maxDies < r.minDies ∨ 1024 < r.maxDies then some (8, 0)
  else if (r.gather ≠ 0 ∧ (r.gather < 64 ∨ 65536 < r.gather)) ∨ r.wdog < 16 ∨ 40 < r.wdog then some (9, 0x68)
  else if r.spill ≠ 0 ∧ (r.spill < 256 ∨ 16777216 < r.spill ∨ !isPow2 r.spill) then some (9, 0x78)
  else if (r.park ∧ (r.phaseRec = 0 ∨ r.phaseRec % 64 ≠ 0))
      ∨ r.carryV.toNat / 2 ^ ((r.ceils.foldl max 0)) ≠ 0
      ∨ (!r.park ∧ (r.carryV ≠ 0 ∨ r.carryS ≠ 0 ∨ r.carryP ≠ 0)) then some (10, 0)
  else if excess ≠ 0 then some (11, excess.toNat)
  else match (upTo 4).find? (fun i => r.prereq.getD i 0 ≠ 0 && decide (r.lseq ≤ r.prereq.getD i 0)) with
  | some i => some (12, i)
  | none =>
  match zeroBits.find? (fun e => s.bodyNat c e.1 4 &&& e.2 ≠ 0) with
  | some e => some (13, e.1)
  | none =>
  if r.dieres && !r.fitsDie ((r.teams + r.minDies - 1) / r.minDies) then some (14, 0)
  else match s.badPrereq r with
  | some i => some (15, i)
  | none => (s.badArea (s.cmdNat c 0x10 8) (s.cmdNat c 0x18 8)).map (fun d => (16, d))

/-- The device's record of a launch command, in a state of R183.  DETAIL of STATE 5 with reasons 1, 2 and 4, REASON and DETAIL
of STATE 1 to 4 and 7, and STEPNOW before a step has started are 0 (DESIGN CHOICE, log 100). -/
def State.newLaunch (s : State) (c : Cmd) (r : LaunchRec) (state reason detail : Nat) : Launch where
  rc := r
  state := state
  reason := reason
  detail := detail
  terminated := 0
  stepNow := 0
  firstTerm := 0xFFFFFFFF
  statAddr := s.cmdNat c 0x20 8
  area := s.cmdNat c 0x10 8
  areaLen := s.cmdNat c 0x18 8
  spillBase := s.cmdNat c 0x28 8
  spillPut := []
  dies := []
  teamsLeft := 0
  stepOpen := false
  preempt := none
  resuming := none
  colls := []
  kcount := []
  savedTeams := []
  savedKindled := []
  savedRecs := []
  savedJobs := []
  saveAt := 0
  ending := none
  slot := c.slot

/-- Accept or refuse a launch: a refused one has no effect but its status record (R172, R183). -/
def State.acceptLaunch (s : State) (c : Cmd) : Accepted :=
  let r := s.launchRec c
  match s.refuse c r with
  | some (reason, detail) =>
    let n := s.newLaunch c r 6 reason detail
    let s := if (s.launches.get? r.lseq).isSome then s else { s with launches := s.launches.put r.lseq n }
    (s.statusWord n.statAddr n.statusBytes, 3, reason)
  | none =>
    let s := { s with launches := s.launches.put r.lseq (s.newLaunch c r 1 0 0), queue := { s.queue with lastSeq := r.lseq } }
    (s.writeStatus r.lseq, 2, 0)

/-- LAUNCH (R172). The launch record at the head of the queue is checked and accepted or refused; a command of an unknown
TYPE is refused with DETAIL 1 (R379). -/
def execLaunch (s : State) : Outcome :=
  s.command (fun s c => decide (s.cmdType c ≤ 1) || decide (9 ≤ s.cmdType c))
    (fun s c => if s.cmdType c = 1 then s.acceptLaunch c else (s, 3, 1))

/-! ## Pre-emption and resumption (R301 to R305) -/

/-- KIND of a TYPE 2 command. -/
def State.cmdKind (s : State) (c : Cmd) : Nat := bitsOf (s.bodyNat c 0x10 4) 1 0

/-- The launches that a TYPE 2 command targets, of those in a state: the one named, or every one with PRIO up to
MAXPRIO (R301). -/
def State.targets (s : State) (c : Cmd) (state : Nat) : List Nat :=
  let t := s.bodyNat c 0x08 8
  let max := bitsOf (s.bodyNat c 0x10 4) 3 2
  (s.launches.filter (fun e => e.2.state = state && (if t = 0 then decide (e.2.rc.prio ≤ max) else e.1 == t))).map (·.1)

/-- The pre-emption of a launch begins; a later one only shortens the limit of the first (R302, R305). -/
def State.beginPreempt (s : State) (l : Nat) (p : Preempt) : State :=
  let ended := ((s.launches.get? l).bind (·.resuming)).toList
  (s.onLaunch l (fun n => { n with
    resuming := none
    preempt := match n.preempt with
      | none => some p
      | some q => some { q with slots := q.slots ++ p.slots, full := q.full || p.full, limit := min q.limit p.limit } })).doneSlots ended

/-- Begin the pre-emption of launches, each with an equal part of the save area in whole pages (log 12). -/
def State.beginPreempts (s : State) (p : Preempt) (share : Nat) : List Nat → Nat → State
  | [], _ => s
  | l :: rest, i =>
    (s.beginPreempt l { p with save := p.save + share * i, saveLen := share }).beginPreempts p share rest (i + 1)

/-- Accept a pre-empt command (R301, R380). -/
def State.acceptPreempt (s : State) (c : Cmd) : Accepted :=
  let w := s.bodyNat c 0x10 4
  let full := w.testBit 4
  let limit := bitsOf w 10 5
  if 2 ≤ s.cmdKind c ∨ w / 2 ^ 11 ≠ 0 then (s, 3, 1)
  else if !full ∧ (limit < 10 ∨ 40 < limit) then (s, 3, 4)
  else
    match s.targets c 2 with
    | [] => (s, 2, 0)
    | ts =>
      let len := s.cmdNat c 0x18 8
      let share := if ts.length = 1 then len else len / ts.length / 4096 * 4096
      let p : Preempt := ⟨[c.slot], full, if full then 0 else limit, s.bodyNat c 0x18 8, share, 4096,
        s.cores.map (fun (e : Nat × Core) => (e.1, e.2.counters.getD 0 0))⟩
      (s.beginPreempts p share ts 0, 1, 0)

/-- PREEMPT (R302). The pre-emption of the targeted launches begins; a KIND that R301 does not give is refused. -/
def execPreempt (s : State) : Outcome :=
  s.command (fun s c => s.cmdType c == 2 && s.cmdKind c != 1) State.acceptPreempt

/-- Accept a resume command (R301, R304). -/
def State.acceptResume (s : State) (c : Cmd) : Accepted :=
  if s.bodyNat c 0x10 4 / 2 ^ 11 ≠ 0 then (s, 3, 1)
  else
    match (s.targets c 7).filter (fun l => ((s.launches.get? l).bind (·.resuming)).isNone) with
    | [] => (s, 2, 0)
    | ts => (ts.foldl (fun s l => s.onLaunch l (fun n => { n with resuming := some c.slot })) s, 1, 0)

/-- RESUME (R304). The targeted saved launches are restored, the teams as they find room. -/
def execResume (s : State) : Outcome :=
  s.command (fun s c => s.cmdType c == 2 && s.cmdKind c == 1) State.acceptResume

/-! ## Fault resume and termination (R346, R347, R380) -/

/-- The group that a TYPE 3 command names: launch, team and group, or a kindled group by its number, on its core. -/
def State.namedGroup (s : State) (c : Cmd) (core : Bool) : Option (Nat × Group) :=
  let l := s.bodyNat c 0 8
  let team := s.bodyNat c 8 4
  let grp := s.bodyNat c 12 4
  let k := s.bodyNat c 16 4
  s.groups.find? (fun e => e.2.lseq == l && (!core || e.2.aside || coreWord e.2.core == k)
    && (match s.teamOf e.2 with
      | some t => t.tix == team && e.2.gix == grp
      | none => team == 0xFFFFFFFF && e.2.serial.toNat == grp))

/-- The driver resumes a group at its 0x10 records: those faults are gone and their threads make their words again;
other faults keep it stopped, and their handler reads the resolved records too (R343, R346). -/
def Group.driverResume (now : Nat) (g : Group) : Group :=
  let rest := g.faults.filter (fun r => r.code ≠ 0x10)
  let back := fun (t : Nat) => !(rest.any (fun r => r.thread == t))
  let h := { g with
    faults := rest
    resolved := if rest.isEmpty then [] else g.resolved ++ g.faults.filter (fun (r : FaultRec) => r.code = 0x10)
    threads := g.threads.map (fun (e : Nat × Thread) =>
      if e.2.place = Place.faulted ∧ back e.1 then (e.1, { e.2 with place := .ready, demand := 0 }) else e) }
  if rest.isEmpty then h.go now else { h with stop := .stopped }

/-- Accept a fault-resume command. -/
def State.acceptFaultResume (s : State) (c : Cmd) : Accepted :=
  match s.namedGroup c true with
  | none => (s, 3, 2)
  | some (g, gr) =>
    if gr.stop = .driver then (s.onGroup g (Group.driverResume (s.now gr.core)), 2, 0) else (s, 3, 2)

/-- FAULT_RESUME (R346). A group stopped for the driver at a 0x10 record goes on; any other is refused with DETAIL 2. -/
def execFaultResume (s : State) : Outcome := s.command (fun s c => s.cmdType c == 3) State.acceptFaultResume

/-- What a launch has saved of a team is gone. -/
def Launch.dropTeam (t : Nat) (n : Launch) : Launch :=
  { n with savedTeams := n.savedTeams.filter (· ≠ t), savedJobs := n.savedJobs.filter (fun e => e.2.team ≠ some t) }

/-- What a launch has saved of a kindled group is gone. -/
def Launch.dropKindled (g : Nat) (n : Launch) : Launch :=
  { n with
    savedKindled := n.savedKindled.filter (· ≠ g)
    savedJobs := n.savedJobs.filter (fun e => e.2.team.isSome || e.2.g != g) }

/-- Terminate the named team of the current step, or the named kindled group; none where there is none (R380). -/
def State.terminateNamed (s : State) (c : Cmd) : Option State :=
  let l := s.bodyNat c 0 8
  let team := s.bodyNat c 8 4
  match s.launches.get? l with
  | none => none
  | some n =>
    if n.state ≠ 2 ∧ n.state ≠ 7 then none
    else if team = 0xFFFFFFFF then
      (s.namedGroup c true).map (fun e => (s.terminateKindled e.1).onLaunch l (Launch.dropKindled e.1))
    else
      (s.teams.find? (fun e => e.2.lseq == l && e.2.tix == team && e.2.step == n.stepNow && !e.2.ended)).map
        (fun e => (s.terminateTeam e.1).onLaunch l (Launch.dropTeam e.1))

/-- The ALL bit of a TYPE 4 command. -/
def State.cmdAll (s : State) (c : Cmd) : Bool := (s.bodyNat c 0x14 4).testBit 0

/-- A nonzero reserved bit of a TYPE 4 body. -/
def State.badTerminate (s : State) (c : Cmd) : Bool := s.bodyNat c 0x14 4 / 2 != 0

/-- TERMINATE (R380). A named team or kindled group ends under R347; one that does not exist is refused with DETAIL 2. -/
def execTerminate (s : State) : Outcome :=
  s.command (fun s c => s.cmdType c == 4 && !s.cmdAll c) (fun s c =>
    if s.badTerminate c then (s, 3, 1)
    else match s.terminateNamed c with
      | some s => (s, 2, 0)
      | none => (s, 3, 2))

/-- TERMINATE_ALL (R380). A whole launch ends from STATE 1, 2 or 7 with STATE 5 and REASON 4. -/
def execTerminateAll (s : State) : Outcome :=
  s.command (fun s c => s.cmdType c == 4 && s.cmdAll c) (fun s c =>
    let l := s.bodyNat c 0 8
    if s.badTerminate c then (s, 3, 1)
    else if (s.launches.get? l).elim false (fun n => n.state = 0 || n.state = 1 || n.state = 2 || n.state = 7) then
      (s.endGrid l 4 0, 2, 0)
    else (s, 3, 2))

/-! ## Die service (R381) -/

/-- The die that a TYPE 5 or TYPE 8 body names. -/
def State.cmdDie (s : State) (c : Cmd) : Nat :=
  4 * bitsOf (s.bodyNat c 0 4) 7 0 + bitsOf (s.bodyNat c 0 4) 9 8

/-- A nonzero bit elsewhere in a TYPE 5 body (R380). -/
def State.badService (s : State) (c : Cmd) : Bool :=
  bitsOf (s.bodyNat c 0 4) 15 10 != 0 || s.bodyNat c 0 4 / 2 ^ 17 != 0 || s.bodyNat c 4 252 != 0

/-- A die-service command brings the die back. -/
def State.cmdBack (s : State) (c : Cmd) : Bool := (s.bodyNat c 0 4).testBit 16

/-- Take a die out of service: queued teams go back, but those of a pinned launch whose home it is (R381). -/
def State.takeOut (s : State) (x slot : Nat) : State :=
  (s.returnTeams x (s.pinnedTo x)).onDie x (fun d => { d with inService := false, service := d.service ++ [slot] })

/-- DIE_OUT_OF_SERVICE (R381). A die joins no new step; STATUS 1 until it belongs to none. -/
def execDieOutOfService (s : State) : Outcome :=
  s.command (fun s c => s.cmdType c == 5 && !s.cmdBack c) (fun s c =>
    if s.badService c then (s, 3, 1)
    else if 4 * s.npkg ≤ s.cmdDie c then (s, 3, 2)
    else (s.takeOut (s.cmdDie c) c.slot, 1, 0))

/-- DIE_IN_SERVICE (R381). A die may join the die set of later steps. -/
def execDieInService (s : State) : Outcome :=
  s.command (fun s c => s.cmdType c == 5 && s.cmdBack c) (fun s c =>
    if s.badService c then (s, 3, 1)
    else if 4 * s.npkg ≤ s.cmdDie c then (s, 3, 2)
    else (s.onDie (s.cmdDie c) (fun d => { d with inService := true, trouble := .none, lost := false, dying := false }), 2, 0))

/-- DIE_WITHDRAWN (R381). A die out of service that belongs to no step ends its commands with STATUS 2. -/
def execDieWithdrawn (x : Nat) (s : State) : Outcome :=
  .next (if s.launches.any (fun e => e.2.state = 2 && e.2.dies.contains x) then s
  else
    let slots := (s.die x).service
    slots.foldl (fun s i => s.setSlot i 2 0) (s.onDie x (fun d => { d with service := [] })))

/-! ## The other commands (R380, R383) -/

/-- TLB_INVALIDATE (R380). Acts as TLBINV with extent 1 or 3 in every die; any other extent is refused with DETAIL 1. -/
def execTlbInvalidate (s : State) : Outcome :=
  s.command (fun s c => s.cmdType c == 6) (fun s c =>
    let extent := s.bodyNat c 8 4
    if extent = 1 ∨ extent = 3 then (s.invalidate 0 extent (s.bodyNat c 0 8), 2, 0) else (s, 3, 1))

/-- The shortest seal map (R327, R380). -/
def sealMapMin : Nat := 0x10000 + 4096 * 0x8000

/-- DOMAIN_CONFIGURATION (R380). Sets the page-table root and the seal map while no launch waits, runs or is saved. -/
def execDomainConfiguration (s : State) : Outcome :=
  s.command (fun s c => s.cmdType c == 7) (fun s c =>
    let map := s.bodyNat c 8 8
    let len := s.bodyNat c 16 8
    if s.launches.any (fun e => e.2.state = 1 || e.2.state = 2 || e.2.state = 7) then (s, 3, 3)
    else if map ≠ 0 ∧ len < sealMapMin then (s, 3, 1)
    else ({ s with ptRoot := BitVec.ofNat 64 (s.bodyNat c 0 8), sealMap := BitVec.ofNat 64 map,
                   sealLen := BitVec.ofNat 64 len }, 2, 0))

/-- DIE_WINDOW (R380). Sets the window base that later groups of a die read in DWBASE (R182). -/
def execDieWindow (s : State) : Outcome :=
  s.command (fun s c => s.cmdType c == 8) (fun s c =>
    let base := s.bodyNat c 8 8
    if 4 * s.npkg ≤ s.cmdDie c then (s, 3, 2)
    else if base % 2 ^ 40 ≠ 0 ∨ 2 ^ 57 ≤ base then (s, 3, 1)
    else (s.onDie (s.cmdDie c) (fun d => { d with window := BitVec.ofNat 64 base }), 2, 0))

/-- REGISTER_WINDOW_WRITE (R383). A write to a package's register window: the queue control registers take it, every
other byte discards it. -/
def execRegisterWindowWrite (pkg off : Nat) (bytes : List Byte) (s : State) : Outcome :=
  let pa := pkg * 2 ^ 44 + 2 * 2 ^ 36 + off
  if s.names pa && decide (off < 2 ^ 36) then .next (s.windowWrite off bytes) else .fault (.noSuchAddress pa)

end Sys2Proof.Machine
end

