-- ==== Sys2Proof/Machine/Fabric.lean ====
section
/-! DEFINITION. The fabric between packages (R360 to R368, R376): hops of packets, replay of flits, route tables, the
recovery probe and escape buffers, error notices, and RDMA writes (R387). -/

namespace Sys2Proof.Machine

/-! ## Route tables (R361, R362) -/

/-- Choice h of a route entry: next package, weight, detour. -/
structure Choice where
  next : Nat
  weight : Nat
  detour : Bool
  deriving DecidableEq, Repr

/-- Choice h of an entry (R361). -/
def choiceOf (e : Dword) (h : Nat) : Choice :=
  let x := e.toNat / 2 ^ (16 * h)
  ⟨x % 2 ^ 8, x / 2 ^ 8 % 16, x.testBit 12⟩

/-- The used choices of an entry, minimal ones alone after a detour hop (R361). -/
def usedChoices (e : Dword) (minimal : Bool) : List Choice :=
  ((upTo 4).map (choiceOf e)).filter (fun c => c.weight ≠ 0 && !(minimal && c.detour))

/-- The choice at a place of the flows' spread over choices in proportion to their weights. -/
def pickChoice (cs : List Choice) (n : Nat) : Option Choice :=
  let total := (cs.map (·.weight)).sum
  let rec go : List Choice → Nat → Option Choice
    | [], _ => none
    | c :: rest, k => if k < c.weight then some c else go rest (k - c.weight)
  if total = 0 then none else go cs (n % total)

/-- The class of what a packet carries: true for a response (R363). -/
def Cargo.isResponse : Cargo → Bool
  | .response _ | .lineAck _ _ | .engineBack _ _ | .collBack _ _ => true
  | .request _ | .record _ | .lineBack _ _ | .engine _ _ _ | .coll _ _ => false

/-- The flits of a packet: its header and its data (R363). -/
def Packet.flits (p : Packet) : Nat := 1 + (p.bytes + 63) / 64

/-- The next hop of a packet at its package: a fixed function of source tag, destination and table version.  A detour is
taken at the first hop alone, so a path has at most 2 hops, or 3 with its detour; an escape buffer forwards along minimal
paths (R361, R362, R367). -/
def State.nextHop (s : State) (p : Packet) : Option Choice :=
  let q := s.pkg p.at_
  if (if p.detour then 3 else 2) ≤ p.hop then none
  else pickChoice (usedChoices (q.routes.getD p.dest 0) (p.detour || p.escape || decide (1 ≤ p.hop)))
    (Config.pathChoice p.srcTag p.dest q.routeVersion)

/-- The ports of a package toward another, in order, and those of them that are up (R360, R364, R376). -/
def State.portsTo (s : State) (a b : Nat) : List Nat :=
  (upTo 144).filter (fun i => ((s.pkg a).ports[i]?).elim false (fun n => n.neigh == b))
def State.upPorts (s : State) (a b : Nat) : List Nat :=
  (s.portsTo a b).filter (fun i => ((s.pkg a).ports[i]?).elim false (fun n => n.lstate == 2))

/-- Two packages have a working link: a port of the one is up toward the other (R364, R376). -/
def State.linked (s : State) (a b : Nat) : Bool := !(s.upPorts a b).isEmpty

/-- The port of the next package at which a packet comes in, one for all packets of its flow while the ports that are up
stay the same; none where the link is down (R362, R364). -/
def State.inPort (s : State) (p : Packet) (next : Nat) : Option Nat :=
  let ups := s.upPorts p.at_ next
  (ups[Config.pathChoice p.srcTag p.dest (s.pkg p.at_).routeVersion % ups.length]?).bind (fun i =>
    (s.portsTo next p.at_)[(s.portsTo p.at_ next).findIdx (· = i)]?)

/-- Two packets are of one flow: one source, one destination package (R362). -/
def Packet.sameFlow (p q : Packet) : Bool := p.srcTag == q.srcTag && p.src == q.src && p.dest == q.dest

/-- Every earlier packet of the flow has left this package for the same next one, or has been delivered: the flow keeps its
order, and is held here while earlier packets of it are on another path (R362). -/
def State.flowFree (s : State) (id : Nat) (p : Packet) (next : Nat) : Bool :=
  s.packets.all (fun e => !(decide (e.1 < id) && e.2.sameFlow p) || e.2.path.contains (p.at_, next))

/-- The packets in the buffer of a virtual channel of a port, or in its escape buffer of the class (R363, R367). -/
def State.buffer (s : State) (at_ port : Nat) (response : Bool) (vc : Nat) (escape : Bool) : List (Nat × Packet) :=
  s.packets.filter (fun e => e.2.at_ == at_ && e.2.port == some port && e.2.cargo.isResponse == response
    && e.2.escape == escape && (escape || e.2.vc == vc))

/-- The packet is the head of its virtual channel, or stands in none (R367). -/
def State.isHead (s : State) (p : Packet) : Bool :=
  p.port.elim true (fun n => (s.buffer p.at_ n p.cargo.isResponse p.vc p.escape).all (fun e => decide (p.since ≤ e.2.since)))

/-- The buffer of the next hop, virtual channel h of its class for hop h, has no room for the packet; an escape buffer holds
one packet (R363, R367). -/
def State.full (s : State) (p : Packet) (next port : Nat) (escape : Bool) : Bool :=
  let b := s.buffer next port p.cargo.isResponse p.hop escape
  if escape then !b.isEmpty else decide (Config.channelFlits + 5 < (b.map (·.2.flits)).sum + p.flits)

/-- A packet comes to its destination package, where its home or endpoint takes it: dirty bytes are merged and acknowledged,
once the home is not in transition; a job's request has come; bytes of a collective are acknowledged (R254, R316, R365). -/
def State.deliver (s : State) (id : Nat) (p : Packet) : State :=
  let out := { s with packets := s.packets.del id }
  match p.cargo with
  | .lineBack x n =>
    if s.homeOpen (64 * n) then
      (out.landLine x n).packetOut (.lineAck x n) p.dest p.srcTag p.seq (PkgPlace.die x) 0
    else { s with packets := s.packets.put id { p with at_ := p.dest, port := none } }
  | .engine key born page => out.onJob key (fun j =>
      if j.born = born then
        { j with trips := j.trips.map (fun t => if t.va / 4096 = page then { t with there := true } else t) }
      else j)
  | .coll key born =>
    out.packetOut (.collBack key born) p.dest (collTag (4 * p.dest + p.place)) p.seq (PkgPlace.die (jobCore key / 96)) 0
  | _ => out

/-- Advance a packet one hop: it is delivered, or the next hop takes custody of it at a port (R363, R365). -/
def State.hopTo (s : State) (id : Nat) (p : Packet) (next port : Nat) (detour escape : Bool) : State :=
  let p := { p with path := p.path ++ [(p.at_, next)], detour := p.detour || detour }
  if next = p.dest then s.deliver id p
  else ({ s with packets := s.packets.put id { p with
    at_ := next, port := some port, vc := p.hop, since := s.fresh, hop := p.hop + 1, escape := escape
    timer := none, armed := s.clock next, probing := false } }).tick

/-- FABRIC_HOP (R362, R363, R365, R367). The next hop of a packet takes custody of it, or it reaches its destination
package; the packets of a flow keep their order.  Where the next buffer is full the timer of the head is armed. -/
def execFabricHop (id : Nat) (s : State) : Outcome :=
  .next (match s.packets.get? id with
  | none => s
  | some p =>
    if p.at_ = p.dest then s.deliver id p
    else if !s.isHead p || (s.pkg p.dest).lost then s
    else
      match s.nextHop p with
      | none => s
      | some c =>
        match s.inPort p c.next with
        | none => s
        | some port =>
          if !s.flowFree id p c.next then s
          else if c.next ≠ p.dest ∧ s.full p c.next port p.escape = true then
            (if p.timer.isSome then s
             else { s with packets := s.packets.put id { p with timer := some (2 ^ 14), armed := s.clock p.at_ } })
          else s.hopTo id p c.next port c.detour p.escape)

/-! ## Ports (R364, R376) -/

/-- Change a port of a package. -/
def State.onPort (s : State) (pkg n : Nat) (f : Port → Port) : State :=
  s.onPkg pkg (fun p => { p with ports := p.ports.modify n f })

/-- A flit sent by a port fails its CRC: the attempt before it was itself sent again, which RETRY counts, unless it was the
first; after 32 failures no other attempt is made there (R364, R376). -/
def Port.failed (n : Port) : Port :=
  if n.lstate ≠ 2 ∨ 32 ≤ n.fails then n
  else { n with fails := n.fails + 1, retry := if n.fails = 0 then n.retry else min (n.retry + 1) 65535 }

/-- FLIT_REPLAY (R364). A flit whose CRC has failed is sent again: the retry passes, or after 32 failures in a row on it the
port goes down and its flits go over the other ports of the link. -/
def execFlitReplay (pkg port : Nat) (s : State) : Outcome :=
  .next (s.onPort pkg port (fun n =>
    if n.fails = 0 then n
    else if 32 ≤ n.fails then { n with lstate := 0, fails := 0 }
    else { n with retry := min (n.retry + 1) 65535, fails := 0 }))

/-- Add to a fabric counter of a package (R376). -/
def State.countFabric (s : State) (pkg n : Nat) : State :=
  s.onPkg pkg (fun p => { p with fabric := p.fabric.set n ((p.fabric.getD n 0 + 1) % 2 ^ 64) })

/-- A route entry as it is kept: the reserved bits of each choice read as zero (R12, R361). -/
def routeEntry (e : BitVec 64) : BitVec 64 := e &&& 0x1FFF1FFF1FFF1FFF

/-- ROUTE_TABLE_LOAD (R361, R362). The fabric manager loads a package's route table as a new version. -/
def execRouteTableLoad (pkg : Nat) (entries : List (BitVec 64)) (s : State) : Outcome :=
  let table := (entries.map routeEntry ++ List.replicate 256 0).take 256
  .next ((s.onPkg pkg (fun p => { p with
    routes := table, routeVersion := p.routeVersion + 1
    declared := p.declared.filter (fun d => usedChoices (table.getD d 0) false == []) })).countFabric pkg 5)

/-- The packages to which a package has a working link. -/
def State.linksOf (s : State) (a : Nat) : List Nat :=
  (((s.pkg a).ports.filter (·.lstate == 2)).map (·.neigh)).dedup

/-- A path of at most 3 hops over working links leads from a package to another (R361, R365). -/
def State.pathSurvives (s : State) (a b : Nat) : Bool :=
  (s.linksOf a).any (fun x => x == b || (s.linksOf x).any (fun y => y == b || (s.linksOf y).contains b))

/-- The fabric manager declares a package unreachable from another, where no path survives (R365). -/
def State.declare (s : State) (a b : Nat) : State :=
  if s.pathSurvives a b then s else s.onPkg a (fun p => { p with declared := (b :: p.declared).dedup })

/-! ## Deadlock recovery (R367) -/

/-- The head of the full buffer for which a head packet waits: none where the packet is no head, may advance, or waits for a
path, a link or its flow (R367). -/
def State.waitsFor (s : State) (id : Nat) (p : Packet) : Option (Nat × Packet) :=
  if p.at_ = p.dest || !s.isHead p || p.escape then none
  else
    match s.nextHop p with
    | none => none
    | some c =>
      match s.inPort p c.next with
      | none => none
      | some port =>
        if c.next = p.dest || !s.flowFree id p c.next || !s.full p c.next port false then none
        else (s.buffer c.next port p.cargo.isResponse p.hop false).find? (fun e => s.isHead e.2)

/-- The chain of blocking from a packet comes back to packet `origin`; the fuel bounds its length (R367). -/
def State.chainBack (s : State) (origin : Nat) : Nat → Nat → Packet → Bool
  | 0, _, _ => false
  | f + 1, id, p =>
    match s.waitsFor id p with
    | none => false
    | some e => e.1 == origin || s.chainBack origin f e.1 e.2

/-- A packet stands in a cycle of waits (R367). -/
def State.inCycle (s : State) (id : Nat) (p : Packet) : Bool := s.chainBack id (s.packets.length + 1) id p

/-- RECOVERY_PROBE (R367). The timer of a head packet that cannot advance because the next buffer is full runs out on its
package's clock: a probe is sent on its own channel. -/
def execRecoveryProbe (id : Nat) (s : State) : Outcome :=
  .next (match s.packets.get? id with
  | none => s
  | some p =>
    match p.timer with
    | none => s
    | some n =>
      if p.probing || decide (s.clock p.at_ < p.armed + n) || (s.waitsFor id p).isNone then s
      else ({ s with packets := s.packets.put id { p with probing := true } }).countFabric p.at_ 0)

/-- A packet in a cycle goes into the escape buffer of its next hop, once that is free (R367). -/
def State.escape (s : State) (id : Nat) (p : Packet) : State :=
  match (s.nextHop { p with escape := true }).bind (fun c => (s.inPort p c.next).map (fun n => (c.next, n))) with
  | none => s
  | some (next, port) =>
    if !s.flowFree id p next || s.full p next port true then s
    else ((s.countFabric p.at_ 1).countFabric p.at_ 2).hopTo id p next port false true

/-- PROBE_RETURN (R367). A probe that found no cycle arms the timer with twice the interval, to 2^24 cycles; one that came
back through the chain moves the packet into the escape buffer of its next hop.  What the probe reports is what the chain
of blocking is. -/
def execProbeReturn (id : Nat) (cycle : Bool) (s : State) : Outcome :=
  .next (match s.packets.get? id with
  | none => s
  | some p =>
    if !p.probing || s.inCycle id p != cycle then s
    else if cycle then s.escape id p
    else { s with packets := s.packets.put id { p with
        timer := some (min (2 * p.timer.getD (2 ^ 14)) (2 ^ 24)), armed := s.clock p.at_, probing := false } })

/-! ## Error notices (R365, R366) -/

/-- The die of its destination package to which spawn or collective traffic goes (R282, R363, R365). -/
def State.toDie (s : State) (p : Packet) : Option Nat :=
  match p.cargo with
  | .record r => (s.recs.get? r).map s.targetDie
  | .coll _ _ => some (4 * p.dest + p.place)
  | _ => none

/-- The cause of an error notice holds: the destination package is withdrawn, the fabric manager has declared it
unreachable, or the destination die of spawn or collective traffic is not in service (R365). -/
def State.noticeCause (s : State) (p : Packet) (reason : Nat) : Bool :=
  match reason with
  | 1 => (s.pkg p.dest).lost
  | 2 => (s.pkg p.at_).declared.contains p.dest
  | 3 => (s.toDie p).elim false (fun x => !(s.die x).inService)
  | _ => false

/-- A notice at the origin of a spawn record: 0x60 against the spawning thread, and no record is placed (R366). -/
def State.noticeRecord (s : State) (p : Packet) (id detail : Nat) : State :=
  match s.recs.get? id with
  | none => s.countFabric p.at_ 4
  | some r =>
    let s := { s with recs := s.recs.del id }
    match (s.groups.get? r.srcG).bind (fun g => Tbl.get? g.threads r.srcT) with
    | none => s.countFabric p.at_ 4
    | some th => match th.place with
      | .waiting (.spawn n) at_ _ _ _ =>
        if n = id then s.raiseRec r.srcG (FaultRec.make 0x60 r.srcT at_ 0 detail 0 p.seq) else s
      | _ => s

/-- A notice at the origin of a request: 0x60 against its thread; the claim of a PUTQ stays open (R123, R366). -/
def State.noticeRequest (s : State) (p : Packet) (r detail : Nat) : State :=
  match s.reqs.get? r with
  | none => s.countFabric p.at_ 4
  | some q =>
    let s := { s with packets := s.packets.filter (fun (e : Nat × Packet) => e.2.cargo != Cargo.request r) }
    let s := match q.stage with
      | .claimed start placed _ _ =>
        let (s, d, _) := s.openRing q.core q.pa q.uc
        s.writeRing q.pa (d.leaveOpen start ((q.m + 63) / 64) placed)
      | _ => s
    s.failReq r { q with seq := p.seq } 0x60 q.pa detail

/-- A thread whose word waits in a release raises 0x60 there; a word that a whole group waits in raises it against its
lowest-indexed signer (R60, R366). -/
def State.failRelease (s : State) (g t addr detail seq : Nat) : State :=
  match s.groups.get? g with
  | none => s
  | some gr =>
    let s := s.onGroup g (fun x => { x with releasing := x.releasing.filter (· ≠ t) })
    match gr.waits.find? (fun w => w.2.sigs.any (·.t = t)) with
    | some (w, x) =>
      if (x.sigs.map (·.t)).headD t ≠ t then s
      else
        ((s.onGroup g (fun x => { x with waits := x.waits.del w })).standStill g (x.sigs.map (·.t)) x.at_.pc).raiseRec g
          (FaultRec.make 0x60 t x.at_ addr detail 0 seq)
    | none =>
      match Tbl.get? gr.threads t with
      | none => s
      | some th =>
        let at_ := match th.place with
          | .waiting _ c _ _ _ => c
          | _ => ⟨th.pc, th.pc, 0, 0, false⟩
        s.raiseRec g (FaultRec.make 0x60 t at_ addr detail 0 seq)

/-- A notice for a write-back of line n of die x: its bytes are lost, and 0x60 is raised against every thread of the die that
waits in a release; with none it is logged alone (R254, R366). -/
def State.noticeLine (s : State) (p : Packet) (x n detail : Nat) : State :=
  let s := match s.l2 x n with
    | some l => s.putL2 x n { l with dirty := 0 }
    | none => s
  let rs := s.reqs.filter (fun e => e.2.core / 96 == x && !e.2.isDone && e.2.hasRelease
    && (e.2.kind == .seal || decide (2 ≤ e.2.reachScope)))
  let ts := (s.groups.filter (fun e => e.2.die == x)).flatMap (fun (e : Nat × Group) => e.2.releasing.map (fun t => (e.1, t)))
  if rs.isEmpty && ts.isEmpty then s.countFabric p.at_ 4
  else
    let s := rs.foldl (fun s e => s.failReq e.1 { e.2 with seq := p.seq } 0x60 (64 * n) detail) s
    ts.foldl (fun s e => s.failRelease e.1 e.2 (64 * n) detail p.seq) s

/-- A notice for a packet of a job: the job fails with 0x60 (R146, R366). -/
def State.noticeJob (s : State) (p : Packet) (key born addr : Nat) : State :=
  match s.jobs.get? key with
  | none => s.countFabric p.at_ 4
  | some j => if j.born = born ∧ j.live = true then s.failJob key 0x60 addr p.seq else s.countFabric p.at_ 4

/-- ERROR_NOTICE (R365, R366). A hop that cannot forward a packet for one of the three reasons tells its origin: 0x60
against the thread of a request, a release or a spawn, or the failure of a job; for a response the notice is logged, and no
reply comes. -/
def execErrorNotice (id reason : Nat) (s : State) : Outcome :=
  .next (match s.packets.get? id with
  | none => s
  | some p =>
    if !s.noticeCause p reason then s
    else
      let s := ({ s with packets := s.packets.del id }).countFabric p.at_ 3
      let detail := noticeDetail reason p.at_ p.dest p.cargo.isResponse
      match p.cargo with
      | .request r => s.noticeRequest p r detail
      | .record r => s.noticeRecord p r detail
      | .lineBack x n => s.noticeLine p x n detail
      | .engine key born page => s.noticeJob p key born ((s.jobs.get? key).elim 0 (fun j =>
          (j.trips.find? (fun t => t.va / 4096 == page)).elim 0 (·.pa)))
      | .coll key born => s.noticeJob p key born 0
      | .response r => (s.onReq r (fun q => { q with lost := true })).countFabric p.at_ 4
      | _ => s.countFabric p.at_ 4)

/-! ## RDMA (R387) -/

/-- Where a byte of an RDMA target stands: the domain page table is walked by the host die, which holds no translations
(R320, R387; log 99); a sealed or owner-local page, one not to be written and a lost one refuse. -/
def State.rdmaReach (s : State) (va : Nat) : Tr :=
  if va / 2 ^ 57 ≠ 0 then .bad 0x11 0
  else
    match s.walk va 4 s.ptRoot.toNat with
    | .ok pa e =>
      if !e.w || e.ol || s.sealedPage va || s.stackLost pa then .bad 0x11 0
      else if s.homeOpen pa && (s.firstFor pa).isNone then .ok pa e
      else .hold
    | r => r

/-- RDMA_WRITE (R387). The oldest write of a queue pair is performed at its homes at rack scope and acknowledged, or
refused to the peer. -/
def execRdmaWrite (q : Nat) (s : State) : Outcome :=
  .next (match s.rdmas.find? (fun e => e.2.queue == q && e.2.done.isNone) with
  | none => s
  | some (id, w) =>
    let pieces := linePieces w.bytes.length w.va.toNat w.bytes.length
    let say := fun (s : State) (ok : Bool) => { s with rdmas := s.rdmas.modify id (fun r => { r with done := some ok }) }
    let rs := pieces.map (fun e => (e, s.rdmaReach e.1))
    if rs.any (fun r => match r.2 with
      | .bad _ _ => true
      | _ => false) then say s false
    else if rs.any (fun r => r.2 == .hold) then s
    else say (rs.foldl (fun s r => match r.2 with
      | .ok pa e =>
        let bytes := (w.bytes.drop (r.1.1 - w.va.toNat)).take r.1.2
        if e.uc then s.ucWrite pa bytes else s.homeWrite pa bytes
      | _ => s) s) true)

end Sys2Proof.Machine
end

