-- ==== Sys2Proof/Machine/Platform.lean ====
section
/-! DEFINITION. The platform (R2, R217, R360, R377, R384 to R388): power, package reset, the five boot stages with the
root of trust, domain formation, failover, and attestation. -/

namespace Sys2Proof.Machine

/-! ## Power and reset (R2, R388) -/

/-- POWER_SEQUENCE (R388). The tray manager brings up the next supply: host and routing die, stacks, compute dies. -/
def execPowerSequence (pkg : Nat) (s : State) : Outcome :=
  .next (s.onPkg pkg (fun p => { p with power := min (p.power + 1) 3 }))

/-- POWER_LIMIT (R388). A package power limit from 1,000 W to 4,200 W; any other is not set. -/
def execPowerLimit (pkg watts : Nat) (s : State) : Outcome :=
  .next (s.onPkg pkg (fun p => if 1000 ≤ watts ∧ watts ≤ 4200 then { p with powerLimit := watts } else p))

/-- A package right after its reset: its registers at their reset values, its identification block among them; what its
flash and its disks hold, its mailbox and what the tray manager has set being as before (R384, R385). -/
def Package.restart (p : Package) : Package :=
  { Package.reset with
    boot := .reset, flashImg := p.flashImg, driverImg := p.driverImg, firmImg := p.firmImg, powerLimit := p.powerLimit
    power := p.power, mail := p.mail, quotes := p.quotes }

/-- An agent of a package other than this one. -/
def State.agentOff (s : State) (pkg : Nat) (a : Agent) : Bool :=
  let off := fun (k : Nat) => decide (k / 384 ≠ pkg)
  match a with
  | .job key => off (jobCore key)
  | .thread g _ | .fetch g => (s.groups.get? g).elim true (fun gr => off gr.core)
  | .req r => (s.reqs.get? r).elim true (fun q => off q.core)
  | .record _ => true

/-- A record stands in a unit's queue, a bin or a spill ring of a package. -/
def State.recordIn (s : State) (pkg : Nat) (r : SpawnRec) : Bool :=
  match r.place with
  | .entering _ | .spilled _ _ | .binned _ => decide (s.unitOf r / 384 = pkg)
  | _ => false

/-- The dies and cores of a package at reset; what ran on them is gone. -/
def State.restartDies (s : State) (pkg : Nat) : State :=
  let off := fun (k : Nat) => decide (k / 384 ≠ pkg)
  { s with
    passed := s.passed.filter (fun p => s.agentOff pkg p.agent)
    packets := s.packets.filter (fun e => e.2.at_ ≠ pkg)
    recs := s.recs.filter (fun e => !s.recordIn pkg e.2)
    dies := s.dies.filter (fun e => decide (e.1 / 4 ≠ pkg))
    cores := s.cores.filter (fun e => off e.1)
    groups := s.groups.filter (fun e => off e.2.core)
    reqs := s.reqs.filter (fun e => off e.2.core)
    mops := s.mops.filter (fun e => off e.2.core)
    jobs := s.jobs.filter (fun e => off (jobCore e.1))
    bins := s.bins.filter (fun e => off e.2.core)
    walks := s.walks.filter (fun e => decide (e.2.die / 4 ≠ pkg)) }

/-- PACKAGE_RESET (R2, R157, R217, R311). A powered package takes its reset state and begins to boot. -/
def execPackageReset (pkg : Nat) (s : State) : Outcome :=
  .next (if (s.pkg pkg).power < 3 then s else (s.restartDies pkg).onPkg pkg Package.restart)

/-! ## Boot (R384) -/

/-- FLUE_TRAINING (R384). Stage 1 trains the flues and the optical engines: every port LSTATE 1. -/
def execFlueTraining (pkg : Nat) (s : State) : Outcome :=
  .next (s.onPkg pkg (fun p =>
    if p.boot = .reset then { p with ports := List.replicate 144 { Port.reset with lstate := 1 }, boot := .trained } else p))

/-- The header of an image, its first 16 bytes: magic, security version, length (R384; the places in it are DESIGN CHOICE,
log 103). -/
def Image.svn (i : Image) : Nat := bytesToNat ((i.body.drop 4).take 4)
def Image.length (i : Image) : Nat := bytesToNat ((i.body.drop 8).take 8)

/-- Why an image is refused: its key's digest, its signature, or its SVN (R384).  A key, a signature or an image that is not as
long as it must be verifies nothing. -/
def imageCause (pkg : Nat) (key : List Byte) (i : Image) : Option Nat :=
  if key.length ≠ 1952 ∨ Config.shake256 key ≠ Config.fuseKeyDigest pkg then some 1
  else if i.sig.length ≠ 3309 ∨ i.body.length ≠ 16 + i.length ∨ Config.mldsaVerify key (Config.shake256 i.body) i.sig = false then
    some 2
  else if i.svn < (Config.fuseSvn pkg).toNat then some 3
  else none

/-- A package loads an image, extended into the measurement register before it runs; a refused image halts the boot
(R384). -/
def Package.load (p : Package) (pkg stage : Nat) (key : List Byte) (image : Option Image) (next : Boot) : Package :=
  match image with
  | none => { p with boot := .halted stage 0 }
  | some i =>
    match imageCause pkg key i with
    | some c => { p with boot := .halted stage c }
    | none => { p with
        measure := Config.shake256 (p.measure ++ Config.shake256 i.body), ran := p.ran ++ [i.svn], boot := next }

/-- HOST_FIRMWARE_VERIFY (R384). Stage 2 verifies and measures the host firmware image. -/
def execHostFirmwareVerify (pkg : Nat) (s : State) : Outcome :=
  .next (s.onPkg pkg (fun p =>
    if p.boot = .trained then p.load pkg 2 (p.flashImg.elim [] (·.key)) p.flashImg .hostFw else p))

/-- DRIVER_IMAGE_LOAD (R384). Stage 3 verifies and measures the driver and operating system image, and then the firmware
of the command processors. -/
def execDriverImageLoad (pkg : Nat) (s : State) : Outcome :=
  .next (s.onPkg pkg (fun p =>
    let key := p.flashImg.elim [] (·.key)
    if p.boot ≠ .hostFw then p
    else
      let q := p.load pkg 3 key p.driverImg .driver
      if q.boot = .driver then q.load pkg 3 key p.firmImg .driver else q))

/-- The next step of a core at stage 4: from start-up to its self-test, and from there into the barrel (R217). -/
def Core.advance (c : Core) : Core :=
  match c.mode with
  | .startup => { c with nextMode := some .selftest }
  | .selftest => { c with nextMode := some .barrel }
  | _ => c

/-- The core has been opened, or will be at its next multiple of 8 cycles. -/
def Core.opened (c : Core) : Bool := c.mode == .barrel || c.nextMode == some .barrel

/-- CORE_SELF_TEST (R217, R384). Stage 4 takes every core through its self-test into the barrel. -/
def execCoreSelfTest (pkg : Nat) (s : State) : Outcome :=
  .next (if (s.pkg pkg).boot ≠ .driver then s
  else
    let ks := (upTo 384).map (384 * pkg + ·)
    let s := ks.foldl (fun s k => s.onCore k Core.advance) s
    if ks.all (fun k => (s.core k).opened) then s.onPkg pkg (fun p => { p with boot := .cores }) else s)

/-! ## Domain formation (R360, R377) -/

/-- The packages that may join: numbers 0 upward, each with its cores open. -/
def State.joining (s : State) : Nat :=
  ((upTo 256).takeWhile (fun p => (s.pkg p).boot == .cores)).length

/-- A graph of P packages is 48-regular over working links and has diameter 2: each package has 48 neighbours, none of them
itself, neighbours are so both ways, and any other package is a neighbour of a neighbour (R360). -/
def graphOk (P : Nat) (g : List (List Nat)) : Bool :=
  let ns := fun (p : Nat) => g.getD p []
  (upTo P).all (fun p => (ns p).length == 48 && decide (ns p).Nodup && !(ns p).contains p
    && (ns p).all (fun q => decide (q < P) && (ns q).contains p && Config.linkWorks p q)
    && (upTo P).all (fun q => q == p || (ns p).contains q || (ns p).any (fun r => (ns r).contains q)))

/-- The neighbours of a package in a domain of P packages, in ascending order (R360). -/
def neighboursOf (P p : Nat) : List Nat :=
  if P ≤ 49 then (upTo P).filter (· ≠ p) else ((Config.graph P).getD p []).sortBy (· ≤ ·)

/-- The ports of a package: the neighbours' links in ascending order, up (R360). -/
def portsOf (P p : Nat) : List Port :=
  let ns := neighboursOf P p
  let share := fun (i : Nat) => if P ≤ 49 then 144 / ns.length + (if i < 144 % ns.length then 1 else 0) else 3
  let up := (upTo ns.length).flatMap (fun i => List.replicate (share i) (⟨ns.getD i 0, 2, 0, 0⟩ : Port))
  (up ++ List.replicate 144 { Port.reset with lstate := 1 }).take 144

/-- The lowest-numbered working package of a tray (R377). -/
def State.lowestIn (s : State) (P tray : Nat) : Option Nat :=
  (upTo P).find? (fun p => (s.pkg p).tray = tray && !(s.pkg p).lost)

/-- The primary: the lowest-numbered working package of the lowest-numbered tray (R377). -/
def State.electPrimary (s : State) (P : Nat) : Option Nat := (upTo 64).findSome? (s.lowestIn P)

/-- The mirror for a primary of a tray: the lowest-numbered working package of the next tray that has one (R377). -/
def State.electMirror (s : State) (P tray : Nat) : Option Nat :=
  (upTo 63).findSome? (fun i => s.lowestIn P ((tray + 1 + i) % 64))

/-- Name the primary and the mirror. -/
def State.setPair (s : State) (P : Nat) (primary : Nat) (mirror : Option Nat) : State :=
  let s := (upTo P).foldl (fun s p => s.onPkg p (fun q => { q with primary := p == primary, mirror := mirror == some p })) s
  { s with replica := mirror.map (fun _ => (s.replica.getD ⟨s.queue, [], []⟩)) }

/-- DOMAIN_FORMATION (R360, R377). The packages with open cores join: the graph forms, the pair is elected; the formation
fails where no graph is found. -/
def execDomainFormation (s : State) : Outcome :=
  .next (let P := s.joining
  if s.formed || P = 0 || (decide (50 ≤ P) && !graphOk P (Config.graph P)) then s
  else
    let s := (upTo P).foldl (fun s p => s.onPkg p (fun q => { q with
      number := p, boot := .joined, ports := if P = 1 then q.ports else portsOf P p })) s
    match s.electPrimary P with
    | none => s
    | some p => { s.setPair P p (s.electMirror P (s.pkg p).tray) with npkg := P, formed := true })

/-- The package that holds a role. -/
def State.holder (s : State) (role : Package → Bool) : Option Nat := (upTo s.npkg).find? (fun p => role (s.pkg p))

/-- A slot of the queue as it stands in host-die memory. -/
def State.slotBytes (s : State) (i : Nat) : List Byte := s.devRead (s.slotAt i) 320

/-- The mirror takes the queue over from its replica: the slots stand in its own host-die memory, at the offset that they had
in the lost primary's; a slot that was accepted is as the replica holds it, with the status words that the device has
written, and one that was written and not yet accepted is taken over as the host wrote it (R377; where the slots stand is
DESIGN CHOICE, log 104). -/
def State.takeOver (s : State) (lost m : Nat) (r : Replica) : State :=
  let old := r.queue.qbase.toNat
  let base := if paPkg old = lost then old % 2 ^ 44 + m * 2 ^ 44 else old
  let move := fun (a : Nat) => if paPkg a = lost then a % 2 ^ 44 + m * 2 ^ 44 else a
  let waiting := (upTo (r.queue.tail.toNat - r.queue.head.toNat)).map (fun i => (r.queue.head.toNat + i, s.slotBytes (r.queue.head.toNat + i)))
  let s := { s with queue := { r.queue with qbase := BitVec.ofNat 64 base } }
  let s := r.commands.foldl (fun s e => s.devWrite (s.slotAt e.1) e.2) s
  let s := r.status.foldl (fun s e => if paPkg e.1 = lost then s.devWrite (move e.1) e.2 else s) s
  let s := waiting.foldl (fun s e => s.devWrite (s.slotAt e.1) e.2) s
  { s with replica := some { r with queue := s.queue, status := r.status.map (fun e => (move e.1, e.2)) } }

/-- FAILOVER (R377). The mirror of a lost primary becomes primary, continues the queue from its replica, and a new mirror
is elected; a lost mirror is replaced by the same rule (DESIGN CHOICE, log 104). -/
def execFailover (s : State) : Outcome :=
  .next (match s.holder (·.primary), s.holder (·.mirror), s.replica with
  | some p, some m, some r =>
    if (s.pkg p).lost then
      if (s.pkg m).lost then s else (s.takeOver p m r).setPair s.npkg m (s.electMirror s.npkg (s.pkg m).tray)
    else if (s.pkg m).lost then s.setPair s.npkg p (s.electMirror s.npkg (s.pkg p).tray)
    else s
  | _, _, _ => s)

/-! ## Attestation (R384) -/

/-- The package has passed stage 3. -/
def Boot.attests : Boot → Bool
  | .driver | .cores | .joined => true
  | _ => false

/-- A quote: nonce, measurement, identification block and the SVNs of the images that have run, their signature and the identity public key (R384). -/
def State.quote (s : State) (pkg : Nat) (nonce : List Byte) : List Byte :=
  let p := s.pkg pkg
  let said := nonce ++ p.measure ++ (upTo 64).map (s.windowByte pkg)
    ++ p.ran.flatMap (natToBytes 4)
  said ++ Config.identitySign pkg said ++ Config.identityKey pkg

/-- ATTESTATION_QUOTE (R384). The root of trust answers its oldest mailbox request, after stage 3. -/
def execAttestationQuote (pkg : Nat) (s : State) : Outcome :=
  .next (s.onPkg pkg (fun p => match p.mail with
    | [] => p
    | nonce :: rest =>
      if p.boot.attests then { p with mail := rest, quotes := p.quotes ++ [s.quote pkg nonce] } else p))

end Sys2Proof.Machine
end

