-- ==== Sys2Proof/Machine/Issue.lean ====
section
/-! DEFINITION. The issue slot of a quadrant (R13 to R18, R26, R169, R210 to R219): entries fill, the served group swaps
or packs a packet, the clause is fetched and checked, and the word is decoded for execution; what an illegal clause or
word does; and the placing of one instruction for the very next step. -/

namespace Sys2Proof.Machine

/-! ## Illegal clauses and words (R18, R21, R23) -/

/-- Raise a fault of the present word against every thread of the packet. -/
def State.raiseAll (s : State) (code addr detail : Nat) : State :=
  s.cur.tids.foldl (fun s t => s.raiseCur t code addr detail) s

/-- ILLEGAL_INSTRUCTION (R21, R23). The word of the packet raises 0x01 for every thread that reaches it. -/
def execIllegalInstruction (s : State) : Outcome := .next (s.raiseAll 0x01 0 0)

/-- ILLEGAL_CLAUSE (R15, R18). A header that fails its checks raises 0x02 at (offset, 0) with detail bit 15; a PC whose
index names no instruction word raises it at that PC. -/
def execIllegalClause (s : State) : Outcome :=
  .next (s.raiseAll 0x02 0 (if s.cur.at_.pc.ix = 0 then 2 ^ 15 else 0))

/-! ## The word of a packet -/

/-- The place of word ix of a clause (R14, R15, R17). -/
def ctxOf (off : Word) (hdr : Word) (ix len : Nat) : Ctx :=
  let after := off + BitVec.ofNat 32 (4 * (Header.count hdr + 1))
  ⟨⟨off, ix⟩, if Header.count hdr ≤ ix + len then ⟨after, 0⟩ else ⟨off, ix + len⟩, after, Header.token hdr,
    Header.lastRead hdr ix⟩

/-- The index names an instruction word of the clause (R15). -/
def indexOk (hdr : Word) (ws : List Word) (ix : Nat) : Bool :=
  decide (ix < Header.count hdr) && walkIndex (Header.cls hdr) 15 ws ix

/-- The instruction that a packet meets at index ix of a clause, with its place (R15, R18, R21, R23). -/
def wordAt (off hdr : Word) (ws : List Word) (ix : Nat) : Instr × Ctx :=
  if !headerOk hdr ws then (.illegalClause, ctxOf off hdr 0 1)
  else if !indexOk hdr ws ix then (.illegalClause, ctxOf off hdr ix 1)
  else
    let w := ws.getD ix 0
    let at_ := ctxOf off hdr ix ((formLen (Header.cls hdr) (opOf w).toNat).getD 1)
    match decodeLegal (Header.cls hdr) w (ws.getD (ix + 1) 0) with
    | some i => (i, at_)
    | none => (.illegalInstruction, at_)

/-- The word occupies the transcendental unit (R219). -/
def isTranscendental : Instr → Bool
  | .vfrcp _ _ _ | .vfrsq _ _ _ | .vfsqrt _ _ _ | .vfexp2 _ _ _ | .vflog2 _ _ _ => true
  | _ => false

/-- A fetch fault of a packet's thread: the record holds the PC of the word whose fetch failed, and the thread stays at
its own (R16). -/
def State.raiseFetch (s : State) (g t : Nat) (pc own : Pc) (code addr detail : Nat) : State :=
  let s := s.raise g t { Ctx.zero with pc := pc } code addr detail
  s.onGroup g (fun gr => { gr with
    faults := gr.faults.map (fun r => if r.thread = t ∧ r.pc = pc then { r with resume := own } else r)
    threads := gr.threads.modify t (fun th => { th with pc := own }) })

/-! ## One slot -/

/-- The threads of a packet are packed, past the WAIT of their clause: the others' ages rise, and the packet is the
group's latest issue (R15, R169, R216). -/
def State.issued (s : State) (k g : Nat) (ready tids : List Nat) : State :=
  (s.count k 1 1).onGroup g (fun gr =>
    let gr := gr.ageThreads ready tids
    { gr with
      packets := min (gr.packets + 1) (2 ^ 32 - 1)
      lastIssue := some (s.now k)
      threads := gr.threads.map (fun e => if tids.contains e.1 then (e.1, { e.2 with past := true }) else e) })

/-- A packet of class 2 would take the core above 1,024 requests (R214): each thread that takes part counts one. -/
def State.overRoom (s : State) (gr : Group) (cls : Nat) (w : Word) (i : Instr) (tids : List Nat) : Bool :=
  cls == 2 && i != .illegalInstruction && i != .illegalClause
  && decide (1024 < s.outstanding gr.core + (tids.filter (fun t =>
    (Tbl.get? gr.threads t).elim false (fun th => th.pr (hdOf w).guard.toNat))).length)

/-- The packet of a group at a PC: the clause is fetched and the word decoded; what is to be executed, where the slot is
not empty. -/
def State.openPacket (s : State) (k q g : Nat) (gr : Group) (ready : List Nat) (pc : Pc) (tids : List Nat) :
    State × Option Instr :=
  let stay := fun (s : State) => (s.onGroup g (fun x => x.ageThreads ready [])).emptySlot k
  match s.clause g gr.core (s.codeBase gr) pc.off.toNat with
  | (s, .hold) => (stay s, none)
  | (s, .bad ix c a d) => (tids.foldl (fun s t => s.raiseFetch g t ⟨pc.off, ix⟩ pc c a d) (stay s), none)
  | (s, .ok h ws) =>
    let w := wordAt pc.off h ws pc.ix
    if (isTranscendental w.1 && decide (s.now k < (s.quad k q).busy))
        || s.overRoom gr (Header.cls h) (ws.getD pc.ix 0) w.1 tids || s.throttled k then (stay s, none)
    else
      let s := s.issued k g ready tids
      let s := if isTranscendental w.1 then
          s.onCore k (fun c => { c with quads := c.quads.modify q (fun u => { u with busy := s.now k + 4 }) })
        else s
      ({ s with cur := ⟨g, tids, w.2⟩ }, some w.1)

/-- What the issue slot of the group in entry e begins with: owed slots pass, and its due exits end (R26, R78). -/
def State.openSlot (s : State) (k g : Nat) : State := (s.onGroup g (·.slotAt (s.now k))).exitDue g

/-- The issue slot of the group in entry e: after its exits the group swaps, or packs a packet, the last one where it has
faulted (R26, R78, R169, R212, R340). -/
def State.serve (s : State) (k q e g : Nat) : State × Option Instr :=
  let s := s.openSlot k g
  match s.swapDue k q e with
  | some inn => (s.serveSwap k q e g inn, none)
  | none =>
    let s := s.onGroup g (fun gr => { gr with yielded := false })
    match s.groups.get? g with
    | none => (s.emptySlot k, none)
    | some gr =>
      let s := s.touchFetch g gr
      let ready := s.readyThreads g gr
      let s := if gr.stop = .last then s.onGroup g (Group.halt (s.now k)) else s
      match packPacket ready with
      | none => (s.emptySlot k, none)
      | some (pc, tids) => s.openPacket k q g gr (ready.map (·.1)) pc tids

/-! ## What a core does at the beginning of a cycle -/

/-- Matrix operations of the core's groups that a restore brought back and that wait for a place enter the sequencer, each
at its place in the order of acceptance (R126, R135). -/
def State.admitMops (s : State) (k : Nat) : State :=
  (s.mopsBack k).foldl (fun s e =>
    if 8 ≤ (s.core k).mops.length then s
    else s.onCore k (fun c => { c with mops := (c.mops ++ [e.1]).sortBy (· ≤ ·) })) s

/-- The words of the core's groups that could not act try again, oldest first, and the CINVs that wait for a home (R125,
R126, R140, R156); of a group that a pre-emption has stopped, those whose completion it waits for (R161). -/
def State.retryWords (s : State) (k : Nat) : State :=
  let s := (s.residentOn k).foldl (fun s e => s.retryCinv e.1 e.2) s
  let all := (s.residentOn k).flatMap (fun e => e.2.waits.filterMap (fun w =>
    match w.2.kind with
    | .again _ _ => if e.2.halted && w.2.blocks then none else some (w.2.born, e.1, w.1)
    | _ => none))
  (all.sortBy (fun a b => a.1 ≤ b.1)).foldl (fun s e =>
    match (s.groups.get? e.2.1).bind (fun gr => Tbl.get? gr.waits e.2.2) with
    | none => s
    | some x => s.retryWait runOnce e.2.1 e.2.2 x) s

/-- The fetches of the core's groups that wait for their home are made where they now can be; those of a group that does
not issue are dropped (R16, R313, R316). -/
def State.fetchDue (s : State) (k : Nat) : State :=
  ((s.residentOn k).filter (fun e => s.passed.any (fun p => p.agent == .fetch e.1))).foldl (fun s e =>
    if e.2.mayIssue then s.touchFetch e.1 e.2 else s.unawait (.fetch e.1)) s

/-- What the rules bind to a core's cycle: the end of recovery, the limits of pre-emptions, results, barriers that have
completed, detections and expiries, windows of bins,
pool shares, refused records, parkings, and the words that wait to act (R68, R100, R126, R217, R223, R226, R237, R284, R287,
R290, R302, R330). -/
def State.dueWork (s : State) (k : Nat) : State :=
  let s := ((((((s.endRecovery k).haltCore k).formsDue k).barrierWakes k).claimWindow k).accWindow k).expiries k
  let s := ((((s.expireBins k).serveShare k).retryRefused k (s.refusedAt k))).parkDue k
  ((s.admitMops k).retryWords k).fetchDue k

/-- What the cycle of quadrant q begins with: what is due in the cycle, before the core's first quadrant, and the filling of
empty entries (R213). -/
def State.openQuad (s : State) (k q : Nat) : State :=
  (upTo 8).foldl (fun s e => s.fillEntry k q e) (if q = 0 then s.dueWork k else s)

/-- The next quadrant of core k takes its cycle: its empty entries fill, and the entry that is served issues; what is due
in the cycle comes before its first quadrant (R213, R215, R216). -/
def State.beginIssue (s : State) (k : Nat) : State × Option Instr :=
  let q := (s.core k).turn
  let s := s.openQuad k q
  match s.servedEntry k q with
  | none => (s.emptySlot k, none)
  | some e =>
    match (s.entry k q e).g with
    | none => (s.emptySlot k, none)
    | some g => s.serve k q e g

/-- GROUP_SWAP (R212). The slot of the group that a quadrant serves now is a swap, where one is due once empty entries have
filled: the group gives way to the pending group that has been ready longest, counter 4 rises, and the slot stays empty. -/
def execGroupSwap (k q e : Nat) (s : State) : Outcome :=
  .next (if (s.core k).turn ≠ q then s
  else
    let s' := s.openQuad k q
    if s'.servedEntry k q ≠ some e then s
    else
      match (s'.entry k q e).g with
      | none => s
      | some g =>
        let s' := s'.openSlot k g
        match s'.swapDue k q e with
        | none => s
        | some inn => (s'.serveSwap k q e g inn).nextTurn k)

/-! ## What reaches the machine from outside -/

/-- Store bytes at a physical address, where they all name memory (R245). -/
def State.hostStore (s : State) (pa : Nat) (bytes : List Byte) : Outcome :=
  match (linePieces bytes.length pa bytes.length).find? (fun e => !s.names e.1) with
  | some e => .fault (.noSuchAddress e.1)
  | none => .next (s.devWrite pa bytes)

/-- A mark enters a list of marks, once. -/
def mark (n : Nat) (l : List Nat) : List Nat := n :: l.filter (· ≠ n)

/-- A lane word of a thread holds a value: a name below 128 of its own, or one of the trap reserve by its name plus 128
(R220, R224). -/
def Thread.holds (th : Thread) (reg : Nat) : Bool :=
  if isShadow reg then (Tbl.get? th.hv (reg - 128)).isSome else (Tbl.get? th.v reg).isSome

/-- Log an uncorrectable error of a memory unit at a physical address (R160, R247). -/
def State.logMemory (s : State) (k unit pa : Nat) : State :=
  s.logEcc k unit true true (pa / 4 * 4 % 2 ^ 32) (pa / 2 ^ 32 % 2 ^ 20)

/-- The core of a die in whose log an event of an L2 slice or an HBM base die stands (DESIGN CHOICE, log 96). -/
def logCore (x unit pa : Nat) : Nat := 96 * x + Config.eccPlace unit x pa % 96

/-- The 4-byte word at an address of a line is poisoned. -/
def Line.upset (l : Line) (pa : Nat) : Line := { l with bad := l.bad ||| BitVec.ofNat 16 (2 ^ (pa % 64 / 4)) }

/-- An uncorrectable error in memory: the word is poisoned, and an error of an HBM stack is logged (R160, R247). -/
def State.memoryUpset (s : State) (pa : Nat) : State :=
  if paSpace pa = 2 then s
  else
    let s := { s with memBad := mark (pa / 4) s.memBad }
    if paSpace pa = 0 then s.logMemory (logCore (s.homeDie pa) 7 pa) 7 pa else s

/-- What keeps a die's command processor from answering changes (R349). -/
def Trouble.hush (t : Trouble) (silent : Bool) (now : Nat) : Trouble :=
  match t with
  | .down => .down
  | .silent c => if silent then .silent c else .none
  | .none => if silent then .silent now else .none

/-- An input of the machine: an upset, a replacement, a link error, the driver's and the peers' writes. -/
def State.input (s : State) : Input → Outcome
  | .hostWrite pa bytes => s.hostStore pa bytes
  | .laneUpset g t reg hard => .next (s.onThread g t (fun th =>
      if !th.holds reg then th
      else if hard then { th with vhard := mark reg th.vhard }
      else { th with vsoft := mark reg th.vsoft }))
  | .uniformUpset g reg hard => .next (s.onGroup g (fun gr =>
      if !(decide (reg < 128) || (gr.handling && decide (240 ≤ reg) && decide (reg < 256))) then gr
      else if hard then { gr with shard := mark reg gr.shard }
      else { gr with ssoft := mark reg gr.ssoft }))
  | .memoryUpset pa => if s.names pa then .next (s.memoryUpset pa) else .fault (.noSuchAddress pa)
  | .l1Upset k pa => .next (match Tbl.get? (s.core k).l1 (pa / 64) with
    | none => s
    | some l => (s.onCore k (fun c => { c with l1 := c.l1.put (pa / 64) (l.upset pa) })).logMemory k 3 pa)
  | .l2Upset x pa => .next (match s.l2 x (pa / 64) with
    | none => s
    | some l => (s.putL2 x (pa / 64) (l.upset pa)).logMemory (logCore x 6 pa) 6 pa)
  | .sectorUpset k n => .next (s.onCore k (fun c => { c with
      opcache := c.opcache.mapIdx (fun i e => if i = n then { e with bad := true } else e) }))
  | .accUpset k slot element => .next (match Tbl.get? (s.core k).acc slot with
    | none => s
    | some _ => (s.onCore k (fun c => { c with
        acc := c.acc.modify slot (fun a => { a with bad := mark element a.bad }) })).logPlace k 4 (4096 * slot + element) true)
  | .scratchUpset team q off => .next (match (s.teams.get? team).bind (·.cores[q]?) with
    | none => s
    | some k => (s.onTeam team (fun t => { t with scratchBad := t.scratchBad.modify q (mark off) })).logPlace k 2 off true)
  | .dropL1 k line => .next (s.onCore k (fun c => { c with l1 := c.l1.del line }))
  | .dropTlb x va => .next (s.dropTlb x (some (va.toNat / 4096 * 4096)))
  | .flitError pkg port => .next (s.onPort pkg port Port.failed)
  | .rdma queue va bytes =>
    let seq := (s.rdmas.filter (·.2.queue == queue)).length + 1
    .next { s with rdmas := s.rdmas.put s.fresh ⟨queue, seq, va, bytes, none⟩, fresh := s.fresh + 1 }
  | .mail pkg nonce => .next (if nonce.length = 32 then s.onPkg pkg (fun p => { p with mail := p.mail ++ [nonce] }) else s)
  | .flash pkg key image sig => .next (s.onPkg pkg (fun p => { p with flashImg := some ⟨key, image, sig⟩ }))
  | .driverImage pkg image sig => .next (s.onPkg pkg (fun p => { p with driverImg := some ⟨[], image, sig⟩ }))
  | .firmwareImage pkg image sig => .next (s.onPkg pkg (fun p => { p with firmImg := some ⟨[], image, sig⟩ }))
  | .unreachable pkg dest => .next (s.declare pkg dest)
  | .place pkg tray slot => .next (s.onPkg pkg (fun p => { p with number := pkg, tray := tray, slot := slot }))
  | .packageLost pkg => .next (s.onPkg pkg (fun p => { p with lost := true }))
  | .hostSilent pkg silent => .next (s.onPkg pkg (fun p => { p with
      silent := if silent then some (p.silent.getD (s.clock s.primaryPkg)) else none }))
  | .dieSilent x silent => .next (s.onDie x (fun d => { d with trouble := d.trouble.hush silent (s.clock (x / 4)) }))
  | .dieDown x => .next (s.onDie x (fun d => { d with trouble := .down }))
  | .debugCheck team => .next (s.onTeam team (fun t => { t with check := true }))

/-! ## One instruction placed for the next step (log 13) -/

/-- The launch that runs the placed instruction: one team of one group with every right, v0-v127 and 16 barriers. -/
def placedLaunch : Launch where
  rc := ⟨1, 0, 0, 0, 1, 1, 1, 1, 1, [1], [128], 4, 16, [0xA6, 0, 0, 0, 0, 0, 0, 0], 0, 0, false, false, 0, false, false,
    false, 1, 1, 0, 40, 7, 0, 0, 0, 0, 0, 0, 0, [0, 0, 0, 0]⟩
  state := 2
  reason := 0
  detail := 0
  terminated := 0
  stepNow := 0
  firstTerm := 0xFFFFFFFF
  statAddr := 0
  area := 0
  areaLen := 0
  spillBase := 0
  spillPut := []
  dies := [0]
  teamsLeft := 1
  stepOpen := true
  preempt := none
  resuming := none
  colls := []
  kcount := []
  savedTeams := []
  savedKindled := []
  savedRecs := []
  savedJobs := []
  saveAt := 0
  ending := none
  slot := 0

/-- The team of the placed instruction, on core 0. -/
def placedTeam : Team :=
  ⟨1, 0, 0, [0], startBars placedLaunch.rc, [[]], [[]], [0], [], [], false, false, none, false, []⟩

/-- The thread of the placed instruction. -/
def placedThread : Thread := Thread.start 0 128 [] 0 0 0

/-- The group of the placed instruction: one thread, its convergence registers the thread's. -/
def placedGroup : Group :=
  Group.start placedLaunch 1 (some 0) 0 0 0xFFFFFFFF 0 0 0 false [] 128 128 [(0, placedThread)] 0 0

/-- Core 0 in the barrel, with the placed group in entry 0 of quadrant 0, at its cycle. -/
def placedCore : Core :=
  { Core.reset with
    mode := .barrel
    quads := { Quad.reset with active := ⟨some 0, 0⟩ :: List.replicate 7 ⟨none, 0⟩ } :: List.replicate 3 Quad.reset }

/-- The page that holds the placed clause: virtual page 0 at physical address 0, readable, writable, executable. -/
def placedPage : TlbEntry := ⟨0, 4096, 0, true, true, true, false, false, false, some 0, 0, false⟩

/-- The header of a clause of n words of a class, with a token where the class asks for one (R17, R18). -/
def placedHeader (cls n : Nat) (conv : Bool) : Word :=
  BitVec.ofNat 32 (n + cls * 2 ^ 4 + (if cls = 2 ∨ cls = 3 ∨ conv then 2 ^ 29 else 0))

/-- The clause that holds one instruction, as words. -/
def placedClause (cls : Nat) (w lit : Word) : List Word :=
  let n := (formLen cls (opOf w).toNat).getD 1
  placedHeader cls n (cls == 1 && decide (0x38 ≤ (opOf w).toNat)) :: (if n = 2 then [w, lit] else [w])

/-- The machine with one instruction of a class at the place from which the very next step issues. -/
def State.placed (s : State) (cls : Nat) (w lit : Word) : State :=
  { s with
    agenda := .issue 0 :: s.agenda
    mem := s.mem.writeBytes 0 (wordBytes (placedClause cls w lit))
    cores := s.cores.put 0 placedCore
    dies := s.dies.put 0 { Die.reset with tlb := [placedPage] }
    launches := s.launches.put 1 placedLaunch
    teams := s.teams.put 0 placedTeam
    groups := s.groups.put 0 placedGroup }

end Sys2Proof.Machine
end

