-- ==== Sys2Proof/Machine/Vector.lean ====
section
/-! DEFINITION. The per-thread vector forms of class 1 (R84 to R99), one meaning for each. -/

namespace Sys2Proof.Machine

/-! ## Shared effects -/

/-- A vector word: every taking-part thread takes an effect and retires (R84). -/
def State.vector (s : State) (h : Hd) (sh : Shape) (always : Bool) (f : Group → Bool → Thread → Thread) : State :=
  s.packet h sh always (fun t s g _ => (s.onCur t (f g)).done h sh t)

/-- A vector word guarded by a predicate. -/
def vecWord (h : Hd) (sh : Shape) (f : Group → Bool → Thread → Thread) (s : State) : Outcome :=
  .next (s.vector h sh false f)
/-- A vector word in which every packet thread takes part (R87). -/
def vecAll (h : Hd) (sh : Shape) (f : Group → Bool → Thread → Thread) (s : State) : Outcome :=
  .next (s.vector h sh true f)

/-- V(t, D) := f(V(t, A)). -/
def vecOne (h : Hd) (d a : Field) (f : Word → Word) (s : State) : Outcome :=
  vecWord h (.v2 d a) (fun _ hm t => t.writeV d.toNat (f (t.rd hm a.toNat)) 2) s
/-- V(t, D) := f(V(t, A), V(t, B)). -/
def vecTwo (h : Hd) (d a b : Field) (f : Word → Word → Word) (s : State) : Outcome :=
  vecWord h (.v3 d a b) (fun _ hm t => t.writeV d.toNat (f (t.rd hm a.toNat) (t.rd hm b.toNat)) 2) s
/-- V(t, D) := f(V(t, A), V(t, B), V(t, D)). -/
def vecThree (h : Hd) (d a b : Field) (f : Word → Word → Word → Word) (s : State) : Outcome :=
  vecWord h (.v4 d a b)
    (fun _ hm t => t.writeV d.toNat (f (t.rd hm a.toNat) (t.rd hm b.toNat) (t.rd hm d.toNat)) 2) s
/-- A transcendental form: V(t, D) := f(V(t, A)) rounded once to FP32, with a latency of 24 cycles (R92). -/
def vecTrans (h : Hd) (d a : Field) (f : Val → Val) (s : State) : Outcome :=
  vecWord h (.trans d a) (fun _ hm t => t.writeV d.toNat (toF32 (f (f32 (t.rd hm a.toNat)))) 3) s

/-- Write a pair with a latency (R21). -/
def Thread.writePair (t : Thread) (n x lat : Nat) : Thread :=
  (t.writeV n (BitVec.ofNat 32 x) lat).writeV (n + 1) (BitVec.ofNat 32 (x / 2 ^ 32)) lat

/-- The registers of a conversion: B is read only with a BFP code (R95). -/
def cvtShape (d a b : Field) (lit : Word) : Shape :=
  let bfp := fun (c : Nat) => decide (6 ≤ c) && decide (c ≤ 12)
  if bfp (bitsOf lit.toNat 3 0) || bfp (bitsOf lit.toNat 7 4) then .v3 d a b else .v2 d a

/-! ## The forms -/

/-- VMOV (R85). Copies a vector register per thread. -/
def execVmov (h : Hd) (d a : Field) (s : State) : Outcome :=
  vecOne h d a (fun x => x) s

/-- VMOVL (R85). Writes the literal to a vector register per thread. -/
def execVmovl (h : Hd) (d : Field) (lit : Word) (s : State) : Outcome :=
  vecWord h ⟨[], [], [], [d.toNat], [], [], 2⟩ (fun _ _ t => t.writeV d.toNat lit 2) s

/-- VMOVS (R85). Copies a uniform register into every taking-part lane. -/
def execVmovs (h : Hd) (d a : Field) (s : State) : Outcome :=
  vecWord h ⟨[], [a.toNat], [], [d.toNat], [], [], 2⟩ (fun g _ t => t.writeV d.toNat (g.rs a.toNat) 2) s

/-- VADD (R85). Adds two vector registers modulo 2^32. -/
def execVadd (h : Hd) (d a b : Field) (s : State) : Outcome :=
  vecTwo h d a b (fun x y => x + y) s

/-- VADDS (R85). Adds a uniform register to a vector register. -/
def execVadds (h : Hd) (d a b : Field) (s : State) : Outcome :=
  vecWord h (.vs3 d a b) (fun g hm t => t.writeV d.toNat (t.rd hm a.toNat + g.rs b.toNat) 2) s

/-- VADDL (R85). Adds the literal to a vector register. -/
def execVaddl (h : Hd) (d a : Field) (lit : Word) (s : State) : Outcome :=
  vecOne h d a (fun x => x + lit) s

/-- VSUB (R85). Subtracts vector registers modulo 2^32. -/
def execVsub (h : Hd) (d a b : Field) (s : State) : Outcome :=
  vecTwo h d a b (fun x y => x - y) s

/-- VMUL (R85). Low 32 bits of the per-thread product. -/
def execVmul (h : Hd) (d a b : Field) (s : State) : Outcome :=
  vecTwo h d a b (fun x y => x * y) s

/-- VMULHI (R85). High 32 bits of the signed per-thread product. -/
def execVmulhi (h : Hd) (d a b : Field) (s : State) : Outcome :=
  vecTwo h d a b (fun x y => mulHi x y) s

/-- VMULHIN (R85). High 32 bits of the natural per-thread product. -/
def execVmulhin (h : Hd) (d a b : Field) (s : State) : Outcome :=
  vecTwo h d a b (fun x y => mulHiN x y) s

/-- VMAD (R85). Adds the product of vA and vB to vD modulo 2^32. -/
def execVmad (h : Hd) (d a b : Field) (s : State) : Outcome :=
  vecThree h d a b (fun x y z => z + x * y) s

/-- VAND (R85). Bitwise AND per thread. -/
def execVand (h : Hd) (d a b : Field) (s : State) : Outcome :=
  vecTwo h d a b (fun x y => x &&& y) s

/-- VOR (R85). Bitwise OR per thread. -/
def execVor (h : Hd) (d a b : Field) (s : State) : Outcome :=
  vecTwo h d a b (fun x y => x ||| y) s

/-- VXOR (R85). Bitwise XOR per thread. -/
def execVxor (h : Hd) (d a b : Field) (s : State) : Outcome :=
  vecTwo h d a b (fun x y => x ^^^ y) s

/-- VSHL (R85). Shifts left per thread. -/
def execVshl (h : Hd) (d a b : Field) (s : State) : Outcome :=
  vecTwo h d a b (fun x y => shl x y) s

/-- VSHR (R85). Shifts logically right per thread. -/
def execVshr (h : Hd) (d a b : Field) (s : State) : Outcome :=
  vecTwo h d a b (fun x y => shr x y) s

/-- VSAR (R85). Shifts arithmetically right per thread. -/
def execVsar (h : Hd) (d a b : Field) (s : State) : Outcome :=
  vecTwo h d a b (fun x y => sar x y) s

/-- VMIN (R85). Signed minimum per thread. -/
def execVmin (h : Hd) (d a b : Field) (s : State) : Outcome :=
  vecTwo h d a b (fun x y => sminOf x y) s

/-- VMAX (R85). Signed maximum per thread. -/
def execVmax (h : Hd) (d a b : Field) (s : State) : Outcome :=
  vecTwo h d a b (fun x y => smaxOf x y) s

/-- VMINN (R85). Natural minimum per thread. -/
def execVminn (h : Hd) (d a b : Field) (s : State) : Outcome :=
  vecTwo h d a b (fun x y => nminOf x y) s

/-- VMAXN (R85). Natural maximum per thread. -/
def execVmaxn (h : Hd) (d a b : Field) (s : State) : Outcome :=
  vecTwo h d a b (fun x y => nmaxOf x y) s

/-- VCLZ (R85). Counts leading zeros per thread. -/
def execVclz (h : Hd) (d a : Field) (s : State) : Outcome :=
  vecOne h d a (fun x => wordClz x) s

/-- VPOP (R85). Counts one bits per thread. -/
def execVpop (h : Hd) (d a : Field) (s : State) : Outcome :=
  vecOne h d a (fun x => wordPop x) s

/-- VBFE (R85). Extracts a bit field per thread as the literal describes. -/
def execVbfe (h : Hd) (d a : Field) (lit : Word) (s : State) : Outcome :=
  vecOne h d a (fun x => bitField lit x) s

/-- VCMP (R86). Compares two vector registers under a condition and writes a predicate. -/
def execVcmp (h : Hd) (d a b : Field) (s : State) : Outcome :=
  vecWord h (.cmp d a b)
    (fun _ hm t => t.writeP (condPred d) (cmpCond (condCode d) (t.rd hm a.toNat) (t.rd hm b.toNat)) 2) s

/-- VCMPS (R86). Compares a vector register with a uniform register and writes a predicate. -/
def execVcmps (h : Hd) (d a b : Field) (s : State) : Outcome :=
  vecWord h (.cmps d a b)
    (fun g hm t => t.writeP (condPred d) (cmpCond (condCode d) (t.rd hm a.toNat) (g.rs b.toNat)) 2) s

/-- VSEL (R87). Selects vA or vB per thread by the guard predicate, in every packet thread. -/
def execVsel (h : Hd) (d a b : Field) (s : State) : Outcome :=
  vecAll h { Shape.v3 d a b with ps := [h.guard.toNat] }
    (fun _ hm t => t.writeV d.toNat (if t.pr h.guard.toNat then t.rd hm a.toNat else t.rd hm b.toNat) 2) s

/-- PAND (R87). AND of two predicates. -/
def execPand (h : Hd) (d a b : Field) (s : State) : Outcome :=
  vecWord h (.preds d [a, b])
    (fun _ _ t => t.writeP d.toNat (t.pr a.toNat && t.pr b.toNat) 2) s

/-- POR (R87). OR of two predicates. -/
def execPor (h : Hd) (d a b : Field) (s : State) : Outcome :=
  vecWord h (.preds d [a, b])
    (fun _ _ t => t.writeP d.toNat (t.pr a.toNat || t.pr b.toNat) 2) s

/-- PXOR (R87). XOR of two predicates. -/
def execPxor (h : Hd) (d a b : Field) (s : State) : Outcome :=
  vecWord h (.preds d [a, b])
    (fun _ _ t => t.writeP d.toNat (t.pr a.toNat != t.pr b.toNat) 2) s

/-- PNOT (R87). Inverts a predicate. -/
def execPnot (h : Hd) (d a : Field) (s : State) : Outcome :=
  vecWord h (.preds d [a]) (fun _ _ t => t.writeP d.toNat (!t.pr a.toNat) 2) s

/-- VADD64 (R85). Adds two 64-bit vector pairs modulo 2^64. -/
def execVadd64 (h : Hd) (d a b : Field) (s : State) : Outcome :=
  vecWord h ⟨regs a 2 ++ regs b 2, [], [], regs d 2, [], [], 2⟩
    (fun _ hm t => t.writePair d.toNat ((t.rdN hm a.toNat 2 + t.rdN hm b.toNat 2) % 2 ^ 64) 2) s

/-- VFADD (R89). FP32 addition rounded to nearest even. -/
def execVfadd (h : Hd) (d a b : Field) (s : State) : Outcome :=
  vecTwo h d a b (fun x y => fadd x y) s

/-- VFSUB (R89). FP32 subtraction. -/
def execVfsub (h : Hd) (d a b : Field) (s : State) : Outcome :=
  vecTwo h d a b (fun x y => fsub x y) s

/-- VFMUL (R89). FP32 multiplication. -/
def execVfmul (h : Hd) (d a b : Field) (s : State) : Outcome :=
  vecTwo h d a b (fun x y => fmul x y) s

/-- VFMA (R89). FP32 fused multiply-add into vD with one rounding. -/
def execVfma (h : Hd) (d a b : Field) (s : State) : Outcome :=
  vecThree h d a b (fun x y z => fma x y z) s

/-- VFMAS (R89). FP32 fused multiply-add with a uniform multiplier. -/
def execVfmas (h : Hd) (d a b : Field) (s : State) : Outcome :=
  vecWord h ⟨[d.toNat, a.toNat], [b.toNat], [], [d.toNat], [], [], 2⟩
    (fun g hm t => t.writeV d.toNat (fma (t.rd hm a.toNat) (g.rs b.toNat) (t.rd hm d.toNat)) 2) s

/-- VFMIN (R90). FP32 minimum under the device's maximum rule. -/
def execVfmin (h : Hd) (d a b : Field) (s : State) : Outcome :=
  vecTwo h d a b (fun x y => fmin x y) s

/-- VFMAX (R90). FP32 maximum under the device's maximum rule. -/
def execVfmax (h : Hd) (d a b : Field) (s : State) : Outcome :=
  vecTwo h d a b (fun x y => fmax x y) s

/-- VFCMP (R91). FP32 compare under a condition into a predicate. -/
def execVfcmp (h : Hd) (d a b : Field) (s : State) : Outcome :=
  vecWord h (.cmp d a b)
    (fun _ hm t => t.writeP (condPred d) (fcmpCond (condCode d) (t.rd hm a.toNat) (t.rd hm b.toNat)) 2) s

/-- VFRCP (R92). Correctly rounded FP32 reciprocal. -/
def execVfrcp (h : Hd) (d a : Field) (s : State) : Outcome :=
  vecTrans h d a rcpV s

/-- VFRSQ (R92). Correctly rounded FP32 reciprocal square root. -/
def execVfrsq (h : Hd) (d a : Field) (s : State) : Outcome :=
  vecTrans h d a rsqV s

/-- VFSQRT (R92). Correctly rounded FP32 square root. -/
def execVfsqrt (h : Hd) (d a : Field) (s : State) : Outcome :=
  vecTrans h d a sqrtV s

/-- VFEXP2 (R92). Correctly rounded FP32 base-2 exponential. -/
def execVfexp2 (h : Hd) (d a : Field) (s : State) : Outcome :=
  vecTrans h d a exp2V s

/-- VFLOG2 (R92). Correctly rounded FP32 base-2 logarithm. -/
def execVflog2 (h : Hd) (d a : Field) (s : State) : Outcome :=
  vecTrans h d a log2V s

/-- VFCLASS (R93). Writes a one-hot class mask of an FP32 value. -/
def execVfclass (h : Hd) (d a : Field) (s : State) : Outcome :=
  vecOne h d a fclass s

/-- CVT (R95). Converts between number formats under the literal's mode and saturation. -/
def execCvt (h : Hd) (d a b : Field) (lit : Word) (s : State) : Outcome :=
  vecWord h (cvtShape d a b lit)
    (fun _ hm t => t.writeV d.toNat (convert lit (cvtMode lit) (t.rd hm a.toNat) (t.rd hm b.toNat)) 2) s

/-- CVTSR (R97). Converts with stochastic rounding, stepping the thread's generator once. -/
def execCvtsr (h : Hd) (d a b : Field) (lit : Word) (s : State) : Outcome :=
  vecWord h (cvtShape d a b lit)
    (fun _ hm t =>
      let r := nextRandom t.rng
      let t := t.writeV d.toNat (convert lit (draw r) (t.rd hm a.toNat) (t.rd hm b.toNat)) 2
      { t with rng := r }) s

/-- SRSEED (R98). Sets the thread's stochastic generator state from a vector pair. -/
def execSrseed (h : Hd) (a : Field) (s : State) : Outcome :=
  vecWord h { Shape.none with vs := regs a 2 }
    (fun _ hm t => { t with rng := BitVec.ofNat 64 (t.rdN hm a.toNat 2) }) s

/-- SRRD (R98). Reads the thread's stochastic generator state into a vector pair. -/
def execSrrd (h : Hd) (d : Field) (s : State) : Outcome :=
  vecWord h ⟨[], [], [], regs d 2, [], [], 2⟩ (fun _ _ t => t.writePair d.toNat t.rng.toNat 2) s

/-- VHADD (R99). Packed 16-bit addition of both halves. -/
def execVhadd (h : Hd) (d a b : Field) (lit : Word) (s : State) : Outcome :=
  vecTwo h d a b (fun x y => packed (haddHalf lit) x y 0) s

/-- VHMUL (R99). Packed 16-bit multiplication of both halves. -/
def execVhmul (h : Hd) (d a b : Field) (lit : Word) (s : State) : Outcome :=
  vecTwo h d a b (fun x y => packed (hmulHalf lit) x y 0) s

/-- VHFMA (R99). Packed 16-bit fused multiply-add of both halves. -/
def execVhfma (h : Hd) (d a b : Field) (lit : Word) (s : State) : Outcome :=
  vecThree h d a b (fun x y z => packed (hfmaHalf lit) x y z) s

/-- VHMAX (R99). Packed 16-bit maximum under the maximum rule. -/
def execVhmax (h : Hd) (d a b : Field) (lit : Word) (s : State) : Outcome :=
  vecTwo h d a b (fun x y => packed (hmaxHalf lit) x y 0) s

end Sys2Proof.Machine
end

