-- ==== Sys2Proof/Machine/Dispatch.lean ====
section
/-! DEFINITION. One arm for each constructor of Instr: the meaning it calls. -/

namespace Sys2Proof.Machine

/-- What an instruction or a step of the device does. -/
def exec (i : Instr) (s : State) : Host.Outcome State Fault Refusal :=
  match i with
  | .smov h d a => Sys2Proof.Machine.execSmov h d a s
  | .smovl h d lit => Sys2Proof.Machine.execSmovl h d lit s
  | .sadd h d a b => Sys2Proof.Machine.execSadd h d a b s
  | .saddl h d a lit => Sys2Proof.Machine.execSaddl h d a lit s
  | .ssub h d a b => Sys2Proof.Machine.execSsub h d a b s
  | .smul h d a b => Sys2Proof.Machine.execSmul h d a b s
  | .smulhi h d a b => Sys2Proof.Machine.execSmulhi h d a b s
  | .smulhin h d a b => Sys2Proof.Machine.execSmulhin h d a b s
  | .sand h d a b => Sys2Proof.Machine.execSand h d a b s
  | .sor h d a b => Sys2Proof.Machine.execSor h d a b s
  | .sxor h d a b => Sys2Proof.Machine.execSxor h d a b s
  | .sshl h d a b => Sys2Proof.Machine.execSshl h d a b s
  | .sshr h d a b => Sys2Proof.Machine.execSshr h d a b s
  | .ssar h d a b => Sys2Proof.Machine.execSsar h d a b s
  | .smin h d a b => Sys2Proof.Machine.execSmin h d a b s
  | .smax h d a b => Sys2Proof.Machine.execSmax h d a b s
  | .sminn h d a b => Sys2Proof.Machine.execSminn h d a b s
  | .smaxn h d a b => Sys2Proof.Machine.execSmaxn h d a b s
  | .sceq h d a b => Sys2Proof.Machine.execSceq h d a b s
  | .scne h d a b => Sys2Proof.Machine.execScne h d a b s
  | .sclt h d a b => Sys2Proof.Machine.execSclt h d a b s
  | .scle h d a b => Sys2Proof.Machine.execScle h d a b s
  | .scltn h d a b => Sys2Proof.Machine.execScltn h d a b s
  | .sclen h d a b => Sys2Proof.Machine.execSclen h d a b s
  | .ssel h d a b => Sys2Proof.Machine.execSsel h d a b s
  | .slea h d a b => Sys2Proof.Machine.execSlea h d a b s
  | .sadd64 h d a b => Sys2Proof.Machine.execSadd64 h d a b s
  | .sclz h d a => Sys2Proof.Machine.execSclz h d a s
  | .spop h d a => Sys2Proof.Machine.execSpop h d a s
  | .srd h d b => Sys2Proof.Machine.execSrd h d b s
  | .swr h a b => Sys2Proof.Machine.execSwr h a b s
  | .sbfe h d a lit => Sys2Proof.Machine.execSbfe h d a lit s
  | .cseta h d => Sys2Proof.Machine.execCseta h d s
  | .csetp h d a => Sys2Proof.Machine.execCsetp h d a s
  | .barinit h d a b => Sys2Proof.Machine.execBarinit h d a b s
  | .bararr h d => Sys2Proof.Machine.execBararr h d s
  | .barwait h d => Sys2Proof.Machine.execBarwait h d s
  | .bararrw h d => Sys2Proof.Machine.execBararrw h d s
  | .waitany h d a b => Sys2Proof.Machine.execWaitany h d a b s
  | .barrd h d a => Sys2Proof.Machine.execBarrd h d a s
  | .regrel h b => Sys2Proof.Machine.execRegrel h b s
  | .regclm h b => Sys2Proof.Machine.execRegclm h b s
  | .regrd h d => Sys2Proof.Machine.execRegrd h d s
  | .dbar h => Sys2Proof.Machine.execDbar h s
  | .relv h a b => Sys2Proof.Machine.execRelv h a b s
  | .vmov h d a => Sys2Proof.Machine.execVmov h d a s
  | .vmovl h d lit => Sys2Proof.Machine.execVmovl h d lit s
  | .vmovs h d a => Sys2Proof.Machine.execVmovs h d a s
  | .vadd h d a b => Sys2Proof.Machine.execVadd h d a b s
  | .vadds h d a b => Sys2Proof.Machine.execVadds h d a b s
  | .vaddl h d a lit => Sys2Proof.Machine.execVaddl h d a lit s
  | .vsub h d a b => Sys2Proof.Machine.execVsub h d a b s
  | .vmul h d a b => Sys2Proof.Machine.execVmul h d a b s
  | .vmulhi h d a b => Sys2Proof.Machine.execVmulhi h d a b s
  | .vmulhin h d a b => Sys2Proof.Machine.execVmulhin h d a b s
  | .vmad h d a b => Sys2Proof.Machine.execVmad h d a b s
  | .vand h d a b => Sys2Proof.Machine.execVand h d a b s
  | .vor h d a b => Sys2Proof.Machine.execVor h d a b s
  | .vxor h d a b => Sys2Proof.Machine.execVxor h d a b s
  | .vshl h d a b => Sys2Proof.Machine.execVshl h d a b s
  | .vshr h d a b => Sys2Proof.Machine.execVshr h d a b s
  | .vsar h d a b => Sys2Proof.Machine.execVsar h d a b s
  | .vmin h d a b => Sys2Proof.Machine.execVmin h d a b s
  | .vmax h d a b => Sys2Proof.Machine.execVmax h d a b s
  | .vminn h d a b => Sys2Proof.Machine.execVminn h d a b s
  | .vmaxn h d a b => Sys2Proof.Machine.execVmaxn h d a b s
  | .vclz h d a => Sys2Proof.Machine.execVclz h d a s
  | .vpop h d a => Sys2Proof.Machine.execVpop h d a s
  | .vbfe h d a lit => Sys2Proof.Machine.execVbfe h d a lit s
  | .vcmp h d a b => Sys2Proof.Machine.execVcmp h d a b s
  | .vcmps h d a b => Sys2Proof.Machine.execVcmps h d a b s
  | .vsel h d a b => Sys2Proof.Machine.execVsel h d a b s
  | .pand h d a b => Sys2Proof.Machine.execPand h d a b s
  | .por h d a b => Sys2Proof.Machine.execPor h d a b s
  | .pxor h d a b => Sys2Proof.Machine.execPxor h d a b s
  | .pnot h d a => Sys2Proof.Machine.execPnot h d a s
  | .vadd64 h d a b => Sys2Proof.Machine.execVadd64 h d a b s
  | .vfadd h d a b => Sys2Proof.Machine.execVfadd h d a b s
  | .vfsub h d a b => Sys2Proof.Machine.execVfsub h d a b s
  | .vfmul h d a b => Sys2Proof.Machine.execVfmul h d a b s
  | .vfma h d a b => Sys2Proof.Machine.execVfma h d a b s
  | .vfmas h d a b => Sys2Proof.Machine.execVfmas h d a b s
  | .vfmin h d a b => Sys2Proof.Machine.execVfmin h d a b s
  | .vfmax h d a b => Sys2Proof.Machine.execVfmax h d a b s
  | .vfcmp h d a b => Sys2Proof.Machine.execVfcmp h d a b s
  | .vfrcp h d a => Sys2Proof.Machine.execVfrcp h d a s
  | .vfrsq h d a => Sys2Proof.Machine.execVfrsq h d a s
  | .vfsqrt h d a => Sys2Proof.Machine.execVfsqrt h d a s
  | .vfexp2 h d a => Sys2Proof.Machine.execVfexp2 h d a s
  | .vflog2 h d a => Sys2Proof.Machine.execVflog2 h d a s
  | .vfclass h d a => Sys2Proof.Machine.execVfclass h d a s
  | .cvt h d a b lit => Sys2Proof.Machine.execCvt h d a b lit s
  | .cvtsr h d a b lit => Sys2Proof.Machine.execCvtsr h d a b lit s
  | .srseed h a => Sys2Proof.Machine.execSrseed h a s
  | .srrd h d => Sys2Proof.Machine.execSrrd h d s
  | .vhadd h d a b lit => Sys2Proof.Machine.execVhadd h d a b lit s
  | .vhmul h d a b lit => Sys2Proof.Machine.execVhmul h d a b lit s
  | .vhfma h d a b lit => Sys2Proof.Machine.execVhfma h d a b lit s
  | .vhmax h d a b lit => Sys2Proof.Machine.execVhmax h d a b lit s
  | .gshfl h d a b => Sys2Proof.Machine.execGshfl h d a b s
  | .gballot h d a => Sys2Proof.Machine.execGballot h d a s
  | .gpref h d a => Sys2Proof.Machine.execGpref h d a s
  | .gcnt h d a => Sys2Proof.Machine.execGcnt h d a s
  | .gred h d a b => Sys2Proof.Machine.execGred h d a b s
  | .gmaxi h d a b => Sys2Proof.Machine.execGmaxi h d a b s
  | .gscan h d a b => Sys2Proof.Machine.execGscan h d a b s
  | .gbcast h d a b => Sys2Proof.Machine.execGbcast h d a b s
  | .ld h d a acc => Sys2Proof.Machine.execLd h d a acc s
  | .ldx h d a b acc => Sys2Proof.Machine.execLdx h d a b acc s
  | .st h d a acc => Sys2Proof.Machine.execSt h d a acc s
  | .stx h d a b acc => Sys2Proof.Machine.execStx h d a b acc s
  | .atomadd h d a b acc => Sys2Proof.Machine.execAtomadd h d a b acc s
  | .atomfadd h d a b acc => Sys2Proof.Machine.execAtomfadd h d a b acc s
  | .atommin h d a b acc => Sys2Proof.Machine.execAtommin h d a b acc s
  | .atommax h d a b acc => Sys2Proof.Machine.execAtommax h d a b acc s
  | .atomminn h d a b acc => Sys2Proof.Machine.execAtomminn h d a b acc s
  | .atommaxn h d a b acc => Sys2Proof.Machine.execAtommaxn h d a b acc s
  | .atomand h d a b acc => Sys2Proof.Machine.execAtomand h d a b acc s
  | .atomor h d a b acc => Sys2Proof.Machine.execAtomor h d a b acc s
  | .atomxor h d a b acc => Sys2Proof.Machine.execAtomxor h d a b acc s
  | .atomxchg h d a b acc => Sys2Proof.Machine.execAtomxchg h d a b acc s
  | .atomcas h d a b acc => Sys2Proof.Machine.execAtomcas h d a b acc s
  | .fence h acc => Sys2Proof.Machine.execFence h acc s
  | .sfence h acc => Sys2Proof.Machine.execSfence h acc s
  | .seal h a b acc => Sys2Proof.Machine.execSeal h a b acc s
  | .unseal h a b acc => Sys2Proof.Machine.execUnseal h a b acc s
  | .pref h d a acc => Sys2Proof.Machine.execPref h d a acc s
  | .rclaim h d a b acc => Sys2Proof.Machine.execRclaim h d a b acc s
  | .rcommit h d a b acc => Sys2Proof.Machine.execRcommit h d a b acc s
  | .rawait h d a b acc => Sys2Proof.Machine.execRawait h d a b acc s
  | .rretire h a b acc => Sys2Proof.Machine.execRretire h a b acc s
  | .putq h d a b acc => Sys2Proof.Machine.execPutq h d a b acc s
  | .tmma h hr cl sl a b => Sys2Proof.Machine.execTmma h hr cl sl a b s
  | .tmmat h hr cl sl a b => Sys2Proof.Machine.execTmmat h hr cl sl a b s
  | .acczero h hr => Sys2Proof.Machine.execAcczero h hr s
  | .accst h hr sl a => Sys2Proof.Machine.execAccst h hr sl a s
  | .accld h hr cl sl a => Sys2Proof.Machine.execAccld h hr cl sl a s
  | .accrel h hr => Sys2Proof.Machine.execAccrel h hr s
  | .accscl h hr a => Sys2Proof.Machine.execAccscl h hr a s
  | .accadd h hr cl b => Sys2Proof.Machine.execAccadd h hr cl b s
  | .accrd h hr a b => Sys2Proof.Machine.execAccrd h hr a b s
  | .cpy h d a b => Sys2Proof.Machine.execCpy h d a b s
  | .gath h d a b => Sys2Proof.Machine.execGath h d a b s
  | .scat h d a b => Sys2Proof.Machine.execScat h d a b s
  | .coll h d a b => Sys2Proof.Machine.execColl h d a b s
  | .handover h d a b => Sys2Proof.Machine.execHandover h d a b s
  | .engrd h d a => Sys2Proof.Machine.execEngrd h d a s
  | .jobcan h d a => Sys2Proof.Machine.execJobcan h d a s
  | .bra h lit => Sys2Proof.Machine.execBra h lit s
  | .call h d lit => Sys2Proof.Machine.execCall h d lit s
  | .ret h a => Sys2Proof.Machine.execRet h a s
  | .jtab h a lit => Sys2Proof.Machine.execJtab h a lit s
  | .lpad h kind label => Sys2Proof.Machine.execLpad h kind label s
  | .spawn h ps n vp sj hh lit => Sys2Proof.Machine.execSpawn h ps n vp sj hh lit s
  | .spawnb h n vp sj hh lit => Sys2Proof.Machine.execSpawnb h n vp sj hh lit s
  | .exit h => Sys2Proof.Machine.execExit h s
  | .exitj h => Sys2Proof.Machine.execExitj h s
  | .joinw h a => Sys2Proof.Machine.execJoinw h a s
  | .cjoin h d => Sys2Proof.Machine.execCjoin h d s
  | .yield h => Sys2Proof.Machine.execYield h s
  | .trap h code => Sys2Proof.Machine.execTrap h code s
  | .bkpt h code => Sys2Proof.Machine.execBkpt h code s
  | .nop h => Sys2Proof.Machine.execNop h s
  | .trapret h => Sys2Proof.Machine.execTrapret h s
  | .fltrd h d a => Sys2Proof.Machine.execFltrd h d a s
  | .tlbinv h a b => Sys2Proof.Machine.execTlbinv h a b s
  | .cinv h d a b => Sys2Proof.Machine.execCinv h d a b s
  | .perfrd h d b => Sys2Proof.Machine.execPerfrd h d b s
  | .stkrd h d a => Sys2Proof.Machine.execStkrd h d a s
  | .cycrd h d => Sys2Proof.Machine.execCycrd h d s
  | .eccrd h d a => Sys2Proof.Machine.execEccrd h d a s
  | .groupFormResult g w => Sys2Proof.Machine.execGroupFormResult g w s
  | .memoryReply r => Sys2Proof.Machine.execMemoryReply r s
  | .homeRequest r => Sys2Proof.Machine.execHomeRequest r s
  | .writeBack x line => Sys2Proof.Machine.execWriteBack x line s
  | .barrierWake g w => Sys2Proof.Machine.execBarrierWake g w s
  | .waitanyWake g w => Sys2Proof.Machine.execWaitanyWake g w s
  | .dbarRelease l x => Sys2Proof.Machine.execDbarRelease l x s
  | .regclmServe k => Sys2Proof.Machine.execRegclmServe k s
  | .joinwWake g t => Sys2Proof.Machine.execJoinwWake g t s
  | .ringSpaceGrant r => Sys2Proof.Machine.execRingSpaceGrant r s
  | .rawaitWake r => Sys2Proof.Machine.execRawaitWake r s
  | .handleBindServe k => Sys2Proof.Machine.execHandleBindServe k s
  | .jobTableEntryGrant k => Sys2Proof.Machine.execJobTableEntryGrant k s
  | .spawnbRetry g t => Sys2Proof.Machine.execSpawnbRetry g t s
  | .tmmaChunkStep m => Sys2Proof.Machine.execTmmaChunkStep m s
  | .accumulatorFormComplete m => Sys2Proof.Machine.execAccumulatorFormComplete m s
  | .jobStart j => Sys2Proof.Machine.execJobStart j s
  | .engineJobRequest j => Sys2Proof.Machine.execEngineJobRequest j s
  | .jobComplete j => Sys2Proof.Machine.execJobComplete j s
  | .jobFaultRetry j => Sys2Proof.Machine.execJobFaultRetry j s
  | .handoverDrain stack => Sys2Proof.Machine.execHandoverDrain stack s
  | .handoverFlip stack => Sys2Proof.Machine.execHandoverFlip stack s
  | .handoverComplete stack => Sys2Proof.Machine.execHandoverComplete stack s
  | .pageWalk w => Sys2Proof.Machine.execPageWalk w s
  | .tlbFill w => Sys2Proof.Machine.execTlbFill w s
  | .recordRouteArrival r => Sys2Proof.Machine.execRecordRouteArrival r s
  | .recordEntry r => Sys2Proof.Machine.execRecordEntry r s
  | .binWindowExpiry b => Sys2Proof.Machine.execBinWindowExpiry b s
  | .spillRefill x l => Sys2Proof.Machine.execSpillRefill x l s
  | .kindledGroupFormation k => Sys2Proof.Machine.execKindledGroupFormation k s
  | .groupPark g => Sys2Proof.Machine.execGroupPark g s
  | .parkedGroupResume g => Sys2Proof.Machine.execParkedGroupResume g s
  | .groupSwap k q e => Sys2Proof.Machine.execGroupSwap k q e s
  | .activeEntryFill k q e => Sys2Proof.Machine.execActiveEntryFill k q e s
  | .recoveryModeEnd k => Sys2Proof.Machine.execRecoveryModeEnd k s
  | .launchStart l => Sys2Proof.Machine.execLaunchStart l s
  | .teamDispatch n => Sys2Proof.Machine.execTeamDispatch n s
  | .teamAdmit x => Sys2Proof.Machine.execTeamAdmit x s
  | .workSteal x => Sys2Proof.Machine.execWorkSteal x s
  | .stepBoundary l => Sys2Proof.Machine.execStepBoundary l s
  | .gridComplete l => Sys2Proof.Machine.execGridComplete l s
  | .fullTierPreempt l => Sys2Proof.Machine.execFullTierPreempt l s
  | .preemptSaveComplete l => Sys2Proof.Machine.execPreemptSaveComplete l s
  | .teamRestore l => Sys2Proof.Machine.execTeamRestore l s
  | .trapEntry g => Sys2Proof.Machine.execTrapEntry g s
  | .trapReserveGrant k q => Sys2Proof.Machine.execTrapReserveGrant k q s
  | .faultAreaRoom l => Sys2Proof.Machine.execFaultAreaRoom l s
  | .watchdogExpiry g => Sys2Proof.Machine.execWatchdogExpiry g s
  | .registerClaimDeadlock t => Sys2Proof.Machine.execRegisterClaimDeadlock t s
  | .accumulatorDeadlock k => Sys2Proof.Machine.execAccumulatorDeadlock k s
  | .lostDie x => Sys2Proof.Machine.execLostDie x s
  | .collectiveStart j => Sys2Proof.Machine.execCollectiveStart j s
  | .permuteRelease j => Sys2Proof.Machine.execPermuteRelease j s
  | .fabricHop p => Sys2Proof.Machine.execFabricHop p s
  | .flitReplay pkg port => Sys2Proof.Machine.execFlitReplay pkg port s
  | .routeTableLoad pkg entries => Sys2Proof.Machine.execRouteTableLoad pkg entries s
  | .recoveryProbe p => Sys2Proof.Machine.execRecoveryProbe p s
  | .probeReturn p cycle => Sys2Proof.Machine.execProbeReturn p cycle s
  | .errorNotice p reason => Sys2Proof.Machine.execErrorNotice p reason s
  | .rdmaWrite q => Sys2Proof.Machine.execRdmaWrite q s
  | .launch => Sys2Proof.Machine.execLaunch s
  | .preempt => Sys2Proof.Machine.execPreempt s
  | .resume => Sys2Proof.Machine.execResume s
  | .faultResume => Sys2Proof.Machine.execFaultResume s
  | .terminate => Sys2Proof.Machine.execTerminate s
  | .terminateAll => Sys2Proof.Machine.execTerminateAll s
  | .dieOutOfService => Sys2Proof.Machine.execDieOutOfService s
  | .dieInService => Sys2Proof.Machine.execDieInService s
  | .dieWithdrawn x => Sys2Proof.Machine.execDieWithdrawn x s
  | .tlbInvalidate => Sys2Proof.Machine.execTlbInvalidate s
  | .domainConfiguration => Sys2Proof.Machine.execDomainConfiguration s
  | .dieWindow => Sys2Proof.Machine.execDieWindow s
  | .registerWindowWrite pkg off bytes => Sys2Proof.Machine.execRegisterWindowWrite pkg off bytes s
  | .packageReset pkg => Sys2Proof.Machine.execPackageReset pkg s
  | .flueTraining pkg => Sys2Proof.Machine.execFlueTraining pkg s
  | .hostFirmwareVerify pkg => Sys2Proof.Machine.execHostFirmwareVerify pkg s
  | .driverImageLoad pkg => Sys2Proof.Machine.execDriverImageLoad pkg s
  | .coreSelfTest pkg => Sys2Proof.Machine.execCoreSelfTest pkg s
  | .domainFormation => Sys2Proof.Machine.execDomainFormation s
  | .failover => Sys2Proof.Machine.execFailover s
  | .attestationQuote pkg => Sys2Proof.Machine.execAttestationQuote pkg s
  | .powerLimit pkg watts => Sys2Proof.Machine.execPowerLimit pkg watts s
  | .powerSequence pkg => Sys2Proof.Machine.execPowerSequence pkg s
  | .illegalInstruction => Sys2Proof.Machine.execIllegalInstruction s
  | .illegalClause => Sys2Proof.Machine.execIllegalClause s

end Sys2Proof.Machine
end

