-- ==== Sys2Proof/Machine/Step.lean ====
section
/-! DEFINITION. One step of the machine: the turn that the agenda names, or a free one, is taken (log 1). -/

namespace Sys2Proof.Machine

/-- The turn that is taken now. -/
def State.turn (s : State) : Turn :=
  match s.agenda with
  | t :: _ => t
  | [] => Config.nextTurn s.ticks

/-- The turn has been taken off the agenda. -/
def State.taken (s : State) : State := { s with agenda := s.agenda.tail, ticks := s.ticks + 1 }

/-- A step of core k: its quadrant's slot, with the word that it issues, and the passing to the next quadrant. -/
def stepIssue (k : Nat) (s : State) : Outcome :=
  match s.beginIssue k with
  | (s, none) => .next (s.nextTurn k)
  | (s, some i) =>
    match exec i s with
    | .next s => .next (s.nextTurn k)
    | .fault f => .fault f
    | .refused r => .refused r

/-- A step of the machine. -/
def step (s : State) : Host.Outcome State Fault Refusal :=
  match s.turn with
  | .issue k => stepIssue k s.taken
  | .settle g => .next (s.taken.settle g)
  | .event i => exec i s.taken
  | .outside e => s.taken.input e

/-- The machine with the instruction of a table word at the place from which the very next step runs it. -/
def State.withFetchWord (s : State) (nbits w : Nat) : State :=
  s.placed ((tableWord nbits w).elim 0 (·.1)) (BitVec.ofNat 32 w) (BitVec.ofNat 32 (w / 2 ^ 32))

end Sys2Proof.Machine
end

