-- ==== Sys2Proof/Safety.lean ====
section
/-! DEFINITION. What counts as a safe run, and the terms in which claims speak of a step: the machine does not stop,
memory keeps its one form, a group runs without a fault against it, a word's threads meet no fault, a signing is
complete, and what a word leaves as it was. -/

namespace Sys2Proof.Machine

/-! ## Safe runs -/

/-- Memory is in its one form: addresses rise strictly and no listed byte is the one that an unlisted address reads. -/
def State.Canonical (s : State) : Prop := s.mem.wf = true

/-- The machine answers n next states from s. -/
def State.Runs : Nat → State → Prop
  | 0, _ => True
  | n + 1, s => ∃ t, step s = .next t ∧ State.Runs n t

/-- No fault is recorded against group g. -/
def State.Unfaulted (s : State) (g : Nat) : Prop := ∀ gr, s.groups.get? g = some gr → gr.faults = [] ∧ gr.stop = .none

/-! ## What a thread holds -/

/-- Group j. -/
def State.grp (s : State) (j : Nat) : Option Group := s.groups.get? j
/-- Thread x of group j. -/
def State.thr (s : State) (j x : Nat) : Option Thread := (s.grp j).bind (fun g => Tbl.get? g.threads x)
/-- What lane n holds once every fixed-latency write has become readable (R27). -/
def Thread.lane (hm : Bool) (t : Thread) (n : Nat) : Word := (t.flush hm).rd hm n
/-- What predicate n holds once every fixed-latency write has become readable (R27). -/
def Thread.pred (hm : Bool) (t : Thread) (n : Nat) : Bool := (t.flush hm).pr n

/-- From thread t to u, the token counters, what outstanding words will write, the request sequence number, the thread's
index, its join counter and the predicates that a handler set aside are as they were. -/
def Thread.Keeps (t u : Thread) : Prop :=
  (u.tok, u.owed, u.seq, u.gidx, u.join, u.savedP) = (t.tok, t.owed, t.seq, t.gidx, t.join, t.savedP)

/-! ## A packet whose threads meet no fault -/

/-- The sources of a word have no latent error, a handler's s112-s127 and v112-v127 being the shadow words and the trap
reserve's: its ECC check finds nothing (R224, R228). -/
def Group.Clean (g : Group) (sh : Shape) : Prop :=
  (∀ n ∈ sh.us, markKey g.handling n ∉ g.ssoft ∧ markKey g.handling n ∉ g.shard) ∧
  ∀ x th, Tbl.get? g.threads x = some th → ∀ n ∈ sh.vs,
    markKey (g.inHandler x) n ∉ th.vsoft ∧ markKey (g.inHandler x) n ∉ th.vhard

/-- The packet of group g stands at a predicate-guarded word that names the registers of sh, its threads live and
different, and no thread of it meets a fault before the word's own effect: its guard and, where it takes part, its
sources and destinations are readable, below the ceiling and not poisoned (R21, R30, R71, R228, R229). -/
structure State.Ready (s : State) (g : Group) (h : Hd) (sh : Shape) (always : Bool) : Prop where
  group : s.grp s.cur.g = some g
  nodup : s.cur.tids.Nodup
  live : ∀ x ∈ s.cur.tids, (Tbl.get? g.threads x).isSome = true
  clean : g.Clean sh
  clear : ∀ x ∈ s.cur.tids, ∀ c d, s.front h sh always x ≠ .fault c d

/-- The packet of group g is thread x alone, at such a word, and thread x takes part. -/
structure State.Alone (s : State) (g : Group) (x : Nat) (th : Thread) (h : Hd) (sh : Shape) : Prop where
  group : s.grp s.cur.g = some g
  only : s.cur.tids = [x]
  live : Tbl.get? g.threads x = some th
  clean : g.Clean sh
  runs : s.front h sh false x = .run g th

/-! ## A signing that the packet completes -/

/-- The packet of group g stands at a word i guarded by convergence register c, and completes its signing: every thread
of the packet is a member that has not signed and meets no fault, every other member has signed, and a register that is
bound is bound to this word (R58, R59). -/
structure State.Completes (s : State) (g : Group) (c : Nat) (cv : Conv) (i : Instr) (h : Hd) (sh : Shape)
    (long : Bool) : Prop where
  group : s.grp s.cur.g = some g
  register : g.conv[c]? = some cv
  some_ : s.cur.tids ≠ []
  nodup : s.cur.tids.Nodup
  live : ∀ x ∈ s.cur.tids, (Tbl.get? g.threads x).isSome = true
  clean : g.Clean sh
  member : ∀ x ∈ s.cur.tids, x ∈ cv.members
  fresh : ∀ y ∈ cv.signed, y.t ∈ cv.members ∧ y.t ∉ s.cur.tids
  order : (cv.signed.map (·.t)).Pairwise (· < ·)
  full : ∀ x ∈ cv.members, x ∈ s.cur.tids ∨ ∃ y ∈ cv.signed, y.t = x
  bound : ∀ b, cv.bound = some b → b.i = i ∧ b.hd = h ∧ b.at_ = s.cur.at_
  ceiling : ∀ x ∈ s.cur.tids, (sh.vs ++ sh.vd).find? (g.overCeiling (g.inHandler x) ·) = none
  readable : s.checking g = true → ∀ x ∈ s.cur.tids, ∀ th, Tbl.get? g.threads x = some th →
    th.violation (sh.uses none) = none
  tokens : long = true → ∀ x ∈ s.cur.tids, ∀ th, Tbl.get? g.threads x = some th → th.token s.cur.at_.tok < 63

/-- The uniform sources of a word are not poisoned (R229). -/
def Group.Sound (g : Group) (us : List Nat) : Prop :=
  us.find? (fun n => g.spois.contains (markKey g.handling n)) = none

/-! ## What a step leaves as it was -/

/-- From s to t, nothing has changed but group j and counters of the cores. -/
structure State.Beside (s t : State) (j : Nat) : Prop where
  rest : t = { s with groups := t.groups, cores := t.cores }
  others : ∀ i, i ≠ j → t.grp i = s.grp i
  cores : ∀ k, { t.core k with counters := (s.core k).counters } = s.core k

/-- From group g to g', nothing has changed but its threads and its count of retired words. -/
def Group.SameBut (g g' : Group) : Prop := g' = { g with threads := g'.threads, retired := g'.retired }

/-! ## What a vector word does -/

/-- o is the machine after a vector word over the packet of group g at s: the word completes; each packet thread that
takes part holds the new lanes V, the new predicates P and the generator R, as functions of whether it runs a handler
and of the thread before; each lane that dies with the word holds zero; the thread goes on at the next word; and
every other lane, predicate, thread, group and piece of state is as it was, the counters of the cores apart (R84). -/
def State.VectorResult (s : State) (o : Outcome) (g : Group) (h : Hd) (sh : Shape) (always : Bool)
    (V : Bool → Thread → List (Nat × Word)) (P : Bool → Thread → List (Nat × Bool)) (R : Bool → Thread → Dword) : Prop :=
  ∃ t g', o = .next t ∧ s.Beside t s.cur.g ∧ t.grp s.cur.g = some g' ∧ g.SameBut g' ∧
    (∀ x, x ∉ s.cur.tids → Tbl.get? g'.threads x = Tbl.get? g.threads x) ∧
    ∀ x ∈ s.cur.tids, ∀ th, Tbl.get? g.threads x = some th →
      let hm := g.inHandler x
      let takes := always || th.pr h.guard.toNat
      ∃ th', Tbl.get? g'.threads x = some th' ∧ th'.pc = s.cur.at_.next ∧ th'.place = .ready ∧
        (∀ n, th'.lane hm n = if s.cur.at_.dead = true ∧ n ∈ sh.dead then 0
          else if takes then (Tbl.get? (V hm th) n).getD (th.lane hm n) else th.lane hm n) ∧
        (∀ n, n < 7 → th'.pred hm n = if takes then (Tbl.get? (P hm th) n).getD (th.pred hm n) else th.pred hm n) ∧
        (th'.rng = if takes then R hm th else th.rng) ∧ th.Keeps th'

/-! ## What a word that executes once for its group does -/

/-- o is the machine after a word that executes once for group g, the members of convergence register cv retiring in it:
the group becomes G, each member goes on at the next word with its lanes, predicates and generator as they were, and
every other thread, group and piece of state is as it was, the counters of the cores apart (R58, R62). -/
def State.OnceResult (s : State) (o : Outcome) (g : Group) (cv : Conv) (G : Group) : Prop :=
  ∃ t g', o = .next t ∧ s.Beside t s.cur.g ∧ t.grp s.cur.g = some g' ∧ G.SameBut g' ∧
    (∀ x, x ∉ cv.members → Tbl.get? g'.threads x = Tbl.get? g.threads x) ∧
    ∀ x ∈ cv.members, ∀ th, Tbl.get? g.threads x = some th →
      let hm := g.inHandler x
      ∃ th', Tbl.get? g'.threads x = some th' ∧ th'.pc = s.cur.at_.next ∧ th'.place = .ready ∧
        (∀ n, th'.lane hm n = th.lane hm n) ∧ (∀ n, n < 7 → th'.pred hm n = th.pred hm n) ∧ th'.rng = th.rng ∧
        th.Keeps th'

/-- The group g after its convergence register c has executed its word: nothing signed, unbound (R58). -/
def Group.executed (g : Group) (c : Nat) (cv : Conv) : Group := { g with conv := g.conv.set c (Conv.fresh cv.members) }

/-- The same for a long-latency word, whose result comes later: the vector sources in dead have died where the word's
LASTREAD bit says so, the generator of thread x is R x of what it was, and each member's token stands one higher
(R28, R29, R100). -/
def State.LongResult (s : State) (o : Outcome) (g : Group) (cv : Conv) (G : Group) (dead : List Nat)
    (R : Nat → Dword → Dword) : Prop :=
  ∃ t g', o = .next t ∧ s.Beside t s.cur.g ∧ t.grp s.cur.g = some g' ∧ G.SameBut g' ∧
    (∀ x, x ∉ cv.members → Tbl.get? g'.threads x = Tbl.get? g.threads x) ∧
    ∀ x ∈ cv.members, ∀ th, Tbl.get? g.threads x = some th →
      let hm := g.inHandler x
      ∃ th', Tbl.get? g'.threads x = some th' ∧ th'.pc = s.cur.at_.next ∧ th'.place = .ready ∧
        (∀ n, th'.lane hm n = if s.cur.at_.dead = true ∧ n ∈ dead then 0 else th.lane hm n) ∧
        (∀ n, n < 7 → th'.pred hm n = th.pred hm n) ∧ th'.rng = R x th.rng ∧
        th'.tok = th.tok.set s.cur.at_.tok (th.token s.cur.at_.tok + 1)

/-- o is the machine after a word whose signing is complete and which waits: the group becomes G, the packet's threads
stand signing at register c, and every other thread, group and piece of state is as it was. -/
def State.WaitResult (s : State) (o : Outcome) (g : Group) (c : Nat) (G : Group) : Prop :=
  ∃ t g', o = .next t ∧ s.Beside t s.cur.g ∧ t.grp s.cur.g = some g' ∧ G.SameBut g' ∧
    (∀ x, x ∉ s.cur.tids → Tbl.get? g'.threads x = Tbl.get? g.threads x) ∧
    ∀ x ∈ s.cur.tids, ∀ th, Tbl.get? g.threads x = some th → Tbl.get? g'.threads x = some { th with place := .signing c }

/-- The wait w of word i, which is the present word, for something of kind k, its signers the members of cv. -/
def GWait.Of (w : GWait) (s : State) (cv : Conv) (i : Instr) (h : Hd) (k : GKind) : Prop :=
  w.kind = k ∧ w.i = i ∧ w.hd = h ∧ w.at_ = s.cur.at_ ∧ w.passed = 0 ∧ w.born = s.fresh ∧
  (w.sigs.map (·.t)).Pairwise (· < ·) ∧ ∀ x, x ∈ w.sigs.map (·.t) ↔ x ∈ cv.members

/-- o is the machine after a word that executes once for group g and takes names from the whole group: every lane of a
name in gone reads zero, in members and others, v112-v127 of a group in handler mode apart; the group becomes G (R72, R220,
R224; log 88). -/
def State.RowsResult (s : State) (o : Outcome) (g : Group) (cv : Conv) (G : Group) (gone : Nat → Prop) : Prop :=
  ∃ t g', o = .next t ∧ s.Beside t s.cur.g ∧ t.grp s.cur.g = some g' ∧ G.SameBut g' ∧
    (∀ x, Tbl.get? g.threads x = none → Tbl.get? g'.threads x = none) ∧
    ∀ x th, Tbl.get? g.threads x = some th →
      let hm := g.inHandler x
      ∃ th', Tbl.get? g'.threads x = some th' ∧
        (x ∈ cv.members → th'.pc = s.cur.at_.next ∧ th'.place = .ready) ∧
        (x ∉ cv.members → th'.pc = th.pc ∧ th'.place = th.place) ∧
        (∀ n, (gone n → (g.handling = true → n < 112) → th'.lane hm n = 0) ∧
          (¬ gone n ∨ (g.handling = true ∧ 112 ≤ n) → th'.lane hm n = th.lane hm n)) ∧
        (∀ n, n < 7 → th'.pred hm n = th.pred hm n) ∧ th'.rng = th.rng ∧ th.Keeps th'

/-- o is the machine after a word of group g, its signing on register c complete, has raised a fault: one record,
against the lowest member; every member stands at the word again and issues nothing before the fault is handled, its
registers as they were (R34, R60, R340). -/
def State.FaultResult (s : State) (o : Outcome) (g : Group) (c : Nat) (cv : Conv) (code addr detail : Nat) : Prop :=
  ∃ t g' low, o = .next t ∧ s.Beside t s.cur.g ∧ t.grp s.cur.g = some g' ∧
    low ∈ cv.members ∧ (∀ x ∈ cv.members, low ≤ x) ∧
    g' = { g.executed c cv with
      threads := g'.threads
      faults := g.faults ++ [(FaultRec.make code low s.cur.at_ addr detail 0 0).against g]
      faultAt := if g.stop = .none then s.ticks else g.faultAt
      stop := if g.stop = .none then .last else g.stop } ∧
    (∀ x, x ∉ cv.members → Tbl.get? g'.threads x = Tbl.get? g.threads x) ∧
    ∀ x ∈ cv.members, ∀ th, Tbl.get? g.threads x = some th →
      Tbl.get? g'.threads x = some { th with place := .faulted, pc := s.cur.at_.pc }

/-- From group g to G the uniform registers in U have changed to what U gives, with the marks of what was written, and
nothing else. -/
def Group.Writes (g G : Group) (U : List (Nat × Word)) : Prop :=
  G = { g with s := G.s, spois := G.spois, ssoft := G.ssoft, shard := G.shard, handler := G.handler } ∧
  G.handler = g.handler.map (fun k => { k with hs := (G.handler.map (·.hs)).getD [] }) ∧
  ∀ n, G.rs n = (Tbl.get? U n).getD (g.rs n)

/-- o is the machine after a uniform data form of group g: the registers in U are written, each member goes on, and
nothing else changes (R62). -/
def State.UniformResult (s : State) (o : Outcome) (g : Group) (c : Nat) (cv : Conv) (U : List (Nat × Word)) : Prop :=
  ∃ G, s.OnceResult o g cv G ∧ (g.executed c cv).Writes G U

end Sys2Proof.Machine
end

