-- ==== Sys2Proof/Certificates/Slice0/Obligations.lean ====
section
/-! DEFINITION. The statements for the provers.  Each says which rule of spec/ it formalises.  The words of a statement
that are no rule's (which packets stand at a word, what a signing that completes is, what a step leaves as it was) are
defined in Sys2Proof/Safety.lean. -/

open Sys2Proof Sys2Proof.Machine

namespace Sys2Proof.Claims

/-! ## Formulas of the spec -/

/-- Bits [63:32] of the signed product (R62). -/
def hiSigned (x y : Word) : Word := BitVec.ofInt 32 (x.toInt * y.toInt / 2 ^ 32)
/-- Bits [63:32] of the natural product (R62). -/
def hiNatural (x y : Word) : Word := BitVec.ofNat 32 (x.toNat * y.toNat / 2 ^ 32)
/-- Shift left, 0 when the count is 32 or more (R62). -/
def shiftLeft (x n : Word) : Word := if n.toNat < 32 then x <<< n.toNat else 0
/-- Logical shift right, 0 when the count is 32 or more (R62). -/
def shiftRight (x n : Word) : Word := if n.toNat < 32 then x >>> n.toNat else 0
/-- Arithmetic shift right, copies of bit 31 when the count is 32 or more (R62). -/
def shiftArith (x n : Word) : Word :=
  if n.toNat < 32 then x.sshiftRight n.toNat else if x.msb then 0xFFFFFFFF else 0
/-- Leading zeros, 0 to 32 (R62). -/
def leadingZeros (x : Word) : Word := BitVec.ofNat 32 (32 - x.toNat.size)
/-- The number of one bits (R62). -/
def oneBits (x : Word) : Word := BitVec.ofNat 32 ((List.range 32).countP (fun i => x.getLsbD i))
/-- The bit field of a literal: POS [4:0], LEN [10:5], SGN [11] (R63). -/
def field (lit x : Word) : Word :=
  let pos := lit.toNat % 32
  let len := lit.toNat / 32 % 64
  let v : Int := (x.toNat / 2 ^ pos % 2 ^ len : Nat)
  if lit.getLsbD 11 ∧ 2 ^ len ≤ 2 * v then BitVec.ofInt 32 (v - 2 ^ len) else BitVec.ofInt 32 v
/-- The literal of a bit-field extract is well formed: LEN from 1 to 32, the field within 32 bits, bits [31:12] zero
(R63). -/
def FieldOk (lit : Word) : Prop :=
  let pos := lit.toNat % 32
  let len := lit.toNat / 32 % 64
  1 ≤ len ∧ len ≤ 32 ∧ pos + len ≤ 32 ∧ lit.toNat < 2 ^ 12
/-- A number as a pair, the low word in the first register (R21). -/
def pair (d : Field) (x : Nat) : List (Nat × Word) :=
  [(d.toNat, BitVec.ofNat 32 x), (d.toNat + 1, BitVec.ofNat 32 (x / 2 ^ 32))]
/-- 1 or 0 (R62). -/
def bit (b : Bool) : Word := if b then 1 else 0

/-- o is the machine after a vector word that writes lane D with v (R84). -/
def Lane (s : State) (g : Group) (h : Hd) (sh : Shape) (d : Field) (o : Outcome) (v : Bool → Thread → Word) : Prop :=
  s.VectorResult o g h sh false (fun hm t => [(d.toNat, v hm t)]) (fun _ _ => []) (fun _ t => t.rng)

/-- o is the machine after a vector word that writes predicate p with v; a write to p7 is discarded (R86, R87). -/
def Pred (s : State) (g : Group) (h : Hd) (sh : Shape) (p : Nat) (o : Outcome) (v : Bool → Thread → Bool) : Prop :=
  s.VectorResult o g h sh false (fun _ _ => []) (fun hm t => [(p, v hm t)]) (fun _ t => t.rng)

end Sys2Proof.Claims

open Sys2Proof.Claims

/-! ## Vector forms (R84 to R99) -/

/-- R85, the forms of two vector sources. -/
def Sys2Proof.Claims.VectorIntegerTwo : Prop :=
  ∀ (s : State) (g : Group) (h : Hd) (d a b : Field), s.Ready g h (.v3 d a b) false →
    ∀ e ∈ ([(.vadd h d a b, fun x y => x + y), (.vsub h d a b, fun x y => x - y), (.vmul h d a b, fun x y => x * y),
        (.vmulhi h d a b, hiSigned), (.vmulhin h d a b, hiNatural), (.vand h d a b, fun x y => x &&& y),
        (.vor h d a b, fun x y => x ||| y), (.vxor h d a b, fun x y => x ^^^ y), (.vshl h d a b, shiftLeft),
        (.vshr h d a b, shiftRight), (.vsar h d a b, shiftArith),
        (.vmin h d a b, fun x y => if x.toInt ≤ y.toInt then x else y),
        (.vmax h d a b, fun x y => if x.toInt ≤ y.toInt then y else x),
        (.vminn h d a b, fun x y => if x.toNat ≤ y.toNat then x else y),
        (.vmaxn h d a b, fun x y => if x.toNat ≤ y.toNat then y else x)] : List (Instr × (Word → Word → Word))),
      Lane s g h (.v3 d a b) d (exec e.1 s) (fun hm t => e.2 (t.rd hm a.toNat) (t.rd hm b.toNat))

/-- R85, the other integer forms. -/
def Sys2Proof.Claims.VectorIntegerMoves : Prop :=
  ∀ (s : State) (g : Group) (h : Hd) (d a b : Field) (lit : Word),
    (s.Ready g h (.v2 d a) false →
      ∀ e ∈ ([(.vmov h d a, fun x => x), (.vaddl h d a lit, fun x => x + lit), (.vclz h d a, leadingZeros),
          (.vpop h d a, oneBits)] : List (Instr × (Word → Word))),
        Lane s g h (.v2 d a) d (exec e.1 s) (fun hm t => e.2 (t.rd hm a.toNat))) ∧
    (s.Ready g h (.v2 d a) false → (Instr.vbfe h d a lit).wf = true →
      Lane s g h (.v2 d a) d (exec (.vbfe h d a lit) s) (fun hm t => field lit (t.rd hm a.toNat))) ∧
    (s.Ready g h ⟨[], [], [], [d.toNat], [], [], 2⟩ false →
      Lane s g h ⟨[], [], [], [d.toNat], [], [], 2⟩ d (exec (.vmovl h d lit) s) (fun _ _ => lit)) ∧
    (s.Ready g h ⟨[], [a.toNat], [], [d.toNat], [], [], 2⟩ false →
      Lane s g h ⟨[], [a.toNat], [], [d.toNat], [], [], 2⟩ d (exec (.vmovs h d a) s) (fun _ _ => g.rs a.toNat)) ∧
    (s.Ready g h (.vs3 d a b) false →
      Lane s g h (.vs3 d a b) d (exec (.vadds h d a b) s) (fun hm t => t.rd hm a.toNat + g.rs b.toNat)) ∧
    (s.Ready g h (.v4 d a b) false →
      Lane s g h (.v4 d a b) d (exec (.vmad h d a b) s)
        (fun hm t => t.rd hm d.toNat + t.rd hm a.toNat * t.rd hm b.toNat)) ∧
    (s.Ready g h ⟨regs a 2 ++ regs b 2, [], [], regs d 2, [], [], 2⟩ false →
      s.VectorResult (exec (.vadd64 h d a b) s) g h ⟨regs a 2 ++ regs b 2, [], [], regs d 2, [], [], 2⟩ false
        (fun hm t => pair d ((t.rdN hm a.toNat 2 + t.rdN hm b.toNat 2) % 2 ^ 64)) (fun _ _ => []) (fun _ t => t.rng)) ∧
    ((Instr.vbfe h d a lit).wf = true ↔ FieldOk lit) ∧
    ((Instr.vadd64 h d a b).wf = true ↔ d.toNat % 2 = 0 ∧ a.toNat % 2 = 0 ∧ b.toNat % 2 = 0)

/-- R85: the integer forms, each lane as R62 gives the form; a pair is even, a bit field fits (R21, R63). -/
def Obligations.VectorInteger : Prop := Claims.VectorIntegerTwo ∧ Claims.VectorIntegerMoves

/-- R86: the integer compares, by condition code; codes 12 to 15 are refused as an instruction. -/
def Sys2Proof.Claims.VectorCompares : Prop :=
  (∀ (h : Hd) (d a b : Field), (Instr.vcmp h d a b).wf = decide (d.toNat / 8 < 12) ∧
    (Instr.vcmps h d a b).wf = decide (d.toNat / 8 < 12)) ∧
  ∀ (s : State) (g : Group) (h : Hd) (d a b : Field) (k : Nat) (rel : Word → Word → Prop), d.toNat / 8 = k →
    ((k = 0 ∧ rel = fun x y => x = y) ∨ (k = 1 ∧ rel = fun x y => x ≠ y) ∨
     (k = 2 ∧ rel = fun x y => x.toInt < y.toInt) ∨ (k = 3 ∧ rel = fun x y => x.toInt ≤ y.toInt) ∨
     (k = 4 ∧ rel = fun x y => x.toInt > y.toInt) ∨ (k = 5 ∧ rel = fun x y => x.toInt ≥ y.toInt) ∨
     (k = 6 ∧ rel = fun x y => x.toNat < y.toNat) ∨ (k = 7 ∧ rel = fun x y => x.toNat ≤ y.toNat) ∨
     (k = 8 ∧ rel = fun x y => x.toNat > y.toNat) ∨ (k = 9 ∧ rel = fun x y => x.toNat ≥ y.toNat) ∨
     (k = 10 ∧ rel = fun x y => x &&& y ≠ 0) ∨ (k = 11 ∧ rel = fun x y => x &&& y = 0)) →
    ∃ f : Word → Word → Bool, (∀ x y, f x y = true ↔ rel x y) ∧
      (s.Ready g h (.cmp d a b) false →
        Pred s g h (.cmp d a b) (d.toNat % 8) (exec (.vcmp h d a b) s)
          (fun hm t => f (t.rd hm a.toNat) (t.rd hm b.toNat))) ∧
      (s.Ready g h (.cmps d a b) false →
        Pred s g h (.cmps d a b) (d.toNat % 8) (exec (.vcmps h d a b) s) (fun hm t => f (t.rd hm a.toNat) (g.rs b.toNat)))

/-- R87: the predicate forms, and VSEL, which every packet thread takes part in. -/
def Sys2Proof.Claims.PredicatesAndSelect : Prop :=
  ∀ (s : State) (g : Group) (h : Hd) (d a b : Field),
    (s.Ready g h (.preds d [a, b]) false →
      ∀ e ∈ ([(.pand h d a b, fun x y => x && y), (.por h d a b, fun x y => x || y), (.pxor h d a b, fun x y => x ^^ y)] :
          List (Instr × (Bool → Bool → Bool))),
        Pred s g h (.preds d [a, b]) d.toNat (exec e.1 s) (fun _ t => e.2 (t.pr a.toNat) (t.pr b.toNat))) ∧
    (s.Ready g h (.preds d [a]) false →
      Pred s g h (.preds d [a]) d.toNat (exec (.pnot h d a) s) (fun _ t => !t.pr a.toNat)) ∧
    (s.Ready g h { Shape.v3 d a b with ps := [h.guard.toNat] } true →
      s.VectorResult (exec (.vsel h d a b) s) g h { Shape.v3 d a b with ps := [h.guard.toNat] } true
        (fun hm t => [(d.toNat, if t.pr h.guard.toNat then t.rd hm a.toNat else t.rd hm b.toNat)])
        (fun _ _ => []) (fun _ t => t.rng))

/-! ### Floating point -/

/-- R89, with the rounding of R88: each result is the exact one rounded once, to nearest with ties to even; the
reciprocal, the roots, the power and the logarithm of two as the number functions of R92 give them. Where the spec leaves a point open it follows the model's choice or reading: log 9. -/
def Obligations.VectorFloat : Prop :=
  ∀ (s : State) (g : Group) (h : Hd) (d a b : Field),
    (s.Ready g h (.v3 d a b) false →
      ∀ e ∈ ([(.vfadd h d a b, fun x y => (f32 x).add false (f32 y)),
          (.vfsub h d a b, fun x y => (f32 x).add false (f32 y).minus),
          (.vfmul h d a b, fun x y => (f32 x).mul (f32 y))] : List (Instr × (Word → Word → Val))),
        Lane s g h (.v3 d a b) d (exec e.1 s) (fun hm t => toF32 (e.2 (t.rd hm a.toNat) (t.rd hm b.toNat)))) ∧
    (s.Ready g h (.v4 d a b) false →
      Lane s g h (.v4 d a b) d (exec (.vfma h d a b) s) (fun hm t =>
        toF32 (((f32 (t.rd hm a.toNat)).mul (f32 (t.rd hm b.toNat))).add false (f32 (t.rd hm d.toNat))))) ∧
    (s.Ready g h ⟨[d.toNat, a.toNat], [b.toNat], [], [d.toNat], [], [], 2⟩ false →
      Lane s g h ⟨[d.toNat, a.toNat], [b.toNat], [], [d.toNat], [], [], 2⟩ d (exec (.vfmas h d a b) s) (fun hm t =>
        toF32 (((f32 (t.rd hm a.toNat)).mul (f32 (g.rs b.toNat))).add false (f32 (t.rd hm d.toNat))))) ∧
    (s.Ready g h (.trans d a) false →
      ∀ e ∈ ([(.vfrcp h d a, rcpV), (.vfrsq h d a, rsqV), (.vfsqrt h d a, sqrtV), (.vfexp2 h d a, exp2V),
          (.vflog2 h d a, log2V)] : List (Instr × (Val → Val))),
        Lane s g h (.trans d a) d (exec e.1 s) (fun hm t => toF32 (e.2 (f32 (t.rd hm a.toNat)))))

/-- R88: a NaN operand, the difference of infinities and the product of zero and an infinity give the canonical NaN; the
zero that x + (-x) gives is +0, and (-0) + (-0) is -0. -/
def Sys2Proof.Claims.FloatSpecialCases : Prop :=
  (∀ x y, f32 x = .nan ∨ f32 y = .nan → fadd x y = 0x7FC00000 ∧ fsub x y = 0x7FC00000 ∧ fmul x y = 0x7FC00000 ∧
    ∀ z, fma x y z = 0x7FC00000 ∧ fma z x y = 0x7FC00000) ∧
  fadd 0x7F800000 0xFF800000 = 0x7FC00000 ∧ fsub 0x7F800000 0x7F800000 = 0x7FC00000 ∧
  fmul 0 0x7F800000 = 0x7FC00000 ∧ (∀ z, fma 0 0x7F800000 z = 0x7FC00000) ∧
  (∀ x, f32 x ≠ .nan → (∀ n, f32 x ≠ .inf n) → fsub x x = 0) ∧ fadd 0x80000000 0x80000000 = 0x80000000

/-- R90: the maximum rule of VFMAX and VFMIN. -/
def Sys2Proof.Claims.MaximumRule : Prop :=
  (∀ (s : State) (g : Group) (h : Hd) (d a b : Field), s.Ready g h (.v3 d a b) false →
    Lane s g h (.v3 d a b) d (exec (.vfmin h d a b) s) (fun hm t => fmin (t.rd hm a.toNat) (t.rd hm b.toNat)) ∧
    Lane s g h (.v3 d a b) d (exec (.vfmax h d a b) s) (fun hm t => fmax (t.rd hm a.toNat) (t.rd hm b.toNat))) ∧
  (∀ x y, f32 x = .nan → f32 y = .nan → fmax x y = 0x7FC00000 ∧ fmin x y = 0x7FC00000) ∧
  (∀ x y, f32 x = .nan → f32 y ≠ .nan → fmax x y = y ∧ fmin x y = y ∧ fmax y x = y ∧ fmin y x = y) ∧
  fmax 0 0x80000000 = 0 ∧ fmax 0x80000000 0 = 0 ∧ fmin 0 0x80000000 = 0x80000000 ∧ fmin 0x80000000 0 = 0x80000000 ∧
  (∀ x y, f32 x ≠ .nan → f32 y ≠ .nan → (fcmp x y = some .lt → fmax x y = y ∧ fmin x y = x) ∧
    (fcmp x y = some .gt → fmax x y = x ∧ fmin x y = y)) ∧
  (∀ x, f32 x ≠ .nan → fmax x x = x ∧ fmin x x = x)

/-- R91: the floating compare, by condition code; codes 8 to 15 are refused as an instruction. -/
def Sys2Proof.Claims.FloatCompare : Prop :=
  (∀ (h : Hd) (d a b : Field), (Instr.vfcmp h d a b).wf = decide (d.toNat / 8 < 8)) ∧ fcmp 0x80000000 0 = some .eq ∧
  ∀ (s : State) (g : Group) (h : Hd) (d a b : Field), s.Ready g h (.cmp d a b) false → d.toNat / 8 < 8 →
    ∃ f : Word → Word → Bool,
      Pred s g h (.cmp d a b) (d.toNat % 8) (exec (.vfcmp h d a b) s) (fun hm t => f (t.rd hm a.toNat) (t.rd hm b.toNat)) ∧
      ∀ x y, f x y = true ↔ match d.toNat / 8 with
        | 0 => fcmp x y = some .eq
        | 1 => fcmp x y ≠ some .eq
        | 2 => fcmp x y = some .lt
        | 3 => fcmp x y = some .lt ∨ fcmp x y = some .eq
        | 4 => fcmp x y = some .gt
        | 5 => fcmp x y = some .gt ∨ fcmp x y = some .eq
        | 6 => f32 x = .nan ∨ f32 y = .nan
        | _ => f32 x ≠ .nan ∧ f32 y ≠ .nan

/-- R86, R87, R91: the compares, the predicate forms and VSEL. -/
def Obligations.ComparesAndPredicates : Prop := Claims.VectorCompares ∧ Claims.PredicatesAndSelect ∧ Claims.FloatCompare

/-- R93: the class mask has one bit set, by the sign, the exponent and the fraction of the value. -/
def Sys2Proof.Claims.ClassMaskOneHot : Prop :=
  (∀ (s : State) (g : Group) (h : Hd) (d a : Field), s.Ready g h (.v2 d a) false →
    Lane s g h (.v2 d a) d (exec (.vfclass h d a) s) (fun hm t => fclass (t.rd hm a.toNat))) ∧
  ∀ x : Word,
    let exponent := x.toNat / 2 ^ 23 % 2 ^ 8
    let fraction := x.toNat % 2 ^ 23
    let side := fun (negative positive : Nat) => if 2 ^ 31 ≤ x.toNat then negative else positive
    fclass x = BitVec.ofNat 32 (2 ^ (if exponent = 255 then
        (if fraction = 0 then side 0 7 else if fraction < 2 ^ 22 then 8 else 9)
      else if exponent = 0 then (if fraction = 0 then side 3 4 else side 2 5)
      else side 1 6))

/-- R88, R90, R93: special values, the maximum rule and the class mask. -/
def Obligations.FloatValues : Prop := Claims.FloatSpecialCases ∧ Claims.MaximumRule ∧ Claims.ClassMaskOneHot

/-! ### Conversions, the stochastic generator and packed halves -/

/-- R95, R97, R98, R99: CVT converts each lane between the two formats of its literal with its rounding; CVTSR rounds by the
lane's generator, which steps once; SRSEED and SRRD write and read the generator; the packed forms act on each half. -/
def Obligations.ConversionsAndPacked : Prop :=
  ∀ (s : State) (g : Group) (h : Hd) (d a b : Field) (lit : Word),
    let code := fun (hi lo : Nat) => bitsOf lit.toNat hi lo
    let cv := fun (mode : RMode) (x e : Word) => encodeVal (decodeVal x.toNat (code 7 4) (bitsOf e.toNat 7 0)) (code 3 0)
      mode (code 10 10 == 1) (bitsOf e.toNat 15 8)
    (s.Ready g h (cvtShape d a b lit) false →
      Lane s g h (cvtShape d a b lit) d (exec (.cvt h d a b lit) s)
        (fun hm t => cv (.ofCode (code 9 8)) (t.rd hm a.toNat) (t.rd hm b.toNat))) ∧
    (s.Ready g h (cvtShape d a b lit) false →
      s.VectorResult (exec (.cvtsr h d a b lit) s) g h (cvtShape d a b lit) false
        (fun hm t => [(d.toNat, cv (.sr (bitsOf (nextRandom t.rng).toNat 63 32)) (t.rd hm a.toNat) (t.rd hm b.toNat))])
        (fun _ _ => []) (fun _ t => t.rng * 0xD1B54A32D192ED03 + 0xB7)) ∧
    (s.Ready g h { Shape.none with vs := regs a 2 } false →
      s.VectorResult (exec (.srseed h a) s) g h { Shape.none with vs := regs a 2 } false (fun _ _ => []) (fun _ _ => [])
        (fun hm t => BitVec.ofNat 64 ((t.rd hm a.toNat).toNat + 2 ^ 32 * (t.rd hm (a.toNat + 1)).toNat))) ∧
    (s.Ready g h ⟨[], [], [], regs d 2, [], [], 2⟩ false →
      s.VectorResult (exec (.srrd h d) s) g h ⟨[], [], [], regs d 2, [], [], 2⟩ false
        (fun _ t => pair d t.rng.toNat) (fun _ _ => []) (fun _ t => t.rng)) ∧
    (s.Ready g h (.v3 d a b) false →
      ∀ e ∈ ([(.vhadd h d a b lit, haddHalf lit), (.vhmul h d a b lit, hmulHalf lit), (.vhmax h d a b lit, hmaxHalf lit)] :
          List (Instr × (Nat → Nat → Nat → Nat))),
        Lane s g h (.v3 d a b) d (exec e.1 s) (fun hm t => packed e.2 (t.rd hm a.toNat) (t.rd hm b.toNat) 0)) ∧
    (s.Ready g h (.v4 d a b) false →
      Lane s g h (.v4 d a b) d (exec (.vhfma h d a b lit) s)
        (fun hm t => packed (hfmaHalf lit) (t.rd hm a.toNat) (t.rd hm b.toNat) (t.rd hm d.toNat)))

/-! ## Uniform forms (R58 to R73) -/

/-- R62 and R63: the uniform data forms, where the packet completes the signing of the guarding register c. -/
def Sys2Proof.Claims.UniformData : Prop :=
  ∀ (s : State) (g : Group) (cv : Conv) (h : Hd) (d a b : Field) (lit : Word),
    let c := h.guard.toNat
    let done := fun (i : Instr) (us ud : List Nat) (U : List (Nat × Word)) =>
      s.Completes g c cv i h ⟨[], us, [], [], [], ud, 1⟩ false → g.Sound us → s.UniformResult (exec i s) g c cv U
    let A := g.rs a.toNat
    let B := g.rs b.toNat
    (∀ e ∈ ([(.smov h d a, A), (.saddl h d a lit, A + lit), (.sclz h d a, leadingZeros A), (.spop h d a, oneBits A)] :
        List (Instr × Word)), done e.1 [a.toNat] [d.toNat] [(d.toNat, e.2)]) ∧
    ((Instr.sbfe h d a lit).wf = true → done (.sbfe h d a lit) [a.toNat] [d.toNat] [(d.toNat, field lit A)]) ∧
    done (.smovl h d lit) [] [d.toNat] [(d.toNat, lit)] ∧
    (∀ e ∈ ([(.sadd h d a b, A + B), (.ssub h d a b, A - B), (.smul h d a b, A * B), (.smulhi h d a b, hiSigned A B),
        (.smulhin h d a b, hiNatural A B), (.sand h d a b, A &&& B), (.sor h d a b, A ||| B), (.sxor h d a b, A ^^^ B),
        (.sshl h d a b, shiftLeft A B), (.sshr h d a b, shiftRight A B), (.ssar h d a b, shiftArith A B),
        (.smin h d a b, if A.toInt ≤ B.toInt then A else B), (.smax h d a b, if A.toInt ≤ B.toInt then B else A),
        (.sminn h d a b, if A.toNat ≤ B.toNat then A else B), (.smaxn h d a b, if A.toNat ≤ B.toNat then B else A),
        (.sceq h d a b, bit (A == B)), (.scne h d a b, bit (A != B)), (.sclt h d a b, bit (A.toInt < B.toInt)),
        (.scle h d a b, bit (A.toInt ≤ B.toInt)), (.scltn h d a b, bit (A.toNat < B.toNat)),
        (.sclen h d a b, bit (A.toNat ≤ B.toNat))] : List (Instr × Word)),
      done e.1 [a.toNat, b.toNat] [d.toNat] [(d.toNat, e.2)]) ∧
    done (.ssel h d a b) [d.toNat, a.toNat, b.toNat] [d.toNat] [(d.toNat, if g.rs d.toNat ≠ 0 then A else B)] ∧
    done (.slea h d a b) (regs a 2 ++ [b.toNat]) (regs d 2) (pair d (g.rsN a.toNat 2 + B.toNat)) ∧
    done (.sadd64 h d a b) (regs a 2 ++ regs b 2) (regs d 2) (pair d (g.rsN a.toNat 2 + g.rsN b.toNat 2)) ∧
    done (.swr h a b) [a.toNat, b.toNat] [] [(A.toNat % 128, B)] ∧
    ((Instr.sbfe h d a lit).wf = true ↔ FieldOk lit) ∧
    ((Instr.slea h d a b).wf = true ↔ d.toNat % 2 = 0 ∧ a.toNat % 2 = 0) ∧
    ((Instr.sadd64 h d a b).wf = true ↔ d.toNat % 2 = 0 ∧ a.toNat % 2 = 0 ∧ b.toNat % 2 = 0)

/-- R64: the special registers; TID is the lowest-indexed signer. -/
def Sys2Proof.Claims.SpecialRegisters : Prop :=
  (∀ (h : Hd) (d b : Field), (Instr.srd h d b).wf = true ↔
    b.toNat < 20 ∧ (b.toNat = 9 ∨ b.toNat = 18 → d.toNat % 2 = 0)) ∧
  ∀ (s : State) (g : Group) (cv : Conv) (h : Hd) (d b : Field) (low : Nat),
    let c := h.guard.toNat
    (Instr.srd h d b).wf = true → (low ∈ cv.members ∧ ∀ x ∈ cv.members, low ≤ x) →
    s.Completes g c cv (.srd h d b) h ⟨[], [], [], [], [], if srdWide b then regs d 2 else [d.toNat], 1⟩ false →
    let one := fun (w : Word) => s.UniformResult (exec (.srd h d b) s) g c cv [(d.toNat, w)]
    let num := fun (n : Nat) => one (BitVec.ofNat 32 n)
    match b.toNat with
    | 0 => num low
    | 1 => num (if g.team.isSome then g.gix else 0)
    | 2 => num ((s.teamOf g).elim 0xFFFFFFFF (·.tix))
    | 3 => one g.dieix
    | 4 => one g.diecnt
    | 5 => one g.step
    | 6 => num (if g.team.isSome then g.role else 0)
    | 7 => num (g.core % 96 + g.core / 96 % 4 * 2 ^ 7 + g.core / 384 * 2 ^ 16)
    | 8 => num g.quad
    | 9 => s.UniformResult (exec (.srd h d b) s) g c cv (pair d g.lseq)
    | 18 => s.UniformResult (exec (.srd h d b) s) g c cv (pair d g.dwbase.toNat)
    | 19 => one g.serial
    | n => one ((s.launchOf g).elim 0 (fun l => l.rc.fmt.getD (n - 10) 0))

/-- R62, R63, R64: the uniform data forms and the special registers. -/
def Obligations.UniformForms : Prop := Claims.UniformData ∧ Claims.SpecialRegisters

/-- R65: CSETA and CSETP re-form register d, its signed set emptied and its PC unbound. Where the spec leaves a point open it follows the model's choice or reading: log 25. -/
def Obligations.ConvergenceSetUp : Prop :=
  ∀ (s : State) (g : Group) (cv dv : Conv) (h : Hd) (d a : Field),
    let c := h.guard.toNat
    g.conv[d.toNat]? = some dv → (d.toNat ≠ c → dv.signed = []) →
    (s.Completes g c cv (.cseta h d) h Shape.none false →
      s.OnceResult (exec (.cseta h d) s) g cv
        { g with conv := (g.conv.set c (Conv.fresh cv.members)).set d.toNat (Conv.fresh (Tbl.keys g.threads)) }) ∧
    (s.Completes g c cv (.csetp h d a) h { Shape.none with ps := [a.toNat] } false →
      ∃ new, s.OnceResult (exec (.csetp h d a) s) g cv
        { g with conv := (g.conv.set c (Conv.fresh cv.members)).set d.toNat (Conv.fresh new) } ∧
        ∀ x, x ∈ new ↔ (∃ y ∈ cv.signed, y.t = x ∧ y.pr = true) ∨
          (x ∈ s.cur.tids ∧ ∃ th, Tbl.get? g.threads x = some th ∧ th.pr a.toNat = true))

/-! ### Barriers (R66 to R70) -/

namespace Sys2Proof.Claims

/-- Barrier n stands in the team of group g, which is tm, below the launch's barrier count (R66). -/
structure HasBarrier (s : State) (g : Group) (n tm : Nat) : Prop where
  team : g.team = some tm
  held : ∃ team, Tbl.get? s.teams tm = some team ∧ n < team.bars.length
  below : n < s.barriers g
  number : n < 16

/-- No earlier word of a member of cv is still to be performed, and none is on its way between packages. -/
def Quiet (s : State) (cv : Conv) : Prop :=
  ∀ e ∈ s.reqs, e.2.g = s.cur.g → e.2.t ∈ cv.members →
    e.2.isDone = true ∧ s.inFabric e.1 = false ∧ Tbl.get? s.reqs e.1 = some e.2

/-- Every scratchpad store and ACCST that threads xs of group j issued has been performed: an SFENCE of theirs completes
(R115). -/
def FencedBy (s : State) (j : Nat) (xs : List Nat) : Prop :=
  (∀ e ∈ s.reqs, e.2.g = j → e.2.t ∈ xs → e.2.sp = true → e.2.writes = true → e.2.isDone = true) ∧
  ∀ e ∈ s.mops, e.2.g = j → e.2.kind = .accst → ∀ x ∈ e.2.sigs, x ∉ xs

/-- The same for the members of cv, of the present group. -/
def Fenced (s : State) (cv : Conv) : Prop := FencedBy s s.cur.g cv.members

/-- s with barrier n of team tm holding b. -/
def withBarrier (s : State) (tm n : Nat) (b : Bar) : State :=
  { s with teams := Tbl.modify s.teams tm (fun x => { x with bars := x.bars.set n b }) }

/-- A group as a completion of barrier n of its team leaves it: its packet count at zero, and each of its waits on barriers
knowing of the completion (R68, R69, R216). -/
def told (n : Nat) (g : Group) : Group :=
  { g with
    packets := 0
    waits := g.waits.map (fun (w : Nat × GWait) => (w.1, match w.2.kind with
      | .barrier _ | .any _ => { w.2 with met := n :: w.2.met.filter (· ≠ n) }
      | _ => w.2)) }

/-- s with the groups of team tm as a completion of its barrier n leaves them. -/
def recounted (s : State) (tm n : Nat) : State :=
  { s with groups := s.groups.map (fun (e : Nat × Group) => (e.1, if e.2.team = some tm then told n e.2 else e.2)) }

/-- Barrier b after one group arrival, where that completes it: reset, in its other phase (R66). -/
def reset (b : Bar) : Bar := { b with arrived := 0, bytes := 0, phase := !b.phase }

/-- The arrival completes b: the groups and the bytes that it expects have arrived (R66, R67). -/
def Fills (b : Bar) : Prop := b.expGroups ≤ min (b.arrived + 1) 511 ∧ b.expBytes ≤ b.bytes

end Sys2Proof.Claims

/-- R67, with the completion check of R66 written out: BARINIT, BARARR and BARARRW where the packet completes the signing
and no earlier word of a signer is still to be performed. -/
def Sys2Proof.Claims.BarrierArrival : Prop :=
  ∀ (s : State) (g : Group) (cv : Conv) (h : Hd) (d a b : Field) (tm : Nat),
    let c := h.guard.toNat
    let bar := s.bar tm d.toNat
    let n := min (bar.arrived + 1) 511
    let here := g.executed c cv
    HasBarrier s g d.toNat tm →
    (s.Completes g c cv (.barinit h d a b) h ⟨[], [a.toNat, b.toNat], [], [], [], [], 1⟩ false →
      g.Sound [a.toNat, b.toNat] → (g.rs a.toNat).toNat ≤ 256 → ((g.rs a.toNat).toNat ≠ 0 ∨ (g.rs b.toNat).toNat ≠ 0) →
      (withBarrier s tm d.toNat ⟨(g.rs a.toNat).toNat, (g.rs b.toNat).toNat, 0, 0, bar.phase⟩).OnceResult
        (exec (.barinit h d a b) s) g cv here) ∧
    (s.Completes g c cv (.bararr h d) h Shape.none false → Quiet s cv →
      (¬ Fills bar → (withBarrier s tm d.toNat { bar with arrived := n }).OnceResult (exec (.bararr h d) s) g cv
        (here.setTgt d.toNat bar.phase)) ∧
      (Fills bar → (recounted (withBarrier s tm d.toNat (reset bar)) tm d.toNat).OnceResult (exec (.bararr h d) s) g cv
        (told d.toNat (here.setTgt d.toNat bar.phase)))) ∧
    (s.Completes g c cv (.bararrw h d) h Shape.none false → Quiet s cv →
      (¬ Fills bar → ∃ w, w.Of s cv (.bararrw h d) h (.barrier d.toNat) ∧
        State.WaitResult { withBarrier s tm d.toNat { bar with arrived := n } with fresh := s.fresh + 1 }
          (exec (.bararrw h d) s) g c
          { here.setTgt d.toNat bar.phase with waits := Tbl.put g.waits s.fresh w }) ∧
      (Fills bar → s.parkable g = false → Fenced s cv →
        ((recounted (withBarrier s tm d.toNat (reset bar)) tm d.toNat).advanceGen tm (s.teamCore g)).OnceResult
          (exec (.bararrw h d) s) g cv
          { told d.toNat (here.setTgt d.toNat (!bar.phase)) with recovering := false }) ∧
      (Fills bar → ¬ Fenced s cv → ∃ w, w.Of s cv (.bararrw h d) h (.barrier d.toNat) ∧ w.met = [d.toNat] ∧
        State.WaitResult { recounted (withBarrier s tm d.toNat (reset bar)) tm d.toNat with fresh := s.fresh + 1 }
          (exec (.bararrw h d) s) g c
          { told d.toNat (here.setTgt d.toNat bar.phase) with
            waits := Tbl.put (told d.toNat g).waits s.fresh w }))

/-- R68: BARWAIT waits until the phase differs from the group's target, and for what the SFENCE that follows waits for; then
the target is the phase, that SFENCE has advanced the operand-cache generation, and in a parkable team every register outside
the carry set reads zero. -/
def Sys2Proof.Claims.BarrierWait : Prop :=
  ∀ (s : State) (g : Group) (cv : Conv) (h : Hd) (d : Field) (tm : Nat),
    let c := h.guard.toNat
    let phase := (s.bar tm d.toNat).phase
    HasBarrier s g d.toNat tm → s.Completes g c cv (.barwait h d) h Shape.none false →
    (phase = g.tgt.getLsbD d.toNat → ∃ w, w.Of s cv (.barwait h d) h (.barrier d.toNat) ∧
      State.WaitResult { s with fresh := s.fresh + 1 } (exec (.barwait h d) s) g c
        { g.executed c cv with waits := Tbl.put g.waits s.fresh w }) ∧
    (phase ≠ g.tgt.getLsbD d.toNat → ¬ Fenced s cv → ∃ w, w.Of s cv (.barwait h d) h (.barrier d.toNat) ∧
      w.met = [d.toNat] ∧ State.WaitResult { s with fresh := s.fresh + 1 } (exec (.barwait h d) s) g c
        { g.executed c cv with waits := Tbl.put g.waits s.fresh w }) ∧
    (phase ≠ g.tgt.getLsbD d.toNat → Fenced s cv → s.parkable g = false →
      (s.advanceGen tm (s.teamCore g)).OnceResult (exec (.barwait h d) s) g cv
        { (g.executed c cv).setTgt d.toNat phase with recovering := false }) ∧
    (phase ≠ g.tgt.getLsbD d.toNat → Fenced s cv → s.parkable g = true → g.handler = none →
      ∃ t g' l, exec (.barwait h d) s = .next t ∧ t.grp s.cur.g = some g' ∧ s.launchOf g = some l ∧
        g'.tgt.getLsbD d.toNat = phase ∧ (∀ n, g'.rs n = if l.rc.carryS.getLsbD n then g.rs n else 0) ∧
        ∀ x th, Tbl.get? g.threads x = some th → ∃ th', Tbl.get? g'.threads x = some th' ∧
          (∀ n, th'.lane false n = if l.rc.carryV.getLsbD n then th.lane false n else 0) ∧
          (∀ n, n < 7 → th'.pred false n = (l.rc.carryP.getLsbD n && th.pred false n)) ∧
          (x ∈ cv.members → th'.pc = s.cur.at_.next))

/-- R66, R270: the byte arrivals and the hand-over arrivals that a team's barrier unit has met in a cycle are applied one by
one, hand-overs first and each kind in its order; one that completes its barrier resets it, and the team's groups see it. -/
def Sys2Proof.Claims.DueArrivals : Prop :=
  ∀ (s : State) (tm : Nat) (team : Team) (a b : Arrival),
    let withDue := fun (s : State) (l : List Arrival) =>
      { s with teams := Tbl.modify s.teams tm (fun x => { x with due := l }) }
    let bar := s.bar tm a.bar
    let more := match a.bytes with
      | none => { bar with arrived := min (bar.arrived + 1) 511 }
      | some n => { bar with bytes := (bar.bytes + n) % 2 ^ 64 }
    let sooner := a.bytes = none ∧ b.bytes ≠ none ∨ (a.bytes = none ↔ b.bytes = none) ∧ a.order < b.order
    Tbl.get? s.teams tm = some team →
    (team.due = [a] →
      (more.expGroups ≤ more.arrived ∧ more.expBytes ≤ more.bytes →
        s.applyArrivals tm = recounted (withBarrier (withDue s []) tm a.bar (reset more)) tm a.bar) ∧
      (¬ (more.expGroups ≤ more.arrived ∧ more.expBytes ≤ more.bytes) →
        s.applyArrivals tm = withBarrier (withDue s []) tm a.bar more)) ∧
    (sooner → team.due = [a, b] ∨ team.due = [b, a] →
      s.applyArrivals tm = State.applyArrivals (withDue (State.applyArrivals (withDue s [a]) tm) [b]) tm)

/-- R66, R67, R68, R270: the forms that set, arrive at and wait for a barrier, and the arrivals of a cycle. Where the spec leaves a point open it follows the model's choice or reading: logs 16, 25, 100. -/
def Obligations.BarrierForms : Prop := Claims.BarrierArrival ∧ Claims.BarrierWait ∧ Claims.DueArrivals

/-- R69: WAITANY takes the first completed barrier of its mask from the group's rotating start, where the SFENCE that follows
can complete, or waits; and R70: BARRD reads a barrier into a quad. Where the spec leaves a point open it follows the model's choice or reading: logs 16, 100. -/
def Obligations.WaitAnyAndBarrierRead : Prop :=
  ∀ (s : State) (g : Group) (cv : Conv) (h : Hd) (d a b : Field) (tm : Nat),
    let c := h.guard.toNat
    let mask := (g.rs a.toNat).toNat % 256
    let at_ := fun (i : Nat) => 8 * b.toNat + i
    let hit := fun (i : Nat) => mask.testBit i = true ∧ (s.bar tm (at_ i)).phase ≠ g.tgt.getLsbD (at_ i)
    (s.Completes g c cv (.waitany h d a b) h ⟨[], [a.toNat], [], [], [], [d.toNat], 1⟩ false → g.Sound [a.toNat] →
      (mask = 0 → s.UniformResult (exec (.waitany h d a b) s) g c cv [(d.toNat, 0xFFFFFFFF)]) ∧
      (g.team = some tm → mask ≠ 0 → (∀ i, i < 8 → mask.testBit i = true → at_ i < s.barriers g) →
        (∀ j x, j < 8 → hit ((g.rot + j) % 8) → (∀ k, k < j → ¬ hit ((g.rot + k) % 8)) → Fenced s cv →
          x ∈ cv.members → (∀ y ∈ cv.members, x ≤ y) →
          let i := (g.rot + j) % 8
          (s.advanceGen tm (s.teamCore g)).OnceResult (exec (.waitany h d a b) s) g cv
            { ((g.executed c cv).setTgt (at_ i) (s.bar tm (at_ i)).phase).wsFor x d.toNat [BitVec.ofNat 32 (at_ i)] with
              rot := (i + 1) % 8, recovering := false }) ∧
        ((∀ i, i < 8 → ¬ hit i) ∨ ¬ Fenced s cv → ∃ w, w.Of s cv (.waitany h d a b) h (.any mask) ∧
          State.WaitResult { s with fresh := s.fresh + 1 } (exec (.waitany h d a b) s) g c
            { g.executed c cv with waits := Tbl.put g.waits s.fresh w }))) ∧
    (HasBarrier s g a.toNat tm → s.Completes g c cv (.barrd h d a) h ⟨[], [], [], [], [], regs d 4, 1⟩ false →
      let bar := s.bar tm a.toNat
      s.UniformResult (exec (.barrd h d a) s) g c cv
        [(d.toNat, BitVec.ofNat 32 (bar.expGroups + bar.arrived * 2 ^ 16 + if bar.phase then 2 ^ 31 else 0)),
         (d.toNat + 1, BitVec.ofNat 32 bar.expBytes), (d.toNat + 2, BitVec.ofNat 32 (min bar.bytes 0xFFFFFFFF)),
         (d.toNat + 3, BitVec.ofNat 32 ((if g.tgt.getLsbD a.toNat then 1 else 0) + g.rot * 2 ^ 8))])

/-! ### Register reservation and the die barrier (R72, R73) -/

/-- R72: REGREL and RELV take names from every thread of the group; REGCLM is granted at once where the rows are free and
no other claim and no kindled group waits for rows, those held for a bin or a team among them, and waits where they are not
free; an n of 0 changes nothing. -/
def Sys2Proof.Claims.RowForms : Prop :=
  ∀ (s : State) (g : Group) (cv : Conv) (h : Hd) (a b : Field),
    let c := h.guard.toNat
    let n := b.toNat
    let here := g.executed c cv
    (s.Completes g c cv (.regrel h b) h Shape.none false → n < g.ceil →
      s.RowsResult (exec (.regrel h b) s) g cv { here with ceil := g.ceil - n, resv := g.resv - n }
        (fun x => g.ceil - n ≤ x)) ∧
    (s.Completes g c cv (.relv h a b) h Shape.none false →
      s.RowsResult (exec (.relv h a b) s) g cv here (fun x => a.toNat ≤ x ∧ x < a.toNat + n ∧ x < g.ceil)) ∧
    (s.Completes g c cv (.regclm h b) h Shape.none false → g.ceil + n ≤ 128 →
      (n = 0 → s.OnceResult (exec (.regclm h b) s) g cv here) ∧
      (n ≠ 0 → (∀ e ∈ s.groups, e.2.share = none) → n ≤ s.freeRows g.core →
        (∀ e ∈ s.groups, ∀ w ∈ e.2.waits, ∀ m, w.2.kind ≠ .claim m) →
        State.RowsResult { s.useSpare g.core n 0 with fresh := s.fresh + 1 } (exec (.regclm h b) s) g cv
          { here with ceil := g.ceil + n, resv := g.resv + n } (fun x => g.ceil ≤ x)) ∧
      ((∀ e ∈ s.groups, e.2.share = none) → s.freeRows g.core < n → ∃ w, w.Of s cv (.regclm h b) h (.claim n) ∧
        State.WaitResult { s with fresh := s.fresh + 1 } (exec (.regclm h b) s) g c
          { here with waits := Tbl.put g.waits s.fresh w }))

/-- R72: REGRD reads the ceiling, the live rows, the rows that the team reserves on the core and the free rows; the rows
that a kindled group still waits for are not yet its own (R225). -/
def Sys2Proof.Claims.RowRead : Prop :=
  ∀ (s : State) (g : Group) (cv : Conv) (h : Hd) (d : Field),
    let c := h.guard.toNat
    let w := fun (n : Nat) => BitVec.ofNat 32 n
    s.Completes g c cv (.regrd h d) h ⟨[], [], [], [], [], regs d 4, 1⟩ false →
    s.UniformResult (exec (.regrd h d) s) g c cv
      [(d.toNat, w g.ceil),
       (d.toNat + 1, w ((List.range 128).countP (fun n => g.threads.any (fun e => (Tbl.get? e.2.v n).isSome)))),
       (d.toNat + 2, w (match g.team with
        | some t => ((s.groupsOn g.core).map (fun e => if e.2.team = some t then e.2.resv else 0)).sum
        | none => g.resv)),
       (d.toNat + 3, w (4096 - ((s.groupsOn g.core).map (fun e =>
        (if e.2.ember then e.2.resv - 32 else e.2.resv) - (e.2.share.elim 0 (·.rows)))).sum))]

/-- R73: DBAR, where nothing earlier of a signer is still to be performed, counts a round and completes when every group
of the launch's teams on the die has executed as many and the SFENCE that follows can complete; otherwise it waits. -/
def Sys2Proof.Claims.DieBarrier : Prop :=
  ∀ (s : State) (g : Group) (cv : Conv) (h : Hd) (l : Launch) (tm : Nat),
    let c := h.guard.toNat
    let here := { g.executed c cv with dbars := g.dbars + 1 }
    let peer := fun (e : Nat × Group) => e.1 ≠ s.cur.g ∧ e.2.lseq = g.lseq ∧ e.2.team.isSome = true ∧
      e.2.core / 96 = g.core / 96
    s.Completes g c cv (.dbar h) h Shape.none false → s.launchOf g = some l → l.rc.dieres = true → g.team = some tm →
    Quiet s cv → (∀ e ∈ s.groups, e.1 = s.cur.g → e.2 = g) →
    ((∀ e ∈ s.groups, peer e → g.dbars + 1 ≤ e.2.dbars) → Fenced s cv →
      (s.advanceGen tm (s.teamCore g)).OnceResult (exec (.dbar h) s) g cv here) ∧
    ((∃ e ∈ s.groups, peer e ∧ e.2.dbars ≤ g.dbars) ∨ ¬ Fenced s cv → ∃ w, w.Of s cv (.dbar h) h .dbar ∧
      State.WaitResult { s with fresh := s.fresh + 1 } (exec (.dbar h) s) g c
        { here with waits := Tbl.put g.waits s.fresh w })

/-- R72, R73: register rows and the die barrier. Where the spec leaves a point open it follows the model's choice or reading: logs 16, 37, 88. -/
def Obligations.RowsAndDieBarrier : Prop := Claims.RowForms ∧ Claims.RowRead ∧ Claims.DieBarrier

/-! ### What a form that executes once raises against its lowest signer (R60) -/

/-- R65, R66, R67, R72 and R73: the faults of these forms, each against the lowest signer alone. Where the spec leaves a point open it follows the model's choice or reading: log 25. -/
def Obligations.OnceFaults : Prop :=
  ∀ (s : State) (g : Group) (cv : Conv) (h : Hd) (d a b : Field),
    let c := h.guard.toNat
    let bad := fun (i : Instr) (sh : Shape) (code detail : Nat) =>
      s.Completes g c cv i h sh false → g.Sound sh.us → s.FaultResult (exec i s) g c cv code 0 detail
    let two : Shape := ⟨[], [a.toNat, b.toNat], [], [], [], [], 1⟩
    (g.team = none ∨ s.barriers g ≤ d.toNat → bad (.barinit h d a b) two 0x01 0 ∧
      bad (.bararr h d) Shape.none 0x01 0 ∧ bad (.barwait h d) Shape.none 0x01 0 ∧ bad (.bararrw h d) Shape.none 0x01 0) ∧
    (g.team = none ∨ s.barriers g ≤ a.toNat → bad (.barrd h d a) ⟨[], [], [], [], [], regs d 4, 1⟩ 0x01 0) ∧
    (256 < (g.rs a.toNat).toNat ∨ ((g.rs a.toNat).toNat = 0 ∧ (g.rs b.toNat).toNat = 0) →
      bad (.barinit h d a b) two 0x01 0) ∧
    ((∃ i, i < 8 ∧ (g.rs a.toNat).toNat.testBit i = true ∧ s.barriers g ≤ 8 * b.toNat + i) →
      bad (.waitany h d a b) ⟨[], [a.toNat], [], [], [], [d.toNat], 1⟩ 0x01 0) ∧
    (g.ceil ≤ b.toNat → bad (.regrel h b) Shape.none 0x01 0) ∧
    (128 < g.ceil + b.toNat → bad (.regclm h b) Shape.none 0x01 0) ∧
    (g.team = none ∨ (∀ l, s.launchOf g = some l → l.rc.dieres = false) → bad (.dbar h) Shape.none 0x11 0) ∧
    (∀ dv, g.conv[d.toNat]? = some dv → d.toNat ≠ c → dv.signed ≠ [] →
      bad (.cseta h d) Shape.none 0x24 (d.toNat + 0x20) ∧
      bad (.csetp h d a) { Shape.none with ps := [a.toNat] } 0x24 (d.toNat + 0x20))

/-! ## Group forms (R100 to R104) -/

namespace Sys2Proof.Claims

/-- What the members have signed with, in ascending index: each member's source lanes and predicate as it would read
them at the slot in which it signed (R100). -/
def Signed (s : State) (g : Group) (cv : Conv) (sh : Shape) (S : List Sig) : Prop :=
  (S.map (·.t)).Pairwise (· < ·) ∧
  ∀ y, y ∈ S ↔ y ∈ cv.signed ∨ ∃ x ∈ s.cur.tids, ∃ th, Tbl.get? g.threads x = some th ∧
    y = th.signature (g.inHandler x) x sh

/-- No member's source lane is poisoned (R100). -/
def Whole (S : List Sig) : Prop := ∀ y ∈ S, y.bad = none

/-- The lane word A of thread u, 0 where u is no member (R101). -/
def laneOf (S : List Sig) (u : Nat) : Word := ((S.find? (·.t = u)).map (·.la)).getD 0

/-- Node(l, i) over the members (R102). -/
def node (f : Word → Word → Word) (S : List Sig) : Nat → Nat → Option Word
  | 0, i => (S.find? (·.t = i)).map (·.la)
  | l + 1, i => match node f S l (2 * i), node f S l (2 * i + 1) with
    | none, y => y
    | x, none => x
    | some x, some y => some (f x y)

/-- The inclusive scan over the first m thread indexes: levels l down to 0 of the tree, from position pos (R102). -/
def scan (f : Word → Word → Word) (S : List Sig) (m : Nat) : List Nat → Nat → Option Word → Option Word
  | [], _, acc => acc
  | l :: r, pos, acc =>
    if m.testBit l then scan f S m r (pos + 2 ^ l) (match acc, node f S l (pos / 2 ^ l) with
      | none, y => y
      | x, none => x
      | some x, some y => some (f x y))
    else scan f S m r pos acc

/-- Op and identity by code (R102). -/
def redOp : Nat → (Word → Word → Word) × Word
  | 0 => (fun x y => x + y, 0)
  | 1 => (fun x y => if x.toInt ≤ y.toInt then x else y, 0x7FFFFFFF)
  | 2 => (fun x y => if x.toInt ≤ y.toInt then y else x, 0x80000000)
  | 3 => (fun x y => if x.toNat ≤ y.toNat then x else y, 0xFFFFFFFF)
  | 4 => (fun x y => if x.toNat ≤ y.toNat then y else x, 0)
  | 5 => (fun x y => x &&& y, 0xFFFFFFFF)
  | 6 => (fun x y => x ||| y, 0)
  | 7 => (fun x y => x ^^^ y, 0)
  | 8 => (fadd, 0)
  | 9 => (fmin, 0x7F800000)
  | _ => (fmax, 0xFF800000)

/-- o is the machine after group form i: its members go on, their tokens one higher, and the results L for their lanes
and U for uniform registers stand in a wait, to be written by its GROUP_FORM_RESULT within 64 cycles (R28, R100). -/
def FormResult (s : State) (g : Group) (c : Nat) (cv : Conv) (i : Instr) (h : Hd) (dead : List Nat) (o : Outcome)
    (L : Tbl Word) (U : Tbl Word) : Prop :=
  ∃ w, w.Of s cv i h (.form (s.now g.core + 64) L U) ∧
    State.LongResult { s with fresh := s.fresh + 1 } o g cv
      { g.executed c cv with waits := Tbl.put g.waits s.fresh w } dead (fun _ r => r)

end Sys2Proof.Claims

/-- R101 and R102: the group forms but GMAXI, each over what its members signed with. -/
def Sys2Proof.Claims.GroupForms : Prop :=
  ∀ (s : State) (g : Group) (cv : Conv) (h : Hd) (d a b : Field) (S : List Sig),
    let c := h.guard.toNat
    let run := fun (i : Instr) (sh : Shape) (dead : List Nat) (L : Tbl Word) (U : Tbl Word) =>
      s.Completes g c cv i h sh true → Signed s g cv sh S → Whole S → g.Sound sh.us →
        FormResult s g c cv i h dead (exec i s) L U
    let other := fun (l : List Field) => (l.filter (· ≠ d)).map (·.toNat)
    let op := redOp (b.toNat % 16)
    run (.gshfl h d a b) ⟨[a.toNat, b.toNat], [], [], [d.toNat], [], [], 1⟩ (other [a, b])
      (S.map (fun y => (y.t, laneOf S (y.lb.toNat % 256)))) [] ∧
    (∃ f : Nat → Word, (∀ j k, j < 8 → k < 32 → (f j).getLsbD k = S.any (fun y => y.t == 32 * j + k && y.pr)) ∧
      run (.gballot h d a) ⟨[], [], [a.toNat], [], [], regs d 8, 1⟩ []
        [] ((List.range 8).map (fun j => (d.toNat + j, f j)))) ∧
    run (.gpref h d a) ⟨[], [], [a.toNat], [d.toNat], [], [], 1⟩ []
      (S.map (fun y => (y.t, BitVec.ofNat 32 (S.countP (fun z => z.pr && decide (z.t < y.t)))))) [] ∧
    run (.gcnt h d a) ⟨[], [], [a.toNat], [], [], [d.toNat], 1⟩ [] [] [(d.toNat, BitVec.ofNat 32 (S.countP (·.pr)))] ∧
    ((Instr.gred h d a b).wf = true →
      run (.gred h d a b) ⟨[a.toNat], [], [], [], [], [d.toNat], 1⟩ [a.toNat] []
        [(d.toNat, (node op.1 S 8 0).getD op.2)]) ∧
    ((Instr.gscan h d a b).wf = true →
      run (.gscan h d a b) ⟨[a.toNat], [], [], [d.toNat], [], [], 1⟩ (other [a])
        (S.map (fun y => (y.t, (scan op.1 S (if b.getLsbD 4 then y.t else y.t + 1) [8, 7, 6, 5, 4, 3, 2, 1, 0] 0
          none).getD op.2))) []) ∧
    run (.gbcast h d a b) ⟨[a.toNat], [b.toNat], [], [], [], [d.toNat], 1⟩ [a.toNat] []
      [(d.toNat, laneOf S ((g.rs b.toNat).toNat % 256))]

/-- R104: GMAXI answers the member that the maximum rule ranks highest, the lower index where two rank alike; a NaN ranks
below every number, f32 numbers rank by value with +0 above -0, and the integer types by value. -/
def Obligations.GroupMaximum : Prop :=
  (∀ (s : State) (g : Group) (cv : Conv) (h : Hd) (d a b : Field) (S : List Sig),
    let c := h.guard.toNat
    let sh : Shape := ⟨[a.toNat], [], [], [], [], regs d 2, 1⟩
    let leaf := fun (y : Sig) => gmaxiLeaf b.toNat y.la
    s.Completes g c cv (.gmaxi h d a b) h sh true → Signed s g cv sh S → Whole S → (∀ x ∈ cv.members, x < 256) →
    ∃ m ∈ S, (∀ y ∈ S, (leaf y).2 < (leaf m).2 ∨ ((leaf y).2 = (leaf m).2 ∧ m.t ≤ y.t)) ∧
      FormResult s g c cv (.gmaxi h d a b) h [a.toNat] (exec (.gmaxi h d a b) s) []
        [(d.toNat, (leaf m).1), (d.toNat + 1, BitVec.ofNat 32 m.t)]) ∧
  (∀ x y : Word, gmaxiLeaf 3 x = (x, (gmaxiLeaf 3 x).2) ∧ gmaxiLeaf 4 x = (x, (gmaxiLeaf 4 x).2) ∧
    ((gmaxiLeaf 3 x).2 < (gmaxiLeaf 3 y).2 ↔ x.toInt < y.toInt) ∧
    ((gmaxiLeaf 4 x).2 < (gmaxiLeaf 4 y).2 ↔ x.toNat < y.toNat)) ∧
  (∀ x y : Word, f32 x = .nan → gmaxiLeaf 0 x = (0x7FC00000, 0) ∧ (f32 y ≠ .nan → 0 < (gmaxiLeaf 0 y).2)) ∧
  (∀ x y : Word, f32 x ≠ .nan → f32 y ≠ .nan → (fcmp x y = some .lt → (gmaxiLeaf 0 x).2 < (gmaxiLeaf 0 y).2)) ∧
  (gmaxiLeaf 0 0x80000000).2 < (gmaxiLeaf 0 0).2

/-- R100: GROUP_FORM_RESULT writes the results of a group form that waits, lowers the tokens of the members that still
live, and ends the wait; the lanes of other threads and every other register stay. -/
def Sys2Proof.Claims.GroupFormResult : Prop :=
  ∀ (s : State) (j w : Nat) (g : Group) (wt : GWait) (h : Hd) (d a b : Field) (due : Nat) (L : Tbl Word) (U : Tbl Word),
    s.grp j = some g → Tbl.get? g.waits w = some wt → wt.kind = .form due L U →
    (L = [] ∨ (U = [] ∧ (wt.i = .gshfl h d a b ∨ wt.i = .gpref h d a ∨ wt.i = .gscan h d a b))) →
    (L.map (·.1)).Nodup → (U.map (·.1)).Nodup → (wt.sigs.map (·.t)).Nodup →
    ∃ t g', exec (.groupFormResult j w) s = .next t ∧ t = { s with groups := t.groups } ∧ t.grp j = some g' ∧
      (∀ k, k ≠ j → t.grp k = s.grp k) ∧ Tbl.get? g'.waits w = none ∧ g'.conv = g.conv ∧
      (∀ n, g'.rs n = (Tbl.get? U n).getD (g.rs n)) ∧
      ∀ x th, Tbl.get? g.threads x = some th → ∃ th', Tbl.get? g'.threads x = some th' ∧
        th'.pc = th.pc ∧ th'.place = th.place ∧ th'.p = th.p ∧
        (∀ v, Tbl.get? L x = some v → th'.rd (g.inHandler x) d.toNat = v) ∧
        (∀ n, n ≠ d.toNat ∨ Tbl.get? L x = none → th'.rd (g.inHandler x) n = th.rd (g.inHandler x) n) ∧
        (th'.tok = if x ∈ wt.sigs.map (·.t) then th.tok.set wt.at_.tok (th.token wt.at_.tok - 1) else th.tok)

/-- R100, R101, R102: what a group form takes, and the step that writes its result. Where the spec leaves a point open it follows the model's choice or reading: logs 18, 26, 100. -/
def Obligations.GroupFormValues : Prop := Claims.GroupForms ∧ Claims.GroupFormResult

/-! ## Memory forms (R105 to R123) -/

namespace Sys2Proof.Claims

/-- The effective address from a base and an index (R106): modulo 2 to the 64, in the scratchpad modulo 2 to the 32. -/
def address (acc : Word) (base index : Nat) : Nat :=
  ((((base + index : Nat) : Int) + (Access.off acc).toInt) % (if Access.sp acc then 2 ^ 32 else 2 ^ 64)).toNat
/-- The effective address of LD, ST, the atomics, SEAL, UNSEAL and PREF (R106). -/
def laneAddress (hm : Bool) (th : Thread) (a : Field) (acc : Word) : Nat :=
  address acc (if Access.sp acc then (th.rd hm a.toNat).toNat else th.rdN hm a.toNat 2) 0
/-- The effective address of LDX and STX (R106). -/
def indexAddress (g : Group) (hm : Bool) (th : Thread) (a b : Field) (acc : Word) : Nat :=
  address acc (if Access.sp acc then (g.rs a.toNat).toNat else g.rsN a.toNat 2) (th.rd hm b.toNat).toNat
/-- The descriptor address of a ring form or PUTQ (R106). -/
def ringAddress (g : Group) (a : Field) (acc : Word) : Nat :=
  ((((g.rsN a.toNat 2 : Nat) : Int) + (Access.off acc).toInt) % 2 ^ 64).toNat

/-- The translation of va that core c holds in its own TLB, or else its die in the shared one (R322). -/
def held (s : State) (c va : Nat) : Option TlbEntry := (tlbFind (s.core c).tlb va).or (tlbFind (s.die (c / 96)).tlb va)

/-- Core c holds a translation e of va that allows the access (R322, R324): within 57 bits, with the permission, from the
owner die of an owner-local page, not sealed against a write, its memory not lost. -/
structure Mapped (s : State) (c va : Nat) (k : Acc) (e : TlbEntry) : Prop where
  low : va < 2 ^ 57
  hit : held s c va = some e
  reads : k = .read ∨ k = .atomic → e.r = true
  writes : k = .write ∨ k = .atomic → e.w = true
  runs : k = .fetch → e.x = true
  own : e.home ≠ none → e.ol = true → c / 96 = e.owner
  open_ : k = .write ∨ k = .atomic → s.sealedPage va = false
  kept : s.stackLost (e.pa + (va - e.va)) = false

/-- An access of the word's width at ea is aligned and reaches the scratchpad allocation, or memory through e (R107). -/
def Reaches (s : State) (g : Group) (acc : Word) (ea : Nat) (k : Acc) (e : Option TlbEntry) : Prop :=
  ea % 2 ^ Access.width acc = 0 ∧
  ((Access.sp acc = true ∧ ea + 2 ^ Access.width acc ≤ s.scratchSize g ∧ e = none) ∨
   (Access.sp acc = false ∧ ∃ m, e = some m ∧ Mapped s g.core ea k m))

/-- The request that thread x sends for a word with access word acc: its kind, address, size, operands, destination and
scope, its order and attributes, and its number among the thread's write-carrying requests (R108, R109, R255). -/
def request (s : State) (g : Group) (x : Nat) (th : Thread) (h : Hd) (acc : Word) (word : Nat) (kind : ReqKind) (sp : Bool)
    (e : Option TlbEntry) (ea size m m2 d scope : Nat) : Req where
  g := s.cur.g
  t := x
  lseq := g.lseq
  team := g.team
  core := g.core
  kind := kind
  sp := sp
  ea := ea
  pa := match e with
    | some k => k.pa + (ea - k.va)
    | none => 0
  size := size
  m := m
  m2 := m2
  d := d
  order := Access.order acc
  scope := scope
  ms := Access.ms acc || (match e with
    | some k => k.ms
    | none => false)
  nt := Access.nt acc
  uc := match e with
    | some k => k.uc
    | none => false
  far := false
  accepted := false
  lost := false
  nth := th.words + 1
  tok := s.cur.at_.tok
  seq := match kind with
    | .load | .fence | .sfence | .pref | .seal | .unseal => 0
    | _ => th.seq + 1
  died := []
  word := word
  ord := 0
  stage := .issued
  at_ := s.cur.at_
  hd := h

/-- o is the machine after thread x, alone in its packet, has sent request r under number id: the request stands in the
table, and its word beside it with the threads for which it has been applied; the thread's token stands one higher, and it
goes on at the next word, or, where blocks says so, waits in the word; the request goes to its home where its die cannot
serve it; memory and every other thread, group and piece of
state are as they were, packets on the fabric, the counters of the cores and the order of use in the TLBs apart (R28, R109,
R214, R253, R322, R336, R368). -/
def Sent (s : State) (g : Group) (x : Nat) (th : Thread) (sh : Shape) (blocks : Bool) (id : Nat) (r : Req) (o : Outcome) :
    Prop :=
  ∃ t g' th' dd, o = .next t ∧
    t = { s with reqs := t.reqs, words := t.words, fresh := t.fresh, groups := t.groups, cores := t.cores, dies := t.dies,
                 packets := t.packets } ∧
    t.words = Tbl.put s.words r.word (if blocks then [] else [x]) ∧
    (∀ y, { t.die y with tlb := (s.die y).tlb } = s.die y) ∧
    (∀ k, Tbl.get? t.reqs k = if k = id then some { r with died := dd, far := t.needsHome r } else Tbl.get? s.reqs k) ∧
    (∀ j, j ≠ s.cur.g → t.grp j = s.grp j) ∧ (∀ k, { t.core k with counters := (s.core k).counters, tlb := (s.core k).tlb } = s.core k) ∧
    t.grp s.cur.g = some g' ∧ g.SameBut g' ∧ (∀ y, y ≠ x → Tbl.get? g'.threads y = Tbl.get? g.threads y) ∧
    Tbl.get? g'.threads x = some th' ∧ th'.tok = th.tok.set s.cur.at_.tok (th.token s.cur.at_.tok + 1) ∧
    th'.seq = max th.seq r.seq ∧ th'.rng = th.rng ∧
    (∀ n, n < 7 → th'.pred (g.inHandler x) n = th.pred (g.inHandler x) n) ∧
    if blocks then th'.pc = th.pc ∧ (∃ w, th'.place = .waiting (.request id) s.cur.at_ r.hd w sh.dead) ∧
        (∀ n, th'.lane (g.inHandler x) n = th.lane (g.inHandler x) n)
      else th'.pc = s.cur.at_.next ∧ th'.place = .ready ∧
        (∀ n, th'.lane (g.inHandler x) n =
          if s.cur.at_.dead = true ∧ n ∈ sh.dead then 0 else th.lane (g.inHandler x) n)

end Sys2Proof.Claims

/-- R106 to R110: a thread alone at LD, LDX, ST or STX, its address aligned and reached, sends one load or store of the
word's width; store data is the low bits of the register, pair or quad. -/
def Sys2Proof.Claims.LoadsAndStoresIssue : Prop :=
  ∀ (s : State) (g : Group) (x : Nat) (th : Thread) (h : Hd) (d a b : Field) (acc : Word) (e : Option TlbEntry),
    let hm := g.inHandler x
    let sp := Access.sp acc
    let n := 2 ^ Access.width acc
    let regs' := widthRegs acc
    let va := laneAddress hm th a acc
    let xa := indexAddress g hm th a b acc
    let data := th.rdN hm d.toNat regs' % 2 ^ (8 * n)
    let req := fun (kind : ReqKind) (ea m d : Nat) =>
      request s g x th h acc s.fresh kind sp e ea n m 0 d (Access.scope acc)
    let go := fun (i : Instr) (sh : Shape) (k : Acc) (ea : Nat) (r : Req) => s.Alone g x th h sh →
      Reaches s g acc ea k e → Sent s g x th sh false (s.fresh + 1) r (exec i s)
    let vb := if sp then [a.toNat] else regs a 2
    go (.ld h d a acc) { Shape.none with vs := vb, vd := regs d regs' } .read va (req .load va 0 d.toNat) ∧
    go (.ldx h d a b acc) { Shape.none with vs := [b.toNat], us := vb, vd := regs d regs' } .read xa
      (req .load xa 0 d.toNat) ∧
    go (.st h d a acc) { Shape.none with vs := regs d regs' ++ vb } .write va (req .store va data 0) ∧
    go (.stx h d a b acc) { Shape.none with vs := regs d regs' ++ [b.toNat], us := vb } .write xa (req .store xa data 0)

/-- R111 to R113: a thread alone at an atomic sends one read-modify-write with its operand; ATOMCAS sends the compared
and the new value. -/
def Sys2Proof.Claims.AtomicsIssue : Prop :=
  ∀ (s : State) (g : Group) (x : Nat) (th : Thread) (h : Hd) (d a b : Field) (acc : Word) (e : Option TlbEntry),
    let hm := g.inHandler x
    let n := widthRegs acc
    let ea := laneAddress hm th a acc
    let vb := if Access.sp acc then [a.toNat] else regs a 2
    let req := fun (op : AtomOp) (m m2 : Nat) => request s g x th h acc s.fresh (.atomic op) (Access.sp acc) e ea
      (2 ^ Access.width acc) m m2 d.toNat (Access.scope acc)
    let one : Shape := { Shape.none with vs := vb ++ regs b n, vd := regs d n }
    let two : Shape := { Shape.none with vs := vb ++ regs b (2 * n), vd := regs d n }
    Reaches s g acc ea .atomic e →
    (s.Alone g x th h one → ∀ i ∈ ([(.atomadd h d a b acc, .add), (.atomfadd h d a b acc, .fadd),
        (.atommin h d a b acc, .min), (.atommax h d a b acc, .max), (.atomminn h d a b acc, .minn),
        (.atommaxn h d a b acc, .maxn), (.atomand h d a b acc, .and), (.atomor h d a b acc, .or),
        (.atomxor h d a b acc, .xor), (.atomxchg h d a b acc, .xchg)] : List (Instr × AtomOp)),
      Sent s g x th one false (s.fresh + 1) (req i.2 (th.rdN hm b.toNat n) 0) (exec i.1 s)) ∧
    (s.Alone g x th h two →
      Sent s g x th two false (s.fresh + 1) (req .cas (th.rdN hm b.toNat n) (th.rdN hm (b.toNat + n) n))
        (exec (.atomcas h d a b acc) s))

/-- R106 to R113: a load, store or atomic sends its request. Where the spec leaves a point open it follows the model's choice or reading: log 18. -/
def Obligations.AccessesIssue : Prop := Claims.LoadsAndStoresIssue ∧ Claims.AtomicsIssue

/-- R114 to R118: FENCE and SFENCE send a fence and go on; SEAL and UNSEAL, with the right and a region of whole pages,
send the region and wait; a region of no length completes; PREF sends its line, or a request for none where the
translation would fault or wait, and goes on. -/
def Sys2Proof.Claims.FencesSealsPrefetch : Prop :=
  ∀ (s : State) (g : Group) (x : Nat) (th : Thread) (h : Hd) (d a b : Field) (acc : Word) (e : TlbEntry),
    let hm := g.inHandler x
    let ea := laneAddress hm th a acc
    let len := th.rdN hm b.toNat 2
    let region : Shape := { Shape.none with vs := regs a 2 ++ regs b 2 }
    let line : Shape := { Shape.none with vs := regs a 2 }
    (s.Alone g x th h Shape.none →
      Sent s g x th Shape.none false (s.fresh + 1)
        (request s g x th h acc s.fresh .fence false none 0 1 0 0 0 (Access.scope acc)) (exec (.fence h acc) s) ∧
      Sent s g x th Shape.none false (s.fresh + 1)
        (request s g x th h acc s.fresh .sfence false none 0 1 0 0 0 0) (exec (.sfence h acc) s)) ∧
    (s.Alone g x th h region → Access.sp acc = false → s.right g 1 = true → ea % 4096 = 0 → len % 4096 = 0 →
      len ≤ 2 ^ 48 →
      (len ≠ 0 → ∀ i ∈ ([(.seal h a b acc, .seal), (.unseal h a b acc, .unseal)] : List (Instr × ReqKind)),
        Sent s g x th region true (s.fresh + 1) (request s g x th h acc s.fresh i.2 false none ea 1 0 len 0 4) (exec i.1 s)) ∧
      (len = 0 → (∀ r ∈ s.reqs, r.2.word ≠ s.fresh) → ∀ i ∈ ([.seal h a b acc, .unseal h a b acc] : List Instr),
        State.VectorResult { s with fresh := s.fresh + 1 } (exec i s) g h region false (fun _ _ => []) (fun _ _ => [])
          (fun _ t => t.rng))) ∧
    (s.Alone g x th h line → Access.sp acc = false →
      (Mapped s g.core ea .read e → Sent s g x th line false (s.fresh + 1)
        (request s g x th h acc s.fresh .pref false (some e) ea 1 0 0 d.toNat 0) (exec (.pref h d a acc) s)) ∧
      ((∀ f p k, (State.translate { s with fresh := f } g.core (BitVec.ofNat 64 ea) .read).2 ≠ .ok p k) →
        Sent s g x th line false (s.fresh + 1)
          (request s g x th h acc s.fresh .pref false none ea 0 0 0 d.toNat 0) (exec (.pref h d a acc) s)))

/-- R119 to R122: a thread alone at a ring form or PUTQ, its descriptor aligned to 128 bytes and mapped, sends the form to
the descriptor's home and waits in the word until it completes or faults. -/
def Sys2Proof.Claims.RingFormsIssue : Prop :=
  ∀ (s : State) (g : Group) (x : Nat) (th : Thread) (h : Hd) (d a b : Field) (acc : Word) (e : TlbEntry),
    let hm := g.inHandler x
    let ea := ringAddress g a acc
    let count := (th.rd hm b.toNat).toNat
    let go := fun (i : Instr) (kind : ReqKind) (k : Acc) (sh : Shape) (m2 dest : Nat) =>
      s.Alone g x th h sh → ea % 128 = 0 → Mapped s g.core ea k e →
      Sent s g x th sh true (s.fresh + 1)
        (request s g x th h acc s.fresh kind false (some e) ea 128 count m2 dest (Access.scope acc)) (exec i s)
    go (.rclaim h d a b acc) .rclaim .atomic { Shape.none with vs := [b.toNat], us := regs a 2, vd := regs d 2 } 0
      d.toNat ∧
    go (.rcommit h d a b acc) .rcommit .atomic { Shape.none with vs := regs d 2 ++ [b.toNat], us := regs a 2 }
      (th.rdN hm d.toNat 2) 0 ∧
    go (.rawait h d a b acc) .rawait .read { Shape.none with vs := [b.toNat], us := regs a 2, vd := regs d 2 } 0
      d.toNat ∧
    go (.rretire h a b acc) .rretire .atomic { Shape.none with vs := [b.toNat], us := regs a 2 } 0 0 ∧
    (0 < count → count ≤ 32768 → (th.rd hm d.toNat).toNat + count ≤ s.scratchSize g →
      go (.putq h d a b acc) .putq .atomic { Shape.none with vs := [d.toNat, b.toNat], us := regs a 2 }
        (th.rd hm d.toNat).toNat 0)

/-- R114 to R122: fences, seals, prefetch and the ring forms send their requests. Where the spec leaves a point open it follows the model's choice or reading: logs 16, 44, 45, 101. -/
def Obligations.FencesAndRingsIssue : Prop := Claims.FencesSealsPrefetch ∧ Claims.RingFormsIssue

/-! ## Control forms (R31 to R33, R74 to R82) -/

namespace Sys2Proof.Claims

/-- o is the machine after thread x, alone in its packet, has completed a word that makes of the machine B: it goes on at
pc, it holds the lanes V, a source that dies with the word holds zero, and every other lane, predicate, thread, group and
piece of state is as B has it, the counters of the cores apart; the group is G but for its threads. -/
def One (s B : State) (G g : Group) (x : Nat) (th : Thread) (sh : Shape) (pc : Pc) (V : List (Nat × Word)) (o : Outcome) :
    Prop :=
  ∃ t g' th', o = .next t ∧ B.Beside t s.cur.g ∧ t.grp s.cur.g = some g' ∧ G.SameBut g' ∧
    (∀ y, y ≠ x → Tbl.get? g'.threads y = Tbl.get? g.threads y) ∧ Tbl.get? g'.threads x = some th' ∧
    th'.pc = pc ∧ th'.place = .ready ∧ th'.rng = th.rng ∧ th.Keeps th' ∧
    (∀ n, th'.lane (g.inHandler x) n = if s.cur.at_.dead = true ∧ n ∈ sh.dead then 0
      else (Tbl.get? V n).getD (th.lane (g.inHandler x) n)) ∧
    ∀ n, n < 7 → th'.pred (g.inHandler x) n = th.pred (g.inHandler x) n

/-- o is the machine, but for what B has changed, after thread x, alone in its packet, has raised a fault at the present
word: one record more, with the number of its request, the thread faulted at the word, at most one more packet of the group
to issue (R34, R255, R340). -/
def RaisesSeq (s B : State) (g : Group) (x code addr detail seq : Nat) (o : Outcome) : Prop :=
  ∃ t, o = .next t ∧ B.Beside t s.cur.g ∧
    t.grp s.cur.g = some { g with
      threads := Tbl.modify g.threads x (fun th => { th with place := .faulted, pc := s.cur.at_.pc })
      faults := g.faults ++ [{ FaultRec.make code x s.cur.at_ addr detail 0 seq with
        inh := g.handler.isSome, core := g.core % 96 + g.core / 96 % 4 * 2 ^ 7 + g.core / 384 * 2 ^ 16
        nth := (Tbl.get? g.threads x).elim 0 (·.words + 1) }]
      faultAt := if g.stop = .none then s.ticks else g.faultAt
      stop := if g.stop = .none then .last else g.stop }

/-- The same for a fault of no write-carrying request. -/
def Raises (s B : State) (g : Group) (x code addr detail : Nat) (o : Outcome) : Prop :=
  RaisesSeq s B g x code addr detail 0 o

end Sys2Proof.Claims

/-- R75 and R14: BRA continues at its target, which must be a multiple of 4; CALL checks a call pad, then writes the
offset after its clause and transfers; RET checks a return-point pad at the link address. -/
def Sys2Proof.Claims.Transfers : Prop :=
  ∀ (s : State) (g : Group) (x : Nat) (th : Thread) (h : Hd) (d a : Field) (lit : Word),
    let sc : Shape := { Shape.none with vd := [d.toNat] }
    let sr : Shape := { Shape.none with vs := [a.toNat] }
    let link := th.rd (g.inHandler x) a.toNat
    let callPad := s.checkPad s.cur.g g.core (s.codeBase g) lit 1 none
    let retPad := s.checkPad s.cur.g g.core (s.codeBase g) link 0 (some 0)
    (s.Alone g x th h Shape.none →
      (lit.toNat % 4 = 0 → One s s g g x th Shape.none ⟨lit, 0⟩ [] (exec (.bra h lit) s)) ∧
      (lit.toNat % 4 ≠ 0 → Raises s s g x 0x06 lit.toNat 0 (exec (.bra h lit) s))) ∧
    (s.Alone g x th h sc →
      (callPad.2 = .ok → One s callPad.1 g g x th sc ⟨lit, 0⟩ [(d.toNat, s.cur.at_.after)] (exec (.call h d lit) s)) ∧
      (∀ c k n, callPad.2 = .bad c k n → Raises s callPad.1 g x c k n (exec (.call h d lit) s))) ∧
    (s.Alone g x th h sr →
      (retPad.2 = .ok → One s retPad.1 g g x th sr ⟨link, 0⟩ [] (exec (.ret h a) s)) ∧
      (∀ c k n, retPad.2 = .bad c k n → Raises s retPad.1 g x c k n (exec (.ret h a) s)))

/-- R33: JTAB reads the count and label of its table, then entry I, and transfers through a jump pad of that label; a
malformed table word or an index past the count raises 0x04, the index in the detail. -/
def Sys2Proof.Claims.JumpTable : Prop :=
  ∀ (s : State) (g : Group) (x : Nat) (th : Thread) (h : Hd) (a : Field) (lit w0 target : Word),
    let sh : Shape := { Shape.none with vs := [a.toNat] }
    let index := (th.rd (g.inHandler x) a.toNat).toNat
    let first := s.fetch s.cur.g g.core (s.codeBase g) lit.toNat
    let entry := first.1.fetch s.cur.g g.core (s.codeBase g) (lit.toNat + 4 * (index + 1))
    let count := if w0.toNat % 2 ^ 12 = 0 then 4096 else w0.toNat % 2 ^ 12
    let label := w0.toNat / 2 ^ 20
    let pad := entry.1.checkPad s.cur.g g.core (s.codeBase g) target 0 (some label)
    let formed := w0.toNat / 2 ^ 12 % 2 ^ 8 = 0 ∧ label ≠ 0
    s.Alone g x th h sh → first.2 = .word w0 →
    (formed → index < count → entry.2 = .word target → pad.2 = .ok →
      One s pad.1 g g x th sh ⟨target, 0⟩ [] (exec (.jtab h a lit) s)) ∧
    (formed → count ≤ index → Raises s first.1 g x 0x04 lit.toNat index (exec (.jtab h a lit) s)) ∧
    (¬ formed → Raises s first.1 g x 0x04 lit.toNat 0 (exec (.jtab h a lit) s))

/-- R14, R33, R75: branches, calls, returns and jump tables. Where the spec leaves a point open it follows the model's choice or reading: logs 43, 88. -/
def Obligations.TransfersOfControl : Prop := Claims.Transfers ∧ Claims.JumpTable

/-- R31, R82: NOP and LPAD change nothing; TRAP and BKPT raise 0x50 and 0x51 with their code, to resume at the next word;
YIELD marks the group where a ready group waits in the quadrant. -/
def Obligations.PadNopTrapYield : Prop :=
  ∀ (s : State) (g : Group) (h : Hd),
    (s.Ready g h Shape.none false → ∀ (k : BitVec 2) (l : BitVec 12), ∀ i ∈ ([.nop h, .lpad h k l] : List Instr),
      s.VectorResult (exec i s) g h Shape.none false (fun _ _ => []) (fun _ _ => []) (fun _ t => t.rng)) ∧
    ∀ x th, s.Alone g x th h Shape.none →
      (∀ code : BitVec 21, Raises s s g x 0x50 0 code.toNat (exec (.trap h code) s) ∧
        Raises s s g x 0x51 0 code.toNat (exec (.bkpt h code) s) ∧
        (FaultRec.make 0x50 x s.cur.at_ 0 code.toNat 0 0).resume = s.cur.at_.next ∧
        (FaultRec.make 0x51 x s.cur.at_ 0 code.toNat 0 0).resume = s.cur.at_.next) ∧
      One s s { g with yielded := g.yielded || (s.nextPending g.core g.quad).isSome } g x th Shape.none s.cur.at_.next []
        (exec (.yield h) s)

/-- R76, R77: SPAWN and SPAWNB check a spawn pad and a join address that is a multiple of 8, then make one record, with
the payload and no more, and wait; a record that its hash sends to another package is released at rack scope first. Where the spec leaves a point open it follows the model's choice or reading: logs 16, 50, 101. -/
def Obligations.Spawning : Prop :=
  ∀ (s : State) (g : Group) (x : Nat) (th : Thread) (h : Hd) (ps n : BitVec 3) (vp sj : Field) (hh : Bool) (lit : Word),
    let hm := g.inHandler x
    let pad := s.checkPad s.cur.g g.core (s.codeBase g) lit 2 none
    let j := g.rsN sj.toNat 2
    let hash := (th.rd hm (vp.toNat + n.toNat)).toNat
    let far := hh = true ∧ hash % (8 * s.npkg) / 8 ≠ g.core / 384
    let sh := fun (status : List Nat) => ({ Shape.none with
      vs := (List.range (n.toNat + if hh then 1 else 0)).map (vp.toNat + ·)
      us := [sj.toNat, sj.toNat + 1]
      pd := status } : Shape)
    let made := fun (status : Option Nat) (i : Instr) =>
      ∃ t g' th', exec i s = .next t ∧
        t = { s with
          dies := t.dies, walks := t.walks, recs := t.recs, fresh := t.fresh, groups := t.groups, cores := t.cores,
          packets := t.packets, passed := t.passed } ∧
        t.dies = pad.1.dies ∧ (∀ k, k ≠ s.cur.g → t.grp k = s.grp k) ∧ t.grp s.cur.g = some g' ∧
        { g with releasing := if far then g.releasing.filter (· ≠ x) else g.releasing }.SameBut g' ∧
        (∀ y, y ≠ x → Tbl.get? g'.threads y = Tbl.get? g.threads y) ∧ Tbl.get? g'.threads x = some th' ∧
        th'.pc = th.pc ∧ (∀ m, th'.lane hm m = th.lane hm m) ∧
        ∃ id r w, th'.place = .waiting (.spawn id) s.cur.at_ h w (sh status.toList).dead ∧
          (∀ k, Tbl.get? t.recs k = if k = id then some r else Tbl.get? s.recs k) ∧
          r.lseq = g.lseq ∧ r.entry = lit ∧ r.join = BitVec.ofNat 64 j ∧ r.n = n.toNat ∧ r.hashed = hh ∧
          r.srcG = s.cur.g ∧ r.srcT = x ∧ r.srcCore = g.core ∧ r.status = status ∧ r.place = .routing ∧
          r.prio = (s.launchOf g).elim 0 (·.rc.prio) ∧ r.payload.length = 4 ∧
          (∀ k, k < 4 → r.payload.getD k 0 = if k < n.toNat then th.rd hm (vp.toNat + k) else 0) ∧
          (hh = true → r.hash.toNat = hash ∧ r.home = hash % (8 * s.npkg) ∧ r.core = hash / (8 * s.npkg) % 96)
    pad.2 = .ok → Quiet s ⟨[x], [], none⟩ → (far → s.remoteLines (g.core / 96) = [] ∧ s.backOut (g.core / 96) = false) →
    (s.Alone g x th h (sh [ps.toNat]) →
      (j % 8 = 0 → made (some ps.toNat) (.spawn h ps n vp sj hh lit)) ∧
      (j % 8 ≠ 0 → Raises s pad.1 g x 0x06 0 0 (exec (.spawn h ps n vp sj hh lit) s))) ∧
    (s.Alone g x th h (sh []) →
      (j % 8 = 0 → made none (.spawnb h n vp sj hh lit)) ∧
      (j % 8 ≠ 0 → Raises s pad.1 g x 0x06 0 0 (exec (.spawnb h n vp sj hh lit) s)))

/-- R78, R79: EXIT, with the token counters zero, ends the thread: it leaves every convergence register; the last thread
of a group ends the group, and the words it has issued complete (R347). EXITJ without a join counter is EXIT. With one, it
decrements the counter first. With a token outstanding the thread waits in the word. -/
def Sys2Proof.Claims.Exits : Prop :=
  ∀ (s : State) (g : Group) (x : Nat) (th : Thread) (h : Hd),
    let joined := s.joinAdd g x th.join.toNat
    let gone := fun (B : State) (o : Outcome) =>
      ((∃ y, y ≠ x ∧ (Tbl.get? g.threads y).isSome = true) → g.handler = none → (∀ cv ∈ g.conv, cv.bound = none) →
        ∃ t g', o = .next t ∧ B.Beside t s.cur.g ∧ t.grp s.cur.g = some g' ∧
          g' = { g with
            threads := g'.threads, retired := g'.retired, exitPc := s.cur.at_.pc,
            conv := g.conv.map (fun c =>
              { c with members := c.members.filter (· ≠ x), signed := c.signed.filter (·.t ≠ x) }) } ∧
          (∀ y, Tbl.get? g'.threads y = if y = x then none else Tbl.get? g.threads y)) ∧
      ((∀ e ∈ g.threads, e.1 = x) → ∃ t, o = .next t ∧ t.grp s.cur.g = none ∧ t.mem = B.mem ∧
        (∀ k, k ≠ s.cur.g → t.grp k = B.grp k) ∧ (∀ e ∈ t.reqs, e.2.g = s.cur.g → e.2.waits = false) ∧ (∀ e ∈ t.mops, e.2.g ≠ s.cur.g) ∧
        (t.core g.core).accFree = (B.core g.core).accFree ++ g.acc.map (·.2))
    s.Alone g x th h Shape.none →
    ((∀ n ∈ th.tok, n = 0) →
      gone s (exec (.exit h) s) ∧
      (g.team.isSome = true ∨ th.join = 0 → gone s (exec (.exitj h) s)) ∧
      (g.team = none → th.join ≠ 0 → joined.2 = some none → (∀ k, joined.1.grp k = s.grp k) → joined.1.cur = s.cur →
        gone joined.1 (exec (.exitj h) s)) ∧
      (∀ c k, g.team = none → th.join ≠ 0 → joined.2 = some (some (c, k)) →
        (∀ k, joined.1.grp k = s.grp k) → joined.1.cur = s.cur →
        RaisesSeq s joined.1 g x c th.join.toNat k (th.seq + 1) (exec (.exitj h) s))) ∧
    ((∃ n ∈ th.tok, n ≠ 0) → ∀ e ∈ ([(.exit h, false), (.exitj h, true)] : List (Instr × Bool)),
      ∃ t g', exec e.1 s = .next t ∧ s.Beside t s.cur.g ∧ t.grp s.cur.g = some g' ∧ g.SameBut g' ∧
        Tbl.get? g'.threads x = some { th with place := .waiting (.exit e.2) s.cur.at_ h ⟨0, 0⟩ [] } ∧
        (∀ y, y ≠ x → Tbl.get? g'.threads y = Tbl.get? g.threads y))

/-- R80, R81: JOINW completes where the counter reads zero and waits where it does not; CJOIN, where the packet completes
the signing of its register, executes nothing, and every signer goes on. -/
def Sys2Proof.Claims.Joins : Prop :=
  ∀ (s : State) (g : Group) (x : Nat) (th : Thread) (h : Hd) (d a : Field) (cv : Conv),
    let sh : Shape := { Shape.none with us := regs a 2 }
    let j := g.rsN a.toNat 2
    let read := s.readJoin s.cur.g g x j
    (s.Alone g x th h sh →
      (j % 8 ≠ 0 → Raises s s g x 0x06 0 0 (exec (.joinw h a) s)) ∧
      (j % 8 = 0 → read.2 = .zero → (∀ k, read.1.grp k = s.grp k) → read.1.cur = s.cur →
        One s (read.1.acquireAt g.core 4) g g x th sh s.cur.at_.next [] (exec (.joinw h a) s)) ∧
      (j % 8 = 0 → read.2 = .more → (∀ k, read.1.grp k = s.grp k) → read.1.cur = s.cur →
        ∃ t g' w, exec (.joinw h a) s = .next t ∧ read.1.Beside t s.cur.g ∧ t.grp s.cur.g = some g' ∧ g.SameBut g' ∧
          (∀ y, y ≠ x → Tbl.get? g'.threads y = Tbl.get? g.threads y) ∧
          Tbl.get? g'.threads x = some { th with place := .waiting (.join (BitVec.ofNat 64 j)) s.cur.at_ h w [] })) ∧
    (d.toNat < 8 → s.Completes g d.toNat cv (.cjoin h d) { h with guard := BitVec.ofNat 3 d.toNat } Shape.none false →
      (∀ y ∈ s.cur.tids, ∃ ty, s.front h Shape.none false y = .run g ty) →
      s.OnceResult (exec (.cjoin h d) s) g cv (g.executed d.toNat cv))

/-- R78 to R81: the ends of threads, join counters and CJOIN. Where the spec leaves a point open it follows the model's choice or reading: logs 16, 47, 90, 101. -/
def Obligations.ExitsAndJoins : Prop := Claims.Exits ∧ Claims.Joins

/-! ## System forms (R151 to R160) -/

/-- R116, R151: TRAPRET, FLTRD, TLBINV, CINV and ECCRD raise 0x11 in a thread that has no system right and runs no handler,
and SEAL and UNSEAL in one without the seal right, whatever else the word would meet; TRAPRET raises it in a thread that
runs no handler (R153). -/
def Sys2Proof.Claims.SystemRight : Prop :=
  ∀ (s : State) (g : Group) (x : Nat) (th : Thread) (h : Hd) (d a b : Field) (acc : Word),
    (g.inHandler x = false → s.Alone g x th h Shape.none → Raises s s g x 0x11 0 0 (exec (.trapret h) s)) ∧
    (s.grp s.cur.g = some g → s.cur.tids = [x] → Tbl.get? g.threads x = some th → th.pr h.guard.toNat = true →
      (s.right g 2 = false → g.handler = none →
        ∀ i ∈ ([.trapret h, .fltrd h d a, .tlbinv h a b, .cinv h d a b, .eccrd h d a] : List Instr),
          Raises s s g x 0x11 0 0 (exec i s)) ∧
      (s.right g 1 = false →
        ∀ i ∈ ([.seal h a b acc, .unseal h a b acc] : List Instr), Raises s s g x 0x11 0 0 (exec i s)))

/-- R154, R157 to R160: the forms that read the device's state, each with the right it needs. -/
def Sys2Proof.Claims.SystemReads : Prop :=
  ∀ (s : State) (g : Group) (x : Nat) (th : Thread) (h : Hd) (d a b : Field),
    let hm := g.inHandler x
    let v := th.rd hm a.toNat
    let may := s.right g 2 = true ∨ hm = true
    let p := v.toNat / 2 ^ 8 % 2 ^ 8
    let k := s.stack (8 * p + v.toNat % 8)
    let next := s.cur.at_.next
    let two : Shape := { Shape.none with vd := regs d 2 }
    let one : Shape := { Shape.none with vs := [a.toNat], vd := [d.toNat] }
    let out : Shape := { Shape.none with vs := [a.toNat], vd := regs d 2 }
    let four : Shape := { Shape.none with vs := [a.toNat], vd := regs d 4 }
    (s.Alone g x th h two →
      One s s g g x th two next (pair d (if b.toNat = 15 then g.retired else s.counter g.core b.toNat))
        (exec (.perfrd h d b) s) ∧
      One s s g g x th two next (pair d (s.counter g.core 0)) (exec (.cycrd h d) s)) ∧
    (s.Alone g x th h out →
      One s s g g x th out next [(d.toNat, if p < s.npkg then BitVec.ofNat 32 (k.owner + 2 ^ 8 * (match k.st with
            | .steady => 0
            | .closing => 1
            | .draining => 2
            | .switching => 3)) else 0xFFFFFFFF),
          (d.toNat + 1, if p < s.npkg then k.hseq else 0xFFFFFFFF)] (exec (.stkrd h d a) s)) ∧
    (s.Alone g x th h one → may →
      One s s g g x th one next [(d.toNat, match g.readRecord x with
        | none => 0
        | some r => (s.groupRecord g none r).getD (v.toNat % 16) 0)] (exec (.fltrd h d a) s)) ∧
    (s.Alone g x th h four → may →
      let e := (s.core g.core).ecc.getD (v.toNat % 64) [0, 0, 0, 0]
      e.length = 4 →
      One s (if v.getLsbD 31 then s.onCore g.core (fun c => { c with ecc := [] }) else s) g g x th four next
        ((List.range 4).map (fun n => (d.toNat + n, e.getD n 0))) (exec (.eccrd h d a) s))

/-- R151, R153, R154, R157 to R160: the right of the system forms, and what the reads answer. -/
def Obligations.SystemForms : Prop := Claims.SystemRight ∧ Claims.SystemReads

/-- R152, R155, R156: TLBINV drops the translations that its extent selects, in the dies and in their cores; CINV, its
thread's earlier words performed, acts on each line of its range in turn, and on none where the length is 0. An extent
above 3 and an operation above 2 raise 0x01. Where the spec leaves a point open it follows the model's choice or reading: log 42. -/
def Obligations.Invalidation : Prop :=
  ∀ (s : State) (g : Group) (x : Nat) (th : Thread) (h : Hd) (d a b : Field),
    let hm := g.inHandler x
    let va := th.rdN hm a.toNat 2
    let may := s.right g 2 = true ∨ hm = true
    let st : Shape := { Shape.none with vs := regs a 2 }
    let sc : Shape := { Shape.none with vs := regs a 2 ++ [b.toNat] }
    let len := (th.rd hm b.toNat).toNat
    let lines := s.cacheLines (.thread s.cur.g x) g.core d.toNat ((va % 64 + len + 63) / 64) (va / 64 * 64)
    let page := va / 4096 * 4096
    let left := fun (y : Nat) (l : List TlbEntry) =>
      if b.toNat % 2 = 0 ∧ y = g.core / 96 ∨ b.toNat % 2 = 1 ∧ y < 4 * s.npkg then
        (if b.toNat < 2 then l.filter (fun e => !(decide (e.va < page + 4096) && decide (page < e.va + e.size))) else [])
      else l
    (s.Alone g x th h st → may →
      (b.toNat < 4 → ∃ B : State, One s B g g x th st s.cur.at_.next [] (exec (.tlbinv h a b) s) ∧
        B = { s with dies := B.dies, jobs := B.jobs, cores := B.cores } ∧
        (∀ y, B.die y = { s.die y with tlb := left y (s.die y).tlb }) ∧
        ∀ k, B.core k = { s.core k with tlb := left (k / 96) (s.core k).tlb }) ∧
      (3 < b.toNat → Raises s s g x 0x01 0 0 (exec (.tlbinv h a b) s))) ∧
    (s.Alone g x th h sc → may →
      (2 < d.toNat → Raises s s g x 0x01 0 0 (exec (.cinv h d a b) s)) ∧
      (d.toNat ≤ 2 → len = 0 → One s s g g x th sc s.cur.at_.next [] (exec (.cinv h d a b) s)) ∧
      (d.toNat ≤ 2 → len ≠ 0 → Quiet s ⟨[x], [], none⟩ → (∀ k, lines.1.grp k = s.grp k) → lines.1.cur = s.cur →
        (lines.2 = .done → One s lines.1 g g x th sc s.cur.at_.next [] (exec (.cinv h d a b) s)) ∧
        (∀ c m k, lines.2 = .fault c m k → Raises s lines.1 g x c m k (exec (.cinv h d a b) s)))) ∧
    (∀ n y, d.toNat ≠ 0 → y < 4 * s.npkg ∨ y = s.homeDie (64 * n) →
      Tbl.get? ((s.cacheLine d.toNat n).die y).l2 n = none)

/-- R153, R344: TRAPRET makes the thread wait for its group; with the last entering thread the group leaves handler mode:
its convergence registers and predicates come back, the trap reserve is freed, and each thread resumes where its fault
gives. Where the spec leaves a point open it follows the model's choice or reading: log 89. -/
def Obligations.TrapReturn : Prop :=
  ∀ (s : State) (g : Group) (x : Nat) (th : Thread) (h : Hd) (hd : Handler), s.Alone g x th h Shape.none →
    g.handler = some hd → x ∈ hd.entering →
    let back := fun (y : Nat) => y ∈ hd.entering ∧ y ≠ x
    ((∃ y, back y ∧ ∃ ty, Tbl.get? g.threads y = some ty ∧ (∀ p w, ty.place ≠ .returned p w)) → (∀ cv ∈ g.conv, cv.bound = none) →
      ∃ t g' th' w, exec (.trapret h) s = .next t ∧ s.Beside t s.cur.g ∧ t.grp s.cur.g = some g' ∧ g.SameBut g' ∧
        (∀ y, y ≠ x → Tbl.get? g'.threads y = Tbl.get? g.threads y) ∧ Tbl.get? g'.threads x = some th' ∧
        th'.place = .returned s.cur.at_.pc w ∧ w.acc = 0 ∧ w.from_ = s.now g.core) ∧
    ((∀ e ∈ g.threads, e.1 ∈ hd.entering → e.1 ≠ x → ∃ p w, e.2.place = .returned p w) →
      (∀ cv ∈ hd.savedConv, cv.bound = none) →
      ∃ t g', exec (.trapret h) s = .next t ∧ (∀ j, j ≠ s.cur.g → t.grp j = s.grp j) ∧
        t = { s with groups := t.groups, cores := t.cores } ∧
        t.grp s.cur.g = some g' ∧ g'.handler = none ∧ g'.faults = g.faults ∧
        (∀ (c : Nat) (cv : Conv), hd.savedConv[c]? = some cv → ∃ cv' : Conv, g'.conv[c]? = some cv' ∧ cv'.bound = none ∧
          cv'.signed = cv.signed ∧ ∀ y, y ∈ cv'.members ↔ y ∈ cv.members ∧ (Tbl.get? g.threads y).isSome = true) ∧
        (∀ q ∈ (t.core g.core).quads, q.trap ≠ some s.cur.g) ∧
        ∀ y ty, Tbl.get? g.threads y = some ty → ∃ ty', Tbl.get? g'.threads y = some ty' ∧
          (y ∈ hd.entering → ty'.place = .ready ∧ ty'.hv = [] ∧ ty'.savedP = none ∧
            (∀ b, Tbl.get? hd.back y = some b → ty'.pc = b.pc ∧ ty'.past = b.past ∧ ty'.chunk = b.chunk) ∧ (∀ p, ty.savedP = some p → ty'.p = p)) ∧
          (y ≠ x → ty'.v = ty.v.filter (fun e => decide (e.1 < g.ceil))) ∧
          (y ∉ hd.entering → ty' = { ty with
            v := ty'.v
            vpois := ty.vpois.filter (fun n => decide (n < g.ceil))
            vsoft := ty.vsoft.filter (fun n => decide (n < g.ceil))
            vhard := ty.vhard.filter (fun n => decide (n < g.ceil)) }))

/-! ## The matrix engine (R125 to R138) -/

namespace Sys2Proof.Claims

/-- The members of cv in ascending order. -/
def Ascending (cv : Conv) (l : List Nat) : Prop := l.Pairwise (· < ·) ∧ ∀ x, x ∈ l ↔ x ∈ cv.members

/-- A matrix operation of the present word on handle hr, with the format slot that the word names, slot 0 where it names
none. -/
def mop (s : State) (g : Group) (l : List Nat) (kind : MopKind) (hr : BitVec 3) (clear : Bool) (slot : Nat)
    (ma mb : List Word) (binds : Bool) (chunk : Nat) : Mop :=
  ⟨g.core, s.cur.g, l, kind, hr.toNat, clear, s.fmtOf g slot, ma, mb, binds, chunk, decide (chunk ≠ 0), s.cur.at_.tok,
    s.cur.at_, slot, l.map (fun x => (x, (Tbl.get? g.threads x).elim 0 (·.words + 1)))⟩

/-- s with a matrix operation taken into core k, last in its order of acceptance (R126, R231). -/
def withMop (s : State) (k : Nat) (m : Mop) : State :=
  { s with
    mops := Tbl.put s.mops s.fresh m
    cores := Tbl.put s.cores k { s.core k with mops := (s.core k).mops ++ [s.fresh] }
    fresh := s.fresh + 1 }

/-- s with slot n of core k, the first of the free list, taken and reading zero (R137, R235). -/
def withSlot (s : State) (k n : Nat) (rest : List Nat) : State :=
  { s with cores := Tbl.put s.cores k { s.core k with
      accFree := rest
      acc := Tbl.put (s.core k).acc n AccSlot.zero } }

/-- Handle hr of group g is bound and no operation in flight will unbind it. -/
def Held (s : State) (g : Group) (hr : BitVec 3) : Prop :=
  (Tbl.get? g.acc hr.toNat).isSome = true ∧
  ∀ e ∈ s.mops, e.2.g = s.cur.g → e.2.h = hr.toNat → e.2.kind ≠ .accrel

/-- Handle hr of group g is unbound and no operation in flight names it. -/
def Unheld (s : State) (g : Group) (hr : BitVec 3) : Prop :=
  Tbl.get? g.acc hr.toNat = none ∧ ∀ e ∈ s.mops, e.2.g = s.cur.g → e.2.names hr.toNat = false

/-- The word has nothing to wait for at issue: its core holds fewer than 8 operations, those counted that a restore brought
back and that wait for their place, and no word of the group that waits names a handle of m (R126, R135, R231). -/
def Clear (s : State) (g : Group) (m : Mop) : Prop :=
  (s.core g.core).mops.length + (s.mopsBack g.core).length < 8 ∧ ∀ e ∈ g.waits, ∀ n ∈ m.handles, n ∉ handlesOf e.2.i

/-- An earlier word of the group on a handle of m waits at issue. -/
def Behind (s : State) (g : Group) (m : Mop) : Prop :=
  (∀ e ∈ g.waits, e.2.at_ ≠ s.cur.at_) ∧ ∃ e ∈ g.waits, e.2.born < s.fresh ∧ (∃ n ∈ m.handles, n ∈ handlesOf e.2.i) ∧
    ((∃ k, e.2.kind = .bind k) ∨ ∃ u k, e.2.kind = .again u k)

/-- The word is accepted as operation m, and its members go on with their tokens one higher; a word that binds takes a
slot for an unheld handle, or waits where none is free or an older word of the core waits for one; a word that finds 8
operations in flight, an earlier word of its group on its handle at issue, or the operations that its binding must follow
unfinished, waits with the sources it has read (R125, R126, R137). -/
def MatrixResult (s : State) (g : Group) (c : Nat) (cv : Conv) (i : Instr) (h : Hd) (o : Outcome) (binds : Bool)
    (hr : BitVec 3) (m : List Nat → Mop) (R : Nat → Dword → Dword) : Prop :=
  ∀ l, Ascending cv l →
    let waits := fun (k : GKind) => ∃ w, w.Of s cv i h k ∧ State.WaitResult { s with fresh := s.fresh + 1 } o g c
      { g.executed c cv with waits := Tbl.put g.waits s.fresh w }
    let names := ∃ e ∈ s.mops, e.2.g = s.cur.g ∧ e.2.names hr.toNat = true
    (8 ≤ (s.core g.core).mops.length → waits g.snap) ∧
    (Behind s g (m l) → waits g.snap) ∧
    (Clear s g (m l) →
      (binds = false ∨ Held s g hr →
        (withMop s g.core (m l)).LongResult o g cv (g.executed c cv) [] R) ∧
      (binds = true → ¬ Held s g hr → names → waits g.snap) ∧
      (binds = true → Unheld s g hr →
        (s.oldestBind g.core = none → ∀ n rest, (s.core g.core).accFree = n :: rest →
          (withMop (withSlot s g.core n rest) g.core (m l)).LongResult o g cv
            { g.executed c cv with acc := Tbl.put g.acc hr.toNat n } [] R) ∧
        ((s.core g.core).accFree = [] ∨ s.oldestBind g.core ≠ none → waits (.bind (m l)))))

end Sys2Proof.Claims

/-- R125, R126, R132, R136 to R138: the matrix forms as they are accepted or wait.
TMMA, TMMAT, ACCST and ACCLD pass their map checks; a product with no rows does nothing; ACCST with the stochastic bit
steps the lowest signer's generator once per element. -/
def Sys2Proof.Claims.MatrixForms : Prop :=
  ∀ (s : State) (g : Group) (cv : Conv) (h : Hd) (hr : BitVec 3) (cl : Bool) (sl : BitVec 3) (a b : Field) (low : Nat)
    (tl : Thread),
    let c := h.guard.toNat
    let f := s.fmtOf g sl.toNat
    let ma : OpMap := (List.range 4).map (fun k => g.rs (a.toNat + k))
    let mb : OpMap := (List.range 4).map (fun k => g.rs (b.toNat + k))
    let size := s.scratchSize g
    let run := fun (i : Instr) (us ud : List Nat) (binds : Bool) (m : List Nat → Mop) (R : Nat → Dword → Dword) =>
      s.Completes g c cv i h ⟨[], us, [], [], [], ud, 1⟩ true → g.Sound us →
        MatrixResult s g c cv i h (exec i s) binds hr m R
    let keep := fun (_ : Nat) (r : Dword) => r
    let product := fun (i : Instr) (tr : Bool) =>
      legalPair (fmtA f) (fmtB f) = true → ma.check (fmtA f) false = none → mb.check (fmtB f) false = none →
      mb.cols = ma.cols →
      (ma.rows ≠ 0 ∧ mb.rows ≠ 0 → ma.outside (fmtA f) size = none → mb.outside (fmtB f) size = none →
        run i (regs a 4 ++ regs b 4) [] true (fun l => mop s g l (.tmma tr) hr cl sl.toNat ma mb true tl.chunk) keep) ∧
      (ma.rows = 0 ∨ mb.rows = 0 →
        s.Completes g c cv i h ⟨[], regs a 4 ++ regs b 4, [], [], [], [], 1⟩ true → g.Sound (regs a 4 ++ regs b 4) →
          s.OnceResult (exec i s) g cv (g.executed c cv))
    low ∈ cv.members → (∀ x ∈ cv.members, low ≤ x) →
    Tbl.get? g.threads low = some tl →
    run (.acczero h hr) [] [] true (fun l => mop s g l .acczero hr false 0 [] [] true 0) keep ∧
    run (.accrel h hr) [] [] false (fun l => mop s g l .accrel hr false 0 [] [] false 0) keep ∧
    run (.accscl h hr a) [a.toNat] [] false (fun l => mop s g l (.accscl (g.rs a.toNat)) hr false 0 [] [] false 0) keep ∧
    run (.accadd h hr cl b) [] [] true (fun l => mop s g l (.accadd b.toNat) hr cl 0 [] [] true 0) keep ∧
    run (.accrd h hr a b) [b.toNat] [a.toNat] false
      (fun l => mop s g l (.accrd a.toNat (g.rs b.toNat)) hr false 0 [] [] false 0) keep ∧
    product (.tmma h hr cl sl a b) false ∧ product (.tmmat h hr cl sl a b) true ∧
    (ma.check (fmtOut f) true = none → ma.outside (fmtOut f) size = none →
      run (.accst h hr sl a) (regs a 4) [] false
        (fun l => mop s g l .accst hr false sl.toNat ma
          [BitVec.ofNat 32 tl.rng.toNat, BitVec.ofNat 32 (tl.rng.toNat / 2 ^ 32)] false 0)
        (fun x r => if f.getLsbD 16 = true ∧ x = low then stepRandom (ma.rows * ma.cols) r else r) ∧
      run (.accld h hr cl sl a) (regs a 4) [] true (fun l => mop s g l .accld hr cl sl.toNat ma [] true 0) keep)

/-- R127, R130, R352: the checks of the matrix forms, against the lowest signer: the operand pair first, then the map in
sA, the map in sB, and the two COLS, then the lowest byte of a map outside the allocation. -/
def Sys2Proof.Claims.MatrixFaults : Prop :=
  ∀ (s : State) (g : Group) (cv : Conv) (h : Hd) (hr : BitVec 3) (cl : Bool) (sl : BitVec 3) (a b : Field),
    let c := h.guard.toNat
    let f := s.fmtOf g sl.toNat
    let ma : OpMap := (List.range 4).map (fun k => g.rs (a.toNat + k))
    let mb : OpMap := (List.range 4).map (fun k => g.rs (b.toNat + k))
    let two : Shape := ⟨[], regs a 4 ++ regs b 4, [], [], [], [], 1⟩
    let one : Shape := ⟨[], regs a 4, [], [], [], [], 1⟩
    let bad := fun (i : Instr) (sh : Shape) (code detail : Nat) =>
      s.Completes g c cv i h sh true → g.Sound sh.us → s.FaultResult (exec i s) g c cv code 0 detail
    let size := s.scratchSize g
    let past := fun (i : Instr) (sh : Shape) (n : Nat) =>
      s.Completes g c cv i h sh true → g.Sound sh.us → s.FaultResult (exec i s) g c cv 0x14 n size
    let pairOk := legalPair (fmtA f) (fmtB f) = true
    (∀ i ∈ ([.tmma h hr cl sl a b, .tmmat h hr cl sl a b] : List Instr),
      (¬ pairOk → bad i two 0x01 sl.toNat) ∧
      (∀ d, pairOk → ma.check (fmtA f) false = some d → bad i two 0x40 d) ∧
      (∀ d, pairOk → ma.check (fmtA f) false = none → mb.check (fmtB f) false = some d → bad i two 0x40 (d + 16)) ∧
      (pairOk → ma.check (fmtA f) false = none → mb.check (fmtB f) false = none → mb.cols ≠ ma.cols →
        bad i two 0x40 (17 + mb.cols * 2 ^ 16)) ∧
      (∀ n, pairOk → ma.check (fmtA f) false = none → mb.check (fmtB f) false = none → mb.cols = ma.cols → ma.rows ≠ 0 →
        mb.rows ≠ 0 → (n ∈ ma.bytes (fmtA f) ∨ n ∈ mb.bytes (fmtB f)) → size ≤ n →
        (∀ m, m ∈ ma.bytes (fmtA f) ∨ m ∈ mb.bytes (fmtB f) → size ≤ m → n ≤ m) → past i two n)) ∧
    (∀ n, ma.check (fmtOut f) true = none → n ∈ ma.bytes (fmtOut f) → size ≤ n →
      (∀ m ∈ ma.bytes (fmtOut f), size ≤ m → n ≤ m) → past (.accst h hr sl a) one n ∧ past (.accld h hr cl sl a) one n) ∧
    (∀ d, ma.check (fmtOut f) true = some d → bad (.accst h hr sl a) one 0x40 d ∧ bad (.accld h hr cl sl a) one 0x40 d) ∧
    (∀ (m : OpMap) (code : Nat) (acc : Bool),
      (64 < m.rows → m.check code acc = some (2 + m.rows * 2 ^ 16)) ∧
      (m.rows ≤ 64 → (1024 < m.cols ∨ acc = true ∧ 64 < m.cols) → m.check code acc = some (3 + m.cols * 2 ^ 16)) ∧
      (m.rows ≤ 64 → m.cols ≤ 64 → 6 ≤ code → code ≤ 12 → m.cols % 32 ≠ 0 → m.check code acc = some (4 + m.cols * 2 ^ 16)) ∧
      (m.rows ≤ 64 → m.cols ≤ 64 → m.cols % 32 = 0 → m.ebase % 16 ≠ 0 →
        m.check code acc = some (5 + m.ebase % 2 ^ 16 * 2 ^ 16)))

/-- R125 to R136: the matrix forms and their faults at issue. Where the spec leaves a point open it follows the model's choice or reading: logs 25, 26, 28, 88, 90. -/
def Obligations.MatrixIssue : Prop := Claims.MatrixForms ∧ Claims.MatrixFaults

/-! ## The engines and HANDOVER (R139 to R149) -/

namespace Sys2Proof.Claims

/-- The word's step 2 and 3 of R140 find nothing to wait for: every scratchpad store and ACCST of the group is
performed and no ACCST of it waits at issue, no earlier word of a member is still to be performed, and at package scope or
wider no line is to be written back and no write-back to another package is to be acknowledged. -/
structure Settled (s : State) (g : Group) (cv : Conv) (scope : Nat) : Prop where
  stores : ∀ e ∈ s.reqs, e.2.g = s.cur.g → e.2.sp = true → e.2.writes = true → e.2.isDone = true
  tiles : ∀ e ∈ s.mops, e.2.g = s.cur.g → e.2.kind ≠ .accst
  issued : ∀ e ∈ g.waits, ∀ (h : Hd) (hr sl : BitVec 3) (a : Field), e.2.i ≠ .accst h hr sl a
  quiet : Quiet s cv
  lines : 2 ≤ scope → s.remoteLines (g.core / 96) = [] ∧ s.backOut (g.core / 96) = false

/-- The group after a release of the members of cv at a scope: none of them waits in one (R254). -/
def released (g : Group) (cv : Conv) (scope : Nat) : Group :=
  { g with releasing := if scope < 2 then g.releasing else g.releasing.filter (fun x => decide (x ∉ cv.members)) }

/-- o is the machine, but for what B has changed, after an engine job of a kind has been accepted on a free entry: the
entry holds the job with its footprint foot, its identifier stands in S(D), and later jobs see its footprint; where the
table is full the word waits for an entry (R140, R141, R146, R273). -/
def JobResult (s B : State) (g : Group) (c : Nat) (cv : Conv) (i : Instr) (h : Hd) (kind : JobKind) (d b : Field)
    (desc : List Word) (foot : Foot) (o : Outcome) : Prop :=
  let here := released (g.executed c cv) cv (jobScope kind desc)
  (∀ n rest, (s.core g.core).jobFree = n :: rest →
    let key := 32 * g.core + n
    let old := (Tbl.get? s.jobs key).elim 0 (·.issues)
    ∃ j : Job,
      j.kind = kind ∧ j.issues = old + 1 ∧ j.barrier = (if b.toNat < 16 then some b.toNat else none) ∧
      j.lseq = g.lseq ∧ j.team = g.team ∧ j.g = s.cur.g ∧ j.desc = desc ∧ j.bytes = 0 ∧ j.next = 0 ∧ j.off = 0 ∧ j.range = 0 ∧
      j.reads = foot.reads ∧ j.writes = foot.writes ∧ j.axis = foot.axis ∧
      (∀ k, k ∈ j.waits ↔ ∃ e ∈ s.jobs, e.1 = k ∧ e.1 / 32 = g.core ∧ e.1 ≠ key ∧ e.2.live = true ∧
        e.2.team = g.team ∧ (g.team = none → e.2.g = s.cur.g) ∧ j.meets e.2 = true) ∧
      j.state = (if j.waits = [] then .running else .waiting) ∧
      ∀ x ∈ cv.members, (∀ y ∈ cv.members, x ≤ y) → State.OnceResult { B with
          jobs := Tbl.put s.jobs key j
          fresh := s.fresh + 1
          cores := Tbl.put B.cores g.core { B.core g.core with jobFree := rest }
          launches := if kind = .coll then Tbl.modify s.launches g.lseq (fun l => { l with
            colls := l.colls ++ [(g.core / 96, Desc.axis desc, Desc.gen desc)] }) else s.launches }
        o g cv (here.wsFor x d.toNat [BitVec.ofNat 32 (n % 32 + (old + 1) % 2 ^ 27 * 32)])) ∧
  ((s.core g.core).jobFree = [] → ∃ w, w.Of s cv i h (.entry desc foot) ∧
    State.WaitResult { B with fresh := s.fresh + 1 } o g c { here with waits := Tbl.put g.waits s.fresh w })

end Sys2Proof.Claims

/-- R140, R141: an engine job whose descriptor is good and which has nothing to wait for is accepted, or waits for an
entry; one whose group has an earlier scratchpad store or ACCST to perform waits with the descriptor it has read; a bad descriptor raises its fault against the lowest signer. -/
def Sys2Proof.Claims.EngineJobs : Prop :=
  ∀ (s : State) (g : Group) (cv : Conv) (h : Hd) (d a b : Field),
    let c := h.guard.toNat
    let desc := fun (n : Nat) => (List.range n).map (fun k => g.rs (a.toNat + k))
    let sh := fun (n : Nat) => (⟨[], regs a n, [], [], [], [d.toNat], 1⟩ : Shape)
    let go := fun (i : Instr) (kind : JobKind) (check : JobCheck) =>
      s.Completes g c cv i h (sh 16) true → g.Sound (regs a 16) →
      (∀ foot, check = .good foot → foot = s.footprint kind g (desc 16) ∧
        (Settled s g cv (jobScope kind (desc 16)) → JobResult s s g c cv i h kind d b (desc 16) foot (exec i s))) ∧
      (∀ foot, check = .good foot → (∀ e ∈ g.waits, e.2.at_ ≠ s.cur.at_) →
        (∃ e ∈ s.reqs, e.1 < s.fresh ∧ e.2.g = s.cur.g ∧ e.2.sp = true ∧ e.2.writes = true ∧ e.2.isDone = false) ∨
          (∃ e ∈ s.mops, e.1 < s.fresh ∧ e.2.g = s.cur.g ∧ e.2.kind = .accst) →
        ∃ w, w.Of s cv i h g.snap ∧ State.WaitResult { s with fresh := s.fresh + 1 } (exec i s) g c
          { g.executed c cv with waits := Tbl.put g.waits s.fresh w }) ∧
      (∀ code addr detail, check = .fault code addr detail → s.FaultResult (exec i s) g c cv code addr detail)
    go (.cpy h d a b) .cpy (s.checkCpy g (desc 16) b.toNat) ∧
    go (.gath h d a b) .gath (s.checkGath g (desc 16) b.toNat false) ∧
    go (.scat h d a b) .scat (s.checkGath g (desc 16) b.toNat true) ∧
    (s.Completes g c cv (.coll h d a b) h (sh 32) true → g.Sound (regs a 32) → Settled s g cv 4 →
      ∀ (B : State) (foot : Foot), B.groups = s.groups → (s.core g.core).jobFree = (B.core g.core).jobFree →
        B.remoteLines (g.core / 96) = [] →
        (∀ G, State.checkColl { s with groups := G } g (desc 32) b.toNat = ({ B with groups := G }, .good foot)) →
        B = { s with dies := B.dies, cores := B.cores, walks := B.walks } →
        JobResult s B g c cv (.coll h d a b) h .coll d b (desc 32) foot (exec (.coll h d a b) s))

/-- R147, R148: ENGRD reads the entry that an identifier names, zero for an unknown one; JOBCAN cancels a job of the
group's team that waits on its footprint and is no COLL, and changes nothing else. -/
def Sys2Proof.Claims.JobReadAndCancel : Prop :=
  ∀ (s : State) (g : Group) (cv : Conv) (h : Hd) (d a : Field),
    let c := h.guard.toNat
    let id := g.rs a.toNat
    let key := 32 * g.core + id.toNat % 32
    let named := fun (j : Job) => Tbl.get? s.jobs key = some j ∧ key % 32 + j.issues % 2 ^ 27 * 32 = id.toNat ∧
      j.team = g.team ∧ (g.team = none → j.g = s.cur.g)
    let quad := fun (w0 w1 w2 w3 : Nat) => ([(d.toNat, BitVec.ofNat 32 w0), (d.toNat + 1, BitVec.ofNat 32 w1),
      (d.toNat + 2, BitVec.ofNat 32 w2), (d.toNat + 3, BitVec.ofNat 32 w3)] : List (Nat × Word))
    let state := fun (j : Job) => match j.state with
      | .unused => 0
      | .waiting => 1
      | .running => 2
      | .complete => 3
      | .failed => 4 + j.fault * 2 ^ 8
      | .cancelled => 5
    let kind := fun (j : Job) => match j.kind with
      | .cpy => 0
      | .gath => 1
      | .scat => 2
      | .coll => 3
    (s.Completes g c cv (.engrd h d a) h ⟨[], [a.toNat], [], [], [], regs d 4, 1⟩ true → g.Sound [a.toNat] →
      (∀ j, named j → s.UniformResult (exec (.engrd h d a) s) g c cv
        (quad (state j + kind j * 2 ^ 16) j.bytes (j.bytes / 2 ^ 32) (min j.range 0xFFFFFFFF))) ∧
      ((∀ j, ¬ named j) → s.UniformResult (exec (.engrd h d a) s) g c cv (quad 0 0 0 0))) ∧
    (s.Completes g c cv (.jobcan h d a) h ⟨[], [a.toNat], [], [], [], [d.toNat], 1⟩ true → g.Sound [a.toNat] →
      (∀ j, named j → j.state = .waiting → j.kind ≠ .coll →
        ∃ B : State, B.OnceResult (exec (.jobcan h d a) s) g cv ((g.executed c cv).ws d.toNat 1) ∧
          B = { s with jobs := B.jobs, cores := B.cores, passed := B.passed } ∧ (∃ j', Tbl.get? B.jobs key = some j' ∧ j'.state = .cancelled) ∧
          (∀ k jk, Tbl.get? s.jobs k = some jk → ∃ jk', Tbl.get? B.jobs k = some jk' ∧
            jk'.waits = (if k = key then [] else jk.waits.filter (· ≠ key)) ∧ (k ≠ key → jk' = { jk with waits := jk'.waits }))) ∧
      ((∀ j, named j → j.state ≠ .waiting ∨ j.kind = .coll) →
        s.UniformResult (exec (.jobcan h d a) s) g c cv [(d.toNat, 0)]))

/-- R139 to R141, R147, R148: engine jobs, ENGRD and JOBCAN. Where the spec leaves a point open it follows the model's choice or reading: logs 5, 25, 32, 33, 34, 90. -/
def Obligations.EngineJobsIssue : Prop := Claims.EngineJobs ∧ Claims.JobReadAndCancel

/-- R149: HANDOVER, with its right and its operands in range, closes a steady stack that the issuing die owns toward its
other port die; it waits while an earlier hand-over is in progress, and a stack that may not be handed raises 0x12. -/
def Sys2Proof.Claims.HandOverIssue : Prop :=
  ∀ (s : State) (g : Group) (cv : Conv) (h : Hd) (d a b : Field),
    let c := h.guard.toNat
    let n := (g.rs a.toNat).toNat
    let target := (g.rs b.toNat).toNat
    let stack := 8 * (g.core / 384) + n
    let k := s.stack stack
    let sh : Shape := ⟨[], [a.toNat, b.toNat], [], [], [], [], 1⟩
    let ports := n / 2 = target ∨ (n / 2 + 1) % 4 = target
    let here := released (g.executed c cv) cv 2
    let mine := g.core / 96 = 4 * (g.core / 384) + k.owner ∧ target ≠ k.owner ∧ ports ∧ k.hseq ≠ 0xFFFFFFFF
    let word := k.owner + 2 ^ 8 * (match k.st with
      | .steady => 0
      | .closing => 1
      | .draining => 2
      | .switching => 3)
    s.Completes g c cv (.handover h d a b) h sh true → g.Sound [a.toNat, b.toNat] →
    (s.right g 0 = false → s.FaultResult (exec (.handover h d a b) s) g c cv 0x11 0 0) ∧
    (s.right g 0 = true → 7 < n ∨ 3 < target ∨ s.barriers g ≤ d.toNat →
      s.FaultResult (exec (.handover h d a b) s) g c cv 0x01 0 0) ∧
    (s.right g 0 = true → n ≤ 7 → target ≤ 3 → d.toNat < s.barriers g → Quiet s cv →
      s.remoteLines (g.core / 96) = [] → s.backOut (g.core / 96) = false →
      (k.st = .steady → mine →
        (State.onStack { s with fresh := s.fresh + 1 } stack (fun k => { k with
          st := .closing, target := target, team := g.team, bar := some d.toNat, order := s.fresh })).OnceResult
          (exec (.handover h d a b) s) g cv here) ∧
      (k.st = .steady → ¬ mine →
        s.FaultResult (exec (.handover h d a b) s) (released g cv 2) c cv 0x12 n word) ∧
      (k.st ≠ .steady → ∃ w, w.Of s cv (.handover h d a b) h (.handover stack target) ∧
        State.WaitResult { s with fresh := s.fresh + 1 } (exec (.handover h d a b) s) g c
          { here with waits := Tbl.put g.waits s.fresh w }))

/-! ## What a word raises before its own effect (R30, R71, R107, R229) -/

/-- R30, R71, R229, R107: a thread alone in its packet, its guard true, at VADD raises 0x11 for the first register at or
above its group's ceiling, 0x05 for a register whose write is still to complete where the scoreboard is checked, and 0x30
for a poisoned source; at LD it raises 0x06 for an address that is no multiple of the width, 0x14 where it passes the
scratchpad allocation, and 0x11 where the page may not be read. Its registers, and memory, are as they were. Where the spec leaves a point open it follows the model's choice or reading: logs 36, 88. -/
def Obligations.FaultsBeforeEffect : Prop :=
  ∀ (s : State) (g : Group) (x : Nat) (th : Thread) (h : Hd) (d a b : Field),
    let hm := g.inHandler x
    let named := [a.toNat, b.toNat, d.toNat]
    let high := fun (n : Nat) => decide (g.ceil ≤ n) && !(hm && decide (112 ≤ n))
    (s.grp s.cur.g = some g → s.cur.tids = [x] → Tbl.get? g.threads x = some th → g.Clean (.v3 d a b) →
      th.pr h.guard.toNat = true →
      (∀ n, s.checking g = false → named.find? high = some n → Raises s s g x 0x11 0 n (exec (.vadd h d a b) s)) ∧
      (∀ w, s.checking g = true → named.find? high = none → th.pend = [w] → th.owed = [] → w.file = .vec →
        w.reg ∈ named → Raises s s g x 0x05 0 (w.reg + (w.lat - w.sum) % 8 * 2 ^ 9) (exec (.vadd h d a b) s)) ∧
      (∀ n, s.checking g = false → named.find? high = none → hm = false → n ∈ [a.toNat, b.toNat] → n ∈ th.vpois →
        (∀ m ∈ [a.toNat, b.toNat], m ∈ th.vpois → m = n) → Raises s s g x 0x30 0 n (exec (.vadd h d a b) s))) ∧
    ∀ (acc : Word) (e : TlbEntry),
      let ea := laneAddress hm th a acc
      let n := 2 ^ Access.width acc
      let raises := fun (code address detail : Nat) =>
        Raises s { s with fresh := s.fresh + 1 } g x code address detail (exec (.ld h d a acc) s)
      (∀ r ∈ s.reqs, r.2.word ≠ s.fresh) →
      s.Alone g x th h { Shape.none with vs := if Access.sp acc then [a.toNat] else regs a 2, vd := regs d (widthRegs acc) } →
      (ea % n ≠ 0 → raises 0x06 0 0) ∧
      (ea % n = 0 → Access.sp acc = true → s.scratchSize g < ea + n →
        raises 0x14 (max ea (s.scratchSize g)) (s.scratchSize g)) ∧
      (ea % n = 0 → Access.sp acc = false → ea < 2 ^ 57 → held s g.core ea = some e → e.r = false →
        Raises s (State.useTlb { s with fresh := s.fresh + 1 } g.core e) g x 0x11 ea (2 * 2 ^ 8) (exec (.ld h d a acc) s))

/-! ## What requests do (R107 to R122, R249, R321, R322) -/

namespace Sys2Proof.Claims

/-- Request rid is r, of a live thread th of group g, and no packet of the fabric carries it or its response. -/
structure Outstanding (s : State) (rid : Nat) (r : Req) (g : Group) (th : Thread) : Prop where
  held : Tbl.get? s.reqs rid = some r
  group : s.grp r.g = some g
  live : Tbl.get? g.threads r.t = some th
  here : ∀ e ∈ s.packets, e.2.cargo ≠ .request rid ∧ e.2.cargo ≠ .response rid

/-- o is the machine B after the reply of request r with a value: the request has left the table, its thread's token
stands one lower, where an accepted store has not lowered it before, the destination registers hold the value, the first
lowest, and every other lane is as it was; a blocking word retires, its dying sources reading zero, and where its group had
stopped at a fault the entering threads may be fixed with it (R28, R29, R109, R341). -/
def Replied (s B : State) (rid : Nat) (r : Req) (g : Group) (th : Thread) (value : Nat) (o : Outcome) : Prop :=
  ∃ t g' th', o = .next t ∧
    t = { B with reqs := t.reqs, words := t.words, passed := t.passed, groups := t.groups, cores := t.cores } ∧
    t.passed = B.passed.filter (fun p => p.agent ≠ .req rid) ∧
    (∀ k, k ≠ r.word → Tbl.get? t.words k = Tbl.get? B.words k) ∧
    (∀ k, Tbl.get? t.reqs k = if k = rid then none else Tbl.get? s.reqs k) ∧
    (∀ k, { t.core k with counters := (s.core k).counters } = s.core k) ∧
    (∀ j, j ≠ r.g → t.grp j = s.grp j) ∧ t.grp r.g = some g' ∧
    { g with entering := g'.entering }.SameBut g' ∧ (r.blocking = false ∨ g.stop = .none → g'.entering = g.entering) ∧
    (∀ y, y ≠ r.t → Tbl.get? g'.threads y = Tbl.get? g.threads y) ∧ Tbl.get? g'.threads r.t = some th' ∧
    th'.tok = (if r.accepted = true then th.tok else th.tok.set r.tok (th.token r.tok - 1)) ∧ th'.rng = th.rng ∧
    (∀ n, n < 7 → th'.pred (g.inHandler r.t) n = th.pred (g.inHandler r.t) n) ∧
    (if r.blocking = true then th'.pc = r.at_.next ∧ th'.place = .ready else th'.pc = th.pc ∧ th'.place = th.place) ∧
    ∀ n, th'.lane (g.inHandler r.t) n =
      if r.blocking = true ∧ r.at_.dead = true ∧ n ∈ s.deadOf r.g r.t then 0
      else if r.d ≤ n ∧ n < r.d + r.dests.length then BitVec.ofNat 32 (value / 2 ^ (32 * (n - r.d)))
      else th.lane (g.inHandler r.t) n

/-- Op(x, m) of an atomic over w bits, with n the new value of ATOMCAS (R111). -/
def atomic (op : AtomOp) (w x m n : Nat) : Nat :=
  let int := fun (v : Nat) => (BitVec.ofNat w v).toInt
  match op with
  | .add => (BitVec.ofNat w x + BitVec.ofNat w m).toNat
  | .fadd => (Sys2Proof.Machine.fadd (BitVec.ofNat 32 x) (BitVec.ofNat 32 m)).toNat
  | .min => if int m < int x then m else x
  | .max => if int x < int m then m else x
  | .minn => if m < x then m else x
  | .maxn => if x < m then m else x
  | .and => (BitVec.ofNat w x &&& BitVec.ofNat w m).toNat
  | .or => (BitVec.ofNat w x ||| BitVec.ofNat w m).toNat
  | .xor => (BitVec.ofNat w x ^^^ BitVec.ofNat w m).toNat
  | .xchg => m
  | .cas => if x = m then n else x

/-- The number that n bytes of memory hold from address a upward, the first lowest (R11). -/
def number (m : Memory) (a n : Nat) : Nat := ((List.range n).map (fun i =>
  (m.read (a + i)).toNat * 256 ^ i)).sum

/-- Memory m' is m with the n bytes from a upward holding a number. -/
def Stores (m m' : Memory) (a n value : Nat) : Prop :=
  ∀ x, m'.read x = if a ≤ x ∧ x < a + n then BitVec.ofNat 8 (value / 256 ^ (x - a)) else m.read x

end Sys2Proof.Claims

/-- R28, R107, R109, R214: MEMORY_REPLY of a performed request writes its result and lowers its thread's token; poisoned
data raise 0x31 instead, at the word, or, where the thread has issued a later word, imprecisely, to go on where it is, and
no record of the packet counts the word as applied for it (R336, R339). A store that waits for its home is accepted: its
token falls, and the request stands. A request of the scratchpad is performed on its own core, by the byte. Where the spec leaves a point open it follows the model's choice or reading: logs 18, 49, 100. -/
def Obligations.MemoryReplies : Prop :=
  ∀ (s : State) (rid : Nat) (r : Req) (g : Group) (th : Thread),
    let o := exec (.memoryReply rid) s
    let noted := g.faults.map (fun q => if q.written = false ∧ q.pc = r.at_.pc ∧ q.thread / 32 = r.t / 32 then
      { q with compmask := q.compmask &&& ~~~BitVec.ofNat 32 (2 ^ (r.t % 32)) } else q)
    Outstanding s rid r g th → r.lost = false → (∀ p ∈ th.pend, p.file = .vec → p.reg ∉ r.dests) →
    (∀ value, r.stage = .performed value false → Replied s s rid r g th value o) ∧
    (∀ value, r.stage = .performed value true → ∃ t g' f, o = .next t ∧ t.grp r.g = some g' ∧ t.mem = s.mem ∧
      Tbl.get? t.reqs rid = none ∧ g'.faults = noted ++ [f] ∧ f.code = 0x31 ∧ f.thread = r.t ∧ f.pc = r.at_.pc ∧
      f.address = BitVec.ofNat 64 r.ea ∧
      (r.blocking = true ∨ th.words = r.nth ∧ th.place = .ready → f.imprecise = false ∧ f.resume = r.at_.pc ∧
        ∃ th', Tbl.get? g'.threads r.t = some th' ∧ th'.place = .faulted ∧ th'.pc = r.at_.pc) ∧
      (r.blocking = false → th.words ≠ r.nth → f.imprecise = true ∧ f.resume = th.pc ∧
        ∃ th', Tbl.get? g'.threads r.t = some th' ∧ th'.pc = th.pc ∧
          th'.place = if th.place = .ready then .faulted else th.place)) ∧
    (r.kind = .store → r.sp = false → r.far = true → r.accepted = false → r.isDone = false → ∃ t g' th', o = .next t ∧
      t = { s with reqs := t.reqs, groups := t.groups } ∧ t.grp r.g = some g' ∧ g.SameBut g' ∧
      (∀ k, Tbl.get? t.reqs k = if k = rid then some { r with accepted := true } else Tbl.get? s.reqs k) ∧
      (∀ j, j ≠ r.g → t.grp j = s.grp j) ∧ (∀ y, y ≠ r.t → Tbl.get? g'.threads y = Tbl.get? g.threads y) ∧
      Tbl.get? g'.threads r.t = some th' ∧ th' = { th with tok := th'.tok, owed := th'.owed } ∧
      th'.tok = th.tok.set r.tok (th.token r.tok - 1)) ∧
    ∀ (k q : Nat) (tm : Team), r.stage = .issued → r.far = false → r.sp = true → r.scope < 2 → s.inTurn rid r = true →
      r.team = some k → Tbl.get? s.teams k = some tm → tm.cores.findIdx (· = r.core) = q → q < tm.scratch.length →
      let m := tm.scratch.getD q []
      let old := number m r.ea r.size
      let bad := tm.scratchBad.getD q []
      let stored := fun (value reply : Nat) => ∃ (B : State) (tm' : Team), Replied s B rid r g th reply o ∧
        B = { s with teams := B.teams } ∧ (∀ j, j ≠ k → Tbl.get? B.teams j = Tbl.get? s.teams j) ∧
        Tbl.get? B.teams k = some tm' ∧
        tm' = { tm with scratch := tm'.scratch, scratchBad := tm'.scratchBad } ∧
        (∀ p, p ≠ q → tm'.scratch.getD p [] = tm.scratch.getD p []) ∧ Stores m (tm'.scratch.getD q []) r.ea r.size value
      Memory.wf m = true → (∀ i, i < r.size → r.ea + i ∉ bad) →
      (r.kind = .load → Replied s s rid r g th old o) ∧
      (r.kind = .store → stored r.m 0) ∧
      (∀ op, r.kind = .atomic op → (r.size = 4 ∨ r.size = 8) → r.m < 256 ^ r.size → r.m2 < 256 ^ r.size →
        (op = .fadd → r.size = 4) → stored (atomic op (8 * r.size) old r.m r.m2) old)

/-- R111, R112, R253: HOME_REQUEST performs a relaxed request at its home, where no cache holds its line: an atomic
replaces the number that memory holds by its operation's result and answers the number before; an uncached load answers
what memory holds and an uncached store writes it; no other byte changes. R249: WRITE_BACK merges a line's dirty bytes
into the memory of its home and drops the line; to a home on another package they go first, in a packet, and the line stays
till they have come there. R310: a store that the device makes for itself goes to the home, and where
no cache holds its lines to memory. Where the spec leaves a point open it follows the model's choice or reading: logs 48, 49, 91, 97, 101. -/
def Obligations.HomeRequests : Prop :=
  (∀ (s : State) (rid : Nat) (r : Req),
    let o := exec (.homeRequest rid) s
    let old := number s.mem r.pa r.size
    let performed := fun (value : Nat) (m : Memory → Prop) => ∃ t, o = .next t ∧
      t = { s with
        mem := t.mem, memBad := t.memBad, reqs := t.reqs, dies := t.dies, cores := t.cores, packets := t.packets,
        passed := t.passed, fresh := t.fresh } ∧
      m t.mem ∧ (∀ k, Tbl.get? t.reqs k = if k = rid then some { r with stage := .performed value false } else
        Tbl.get? s.reqs k)
    Tbl.get? s.reqs rid = some r → r.stage = .issued → r.far = true → r.sp = false → r.order = 0 →
    (∀ e ∈ s.packets, e.2.cargo ≠ .request rid ∧ ∀ x, e.2.cargo ≠ .lineBack x (r.pa / 64) ∧ e.2.cargo ≠ .lineAck x (r.pa / 64)) →
    s.inTurn rid r = true → s.names r.pa = true → paSpace r.pa = 0 →
    s.homeOpen r.pa = true → s.firstFor r.pa = none → s.stackLost r.pa = false → r.pa % 64 + r.size ≤ 64 →
    s.mem.wf = true →
    (∀ x, s.l2 x (r.pa / 64) = none) → (∀ w ∈ s.memBad, w / 16 ≠ r.pa / 64) →
    (r.kind = .load → r.uc = true → performed old (fun m => m = s.mem)) ∧
    (r.kind = .store → r.uc = true → performed 0 (fun m => Stores s.mem m r.pa r.size r.m)) ∧
    (∀ op, r.kind = .atomic op → (r.size = 4 ∨ r.size = 8) → r.m < 256 ^ r.size → r.m2 < 256 ^ r.size →
      (op = .fadd → r.size = 4) →
      performed old (fun m => Stores s.mem m r.pa r.size (atomic op (8 * r.size) old r.m r.m2)))) ∧
  (∀ (s : State) (x n : Nat) (l : Line), s.l2 x n = some l → s.homeOpen (64 * n) = true → s.mem.wf = true →
    ((∀ e ∈ s.packets, e.2.cargo ≠ .lineBack x n ∧ e.2.cargo ≠ .lineAck x n) → paSpace (64 * n) = 0 → paPkg (64 * n) ≠ x / 4 →
      l.dirty ≠ 0 → ∃ t p, exec (.writeBack x n) s = .next t ∧
        t = { s with packets := Tbl.put s.packets s.fresh p, fresh := s.fresh + 1, dies := t.dies } ∧ (∀ y, t.l2 y = s.l2 y) ∧
        p.cargo = .lineBack x n ∧ p.src = x / 4 ∧ p.dest = paPkg (64 * n) ∧
        p.bytes = ((List.range 64).filter (fun i => l.dirty.getLsbD i)).length) ∧
    (s.settled x (64 * n) = true → (x = s.homeDie (64 * n) ∨ s.l2 (s.homeDie (64 * n)) n = none) →
    ∃ t, exec (.writeBack x n) s = .next t ∧
      t = { s with mem := t.mem, memBad := t.memBad, dies := t.dies, cores := t.cores } ∧
      (∀ a, t.mem.read a = if a / 64 = n ∧ l.dirty.getLsbD (a % 64) = true then l.data.getD (a % 64) 0
        else s.mem.read a) ∧
      ∀ y k, t.l2 y k = if y = x ∧ k = n then none else s.l2 y k)) ∧
  ∀ (s : State) (pa : Nat) (bytes : List Byte), (∀ i, i < bytes.length → paSpace (pa + i) = 0) →
    (∀ y n, pa / 64 ≤ n → n ≤ (pa + bytes.length) / 64 → s.l2 y n = none) →
    (s.devWrite pa bytes).mem = s.mem.writeBytes pa bytes

/-- R119 to R122: a ring form at its descriptor, where the descriptor stands in memory and is well formed. RCLAIM takes
granules when there is room, at once or from the queue, and answers the claim; RCOMMIT marks its granules and moves
TAIL over every granule committed without a gap; RAWAIT answers HEAD once TAIL is far enough; RRETIRE moves HEAD; PUTQ
claims its granules. Where the spec leaves a point open it follows the model's choice or reading: log 26. -/
def Obligations.RingForms : Prop :=
  ∀ (s : State) (rid : Nat) (r : Req) (d : Ring) (i : Instr),
    let home := s.homeDie r.pa
    let done := fun (stage : ReqStage) (d' : Ring) => ∃ t, exec i s = .next t ∧
      t = { s with mem := t.mem, memBad := t.memBad, reqs := t.reqs, cores := t.cores, dies := t.dies,
                   passed := t.passed } ∧ (∀ y, t.die y = s.die y) ∧
      t.readRing r.pa = (d', false) ∧
      (∀ a, a < r.pa ∨ r.pa + 128 ≤ a → t.mem.read a = s.mem.read a) ∧
      ∀ k, Tbl.get? t.reqs k = if k = rid then some { r with stage := stage } else Tbl.get? s.reqs k
    Tbl.get? s.reqs rid = some r → r.sp = false → r.order = 0 → s.inTurn rid r = true → s.names r.pa = true →
    paSpace r.pa = 0 → r.pa % 128 = 0 → s.homeOpen r.pa = true → s.firstFor r.pa = none → s.stackLost r.pa = false →
    home = r.core / 96 → paPkg r.pa = r.core / 384 → s.mem.wf = true →
    s.l2 home (r.pa / 64) = none → s.l2 home (r.pa / 64 + 1) = none →
    (∀ e ∈ s.packets, e.2.cargo ≠ .request rid) → s.readRing r.pa = (d, false) → d.ok = true → d.claim + r.m < 2 ^ 64 →
    0 < r.m →
    (i = .homeRequest rid ∧ r.stage = .issued ∧ r.far = true ∨
      (i = if r.kind = .rawait then .rawaitWake rid else .ringSpaceGrant rid) ∧ ∃ k, r.stage = .queued k) →
    (∀ e ∈ s.reqs, e.2.pa = r.pa → e.1 ≠ rid → ∀ k, e.2.stage ≠ .queued k) →
    (∀ e ∈ s.jobs, e.2.ringWait = none) →
    (r.kind = .rclaim → r.m ≤ 512 → r.m ≤ 2 ^ d.log → d.claim + r.m - d.head ≤ 2 ^ d.log →
      d.claim + r.m - d.tail ≤ 512 → done (.performed d.claim false) { d with claim := d.claim + r.m }) ∧
    (r.kind = .rawait → r.m ≤ 2 ^ d.log → r.m ≤ d.tail - d.head → done (.performed d.head false) d) ∧
    (r.kind = .putq → d.claim + (r.m + 63) / 64 - d.head ≤ 2 ^ d.log → d.claim + (r.m + 63) / 64 - d.tail ≤ 512 →
      done (.claimed d.claim 0 none none) { d with claim := d.claim + (r.m + 63) / 64 }) ∧
    (i = .homeRequest rid → r.kind = .rretire → d.head + r.m ≤ d.tail →
      done (.performed 0 false) { d with head := d.head + r.m }) ∧
    (i = .homeRequest rid → r.kind = .rcommit → r.m ≤ 512 → d.tail ≤ r.m2 → r.m2 + r.m ≤ d.claim →
      (∀ j, r.m2 ≤ j → j < r.m2 + r.m → d.bit j = false) →
      ∃ d', done (.performed 0 false) d' ∧ d' = { d with tail := d'.tail, window := d'.window } ∧
        let marked := fun (j : Nat) => j < d.claim ∧ (d.bit j = true ∨ r.m2 ≤ j ∧ j < r.m2 + r.m)
        d.tail ≤ d'.tail ∧ (∀ j, d.tail ≤ j → j < d'.tail → marked j) ∧ ¬ marked d'.tail ∧
        ∀ j, d'.tail ≤ j → j < d.tail + 512 → (d'.bit j = true ↔ marked j))

/-- R320 to R322: a page walk that waited for a stack completes once it is steady: the translation that the tables give
stands in the die's TLB with the stack's owner and the seal summary of its page, and the die's walks of the page are gone. A walk through four valid table entries to a leaf
at level 0 gives the page of 4 KiB with the leaf's permissions and attributes. Where the spec leaves a point open it follows the model's choice or reading: log 20. -/
def Obligations.TranslationFills : Prop :=
  (∀ (s : State) (w : Nat) (k : Walk) (pa h : Nat) (e : TlbEntry), Tbl.get? s.walks w = some k →
    s.walk k.va.toNat 4 s.ptRoot.toNat = .ok pa e → e.home = some h → (s.stack h).st = .steady →
    s.walks.length ≤ 64 →
    let f := { e with owner := 4 * (h / 8) + (s.stack h).owner, anySealed := s.sealSummary e.va e.size }
    let t := { s with
      walks := s.walks.filter (fun v => !(v.2.die == k.die && v.2.va.toNat / 4096 == k.va.toNat / 4096))
      dies := Tbl.put s.dies k.die { s.die k.die with tlb := (f :: (s.die k.die).tlb.erase f).take 16384 } }
    (k.fill = false → exec (.pageWalk w) s = .next t) ∧ (k.fill = true → exec (.tlbFill w) s = .next t)) ∧
  (∀ (s : State) (va : Nat) (table : Nat → Nat) (p : Nat → Pte),
    let ix := fun (n : Nat) => va / 2 ^ (12 + 9 * n) % 512
    (∀ n, n < 5 → s.readPte (table n + 8 * ix n) = some (p n, false) ∧ (p n).raw.testBit 0 = true ∧
      (p n).raw / 2 ^ 52 = 0 ∧ (p n).raw / 2 ^ 9 % 8 = 0 ∧ s.names (p n).pa = true) →
    (∀ n, n < 4 → table n = (p (n + 1)).raw / 2 ^ 12 % 2 ^ 40 * 4096 ∧ (p (n + 1)).raw / 2 % 2 ^ 8 = 0) →
    (p 0).raw.testBit 1 = true → (p 0).raw.testBit 8 = false →
    let base := (p 0).raw / 2 ^ 12 % 2 ^ 40 * 4096
    let bit := fun (n : Nat) => (p 0).raw.testBit n
    s.walk va 4 (table 4) = .ok (base + va % 4096)
      ⟨va - va % 4096, 4096, base, bit 2, bit 3, bit 4, bit 5, bit 6, bit 7,
        if base / 2 ^ 36 % 32 = 0 then some (8 * (base / 2 ^ 44) + base / 2 ^ 41 % 8) else none, 0, false⟩)

/-! ## The ends of waits (R68, R69, R72, R73, R80, R137, R140) -/

namespace Sys2Proof.Claims

/-- Wait w of group j, which is g, is x; the group is resident on its core and no pre-emption has stopped it. -/
structure Waits (s : State) (j w : Nat) (g : Group) (x : GWait) : Prop where
  group : s.grp j = some g
  wait : Tbl.get? g.waits w = some x
  here : g.residence = .resident
  runs : g.halted = false
  nodup : (x.sigs.map (·.t)).Nodup

/-- Thread th has become th' by going on at the word after the one at at_, its names but those in gone as they were,
which read zero, and its tokens raised by n. -/
def GoesOn (hm : Bool) (th th' : Thread) (at_ : Ctx) (gone : Nat → Prop) (n : Nat) : Prop :=
  th'.pc = at_.next ∧ th'.place = .ready ∧ th'.rng = th.rng ∧
  (th'.tok = if n = 0 then th.tok else th.tok.set at_.tok (th.token at_.tok + n)) ∧
  (∀ k, (gone k → th'.lane hm k = 0) ∧ (¬ gone k → th'.lane hm k = th.lane hm k)) ∧
  ∀ k, k < 7 → th'.pred hm k = th.pred hm k

/-- The entering threads of group j, which is g, as a wait of it ends: where it has stopped at a fault that a handler may
take, they are fixed by then (R341). -/
def entrants (s : State) (j : Nat) (g : Group) : Option (List Nat) := ((s.fixEntering j).grp j).elim g.entering (·.entering)

/-- o is the machine B after wait w of group j of s, which is x, has ended: the group is G without the wait, each signer
that lives goes on at the word after its own with its tokens raised by n, and nothing else changes, but that the entering
threads of a stopped group are fixed. -/
def Woken (s B : State) (o : Outcome) (j w : Nat) (g G : Group) (x : GWait) (n : Nat) : Prop :=
  ∃ t g', o = .next t ∧ B.Beside t j ∧ t.grp j = some g' ∧
    g' = { G with
      waits := Tbl.del g.waits w, threads := g'.threads, retired := g'.retired, entering := entrants s j g } ∧
    (∀ y, y ∉ x.sigs.map (·.t) → Tbl.get? g'.threads y = Tbl.get? g.threads y) ∧
    ∀ y ∈ x.sigs.map (·.t), ∀ th, Tbl.get? g.threads y = some th →
      ∃ th', Tbl.get? g'.threads y = some th' ∧ GoesOn (g.inHandler y) th th' x.at_ (fun _ => False) n

/-- The SFENCE that ends wait x of group j can complete (R115). -/
def Settles (s : State) (j : Nat) (x : GWait) : Prop := FencedBy s j (x.sigs.map (·.t))

end Sys2Proof.Claims

/-- R68, R69: a barrier whose phase differs from the group's target, or that has completed since the wait began, ends the
group's BARWAIT, and the first such barrier of a WAITANY's mask from the rotating start ends that; the target follows and
the operand-cache generation advances. Where there is none, or the SFENCE that follows cannot complete, the wait stays. -/
def Sys2Proof.Claims.BarrierWakes : Prop :=
  ∀ (s : State) (j w : Nat) (g : Group) (x : GWait) (tm : Nat) (h : Hd) (d a b : Field),
    let pass := s.advanceGen tm (s.teamCore g)
    let at_ := fun (i : Nat) => 8 * b.toNat + i
    let phase := fun (i : Nat) => (s.bar tm i).phase
    let ends := fun (i : Nat) => phase i ≠ g.tgt.getLsbD i ∨ i ∈ x.met
    let hit := fun (mask i : Nat) => mask.testBit i = true ∧ ends (at_ i)
    Waits s j w g x → g.team = some tm → s.parkable g = false →
    (x.kind = .barrier d.toNat → x.i = .barwait h d ∨ x.i = .bararrw h d →
      (ends d.toNat → Settles s j x → Woken s pass (exec (.barrierWake j w) s) j w g
        { g.setTgt d.toNat (phase d.toNat) with recovering := false } x 0) ∧
      (¬ ends d.toNat ∨ ¬ Settles s j x → exec (.barrierWake j w) s = .next s)) ∧
    (∀ mask, x.kind = .any mask → x.i = .waitany h d a b →
      (∀ k low, k < 8 → hit mask ((g.rot + k) % 8) → (∀ m, m < k → ¬ hit mask ((g.rot + m) % 8)) → Settles s j x →
        (x.sigs.map (·.t)).head? = some low →
        let i := (g.rot + k) % 8
        Woken s pass (exec (.waitanyWake j w) s) j w g
          { (g.setTgt (at_ i) (phase (at_ i))).wsFor low d.toNat [BitVec.ofNat 32 (at_ i)] with
            rot := (i + 1) % 8, recovering := false } x 0) ∧
      ((∀ i, i < 8 → ¬ hit mask i) ∨ ¬ Settles s j x → exec (.waitanyWake j w) s = .next s))

/-- R72, R73, R80, R223: freed rows serve the one claim that waits on a core and fits, where no kindled group waits for
its share, the new names reading zero in every thread; DBAR_RELEASE lets a waiter go on whose round every group of the launch's
teams on the die has executed, once the SFENCE that follows can complete, and no other; JOINW goes on when its counter reads zero, and waits on while it does not. -/
def Sys2Proof.Claims.RowDieAndJoinWakes : Prop :=
  (∀ (s : State) (j w n : Nat) (g : Group) (x : GWait) (h : Hd) (b : Field), Waits s j w g x → x.kind = .claim n →
    x.i = .regclm h b → n ≤ s.freeRows g.core → (∀ e ∈ s.groups, e.2.share = none) →
    (∀ e ∈ s.groups, ∀ v ∈ e.2.waits, ∀ m, v.2.kind = .claim m → e.1 = j ∧ v = (w, x)) →
    ∃ t g', exec (.regclmServe g.core) s = .next t ∧ (s.useSpare g.core n 0).Beside t j ∧ t.grp j = some g' ∧
      g' = { g with
        ceil := g.ceil + n, resv := g.resv + n, waits := Tbl.del g.waits w, threads := g'.threads, retired := g'.retired
        entering := entrants s j g } ∧
      ∀ y th, Tbl.get? g.threads y = some th → ∃ th', Tbl.get? g'.threads y = some th' ∧
        let hm := g.inHandler y
        let gone := fun (k : Nat) => g.ceil ≤ k ∧ (hm = true → k < 112)
        (y ∈ x.sigs.map (·.t) → GoesOn hm th th' x.at_ gone 0) ∧
        (y ∉ x.sigs.map (·.t) → th'.pc = th.pc ∧ th'.place = th.place ∧
          ∀ k, (gone k → th'.lane hm k = 0) ∧ (¬ gone k → th'.lane hm k = th.lane hm k))) ∧
  (∀ (s : State) (j w : Nat) (g : Group) (x : GWait) (h : Hd), Waits s j w g x → x.kind = .dbar → x.i = .dbar h →
    g.waits = [(w, x)] → (s.groups.map (·.1)).Nodup →
    let peer := fun (e : Nat × Group) => e.2.lseq = g.lseq ∧ e.2.team.isSome = true ∧ e.2.core / 96 = g.core / 96
    let o := exec (.dbarRelease g.lseq (g.core / 96)) s
    ((∀ e ∈ s.groups, peer e → g.dbars ≤ e.2.dbars) → Settles s j x → ∃ t g', o = .next t ∧ t.mem = s.mem ∧ t.grp j = some g' ∧
      g' = { g with waits := [], threads := g'.threads, retired := g'.retired, entering := entrants s j g } ∧
      ∀ y ∈ x.sigs.map (·.t), ∀ th, Tbl.get? g.threads y = some th →
        ∃ th', Tbl.get? g'.threads y = some th' ∧ GoesOn (g.inHandler y) th th' x.at_ (fun _ => False) 0) ∧
    ((∃ e ∈ s.groups, peer e ∧ e.2.dbars < g.dbars) ∨ ¬ Settles s j x → ∃ t, o = .next t ∧ t.grp j = some g)) ∧
  (∀ (s : State) (j y : Nat) (g : Group) (th : Thread) (a : Dword) (at_ : Ctx) (h : Hd) (wt : Watch) (dead : List Nat)
      (e : TlbEntry),
    let pa := e.pa + (a.toNat - e.va)
    let o := exec (.joinwWake j y) s
    let B := s.useTlb g.core e
    s.grp j = some g → Tbl.get? g.threads y = some th → th.place = .waiting (.join a) at_ h wt dead →
    g.residence = .resident → g.halted = false → Mapped s g.core a.toNat .read e → s.homeDie pa = g.core / 96 →
    (∀ p ∈ s.passed, p.agent ≠ .thread j y) → s.firstFor pa = none →
    s.homeOpen pa = true → paSpace pa = 0 → pa % 8 = 0 → s.l2 (g.core / 96) (pa / 64) = none →
    (∀ v ∈ s.memBad, v / 16 ≠ pa / 64) → s.remoteLines (g.core / 96) = [] →
    s.settled (g.core / 96) pa = true →
    ((∀ i, i < 8 → s.mem.read (pa + i) = 0) → ∃ t g' th', o = .next t ∧ B.Beside t j ∧ t.grp j = some g' ∧
      { g with entering := entrants s j g }.SameBut g' ∧ (∀ z, z ≠ y → Tbl.get? g'.threads z = Tbl.get? g.threads z) ∧ Tbl.get? g'.threads y = some th' ∧
      GoesOn (g.inHandler y) th th' at_ (fun k => at_.dead = true ∧ k ∈ dead) 0) ∧
    ((∃ i, i < 8 ∧ s.mem.read (pa + i) ≠ 0) → o = .next B))

/-- R68, R69, R72, R73, R80: the waits of threads and groups end. Where the spec leaves a point open it follows the model's choice or reading: logs 16, 19, 100. -/
def Obligations.Wakes : Prop := Claims.BarrierWakes ∧ Claims.RowDieAndJoinWakes

/-- R137, R235, R140, R141: a returned accumulator slot binds the one handle that waits on a core, and its operation is
accepted; a freed job-table entry accepts the one copy that waits on a core, its identifier in the destination
register. Where the spec leaves a point open it follows the model's choice or reading: log 37. -/
def Obligations.SlotAndEntryGrants : Prop :=
  (∀ (s : State) (j w n : Nat) (rest : List Nat) (g : Group) (x : GWait) (m : Mop), Waits s j w g x → x.kind = .bind m →
    onceDead x.i = [] → m.core = g.core → m.g = j → m.sigs = x.sigs.map (·.t) → m.tok = x.at_.tok →
    (∀ d sel, m.kind ≠ .accrd d sel) → m.kind ≠ .accst → (s.core g.core).mops.length + (s.mopsBack g.core).length < 8 →
    (s.core g.core).accFree = n :: rest →
    (∀ e ∈ s.groups, ∀ v ∈ e.2.waits, ∀ q, v.2.kind = .bind q → e.1 = j ∧ v = (w, x)) →
    Woken s (withMop (withSlot s g.core n rest) g.core m) (exec (.handleBindServe g.core) s) j w g
      { g with acc := Tbl.put g.acc m.h n } x 1) ∧
  (∀ (s : State) (j w n : Nat) (rest : List Nat) (g : Group) (x : GWait) (h : Hd) (d a b : Field) (desc : List Word)
      (foot : Foot) (low : Nat),
    Waits s j w g x → x.kind = .entry desc foot → (x.sigs.map (·.t)).head? = some low → x.i = .cpy h d a b → (s.core g.core).jobFree = n :: rest →
    (∀ e ∈ s.groups, ∀ v ∈ e.2.waits, ∀ q f, v.2.kind = .entry q f → e.1 = j ∧ v = (w, x)) →
    let key := 32 * g.core + n
    let old := (Tbl.get? s.jobs key).elim 0 (·.issues)
    ∃ jb : Job,
      jb.kind = .cpy ∧ jb.issues = old + 1 ∧ jb.desc = desc ∧ jb.team = g.team ∧ jb.g = j ∧ jb.bytes = 0 ∧ jb.next = 0 ∧
      jb.barrier = (if b.toNat < 16 then some b.toNat else none) ∧
      jb.reads = foot.reads ∧ jb.writes = foot.writes ∧
      jb.state = (if jb.waits = [] then .running else .waiting) ∧
      Woken s { s with
          jobs := Tbl.put s.jobs key jb
          fresh := s.fresh + 1
          cores := Tbl.put s.cores g.core { s.core g.core with jobFree := rest } }
        (exec (.jobTableEntryGrant g.core) s) j w g
        (g.wsFor low d.toNat [BitVec.ofNat 32 (n % 32 + (old + 1) % 2 ^ 27 * 32)]) x 0)

/-! ## The sequencer and the engines at work (R132, R136, R138, R142, R144, R146, R231, R266, R272, R371 to R375) -/

namespace Sys2Proof.Claims

/-- Matrix operation id is m, to which the engine of its core turns next, no power limit leaving the step empty, of group g
that no pre-emption has stopped; its handle is slot n; team tm holds the group's scratchpad, at place q, with no poisoned byte, and the operand cache holds what the scratchpad
holds. -/
structure Operates (s : State) (id : Nat) (m : Mop) (g : Group) (n k q : Nat) (tm : Team) : Prop where
  held : Tbl.get? s.mops id = some m
  next : s.mopNext m.core = some id
  power : s.throttled m.core = false
  group : s.grp m.g = some g
  runs : g.halted = false
  slot : Tbl.get? g.acc m.h = some n
  team : g.team = some k ∧ Tbl.get? s.teams k = some tm
  place : q = s.teamCore g ∧ q < tm.scratch.length
  whole : (s.slot m.core n).bad = [] ∧ tm.scratchBad.getD q [] = []
  cached : ∀ e ∈ (s.core m.core).opcache, e.team = k → e.gen = tm.gens.getD q 0 → ∀ i, i < 32 →
    e.bytes.getD i 0 = Memory.read (tm.scratch.getD q []) (e.off + i)

/-- From s to t, operation id has ended: it has left the core's list, and the tokens of its signers that live stand one
lower. -/
def MopEnds (s t : State) (id : Nat) (m : Mop) (g : Group) : Prop :=
  Tbl.get? t.mops id = none ∧ (∀ k, k ≠ id → Tbl.get? t.mops k = Tbl.get? s.mops k) ∧
  id ∉ (t.core m.core).mops ∧
  ∃ g', t.grp m.g = some g' ∧ ∀ y th, Tbl.get? g.threads y = some th → ∃ th', Tbl.get? g'.threads y = some th' ∧
    th'.pc = th.pc ∧ th'.place = th.place ∧ (∀ k, th'.rd (g.inHandler y) k = th.rd (g.inHandler y) k) ∧
    th'.tok = if y ∈ m.sigs then th.tok.set m.tok (th.token m.tok - 1) else th.tok

end Sys2Proof.Claims

/-- R132, R133, R231: one chunk step of TMMA or TMMAT adds to each element of the tile the single-precision rounding of
the exact sum of the chunk's products, over at most 32 columns; the last step ends the operation. -/
def Sys2Proof.Claims.MatrixChunkStep : Prop :=
  ∀ (s : State) (id : Nat) (m : Mop) (g : Group) (n k q : Nat) (tm : Team) (tr : Bool),
    let a : OpMap := m.mapA
    let b : OpMap := m.mapB
    let byte := Memory.read (tm.scratch.getD q [])
    let lo := 32 * m.chunk
    let width := min 32 (a.cols - lo)
    let product := fun (i j x : Nat) => (a.value (fmtA m.fmt) i (lo + x) byte).mul (b.value (fmtB m.fmt) j (lo + x) byte)
    let base := fun (i j : Nat) => if m.clear = true ∧ m.cleared = false then 0 else (s.slot m.core n).at_ i j
    let new := fun (i j : Nat) => fadd (base i j) (toF32 (chunkSum ((List.range width).map
      (if tr then product j i else product i j))))
    Operates s id m g n k q tm → m.kind = .tmma tr → lo < a.cols → a.rows ≤ 64 → b.rows ≤ 64 → m.sigs.Nodup → m.tok < 4 →
    ∃ t, exec (.tmmaChunkStep id) s = .next t ∧
      t = { s with mops := t.mops, groups := t.groups, cores := t.cores } ∧
      (∀ i j, i < 64 → j < 64 → (t.slot m.core n).at_ i j =
        if (if tr then j < a.rows ∧ i < b.rows else i < a.rows ∧ j < b.rows) then new i j else base i j) ∧
      (t.core m.core).counters = (s.core m.core).counters.set 7 (((s.core m.core).counters.getD 7 0 + 1) % 2 ^ 64) ∧
      (lo + 32 < a.cols → Tbl.get? t.mops id = some { m with chunk := m.chunk + 1, cleared := true } ∧
        t.groups = s.groups) ∧
      (a.cols ≤ lo + 32 → MopEnds s t id m g)

/-- R136, R138: each accumulator form runs whole and ends. ACCZERO zeroes its handle, ACCSCL scales it, ACCADD adds
another handle's elements to it or, with the clear bit, to zero, ACCRD writes one element to the uniform register that its
signers name, ACCLD
enters the decoded elements of a map, ACCREL returns the slot to the tail of the free list, and ACCST leaves the handle
as it is and stores the tile through the map. -/
def Sys2Proof.Claims.AccumulatorForms : Prop :=
  ∀ (s : State) (id : Nat) (m : Mop) (g : Group) (n k q : Nat) (tm : Team),
    let old := (s.slot m.core n).at_
    let map : OpMap := m.mapA
    let byte := Memory.read (tm.scratch.getD q [])
    let ends := fun (P : State → Prop) => ∃ t, exec (.accumulatorFormComplete id) s = .next t ∧ MopEnds s t id m g ∧
      t = { s with mops := t.mops, groups := t.groups, cores := t.cores, teams := t.teams } ∧ P t
    let low := m.sigs.headD 0
    let seen := fun (x : Group) => if g.handling = true ∧ g.inHandler low = false then { x with handler := none } else x
    let element := fun (E : Nat → Nat → Word) => ends (fun t => t.teams = s.teams ∧
      ∀ i j, i < 64 → j < 64 → (t.slot m.core n).at_ i j = E i j)
    Operates s id m g n k q tm → m.sigs.Nodup → m.tok < 4 →
    (m.kind = .acczero → element (fun _ _ => 0)) ∧
    (∀ x, m.kind = .accscl x → element (fun i j => fmul (old i j) x)) ∧
    (∀ src o, m.kind = .accadd src → Tbl.get? g.acc src = some o → (s.slot m.core o).bad = [] →
      element (fun i j => fadd (if m.clear then 0 else old i j) ((s.slot m.core o).at_ i j))) ∧
    (∀ d sel, m.kind = .accrd d sel → ends (fun t => t.teams = s.teams ∧
      ∃ g', t.grp m.g = some g' ∧ ∀ x, (seen g').rs x =
        if x = d then old (sel.toNat % 64) (sel.toNat / 256 % 64) else (seen g).rs x)) ∧
    (m.kind = .accrel → ends (fun t => t.teams = s.teams ∧
      (t.core m.core).accFree = (s.core m.core).accFree ++ [n] ∧
      ∃ g', t.grp m.g = some g' ∧ Tbl.get? g'.acc m.h = none ∧ ∀ h, h ≠ m.h → Tbl.get? g'.acc h = Tbl.get? g.acc h)) ∧
    (m.kind = .accld → map.rows ≤ 64 → map.cols ≤ 64 → element (fun i j =>
      if i < map.rows ∧ j < map.cols then toF32 (map.value (fmtOut m.fmt) i j byte)
      else if m.clear then 0 else old i j)) ∧
    (m.kind = .accst → ends (fun t => (t.slot m.core n).at_ = old ∧
      t.teams = (s.storeTile k q map m.fmt (BitVec.ofNat 64 (joinWords m.mapB)) (s.slot m.core n)).teams))

/-- R126, R231: the engine of a core turns to the operations that can take a step in their order of acceptance, from the
one after the last that took one: operation id is next where it can, and no such one stands between them, nor, where it
was accepted no later than the last, after the last; but where after that step another could no longer take its own within
8, the operation goes first that has let most steps pass. An operation cannot while an earlier one of its group names a
handle of it, nor an ACCST or ACCLD while an earlier scratchpad store or ACCST of the group is to be performed; a turn of
another changes nothing, nor does a chunk step that a power limit leaves empty (R388). -/
def Sys2Proof.Claims.MatrixTurns : Prop :=
  ∀ (s : State) (id : Nat) (m : Mop),
    let list := (s.core m.core).mops
    let last := (s.core m.core).mopLast
    let runs := fun (e : Nat) => e ∈ list ∧ ∃ q, Tbl.get? s.mops e = some q ∧ s.mopRuns e q = true
    Tbl.get? s.mops id = some m →
    let turn := fun (n : Nat) => runs n ∧ (last < n → ∀ e, runs e → last < e → n ≤ e) ∧
      (n ≤ last → ∀ e, runs e → e ≤ last ∧ n ≤ e)
    let late := fun (n k : Nat) => (s.mopsRun m.core).countP (fun e => e ≠ n && decide (7 ≤ Tbl.getD (s.core m.core).mopWait e 0 + k))
    (list.Pairwise (· < ·) → (∀ e, e ∈ s.mopsRun m.core ↔ runs e) ∧
      (∀ n, turn n → (∀ k, k < 8 → late n k ≤ k) → s.mopNext m.core = some n) ∧
      (∀ n e, turn n → (∃ k, k < 8 ∧ k < late n k) → s.mopNext m.core = some e →
        runs e ∧ ∀ x, runs x → Tbl.getD (s.core m.core).mopWait x 0 ≤ Tbl.getD (s.core m.core).mopWait e 0)) ∧
    ((∃ e q, e < id ∧ Tbl.get? s.mops e = some q ∧
      q.g = m.g ∧ q.tok ≠ 4 ∧ ∃ h ∈ m.handles, q.names h = true) → s.mopRuns id m = false) ∧
    (m.kind = .accst ∨ m.kind = .accld →
      (∃ e ∈ s.reqs, e.1 < id ∧ e.2.g = m.g ∧ e.2.sp = true ∧ e.2.writes = true ∧ e.2.isDone = false) ∨
        (∃ e ∈ s.mops, e.1 < id ∧ e.2.g = m.g ∧ e.2.kind = .accst) → s.mopRuns id m = false) ∧
    (s.throttled m.core = true → exec (.tmmaChunkStep id) s = .next s) ∧
    (s.mopNext m.core ≠ some id →
      exec (.tmmaChunkStep id) s = .next s ∧ exec (.accumulatorFormComplete id) s = .next s)

/-- R126, R132, R133, R136, R138, R231: the steps of the matrix engine. Where the spec leaves a point open it follows the model's choice or reading: logs 27, 65, 96, 100. -/
def Obligations.MatrixSteps : Prop := Claims.MatrixChunkStep ∧ Claims.AccumulatorForms ∧ Claims.MatrixTurns

namespace Sys2Proof.Claims

/-- From s, the machine goes to s with job key changed to j. -/
def JobStep (s : State) (o : Outcome) (key : Nat) (j : Job) : Prop :=
  ∃ t, o = .next t ∧ t = { s with jobs := t.jobs } ∧
    ∀ k, Tbl.get? t.jobs k = if k = key then some j else Tbl.get? s.jobs k

/-- Element i of a copy has the indexes i0 to i3 of its four dimensions, the first running fastest (R142). -/
def indexes (d : Desc) (i : Nat) : Nat × Nat × Nat × Nat :=
  (i % d.n0, i / d.n0 % d.n1, i / (d.n0 * d.n1) % d.n2, i / (d.n0 * d.n1 * d.n2))
/-- The source address of element i of a copy (R142). -/
def source (d : Desc) (i : Nat) : Nat :=
  let (a, b, c, e) := indexes d i
  ((d.q 0 + a * d.ses + b * d.i32 6 + c * d.i32 7 + e * d.i32 8) % 2 ^ 64).toNat
/-- The destination address of element i of a copy, its offset in dimension 0 swizzled by its index in dimension 1
(R142). -/
def destination (d : Desc) (i : Nat) : Nat :=
  let (a, b, c, e) := indexes d i
  let y := a * d.des
  ((d.q 2 + (16 * ((y / 16) ^^^ (b % 2 ^ d.swz)) + y % 16 : Nat) + b * d.i32 9 + c * d.i32 10 + e * d.i32 11) % 2 ^ 64).toNat

/-- Job key of core key / 32 is j, running, neither paused nor failing nor with a destination that lags nor with a request
on another package, the only running job of its core; its team's scratchpad on that core is at place q, with no poisoned byte, and the unit of its source that
it has read holds what the scratchpad holds. -/
structure Runs (s : State) (key : Nat) (j : Job) (k q : Nat) (tm : Team) : Prop where
  held : Tbl.get? s.jobs key = some j
  state : j.state = .running
  free : j.paused = none ∧ j.failing = none ∧ j.lags = [] ∧ j.trips = []
  alone : ∀ e ∈ s.jobs, e.1 / 32 = key / 32 → e.2.state = .running → e.1 = key ∧ e.2 = j
  team : j.team = some k ∧ Tbl.get? s.teams k = some tm
  place : q = tm.cores.findIdx (· = key / 32) ∧ q < tm.scratch.length
  whole : tm.scratchBad.getD q [] = []
  form : Memory.wf (tm.scratch.getD q []) = true
  unit : ∀ u b, j.unit = some (u, b) → b = (List.range 16).map (fun i => some (Memory.read (tm.scratch.getD q []) (u + i)))

/-- o is the machine after a request of a job within the scratchpad at place q of team k: the job is j', the scratchpad
meets P, and nothing else changes but counters of the cores and which job their engines served last. -/
def Moved (s : State) (key k q : Nat) (tm : Team) (o : Outcome) (j' : Job) (P : Memory → Prop) : Prop :=
  ∃ t tm', o = .next t ∧ t = { s with jobs := t.jobs, teams := t.teams, cores := t.cores } ∧
    (∃ u, ∀ x, Tbl.get? t.jobs x = if x = key then some { j' with unit := u } else Tbl.get? s.jobs x) ∧
    (∀ x, { t.core x with
      counters := (s.core x).counters, copyLast := (s.core x).copyLast, gathLast := (s.core x).gathLast } = s.core x) ∧
    (∀ x, x ≠ k → Tbl.get? t.teams x = Tbl.get? s.teams x) ∧ Tbl.get? t.teams k = some tm' ∧
    tm' = { tm with scratch := tm'.scratch, scratchBad := tm'.scratchBad } ∧
    (∀ p, p ≠ q → tm'.scratch.getD p [] = tm.scratch.getD p []) ∧ P (tm'.scratch.getD q [])

end Sys2Proof.Claims

/-- R142, R144, R147, R263: a request of a copy within a scratchpad moves elements in order, as long as they go to one line
of 64 bytes and 64 at the most, where none goes to a 16-byte unit of their source; a request of a gather copies the row
that its index names, from the byte reached, up to the end of a line of the buffer, zeros where the index is out of range;
a request of a scatter copies from the buffer to the row, up to the end of a line of the row, and passes over an element
whose index is out of range; each index out of range counts one range error, and an index is read once for its element. -/
def Sys2Proof.Claims.EngineRequests : Prop :=
  ∀ (s : State) (key : Nat) (j : Job) (k q : Nat) (tm : Team), Runs s key j k q tm →
    let d : Desc := j.desc
    let m := tm.scratch.getD q []
    let o := exec (.engineJobRequest key) s
    let size := s.jobSize j
    let entry := d.q 0 + j.next * d.idxBytes
    let index := j.index.getD (number m entry d.idxBytes)
    let out := d.rows ≤ index
    let buf := (d.q 4 + j.next * d.bstride + j.off) % 2 ^ 64
    let tab := (d.q 2 + index * d.tstride + j.off) % 2 ^ 64
    let left := d.gsize - j.off
    let after := fun (n bytes : Nat) =>
      let ends := d.gsize ≤ j.off + n
      { j with
        next := if ends then j.next + 1 else j.next
        off := if ends then 0 else j.off + n
        index := if ends then none else some index
        bytes := j.bytes + bytes
        seq := j.seq + (if bytes = 0 then 0 else 1)
        range := if out ∧ j.off = 0 then j.range + 1 else j.range }
    let copies := fun (dst len : Nat) (byte : Nat → Byte) (m' : Memory) =>
      ∀ x, m'.read x = if dst ≤ x ∧ x < dst + len then byte (x - dst) else m.read x
    let inside := d.idxSp = true ∧ d.tabSp = true ∧ d.bufSp = true ∧ d.ring = false ∧ j.next < d.count ∧
      j.off < d.gsize ∧ (j.index = none → entry + d.idxBytes ≤ size)
    (j.kind = .cpy → d.srcSp = true → d.dstSp = true → d.mck = 0 →
      ∀ count, 0 < count → count ≤ 64 → j.next + count ≤ d.elems →
        (∀ i, i + 1 < count → destination d (j.next + i) / 64 = destination d (j.next + i + 1) / 64) →
        (count = 64 ∨ j.next + count = d.elems ∨
          destination d (j.next + count - 1) / 64 ≠ destination d (j.next + count) / 64) →
        (∀ i, i < count → source d (j.next + i) + d.ses ≤ size ∧ destination d (j.next + i) + d.des ≤ size) →
        (∀ i l x y, i < count → l < count → x < d.ses → y < d.des →
          (source d (j.next + i) + x) / 16 ≠ (destination d (j.next + l) + y) / 16) →
        Moved s key k q tm o { j with next := j.next + count, bytes := j.bytes + count * d.des, seq := j.seq + count }
          (fun m' => m' = (List.range count).foldl (fun n i => n.writeBytes (destination d (j.next + i))
            (d.convertElem (m.readBytes (source d (j.next + i)) d.ses))) m)) ∧
    (j.kind = .gath → inside →
      let len := min left (64 - buf % 64)
      buf + len ≤ size → (¬ out → tab + len ≤ size) →
      Moved s key k q tm o (after len len) (copies buf len (fun i => if out then 0 else m.read (tab + i)))) ∧
    (j.kind = .scat → inside →
      let len := min left (64 - tab % 64)
      (¬ out → buf + len ≤ size → tab + len ≤ size →
        Moved s key k q tm o (after len len) (copies tab len (fun i => m.read (buf + i)))) ∧
      (out → Moved s key k q tm o (after left 0) (fun m' => m' = m)))

/-- R146, R266, R272, R273: a job whose overlaps have ended starts; a job whose requests are all served completes, its
entry joins the free order, and its byte arrival reaches its barrier's unit, to be applied with the cycle; a job without a barrier completes alike; a
paused job tries its request again after an invalidation of the page, and not before, and so does a destination of a
multicast that lags (R274). -/
def Sys2Proof.Claims.EngineJobSteps : Prop :=
  ∀ (s : State) (key : Nat) (j : Job), Tbl.get? s.jobs key = some j →
    let core := key / 32
    let freed := fun (t : State) => (t.core core).jobFree = (s.core core).jobFree.filter (· ≠ key % 32) ++ [key % 32] ∧
      (∃ j', Tbl.get? t.jobs key = some j' ∧ j'.state = .complete ∧ j'.bytes = j.bytes) ∧
      ∀ x jx, Tbl.get? s.jobs x = some jx → x ≠ key → ∃ jx', Tbl.get? t.jobs x = some jx' ∧
        jx'.waits = jx.waits.filter (· ≠ key)
    (j.state = .waiting →
      (j.waits = [] → JobStep s (exec (.jobStart key) s) key { j with state := .running }) ∧
      (j.waits ≠ [] → JobStep s (exec (.jobStart key) s) key j)) ∧
    (j.state = .running → j.total ≤ j.next → (∀ l ∈ j.lags, l.queue = []) → j.failing = none →
      s.jobOut key j.born = false →
      (∀ (k b : Nat) (tm : Team), j.team = some k → j.barrier = some b → Tbl.get? s.teams k = some tm →
        tm.ended = false → s.remoteLines (tm.cores.getD 0 0 / 96) = [] → s.backOut (tm.cores.getD 0 0 / 96) = false →
        ∃ t, exec (.jobComplete key) s = .next t ∧ freed t ∧ t.mem = s.mem ∧
          Tbl.get? t.teams k = some { tm with due := tm.due ++ [⟨b, some j.bytes, 2 ^ 16 * (key % 32) + core⟩] } ∧
          ∀ c n, c / 96 = tm.cores.getD 0 0 / 96 → Tbl.get? (t.core c).l1 n = none) ∧
      (j.barrier = none → ∃ t, exec (.jobComplete key) s = .next t ∧ freed t ∧
        t = { s with jobs := t.jobs, cores := t.cores, passed := t.passed })) ∧
    (j.paused = none → (∃ l ∈ j.lags, l.retry = true) → JobStep s (exec (.jobFaultRetry key) s) key { j with
      lags := j.lags.map (fun l => if l.retry then { l with paused := none, retry := false } else l) }) ∧
    (∀ va, j.paused = some va → (∀ l ∈ j.lags, l.retry = false) →
      (j.retry = true → ∃ t, exec (.jobFaultRetry key) s = .next t ∧ exec (.engineJobRequest key)
        { s with jobs := Tbl.modify s.jobs key (fun j => { j with paused := none, retry := false }) } = .next t) ∧
      (j.retry = false → exec (.jobFaultRetry key) s = .next s))

/-- R142, R144, R146, R147, R266, R272, R273: the steps of the data engines. Where the spec leaves a point open it follows the model's choice or reading: logs 29, 31, 35, 88, 95, 100, 101. -/
def Obligations.EngineSteps : Prop := Claims.EngineRequests ∧ Claims.EngineJobSteps

/-- R272, R371 to R375: a collective of elements begins once every member has issued its own and each is among those that its
engine runs; where the members differ in the count or the operation's word it fails at every member with the lowest word in
which they differ, and a permute whose shard maps differ or are not good with word 8. A permute moves nothing while a
collective of lower generation runs that was accepted before it on a member's die and writes what it reads. What each member
writes to its RECV is settled when every member has read its SEND and sent it, and not before. -/
def Sys2Proof.Claims.Collectives : Prop :=
  ∀ (s : State) (key : Nat) (j : Job), Tbl.get? s.jobs key = some j → j.kind = .coll → (s.jobs.map (·.1)).Nodup →
    let differ := fun (ms : List (Nat × Job)) (w : Nat) => ∃ a ∈ ms, ∃ b ∈ ms, Desc.w a.2.desc w ≠ Desc.w b.2.desc w
    let starts := exec (.collectiveStart key) s
    let held := fun (ms : List (Nat × Job)) => ∃ e ∈ ms, ∃ o ∈ s.jobs, o.1 / 32 / 96 = e.1 / 32 / 96 ∧ o.2.kind = .coll ∧
      o.2.lseq = e.2.lseq ∧ Desc.gen o.2.desc < Desc.gen e.2.desc ∧ o.2.born < e.2.born ∧ o.2.live = true ∧
      ∃ w ∈ o.2.writes, ∃ r ∈ e.2.reads, w.meets r = true
    (j.state = .running → j.begun = false → Desc.cl j.desc ≠ 0 →
      (s.collMembers j = none → starts = .next s) ∧
      ∀ ms, s.collMembers j = some ms →
        ((∃ e ∈ ms, s.engineHas e.1 e.2 = false ∨ e.2.failing ≠ none ∨ e.2.paused ≠ none) → starts = .next s) ∧
        ((∀ e ∈ ms, s.engineHas e.1 e.2 = true ∧ e.2.failing = none ∧ e.2.paused = none) →
          (∀ w ∈ [4, 5, 6], differ ms w → (∀ v ∈ [4, 5, 6], v < w → ¬ differ ms v) → starts = .next (s.failAll ms w)) ∧
          ((∀ w ∈ [4, 5, 6], ¬ differ ms w) → (key, j) ∈ ms →
            (Desc.op j.desc ≠ 4 → starts = .next (s.onMembers ms (fun j => { j with begun := true, moves := true }))) ∧
            (∀ bytes, Desc.op j.desc = 4 → (∀ e ∈ ms, e.2.shard = some bytes) →
              let good := (ShardMap.ofBytes bytes j.axis.length).ok j.axis.length (Desc.cl j.desc) = true
              (good → starts = .next (s.onMembers ms (fun j => { j with begun := true, moves := false }))) ∧
              (¬ good → starts = .next (s.failAll ms 8)))))) ∧
    (∀ ms, Desc.op j.desc = 4 → j.begun = true → j.moves = false → s.collMembers j = some ms →
      (held ms → exec (.permuteRelease key) s = .next s) ∧
      (¬ held ms → exec (.permuteRelease key) s = .next (s.onMembers ms (fun j => { j with moves := true })))) ∧
    (∀ ms, s.collMembers j = some ms → (ms.map (·.1)).Nodup →
      let ready := fun (e : Nat × Job) => e.2.moves = true ∧ e.2.recv = none ∧ e.2.told = true ∧
        e.2.sendBytes e.1 ≤ e.2.sent.length ∧ ∀ p ∈ s.packets, p.2.cargo ≠ .coll e.1 e.2.born
      ((∃ e ∈ ms, ¬ ready e) → s.settleColl j = s) ∧
      ((∀ e ∈ ms, ready e) → (∀ e ∈ ms, Tbl.get? s.jobs e.1 = some e.2) → ∀ (i : Nat) (e : Nat × Job), ms[i]? = some e →
        let out := collResult e.2.desc (ms.map (·.2.sent)) e.2.shardMap i
        Tbl.get? (s.settleColl j).jobs e.1 = some { e.2 with recv := some out, next := if out = [] then 1 else 0 }))

/-- R255, R272, R363, R372: a request of a collective that moves reads the next bytes of its member's SEND, up to the end of
a line of 64; when all are read, the member sends them to the members on other packages, in packets of at most 256 bytes of
its die's collective engine; and when what it writes is settled, a request writes the next bytes of its RECV, up to the end
of a line, as one packet of that engine. -/
def Sys2Proof.Claims.CollectiveRequests : Prop :=
  ∀ (s : State) (key : Nat) (j : Job), Tbl.get? s.jobs key = some j → j.kind = .coll → j.state = .running → j.failing = none →
    j.paused = none → j.moves = true → j.next = 0 → j.trips = [] → s.engineHas key j = true → s.engineTurn key j = true →
    let x := key / 32 / 96
    let o := exec (.engineJobRequest key) s
    let served := s.onDie x (fun d => { d with collLast := j.born })
    let piece := fun (base done all : Nat) => min (all - done) (64 - (base + done) % 64)
    let read := piece (Desc.q j.desc 0) j.sent.length (j.sendBytes key)
    (j.recv = none → read ≠ 0 → ∀ (s1 : State) (b : List Byte),
      served.jobRead key j false (Desc.q j.desc 0 + j.sent.length) read = (s1, .ok b) →
      (∀ p, Tbl.get? s1.jobs key = some p → p = j) →
      o = .next ((s1.onJob key (fun j => { j with sent := j.sent ++ b })).settleColl j)) ∧
    (j.recv = none → read = 0 → j.told = false → (∀ y ∈ j.axis, y / 4 = x / 4) →
      o = .next ((served.onJob key (fun j => { j with told := true })).settleColl j)) ∧
    (∀ out, j.recv = some out →
      let n := piece (Desc.q j.desc 2) j.off out.length
      ∀ (s1 : State) (m : Nat) (r : List Byte),
        served.jobWrite key j none (Desc.q j.desc 2 + j.off) ((out.drop j.off).take n) = (s1, m, .ok r) →
        Tbl.get? s1.jobs key = some j → ∃ t, o = .next t ∧ t.mem = s1.mem ∧ t.packets = s1.packets ∧
          (t.die x).collSeq = (s1.die x).collSeq + 1 ∧
          Tbl.get? t.jobs key = some { j with
            bytes := j.bytes + m, off := j.off + n, next := if out.length ≤ j.off + n then 1 else 0 }) ∧
    ∀ (y : Nat), j.axis = [x, y] → y / 4 ≠ x / 4 → j.sent.length ≤ 256 → s.die x = served.die x →
      let t := s.tellMembers key j
      (Tbl.get? t.jobs key = some { j with told := true }) ∧ (t.die x).collSeq = (s.die x).collSeq + 1 ∧
      ∃ p, t.packets = Tbl.put s.packets s.fresh p ∧ p.cargo = .coll key j.born ∧ p.src = x / 4 ∧ p.dest = y / 4 ∧
        p.place = y % 4 ∧ p.seq = (s.die x).collSeq ∧ p.bytes = j.sent.length ∧
        p.tag = some ⟨j.lseq, Desc.axis j.desc, Desc.gen j.desc⟩

/-- R371 to R374: what a collective writes at position i of n members whose elements are of es bytes: a reduction of
32-bit integer sums answers the sum at every element, of all the count or of the position's share; a gather joins the
shares of every member; an all-to-all joins the parts that every member holds for the position; a permute takes each new
item from the member that held it. Position p has L / D elements and one more where p is below the rest, from the sum of
the shares before it. -/
def Sys2Proof.Claims.CollectiveResults : Prop :=
  (∀ l d p : Nat, share l d p = l / d + (if p < l % d then 1 else 0) ∧ shareOff l d p = p * (l / d) + min p (l % d)) ∧
  ∀ (d : Desc) (sends : List (List Byte)) (m : ShardMap) (i : Nat),
    let n := sends.length
    let es := Desc.es d
    let element := fun (j x : Nat) => bytesToNat (((sends.getD j []).drop (es * x)).take es)
    let total := fun (x : Nat) => ((List.range n).map (fun j => element j x)).sum % 2 ^ 32
    (Desc.fmt d = 13 → Desc.red d = 0 → 0 < n →
      (Desc.op d = 0 → collResult d sends none i = (List.range (Desc.cl d)).flatMap (fun x => natToBytes 4 (total x))) ∧
      (Desc.op d = 1 → collResult d sends none i =
        (List.range (share (Desc.cl d) n i)).flatMap (fun x => natToBytes 4 (total (shareOff (Desc.cl d) n i + x))))) ∧
    (Desc.op d = 2 → collResult d sends none i =
      (List.range n).flatMap (fun j => (sends.getD j []).take (share (Desc.cl d) n j * es))) ∧
    (Desc.op d = 3 → collResult d sends none i = (List.range n).flatMap (fun j =>
      ((sends.getD j []).drop (shareOff (Desc.cl d) n i * es)).take (share (Desc.cl d) n i * es))) ∧
    (∀ (from_ : Nat → Nat) (olds : Nat → Nat) (news : Nat × Nat), Desc.op d = 4 →
      (∀ p, p < n → (m.entries.getD p (0, 0, 0, 0)).1 = olds p) →
      ((m.entries.getD i (0, 0, 0, 0)).2.2 = news) →
      (∀ x, x < news.2 → from_ x < n ∧
        ∀ p, p < n → (olds p ≤ news.1 + x ∧ news.1 + x < olds p + (m.entries.getD p (0, 0, 0, 0)).2.1 ↔ p = from_ x)) →
      collResult d sends (some m) i = (List.range news.2).flatMap (fun x =>
        ((sends.getD (from_ x) []).drop (es * (news.1 + x - olds (from_ x)))).take es))

/-- R371 to R375: collectives. Where the spec leaves a point open it follows the model's choice or reading: logs 30, 88, 101. -/
def Obligations.CollectiveSteps : Prop := Claims.Collectives ∧ Claims.CollectiveRequests ∧ Claims.CollectiveResults

/-! ## The hand-over of a stack (R314, R315) -/

/-- R314: a closing stack drains, and no die of its package keeps a line or a translation of it; a drained stack passes
to its target, its hand-over number one higher; then it is steady again and one group arrival reaches the unit of the
issuing team's barrier, to be applied with the cycle (R270). -/
def Sys2Proof.Claims.HandOverSteps : Prop :=
  ∀ (s : State) (stack : Nat),
    let k := s.stack stack
    let mine := fun (n : Nat) => n / 2 ^ 30 % 32 = 0 ∧ 8 * (n / 2 ^ 38) + n / 2 ^ 35 % 8 = stack
    stack % 8 < (s.pkg (stack / 8)).stks.length →
    (k.st = .closing → ∃ t, exec (.handoverDrain stack) s = .next t ∧ t.stack stack = { k with st := .draining } ∧
      (∀ x n, x / 4 = stack / 8 → mine n → t.l2 x n = none ∧ ∀ c, c / 96 = x → Tbl.get? (t.core c).l1 n = none) ∧
      (∀ x, x / 4 = stack / 8 → (∀ e ∈ (t.die x).tlb, e.home ≠ some stack) ∧
        ∀ c, c / 96 = x → ∀ e ∈ (t.core c).tlb, e.home ≠ some stack) ∧
      (∀ x n, ¬ mine n → t.l2 x n = s.l2 x n) ∧
      ((∀ x n l, s.l2 x n = some l → l.dirty = 0) → t.mem = s.mem) ∧
      t = { s with mem := t.mem, memBad := t.memBad, dies := t.dies, cores := t.cores, packages := t.packages }) ∧
    (k.st = .draining → exec (.handoverFlip stack) s =
      .next (s.onStack stack (fun k => { k with st := .switching, owner := k.target, hseq := k.hseq + 1 }))) ∧
    (∀ tm b team, k.st = .switching → k.team = some tm → k.bar = some b → Tbl.get? s.teams tm = some team →
      team.saved = false → team.ended = false →
      (∀ e ∈ s.groups, ∀ w ∈ e.2.waits, ∀ target, w.2.kind ≠ .handover stack target) →
      let t := s.onStack stack (fun k => { k with st := .steady, team := none, bar := none })
      exec (.handoverComplete stack) s = .next { t with
        teams := Tbl.modify t.teams tm (fun x => { x with due := x.due ++ [⟨b, none, k.order⟩] }) })

/-- R149, R150, R314: a hand-over from its word to its completion. Where the spec leaves a point open it follows the model's choice or reading: log 60. -/
def Obligations.StackHandover : Prop := Claims.HandOverIssue ∧ Claims.HandOverSteps

/-! ## Spawn records and kindled groups (R282 to R287, R175) -/

namespace Sys2Proof.Claims

/-- Die y is the first of l that meets P. -/
def First (l : List Nat) (P : Nat → Prop) (y : Nat) : Prop :=
  P y ∧ ∃ before after, l = before ++ y :: after ∧ ∀ z ∈ before, ¬ P z

/-- Die x is the die to which R282 sends record r in its launch n, the record's home stack being steady: the spawning
die; or the owner of the home stack; or the first die of the set on the home's package; else the spawning die. A die
that is lost counts as outside the set, and where the spawning die does, the first die of the set on its package stands
for it, or else the first of the set (R349; log 88). -/
def Target (s : State) (n : Launch) (r : SpawnRec) (x : Nat) : Prop :=
  let live := fun (y : Nat) => (s.die y).lost = false
  let src := r.srcCore / 96
  let here := fun (y : Nat) => live y ∧ y / 4 = src / 4
  let own := (src ∈ n.dies ∧ live src ∧ x = src) ∨ (¬ (src ∈ n.dies ∧ live src) ∧ First n.dies here x) ∨
    ((∀ y ∈ n.dies, ¬ here y) ∧ First n.dies live x)
  let owner := 4 * (r.home / 8) + (s.stack r.home).owner
  let there := fun (y : Nat) => live y ∧ y / 4 = r.home / 8
  (r.hashed = false ∧ own) ∨
  (r.hashed = true ∧ (s.stack r.home).st = .steady ∧
    ((owner ∈ n.dies ∧ live owner ∧ x = owner) ∨
     (¬ (owner ∈ n.dies ∧ live owner) ∧ First n.dies there x) ∨
     (¬ (owner ∈ n.dies ∧ live owner) ∧ (∀ y ∈ n.dies, ¬ there y) ∧ own)))

/-- o is the machine s in which spawn record id has become what `after` says and nothing else has changed but what B has
changed and the spawning thread: it goes on, its status predicate (where there is one) written, if it still waits for this record (R77, R287). -/
def Placed (s : State) (id : Nat) (r : SpawnRec) (after : Option SpawnRec) (ok : Bool) (o : Outcome) (B : State := s) :
    Prop :=
  ∃ t, o = .next t ∧ t = { B with recs := t.recs, groups := t.groups, cores := t.cores, fresh := t.fresh } ∧
    (∀ k, Tbl.get? t.recs k = if k = id then after else Tbl.get? s.recs k) ∧
    (∀ k, { t.core k with counters := (s.core k).counters } = B.core k) ∧ (∀ j, j ≠ r.srcG → t.grp j = s.grp j) ∧
    (s.thr r.srcG r.srcT = none → t.groups = s.groups) ∧
    ∀ g th at_ h w dead, s.grp r.srcG = some g → Tbl.get? g.threads r.srcT = some th →
      th.place = .waiting (.spawn id) at_ h w dead → ∃ g' th', t.grp r.srcG = some g' ∧
        { g with entering := g'.entering }.SameBut g' ∧ (g.stop = .none → g'.entering = g.entering) ∧
        (∀ y, y ≠ r.srcT → Tbl.get? g'.threads y = Tbl.get? g.threads y) ∧ Tbl.get? g'.threads r.srcT = some th' ∧
        GoesOn (g.inHandler r.srcT) (r.status.elim th (fun p => th.writePNow p ok)) th' at_ (fun k => at_.dead = true ∧ k ∈ dead) 0

end Sys2Proof.Claims

/-- R77, R282, R286, R287: a routed record, placed for the first time, that reaches its target die is placed in its unit's queue; or in the die's spill
ring, stored at the ring's tail (log 86), where the queue is full, or the ring already holds a record for the unit; or it is refused where the ring has no
room: SPAWN then writes 0, SPAWNB waits at the unit, and SPAWNB_RETRY places it once there is room. A record whose
home stack is in transition waits there; once its home has admitted it, it is bound for one die. -/
def Sys2Proof.Claims.RecordPlacement : Prop :=
  ∀ (s : State) (id : Nat) (r : SpawnRec) (n : Launch) (x : Nat),
    let k := 96 * x + r.core
    let o := exec (.recordRouteArrival id) s
    let ring := s.spillRing x r.lseq
    let full := 8192 ≤ s.unitCount k ∨ ∃ e ∈ ring, e.2.unit = k
    let atPlace := fun (p : RecPlace) (spilt : Bool) (y : Option Nat) =>
      some { r with place := p, born := s.fresh, die := x, spilt := spilt, bound := y }
    let wait : Passed := ⟨.record id, true, 0, r.home / 8 * 2 ^ 44 + r.home % 8 * 2 ^ 41, TlbEntry.blank⟩
    let tail := n.spillPut.getD x 0
    let slot := n.spillBase + 32 * n.rc.spill * x + 32 * (tail % n.rc.spill)
    r.core < 96 → r.again = false → r.mate = none → Tbl.get? s.recs id = some r → Tbl.get? s.launches r.lseq = some n →
    (r.place = .routing → (∀ e ∈ s.packets, e.2.cargo ≠ .record id) →
      (∀ e ∈ s.recs, e.1 ≠ id → e.2.place ≠ .routing) → (∀ e ∈ s.recs, e.2.place ≠ .refused k) →
      (r.die = x ∨ r.die / 4 ≠ x / 4 ∨ (s.remoteLines r.die = [] ∧ s.backOut r.die = false)) → (∀ p ∈ s.passed, p.agent ≠ .record id) →
      (r.bound = none → r.hashed = true → r.home < 2 ^ 18 → (s.stack r.home).st ≠ .steady →
        o = .next { s with passed := s.passed ++ [wait] }) ∧
      ((r.bound = none ∧ Target s n r x ∧ (r.hashed = true → s.firstFor wait.pa = none)) ∨
          (r.bound = some x ∧ x ∈ n.dies ∧ (s.die x).lost = false) →
        (¬ full → Placed s id r (atPlace (.entering k) r.spilt (some x)) true o) ∧
        (full → ring.length < n.rc.spill → (∀ i, i < 32 → paSpace (slot + i) = 0) → Placed s id r (atPlace (.spilled x k) true (some x)) true o
          { s.devWrite slot r.bytes with
            launches := Tbl.modify s.launches r.lseq (fun m => { m with spillPut := m.spillPut.put x (tail + 1) }) }) ∧
        (∀ p, full → n.rc.spill ≤ ring.length → r.status = some p → Placed s id r none false o) ∧
        (full → n.rc.spill ≤ ring.length → r.status = none → o =
          .next { s with recs := Tbl.modify s.recs id (fun q => { q with place := .refused k, born := s.fresh, die := x, bound := some x }),
                         fresh := s.fresh + 1 }))) ∧
    (∀ at_ h w dead th, r.place = .refused k → s.thr r.srcG r.srcT = some th → r.status = none →
      th.place = .waiting (.spawn id) at_ h w dead → (∀ e ∈ s.recs, e.2.place = .refused k → e = (id, r)) →
      (s.recs.map (·.1)).Nodup →
      (¬ full → Placed s id r (atPlace (.entering k) r.spilt r.bound) true (exec (.spawnbRetry r.srcG r.srcT) s)) ∧
      (full → n.rc.spill ≤ ring.length → exec (.spawnbRetry r.srcG r.srcT) s = .next s))

/-- R284, R286: the record placed first in a unit's queue enters the open bin of its launch and entry, which closes when
it holds 256; without such a bin it opens one, and a 65th closes the bin whose first record entered earliest. A bin
whose gather window has passed takes no record, and closes. The head of a spill ring enters its unit's queue as soon as there is room. -/
def Sys2Proof.Claims.BinsAndSpillRings : Prop :=
  (∀ (s : State) (id k : Nat) (r : SpawnRec), Tbl.get? s.recs id = some r → r.place = .entering k →
    (∀ e ∈ s.recs, e.2.place = .entering k → r.born ≤ e.2.born) →
    let open_ := fun (e : Nat × Bin) => e.2.core = k ∧ e.2.closed = none
    (∀ e ∈ s.bins, open_ e → s.now k < s.windowEnd e.2) →
    let mine := fun (e : Nat × Bin) => open_ e ∧ e.2.lseq = r.lseq ∧ e.2.entry = r.entry
    let entered := fun (b fresh : Nat) (bins : Nat → Option Bin) => ∃ t, exec (.recordEntry id) s = .next t ∧
      t = { s with recs := t.recs, bins := t.bins, fresh := fresh } ∧ (∀ y, Tbl.get? t.bins y = bins y) ∧
      ∀ y, Tbl.get? t.recs y = if y = id then some { r with place := .binned b } else Tbl.get? s.recs y
    let new : Nat → Bin := fun b => ⟨k, r.lseq, r.entry, s.now k, [id], none, b⟩
    (∀ b x, Tbl.get? s.bins b = some x → mine (b, x) → (∀ e ∈ s.bins, mine e → e.1 = b) →
      (x.recs.length < 255 → entered b s.fresh (fun y => if y = b then some { x with recs := x.recs ++ [id] }
        else Tbl.get? s.bins y)) ∧
      (255 ≤ x.recs.length → entered b (s.fresh + 1) (fun y =>
        if y = b then some { x with recs := x.recs ++ [id], closed := some s.fresh } else Tbl.get? s.bins y))) ∧
    ((∀ e ∈ s.bins, ¬ mine e) → (s.openBins k).length < 64 →
      entered s.fresh (s.fresh + 1) (fun y => if y = s.fresh then some (new s.fresh) else Tbl.get? s.bins y)) ∧
    (∀ b x, (∀ e ∈ s.bins, ¬ mine e) → 64 ≤ (s.openBins k).length → Tbl.get? s.bins b = some x → open_ (b, x) →
      (∀ e ∈ s.bins, open_ e → e.1 ≠ b → x.opened < e.2.opened) → (s.bins.map (·.1)).Nodup →
      entered (s.fresh + 1) (s.fresh + 2) (fun y => if y = s.fresh + 1 then some (new (s.fresh + 1))
        else if y = b then some { x with closed := some s.fresh } else Tbl.get? s.bins y))) ∧
  (∀ (s : State) (b : Nat) (x : Bin) (n : Launch), Tbl.get? s.bins b = some x → x.closed = none →
    Tbl.get? s.launches x.lseq = some n → (s.bins.map (·.1)).Nodup →
    (∀ e ∈ s.bins, e.1 ≠ b → e.2.core = x.core → e.2.closed = none → s.now x.core < s.windowEnd e.2) →
    let window := if n.rc.gather = 0 then 512 else n.rc.gather
    let o := exec (.binWindowExpiry b) s
    (window ≤ s.now x.core - x.start → o = .next { s with
      bins := Tbl.modify s.bins b (fun y => if y.closed.isNone then { y with closed := some s.fresh } else y)
      fresh := s.fresh + 1 }) ∧
    (s.now x.core - x.start < window → o = .next s)) ∧
  (∀ (s : State) (id k b : Nat) (r : SpawnRec) (x : Bin), Tbl.get? s.recs id = some r → r.place = .entering k →
    (∀ e ∈ s.recs, e.2.place = .entering k → r.born ≤ e.2.born) → Tbl.get? s.bins b = some x → x.core = k →
    x.closed = none → x.lseq = r.lseq → x.entry = r.entry → s.windowEnd x ≤ s.now k → (s.bins.map (·.1)).Nodup →
    (∀ e ∈ s.bins, e.1 < s.fresh) → (∀ e ∈ s.bins, e.1 ≠ b → e.2.core = k → e.2.closed ≠ none) →
    ∃ t, exec (.recordEntry id) s = .next t ∧ Tbl.get? t.bins b = some { x with closed := some s.fresh } ∧
      Tbl.get? t.bins (s.fresh + 1) = some ⟨k, r.lseq, r.entry, s.now k, [id], none, s.fresh + 1⟩) ∧
  ∀ (s : State) (x l id k : Nat) (r : SpawnRec), Tbl.get? s.recs id = some r → r.place = .spilled x k → r.lseq = l →
    (s.recs.map (·.1)).Nodup →
    (∀ e ∈ s.recs, e.1 ≠ id → e.2.lseq = l → ∀ u, e.2.place = .spilled x u → r.born < e.2.born) →
    (s.unitCount k < 8192 → exec (.spillRefill x l) s = .next { s with
      recs := Tbl.modify s.recs id (fun q => { q with place := .entering k, born := s.fresh }), fresh := s.fresh + 1 }) ∧
    (8192 ≤ s.unitCount k → exec (.spillRefill x l) s = .next s)

/-- R282, R284, R286, R287: spawn records on their way to a core. Where the spec leaves a point open it follows the model's choice or reading: logs 50, 54, 86, 88, 91, 98, 101. -/
def Obligations.SpawnRecords : Prop := Claims.RecordPlacement ∧ Claims.BinsAndSpillRings

/-- R175, R283, R285: of the closed bins of a unit the one of the highest effective priority, then the earliest to close,
forms a group once the core has a slot and rows for it (no bin below it having been skipped 64 times): a thread for each
record, in their order, with the state of R175; the unit's count is its serial. On the ember reserve it waits
in its place for a pool share that is not free (R225). Where the core has no room, the unit holds capacity for the
bin. Where the spec leaves a point open it follows the model's choice or reading: logs 51, 52, 53, 93. -/
def Obligations.KindledGroups : Prop :=
  ∀ (s : State) (k b : Nat) (x : Bin) (n : Launch) (rs : List SpawnRec),
    let o := exec (.kindledGroupFormation k) s
    let ready := fun (e : Nat × Bin) => e.2.core = k ∧ ∃ c, e.2.closed = some c ∧
      ∃ m, Tbl.get? s.launches e.2.lseq = some m ∧ m.state = 2 ∧ m.preempt = none
    let ceil := n.rc.ceils.getD 0 0
    let serial := (Tbl.get? n.kcount k).getD 0
    (s.core k).kheld = none → (∀ e ∈ s.groups, e.2.share = none) →
    (∀ e ∈ s.bins, e.2.core = k → e.2.closed = none → s.now k < s.windowEnd e.2) → (∀ q, (s.core k).kskip.getD q 0 < 64) → (s.bins.map (·.1)).Nodup →
    Tbl.get? s.bins b = some x → ready (b, x) → Tbl.get? s.launches x.lseq = some n → s.prio x.lseq < 4 →
    (∀ e ∈ s.bins, ready e → e.1 ≠ b → s.prio e.2.lseq < s.prio x.lseq ∨
      s.prio e.2.lseq = s.prio x.lseq ∧ x.closed.getD 0 < e.2.closed.getD 0) →
    x.recs.map (fun id => Tbl.get? s.recs id) = rs.map some →
    (s.kindleRoom k ceil = none → o = .next { s with cores := Tbl.put s.cores k { s.core k with
      kheld := some ⟨b, s.openRows k, 127 - s.slots k⟩ } }) ∧
    ∀ q slot ember, s.kindleRoom k ceil = some (q, slot, ember) → ∃ t g, o = .next t ∧
      t = { s with
        groups := t.groups, bins := t.bins, recs := t.recs, launches := t.launches, fresh := t.fresh,
        cores := t.cores, dies := t.dies, mem := t.mem, memBad := t.memBad, packets := t.packets } ∧
      (s.remoteLines (k / 96) = [] → t.fresh = s.fresh + 1 ∧ t.packets = s.packets) ∧
      (∀ j, t.grp j = if j = s.fresh then some g else s.grp j) ∧
      (∀ y, Tbl.get? t.bins y = if y = b then none else Tbl.get? s.bins y) ∧
      (∀ y, Tbl.get? t.recs y = if y ∈ x.recs then none else Tbl.get? s.recs y) ∧
      (∀ l, Tbl.get? t.launches l = if l = x.lseq then
        some { n with kcount := Tbl.put n.kcount k ((serial + 1) % 2 ^ 32) } else Tbl.get? s.launches l) ∧
      (g.lseq, g.team, g.core, g.quad, g.slot, g.ember) = (x.lseq, none, k, q, slot, ember) ∧
      (g.serial, g.role, g.ceil, g.residence, g.stop, g.handler) =
        (BitVec.ofNat 32 serial, 0, ceil, .resident, .none, none) ∧
      (g.acc, g.waits, g.faults, g.tgt, g.rot, g.retired) = ([], [], [], 0, 0, 0) ∧
      (s.remoteLines (k / 96) = [] → ember = false ∨ ceil - 32 ≤ s.freeRows k → g.share = none) ∧
      (ember = true → s.freeRows k < ceil - 32 → ∃ scope, g.share = some ⟨ceil - 32, scope⟩) ∧
      g.conv = List.replicate 8 ⟨List.range rs.length, [], none⟩ ∧
      (∀ m, g.rs m = ([BitVec.ofNat 32 n.rc.args, BitVec.ofNat 32 (n.rc.args / 2 ^ 32), 0xFFFFFFFF,
        BitVec.ofNat 32 serial, BitVec.ofNat 32 (n.dies.findIdx (· = k / 96)), BitVec.ofNat 32 n.dies.length, 0,
        BitVec.ofNat 32 n.stepNow] : List Word).getD m 0) ∧
      ∀ i, (Tbl.get? g.threads i).isSome = decide (i < rs.length) ∧
        ∀ th r, Tbl.get? g.threads i = some th → rs[i]? = some r →
          th.pc = ⟨x.entry, 0⟩ ∧ th.place = .ready ∧ th.p = 0 ∧ th.tok = [0, 0, 0, 0] ∧ th.join = r.join ∧
          th.gidx = BitVec.ofNat 64 (2 ^ 63 + k * 2 ^ 40 + serial * 256 + i) ∧
          th.rng = n.rc.seed ^^^ (th.gidx * 0x9E3779B97F4A7C15) ∧
          ∀ m, th.lane false m = if ceil ≤ m then 0 else if m < 4 then r.payload.getD m 0
            else if m = 4 then BitVec.ofNat 32 i else 0

/-! ## Parking, resumption and the active sets (R212, R213, R217, R290 to R292) -/

/-- R290: a group of a parkable team whose live threads all wait in one barrier wait with their tokens at 0, outside a
handler and without a fault, parks when a pre-emption of its launch with a phase tier is pending, or when something waits for its slot and
it began first; its carried names stay and every other reads zero, its phase record is stored and its slot freed. With
a token outstanding, or with neither reason, it stays. R291: the layout of the record. -/
def Sys2Proof.Claims.Parking : Prop :=
  (∀ (s : State) (j k w b : Nat) (g : Group) (x : GWait) (n : Launch) (tm : Team),
    let o := exec (.groupPark j) s
    let wanted := (∃ p, n.preempt = some p ∧ p.full = false) ∨
      127 ≤ s.slots g.core ∧ s.resumable g.core ≠ [] ∧ s.parksFirst g.core x.born = true
    s.grp j = some g → g.team = some k → Tbl.get? s.teams k = some tm → Tbl.get? s.launches g.lseq = some n →
    n.rc.park = true → g.waits = [(w, x)] → x.kind = .barrier b → g.residence = .resident → g.halted = false →
    g.handler = none → g.stop = .none → (s.bar k b).phase = g.tgt.getLsbD b → b ∉ x.met →
    (∀ e ∈ g.threads, e.1 ∈ x.sigs.map (·.t)) →
    (∀ i, i < 4096 + 1088 * 128 → paSpace (n.rc.phaseAt tm.tix g.gix + i) = 0) →
    ((∀ e ∈ g.threads, ∀ m ∈ e.2.tok, m = 0) → (∀ e ∈ g.threads, e.2.vsoft = [] ∧ e.2.vhard = []) → g.ssoft = [] →
      g.shard = [] → wanted → ∃ t g', o = .next t ∧
        t = { s.devWrite (n.rc.phaseAt tm.tix g.gix) (g'.phaseRecord n.rc x b (s.now g.core)) with
          groups := t.groups, cores := t.cores } ∧
        t.grp j = some g' ∧ (∀ i, i ≠ j → t.grp i = s.grp i) ∧
        g' = { g with residence := .parked, s := g'.s, spois := g'.spois, threads := g'.threads, rows := [] } ∧
        (∀ m, g'.rs m = if n.rc.carryS.getLsbD m then g.rs m else 0) ∧
        (∀ y th, Tbl.get? g.threads y = some th → ∃ th', Tbl.get? g'.threads y = some th' ∧
          (th'.pc, th'.place, th'.rng) = (th.pc, th.place, th.rng) ∧ th.Keeps th' ∧
          (∀ m, th'.lane false m = if n.rc.carryV.getLsbD m then th.lane false m else 0) ∧
          ∀ m, m < 7 → th'.pred false m = (n.rc.carryP.getLsbD m && th.pred false m)) ∧
        ∀ q ∈ (t.core g.core).quads, q.trap ≠ some j ∧ ∀ a ∈ q.active, a.g ≠ some j) ∧
    ((∃ e ∈ g.threads, ∃ m ∈ e.2.tok, m ≠ 0) → o = .next s) ∧
    (n.preempt = none → s.slots g.core < 127 → o = .next s)) ∧
  ∀ (g : Group) (r : LaunchRec) (w : GWait) (b now : Nat), g.conv.length = 8 → g.ceil < 256 → b < 16 → w.at_.pc.ix < 16 →
    w.watch.count now < 2 ^ 64 →
    let record := g.phaseRecord r w b now
    let at_ := fun (o n : Nat) => bytesToNat ((record.drop o).take n)
    let names := (List.range 128).filter (fun m => r.carryV.getLsbD m)
    let live := fun (y : Nat) => Tbl.get? g.threads y
    record.length = 4096 + 1088 * names.length ∧ at_ 0 4 = w.at_.pc.off.toNat ∧
    at_ 4 4 = w.at_.pc.ix + 2 ^ 4 * g.ceil + 2 ^ 12 * b ∧ at_ 8 8 = w.watch.count now ∧
    (∀ m, m < 128 → at_ (0x300 + 4 * m) 4 = if r.carryS.getLsbD m then (Tbl.getD g.s m 0).toNat else 0) ∧
    (∀ y, y < 256 → at_ (0x500 + y) 1 = (live y).elim 0 (fun th => (th.p &&& r.carryP).toNat) ∧
      at_ (0x600 + 8 * y) 8 = (live y).elim 0 (·.rng.toNat)) ∧
    ∀ i m y, names[i]? = some m → y < 256 →
      at_ (0x1000 + 1088 * i + 4 * y) 4 = (live y).elim 0 (fun th => (Tbl.getD th.v m 0).toNat)

/-- R291, R292: a parked group whose barrier has completed since it began its wait takes a slot of its core as soon as one
is free, and reads its record back from memory: its ceiling, its tgt, its carried names, its predicates and its
generators; its wait then takes effect: its target follows and its signers go on, every other name reading zero. Where
the barrier has not completed, or no slot is free, it stays parked. What capacity the core holds for a bin or a team
loses the slot. -/
def Sys2Proof.Claims.Resumption : Prop :=
  ∀ (s : State) (j k w b q slot : Nat) (g : Group) (x : GWait) (n : Launch) (tm : Team) (h : Hd) (d : Field),
    let o := exec (.parkedGroupResume j) s
    let phase := (s.bar k b).phase
    let met := phase ≠ g.tgt.getLsbD b ∨ b ∈ x.met
    let names := (List.range 128).filter (fun m => n.rc.carryV.getLsbD m)
    let record := s.devRead (n.rc.phaseAt tm.tix g.gix) (4096 + 1088 * names.length)
    let at_ := fun (o n : Nat) => bytesToNat ((record.drop o).take n)
    s.grp j = some g → g.team = some k → Tbl.get? s.teams k = some tm → Tbl.get? s.launches g.lseq = some n →
    n.rc.park = true → g.waits = [(w, x)] → x.kind = .barrier b → (x.i = .barwait h d ∨ x.i = .bararrw h d) →
    (x.sigs.map (·.t)).Nodup → g.residence = .parked → g.halted = false → g.stop = .none → g.handler = none →
    (∀ e ∈ g.threads, e.2.pend = []) →
    (met → s.slots g.core < 127 → s.pickSlot g.core = some (q, slot) → ∃ t g', o = .next t ∧
      t = { s with teams := t.teams, groups := t.groups, cores := t.cores, dies := t.dies } ∧
      (∀ y, { t.die y with dist := { (t.die y).dist with spare := (s.die y).dist.spare } } = s.die y) ∧
      (∀ i, i ≠ j → t.grp i = s.grp i) ∧ t.grp j = some g' ∧
      (g'.residence, g'.core, g'.quad, g'.slot) = (.resident, g.core, q, slot) ∧
      (g'.waits, g'.acc, g'.ceil) = ([], g.acc, at_ 4 4 / 16 % 256) ∧
      g'.tgt = ({ g with tgt := BitVec.ofNat 16 (at_ 0x2C0 2) }.setTgt b phase).tgt ∧
      (∀ m, g'.rs m = if n.rc.carryS.getLsbD m then BitVec.ofNat 32 (at_ (0x300 + 4 * m) 4) else 0) ∧
      ∀ y ∈ x.sigs.map (·.t), ∀ th, Tbl.get? g.threads y = some th → ∃ th', Tbl.get? g'.threads y = some th' ∧
        th'.pc = x.at_.next ∧ th'.place = .ready ∧ th'.rng = BitVec.ofNat 64 (at_ (0x600 + 8 * y) 8) ∧
        (∀ i m, names[i]? = some m → th'.lane false m =
          if (at_ (0x1400 + 1088 * i + y / 8) 1).testBit (y % 8) then BitVec.ofNat 32 (at_ (0x1000 + 1088 * i + 4 * y) 4)
          else 0) ∧
        (∀ m, n.rc.carryV.getLsbD m = false → th'.lane false m = 0) ∧
        ∀ m, m < 7 → th'.pred false m = (n.rc.carryP.getLsbD m && (at_ (0x500 + y) 1).testBit m)) ∧
    (¬ met ∨ 127 ≤ s.slots g.core → o = .next s)

/-- R290 to R292: groups park and resume. Where the spec leaves a point open it follows the model's choice or reading: logs 15, 56, 57, 105. -/
def Obligations.ParkingAndResumption : Prop := Claims.Parking ∧ Claims.Resumption

/-- R169, R212, R213, R217: the ready pending group that has been ready longest, the lower slot first, fills an empty entry
and may issue two cycles later; at the issue slot of a group that is swap-eligible, has yielded, or has been active longest
while the other waited 1,024 cycles, it takes the group's entry, and the slot stays empty, a slot older to the group's ready
threads. The swap follows what its cycle and its slot begin with: empty entries fill, and exits that are due end. A core leaves recovery at the next multiple of 8 when every restored group has passed a barrier or exited, or
2^16 cycles after the last restore began. Where the spec leaves a point open it follows the model's choice or reading: logs 10, 85. -/
def Obligations.ActiveSetSteps : Prop :=
  (∀ (s : State) (k q e jn : Nat) (gn : Group), s.nextPending k q = some (jn, gn) →
    let now := s.now k
    let since := fun (p : Nat × Group) => p.2.readySince.getD now
    let waits := fun (p : Nat × Group) => p ∈ s.groups ∧ p.2.core = k ∧ p.2.quad = q ∧ p.2.residence = .resident ∧
      (∀ a ∈ (s.quad k q).active, a.g ≠ some p.1) ∧ s.groupReady p.1 p.2 = true
    waits (jn, gn) ∧
    (∀ p, waits p → since (jn, gn) < since p ∨ since (jn, gn) = since p ∧ gn.slot ≤ p.2.slot) ∧
    ((s.entry k q e).g = none → q < (s.core k).quads.length → e < (s.quad k q).active.length →
      ∃ t, exec (.activeEntryFill k q e) s = .next t ∧ t = { s with groups := t.groups, cores := t.cores } ∧
        t.entry k q e = ⟨some jn, now + 2⟩ ∧ (∀ j, j ≠ jn → t.grp j = s.grp j) ∧
        t.grp jn = (s.grp jn).map (fun g => { g with readySince := none, activeSince := now, yielded := false })) ∧
    ((s.entry k q e).g ≠ none → exec (.activeEntryFill k q e) s = .next s)) ∧
  (∀ (s : State) (k q e : Nat), s.nextPending k q = none → exec (.activeEntryFill k q e) s = .next s) ∧
  (∀ (s : State) (k q e j : Nat) (u : Group),
    let B := s.openQuad k q
    let at_ := B.openSlot k j
    let now := at_.now k
    let o := exec (.groupSwap k q e) s
    let aged := u.ageThreads ((at_.readyThreads j u).map (·.1)) []
    ((s.core k).turn ≠ q ∨ B.servedEntry k q ≠ some e → o = .next s) ∧
    ((s.core k).turn = q → B.servedEntry k q = some e → (B.entry k q e).g = some j → (at_.entry k q e).g = some j →
      at_.grp j = some u →
      (at_.nextPending k q = none → o = .next s) ∧
      ∀ jn gn, at_.nextPending k q = some (jn, gn) →
        let due := at_.swapEligible j u = true ∨ u.yielded = true ∨
          gn.readySince.getD now + 1024 ≤ now ∧ at_.longestActive k q j u = true
        (due → e < (at_.quad k q).active.length → q < (at_.core k).quads.length → ∃ t : State,
          o = .next (t.nextTurn k) ∧ t = { at_ with groups := t.groups, cores := t.cores } ∧
          t.entry k q e = ⟨some jn, now + 2⟩ ∧
          (jn ≠ j → t.grp jn = (at_.grp jn).map (fun g =>
            { g with readySince := none, activeSince := now, yielded := false })) ∧
          (jn ≠ j → t.grp j = some { aged with
            yielded := false
            readySince := if (at_.onGroup j (fun _ => aged)).groupReady j aged then some now else none }) ∧
          (∀ i, i ≠ jn → i ≠ j → t.grp i = at_.grp i) ∧
          (4 < (at_.core k).counters.length → t.counter k 3 = (at_.counter k 3 + 1) % 2 ^ 64 ∧
            t.counter k 4 = (at_.counter k 4 + 1) % 2 ^ 64)) ∧
        (¬ due → o = .next s))) ∧
  ∀ (s : State) (k : Nat), (s.core k).mode = .recovery → (s.core k).nextMode = none →
    let back := (∀ e ∈ s.groupsOn k, e.2.recovering = false) ∨ (s.core k).restoreAt + 2 ^ 16 ≤ s.now k
    (back → exec (.recoveryModeEnd k) s =
      .next { s with cores := Tbl.put s.cores k { s.core k with nextMode := some .barrel } }) ∧
    (¬ back → exec (.recoveryModeEnd k) s = .next s)

/-! ## Taking an exception, and what a fault without a handler does (R18, R21, R224, R337 to R348) -/

namespace Sys2Proof.Claims

/-- No word of group g is still running, and none waits to act again (R340, R341). -/
def Still (s : State) (g : Group) : Prop :=
  (∀ e ∈ g.threads, s.inWord e.2 = false) ∧
  ∀ w ∈ g.waits, (∀ a b, w.2.kind ≠ .handover a b) ∧ (∀ a b c, w.2.kind ≠ .form a b c) ∧ ∀ a b, w.2.kind ≠ .again a b

/-- The threads that enter the handler of g: those fixed when it stopped that live, or the live ones in no blocking wait
(R341). -/
def entering (g : Group) : List Nat :=
  (g.entering.getD ((g.threads.filter (fun e => !e.2.blocked)).map (·.1))).filter (g.threads.map (·.1)).contains

/-- Group j, which is g, has stopped at faults that a handler may take, their records written, its handler at h; no word
of it is still running, its entering threads hold no token, and no end of its team is decided (R337, R340, R341). -/
structure Stopped (s : State) (j : Nat) (g : Group) (n : Launch) (h : Word) : Prop where
  group : s.grp j = some g
  launch : Tbl.get? s.launches g.lseq = some n
  area : n.area ≠ 0 ∧ h = BitVec.ofNat 32 (s.devNat n.area 4) ∧ h ≠ 0xFFFFFFFF
  outside : g.handler = none
  faults : g.faults ≠ [] ∧ ∀ r ∈ g.faults, r.written = true ∧ r.code ∉ [0x10, 0x20, 0x21, 0x22, 0x60, 0x62]
  settled : Still s g
  tokens : ∀ e ∈ g.threads, e.1 ∈ entering g → ∀ k ∈ e.2.tok, k = 0
  enters : entering g ≠ []
  free : s.convicted g = false

end Sys2Proof.Claims

/-- R26, R27, R341, R224: a stopped group enters its launch's handler when its quadrant's trap reserve is free: every
fixed-latency write of the group completes; every live thread that was in no blocking wait when the group had stopped
starts at HANDLER with its registers and the slots it owes,
the shadowed names zero; the convergence registers are set aside and formed of these threads, the predicates set aside
and kept; each thread's place of return is what R338 gives. A free reserve goes to the group of the quadrant that faulted first, at TRAP_ENTRY or at TRAP_RESERVE_GRANT; while
another group holds it a group waits. A handler without its pad ends the team, and a page fault of its fetch is one more
record for the driver. Where the spec leaves a point open it follows the model's choice or reading: log 89. -/
def Obligations.TrapEntry : Prop :=
  ∀ (s : State) (j : Nat) (g : Group) (n : Launch) (h : Word) (i : Instr), Stopped s j g n h →
    let quads := (s.core g.core).quads
    let reserve := (quads.getD g.quad Quad.reset).trap
    let fixed := some (g.entering.getD ((g.threads.filter (fun e => !e.2.blocked)).map (·.1)))
    let entering := entering g
    let B := { s with
      cores := Tbl.put s.cores g.core { s.core g.core with
        quads := quads.modify g.quad (fun u => { u with trap := some j }) }
      groups := Tbl.modify s.groups j (fun u => { u with
        stop := .stopped, faults := g.faults, lastRec := g.faults.getLast?, entering := fixed }) }
    let pad := B.checkPad j g.core (s.codeBase g) h 3 none
    let room := fun (u : State) => u.devNat (n.area + 8) 8 - u.devNat (n.area + 16) 8 < 2 ^ (u.devNat (n.area + 4) 4 % 32)
    (i = .trapEntry j ∧ g.stop = .stopped ∨
      i = .trapReserveGrant g.core g.quad ∧ g.residence = .resident ∧ (s.groups.map (·.1)).Nodup ∧
        ∃ w, g.stop = .reserve w) →
    (∀ k, reserve = some k → k ≠ j → g.stop = .stopped →
      ∃ t, exec (.trapEntry j) s = .next t ∧ t = { s with groups := t.groups } ∧ (∀ m, m ≠ j → t.grp m = s.grp m) ∧
        t.grp j = some { g with stop := .reserve ⟨0, s.now g.core⟩, entering := fixed }) ∧
    ((∀ e ∈ s.groups, e.1 ≠ j → e.2.core = g.core → e.2.quad = g.quad → e.2.residence = .resident →
      e.2.needsReserve = true → (i = .trapEntry j → e.2.halted = false ∧ (s.handlerOf e.2.lseq).isSome = true) →
      g.faultAt < e.2.faultAt) → (reserve = none ∨ reserve = some j) →
      (pad.2 = .ok → ∃ t g' H, exec i s = .next t ∧
        t = { s with groups := t.groups, cores := t.cores, dies := t.dies, walks := t.walks, fresh := t.fresh, passed := t.passed } ∧
        (∀ k, k ≠ j → t.grp k = s.grp k) ∧ t.grp j = some g' ∧ g'.handler = some H ∧ H.entering = entering ∧ H.hs = [] ∧
        H.recs = g.faults ++ g.resolved ∧ (g'.faults, g'.stop, g'.s, g'.acc, g'.ceil) = ([], .none, g.s, g.acc, g.ceil) ∧
        g'.conv = List.replicate 8 ⟨entering, [], none⟩ ∧
        H.savedConv.map (fun c => (c.members, c.signed)) = g.conv.map (fun c => (c.members, c.signed)) ∧
        (g.quad < quads.length → ((t.core g.core).quads.getD g.quad Quad.reset).trap = some j) ∧
        ∀ y th, Tbl.get? g.threads y = some th → ∃ th', Tbl.get? g'.threads y = some th' ∧ th'.pend = [] ∧
          th'.demand = th.demand ∧
          (y ∉ entering → th'.pc = th.pc ∧ (∀ m, th'.lane false m = th.lane false m) ∧
            ∀ m, m < 7 → th'.pred false m = th.pred false m) ∧
          (y ∈ entering → th'.pc = ⟨h, 0⟩ ∧ th'.place = .ready ∧
            (∃ p, th'.savedP = some p ∧ ∀ m, m < 7 → p.getLsbD m = th.pred false m) ∧
            (∀ m, th'.lane true m = if m < 112 then th.lane false m else 0) ∧
            (∀ m, m < 7 → th'.pred true m = th.pred false m) ∧
            (∀ r, g.faults.find? (fun r => r.thread = y ∧ !r.job ∧ !r.imprecise) = some r → Tbl.get? H.back y =
              some ⟨r.resume, decide (r.resume = r.pc) && th.past, if r.resume = th.pc then th.chunk else 0⟩) ∧
            ((∀ r ∈ g.faults, r.thread ≠ y ∨ r.job = true ∨ r.imprecise = true) → Tbl.get? H.back y = some ⟨th.pc, th.past, th.chunk⟩))) ∧
      (∀ c a d, pad.2 = .bad c a d → c ≠ 0x10 → room pad.1 →
        (∀ k, g.team = some k → ∃ tm, Tbl.get? s.teams k = some tm ∧ tm.ended = false) →
        ∃ t, exec i s = .next t ∧ t.grp j = none) ∧
      ∀ a d f rest, pad.2 = .bad 0x10 a d → g.faults = f :: rest → ∃ t g' r, exec i s = .next t ∧
        t.grp j = some g' ∧ g'.stop = .stopped ∧ g'.handler = none ∧ g'.faults = g.faults ++ [r] ∧ r.written = false ∧
        (r.code, r.thread, r.pc, r.address, r.detail) = (0x10, f.thread, f.pc, BitVec.ofNat 64 a, BitVec.ofNat 32 d))

/-- R336, R337, R346: where a launch's fault area has room, FAULT_AREA_ROOM writes the record of a group that a page fault
has stopped, at record PUT of the area, and PUT rises by 1; the group then stays stopped for the driver. Without room
the group stays stopped and nothing is written. -/
def Sys2Proof.Claims.FaultRecords : Prop :=
  ∀ (s : State) (j : Nat) (g : Group) (n : Launch) (r : FaultRec),
    let header := n.area
    let log := s.devNat (header + 4) 4 % 32
    let put := s.devNat (header + 8) 8
    let get := s.devNat (header + 16) 8
    let at_ := header + 0x1000 + 64 * (put % 2 ^ log)
    let flag := fun (b : Bool) (i : Nat) => if b = true then 2 ^ i else 0
    let low := (g.threads.map (·.1)).headD 0
    let x := if r.job = true then low else r.thread
    let pc := if r.job = true then (Tbl.get? g.threads low).elim ⟨0, 0⟩ (·.pc) else r.pc
    let r' := { r with thread := x, pc := pc }
    let words : List Nat :=
      [0x10 + flag r.job 10 + flag r.inh 12, (s.teamOf g).elim 0xFFFFFFFF (·.tix),
       g.lseq, g.lseq / 2 ^ 32, if g.team.isSome then g.gix else g.serial.toNat,
       x, pc.off.toNat, pc.ix, r.address.toNat, r.address.toNat / 2 ^ 32,
       r.detail.toNat, r.compmask.toNat, r.srcseq.toNat, r.srcseq.toNat / 2 ^ 32, r.core, 0xFFFFFFFF]
    let bytes := fun (k w : Nat) => (List.range k).map (fun i => BitVec.ofNat 8 (w / 256 ^ i))
    s.grp j = some g → Tbl.get? s.launches g.lseq = some n → n.area ≠ 0 → g.stop = .stopped → g.faults = [r] →
    r.code = 0x10 → r.written = false → Still s g → (s.groups.map (·.1)).Nodup → s.convicted g = false →
    (∀ e ∈ s.groups, e.2.lseq = g.lseq → e.2.verdict = none) →
    (∀ e ∈ s.groups, e.1 ≠ j → e.2.lseq = g.lseq → ∀ q ∈ e.2.faults, q.written = true) →
    (put - get < 2 ^ log → ∃ t, exec (.faultAreaRoom g.lseq) s = .next t ∧
      t = { (s.devWrite at_ (words.flatMap (bytes 4))).devWrite (header + 8) (bytes 8 (put + 1)) with groups := t.groups } ∧
      (∀ k, k ≠ j → t.grp k = s.grp k) ∧
      t.grp j = some { g with
        faults := [{ r' with written := true }], lastRec := some { r' with written := true }, stop := .driver }) ∧
    (2 ^ log ≤ put - get → ∃ t, exec (.faultAreaRoom g.lseq) s = .next t ∧ t = { s with groups := t.groups } ∧
      (∀ k, k ≠ j → t.grp k = s.grp k) ∧ t.grp j = some { g with faults := [r'], lastRec := some r' })

/-- R183, R338, R347, R348: a stopped group whose records are written and whose launch has no handler acts by the class of its
faults: 0x60 ends the grid, with REASON 3 and the code and with STATE 5 once its writes are performed; 0x10 alone leaves it stopped for the driver; any other
code ends its team, every group of it, and TERMINATED rises by 1. -/
def Sys2Proof.Claims.FaultClasses : Prop :=
  ∀ (s : State) (j k : Nat) (g : Group) (n : Launch) (tm : Team), s.grp j = some g → g.stop = .stopped → Still s g →
    g.faults ≠ [] → (∀ r ∈ g.faults, r.written = true) → Tbl.get? s.launches g.lseq = some n →
    s.convicted g = false → s.handlerOf g.lseq = none → n.ending = none → g.team = some k → Tbl.get? s.teams k = some tm →
    tm.ended = false → tm.lseq = g.lseq → (s.groups.map (·.1)).Nodup →
    let t := s.settle j
    let codes := g.faults.map (·.code)
    ((∀ c ∈ codes, c = 0x10) → t.grp j = some { g with stop := .driver, lastRec := g.faults.getLast? }) ∧
    (0x60 ∈ codes → (∀ e ∈ t.groups, e.2.lseq ≠ g.lseq) ∧ (∀ e ∈ t.recs, e.2.lseq ≠ g.lseq) ∧
      ∃ n', Tbl.get? t.launches g.lseq = some n' ∧ n'.terminated = n.terminated ∧
        (n'.ending = some (3, 0x60) ∧ (n'.state, n'.reason, n'.detail) = (n.state, n.reason, n.detail) ∨
          n'.ending = none ∧ (n'.state, n'.reason, n'.detail) = (5, 3, 0x60)) ∧
        ((∀ e ∈ s.reqs, e.2.lseq = g.lseq → e.2.isDone = true) →
          (∀ e ∈ s.jobs, e.2.lseq = g.lseq → e.2.state ≠ .waiting ∧ e.2.state ≠ .running) →
          (∀ x ∈ n.dies, s.remoteLines x = [] ∧ s.backOut x = false) → n'.ending = none)) ∧
    (0x60 ∉ codes → (∃ c ∈ codes, c ≠ 0x10) → (∀ e ∈ t.groups, e.2.team ≠ some k) ∧
      (∀ i g', s.grp i = some g' → g'.team ≠ some k → (∃ g'', t.grp i = some g'')) ∧
      (∃ tm', Tbl.get? t.teams k = some tm' ∧ tm'.ended = true) ∧
      ∃ n', Tbl.get? t.launches g.lseq = some n' ∧ n'.state = n.state ∧
        n'.terminated = min (n.terminated + 1) 0xFFFFFFFF ∧
        n'.firstTerm = if n.firstTerm = 0xFFFFFFFF then tm.tix else n.firstTerm)

/-- R336 to R338, R346 to R348: a fault's record, and what follows by its class. Where the spec leaves a point open it follows the model's choice or reading: logs 15, 36, 40, 62. -/
def Obligations.FaultRecordsAndClasses : Prop := Claims.FaultRecords ∧ Claims.FaultClasses

/-- R18, R21, R23: an undefined word, or one with a nonzero unused bit, raises 0x01 in every thread of the packet, and an
illegal clause 0x02, bit 15 of the detail for a bad header; the register state does not change. Where the spec leaves a point open it follows the model's choice or reading: logs 80, 81. -/
def Obligations.IllegalWords : Prop :=
  ∀ (s : State) (g : Group), s.grp s.cur.g = some g → (s.cur.tids).Nodup →
    (∀ x ∈ s.cur.tids, (Tbl.get? g.threads x).isSome = true) →
    ∀ e ∈ ([(.illegalInstruction, 0x01, 0), (.illegalClause, 0x02, if s.cur.at_.pc.ix = 0 then 2 ^ 15 else 0)] :
        List (Instr × Nat × Nat)),
      ∃ t g', exec e.1 s = .next t ∧ s.Beside t s.cur.g ∧ t.grp s.cur.g = some g' ∧
        g' = { g with threads := g'.threads, faults := g'.faults, stop := g'.stop, faultAt := g'.faultAt } ∧
        g'.faults = g.faults ++ s.cur.tids.map (fun x =>
          (FaultRec.make e.2.1 x s.cur.at_ 0 e.2.2 0 0).against g) ∧
        (s.cur.tids ≠ [] → g'.stop = (if g.stop = .none then .last else g.stop) ∧
          g'.faultAt = if g.stop = .none then s.ticks else g.faultAt) ∧
        ∀ x, Tbl.get? g'.threads x = (Tbl.get? g.threads x).map (fun th =>
          if x ∈ s.cur.tids then { th with place := .faulted, pc := s.cur.at_.pc } else th)

/-! ## Launches, steps and the distributors (R173 to R183, R294 to R300) -/

namespace Sys2Proof.Claims

/-- The k bytes of a number. -/
def bytesOf (k w : Nat) : List Byte := (List.range k).map (fun i => BitVec.ofNat 8 (w / 256 ^ i))

/-- s with bytes that the device has written at an address for the driver, the mirror holding them too (R377). -/
def Wrote (s : State) (pa : Nat) (bytes : List Byte) : State :=
  let u := s.devWrite pa bytes
  { u with replica := u.replica.map (fun r => { r with status := Tbl.put r.status pa bytes }) }

/-- s with the queue's control block as given, in the mirror too (R377). -/
def Mirrored (s : State) (q : Queue) : State :=
  { s with queue := q, replica := s.replica.map (fun r => { r with queue := q }) }

/-- s with the status record of launch n stored at its STATADDR (R183). -/
def Noted (s : State) (n : Launch) : State :=
  Wrote s n.statAddr (bytesOf 8 n.rc.lseq ++ bytesOf 4 (n.state + 2 ^ 8 * n.reason + 2 ^ 16 * (n.detail % 2 ^ 16))
    ++ bytesOf 4 n.terminated ++ bytesOf 4 n.stepNow ++ bytesOf 4 n.firstTerm ++ bytesOf 8 0)

/-- s with STATUS and DETAIL of queue slot i stored (R379). -/
def Answered (s : State) (i status detail : Nat) : State :=
  Wrote (Wrote s (s.slotAt i + 1) [BitVec.ofNat 8 status]) (s.slotAt i + 4) (bytesOf 4 detail)

/-- Launch l of machine s has become n in t, its status record stored; nothing else has changed but the rack's distributor,
which is as given. -/
def LaunchIs (s t : State) (l : Nat) (n : Launch) (rack : Dist := s.rack) : Prop :=
  t = { Noted { s with launches := t.launches } n with rack := rack } ∧
  ∀ k, Tbl.get? t.launches k = if k = l then some n else Tbl.get? s.launches k

/-- o is the machine s in which launch l, which is n, has started a step: its dies are the homes of its pinned teams, then
the usable dies in ascending order up to MAXDIES; its teams stand at the rack distributor. Where the homes or the die
range cannot be met, the grid has ended with STATE 5. While the home stack of a pinned team is in transition, the machine
is B: nothing has happened (R176, R177, R179, R309). -/
def Starts (s B : State) (l : Nat) (n : Launch) (step : Nat) (o : Outcome) : Prop :=
  let steady := n.rc.pinned = false ∨ ∀ k, k < n.rc.teams → (s.stack (s.teamHome n.rc k)).st = .steady
  let pins := s.pinnedDies n.rc
  let all := (List.range (4 * s.npkg)).filter s.usable
  let bad := (∃ x ∈ pins, s.usable x = false) ∨ n.rc.maxDies < pins.length
  let ended := fun (reason : Nat) => ∃ t u n', o = .next t ∧ t = Noted u n' ∧ Tbl.get? t.launches l = some n' ∧
    n' = { n with state := 5, reason := reason, detail := 0, teamsLeft := 0, stepOpen := false, savedTeams := [],
                  savedKindled := [], savedRecs := [], savedJobs := [], dies := [] } ∧
    u = { s with
      launches := u.launches, teams := u.teams, recs := u.recs, bins := u.bins, passed := u.passed, dies := u.dies
      packages := u.packages, trays := u.trays, rack := u.rack } ∧
    (∀ x k, u.l2 x k = s.l2 x k) ∧ ∀ e ∈ u.rack.queue, e.1 ≠ l
  (¬ steady → o = .next B) ∧ (steady → bad → ended 2) ∧ (steady → ¬ bad → all.length < n.rc.minDies → ended 1) ∧
  (steady → ¬ bad → n.rc.minDies ≤ all.length → ∃ t dies, o = .next t ∧
    LaunchIs s t l
      { n with stepNow := step, dies := dies, teamsLeft := n.rc.teams, stepOpen := true, colls := [] }
      { s.rack with queue := s.rack.queue ++ (List.range n.rc.teams).map (fun k => (l, k)) } ∧
    dies.Pairwise (· < ·) ∧ dies.length = min n.rc.maxDies all.length ∧ (∀ x ∈ dies, s.usable x = true) ∧
    (∀ x ∈ pins, x ∈ dies) ∧ ∀ x ∈ dies, x ∉ pins → ∀ y, y < x → s.usable y = true → y ∈ dies)

end Sys2Proof.Claims

/-- R173, R176, R177, R183: LAUNCH_START refuses a waiting launch with reason 15 for a prerequisite that ended refused or
grid terminated, and starts its first step once every prerequisite is complete; STEP_BOUNDARY starts the next step when
everything of the step has ended and its writes are performed; GRID_COMPLETE ends the grid after the last one, with STATE 3 or 4, and writes
STATE 5 of a grid that a fault or a command has ended once its writes are performed. Each waits otherwise. Where the spec leaves a point open it follows the model's choice or reading: logs 15, 19, 94, 100. -/
def Obligations.LaunchSteps : Prop :=
  (∀ (s : State) (l : Nat) (n : Launch) (e : Nat × Req), Tbl.get? s.launches l = some n → e ∈ s.reqs → e.2.lseq = l →
    e.2.isDone = false → exec (.stepBoundary l) s = .next s ∧ exec (.gridComplete l) s = .next s) ∧
  ∀ (s : State) (l : Nat) (n : Launch), Tbl.get? s.launches l = some n →
    (∀ x, s.remoteLines x = [] ∧ s.backOut x = false) →
    (∀ e ∈ s.reqs, e.2.lseq = l → e.2.isDone = true) →
    (∀ e ∈ s.jobs, e.2.lseq = l → e.2.state ≠ .waiting ∧ e.2.state ≠ .running) →
    (∀ reason detail, n.ending = some (reason, detail) → ∃ t, exec (.gridComplete l) s = .next t ∧
      LaunchIs s t l { n with state := 5, reason := reason, detail := detail, ending := none, dies := [] }) ∧
    (n.ending = none → (∀ e ∈ s.groups, e.2.lseq ≠ l) → (∀ e ∈ s.recs, e.2.lseq ≠ l) →
    let pre := fun (i : Nat) => n.rc.prereq.getD i 0
    let failed := fun (i : Nat) => pre i ≠ 0 ∧ ∃ m, Tbl.get? s.launches (pre i) = some m ∧ (m.state = 5 ∨ m.state = 6)
    let ok := fun (q : Nat) => q = 0 ∨ ∀ m, Tbl.get? s.launches q = some m → m.state = 3 ∨ m.state = 4
    let ended := n.state = 2 ∧ n.preempt = none ∧ n.resuming = none ∧ n.stepOpen = true ∧ n.teamsLeft = 0 ∧ n.savedJobs = []
    (n.state = 1 →
      (∀ i, i < 4 → failed i → (∀ k, k < i → ¬ failed k) → ∃ t, exec (.launchStart l) s = .next t ∧
        LaunchIs s t l { n with state := 6, reason := 15, detail := i }) ∧
      ((∀ i, i < 4 → ¬ failed i) → (∀ q ∈ n.rc.prereq, ok q) →
        Starts (Noted { s with launches := Tbl.modify s.launches l (fun m => { m with state := 2 }) } { n with state := 2 }) s l
          { n with state := 2 } 0 (exec (.launchStart l) s)) ∧
      ((∀ i, i < 4 → ¬ failed i) → (∃ q ∈ n.rc.prereq, ¬ ok q) → exec (.launchStart l) s = .next s)) ∧
    (ended → n.stepNow + 1 < n.rc.steps →
      Starts s s l n (n.stepNow + 1) (exec (.stepBoundary l) s) ∧ exec (.gridComplete l) s = .next s) ∧
    (ended → n.rc.steps ≤ n.stepNow + 1 → exec (.stepBoundary l) s = .next s ∧
      ∃ t, exec (.gridComplete l) s = .next t ∧ LaunchIs s t l
        { n with state := if n.terminated = 0 then 3 else 4, stepOpen := false, dies := [] }) ∧
    (n.teamsLeft ≠ 0 → exec (.stepBoundary l) s = .next s ∧ exec (.gridComplete l) s = .next s))

/-- R179, R294 to R296: a distributor sends the first team of its highest priority (no lower one having been skipped 64
times) and counts the skips below; the rack sends it to a tray, a tray to a package, a package to the owner of its home
stack, once that is steady, or to the lowest die of the set in service (where the set has none left, the team waits); a die in service, or the home of a pinned team, admits it to cores that can take it, the core with the
most free rows first, or holds capacity for it. -/
def Sys2Proof.Claims.Distribution : Prop :=
  (∀ (s : State) (d x l team : Nat) (n : Launch) (D : Dist) (i : Instr),
    let before := fun (a b : Nat × Nat) => s.prio b.1 < s.prio a.1 ∨
      s.prio a.1 = s.prio b.1 ∧ (a.1 < b.1 ∨ a.1 = b.1 ∧ a.2 < b.2)
    let runs := fun (k : Nat) => ∃ m, Tbl.get? s.launches k = some m ∧ m.state = 2 ∧ m.preempt = none ∧ m.ending = none
    let p := s.prio l
    let holds := fun (q : Nat) => ∃ e ∈ D.queue, runs e.1 ∧ s.prio e.1 = q
    let sent := fun (D' : Dist) => D'.queue = D.queue.erase (l, team) ∧ D'.held = none ∧ D'.spare = [] ∧ ∀ q, q < 4 →
      D'.skip[q]? = some (D'.skip.getD q 0) ∧ (q = p → D'.skip.getD q 0 = 0) ∧
      (q < p → holds q → D'.skip.getD q 0 = D.skip.getD q 0 + 1) ∧
      (p < q ∨ q < p ∧ ¬ holds q → D'.skip.getD q 0 = D.skip.getD q 0)
    let home := s.teamHome n.rc team
    let owner := 4 * (home / 8) + (s.stack home).owner
    let serves := fun (x : Nat) => x ∈ n.dies ∧ (s.die x).inService = true
    let atHome := owner ∈ n.dies ∧ ((s.die owner).inService = true ∨ n.rc.pinned = true)
    let takes := fun (x : Nat) => (atHome ∧ x = owner) ∨
      (¬ atHome ∧ serves x ∧ ∃ a b, n.dies = a ++ x :: b ∧ ∀ y ∈ a, (s.die y).inService = false)
    let near := n.rc.pinned = true ∨ ∃ y, serves y ∧ y / 4 = home / 8
    let goes := fun (p : Nat) => (near ∧ p = home / 8) ∨ (¬ near ∧ ∃ y, takes y ∧ p = y / 4)
    let waits := { D with held := some (l, team), spare := [] }
    Tbl.get? s.launches l = some n → runs l → p < 4 → (l, team) ∈ D.queue → D.held = none →
    (∀ q, D.skip.getD q 0 < 64) → (∀ e ∈ D.queue, runs e.1 → e ≠ (l, team) → before (l, team) e) →
    (i = .teamDispatch d → D = s.distAt d →
      (∀ p, d = 0 → goes p → (s.pkg p).tray < 64 → ∃ t, exec i s = .next t ∧ sent t.rack ∧
        t = { s with rack := t.rack, trays := t.trays } ∧
        t.distAt (1 + (s.pkg p).tray) = (s.distAt (1 + (s.pkg p).tray)).add (l, team)) ∧
      (∀ p, 0 < d → d ≤ 64 → goes p → ∃ t, exec i s = .next t ∧ sent (t.distAt d) ∧
        t = { s with trays := t.trays, packages := t.packages } ∧
        t.distAt (65 + p) = (s.distAt (65 + p)).add (l, team)) ∧
      (d ≤ 64 → (∀ p, ¬ goes p) → ∃ t, exec i s = .next t ∧ t.distAt d = waits ∧
        t = { s with rack := t.rack, trays := t.trays }) ∧
      (64 < d → (s.stack home).st = .steady → takes x → ∃ t, exec i s = .next t ∧ sent (t.distAt d) ∧
        t = { s with packages := t.packages, dies := t.dies } ∧ (t.die x).dist = (s.die x).dist.add (l, team)) ∧
      (64 < d → (s.stack home).st ≠ .steady ∨ (∀ y, ¬ takes y) → ∃ t, exec i s = .next t ∧ t.distAt d = waits ∧
        t = { s with packages := t.packages })) ∧
    (i = .teamAdmit x → D = (s.die x).dist →
      let mine := (s.die x).inService = true ∨ n.rc.pinned = true ∧ x = owner
      (¬ mine → exec i s = .next s) ∧
      (∀ cores, mine → n.rc.dieres = false → s.chooseCores x n.rc [] n.rc.cores 0 [] = some cores → ∃ (t B : State), exec i s = .next t ∧
        B = { s with dies := B.dies } ∧ sent (B.die x).dist ∧ t = B.admitTeam l n team cores ∧ ∃ tm,
        Tbl.get? t.teams s.fresh = some tm ∧ (tm.lseq, tm.tix, tm.step, tm.cores) = (l, team, n.stepNow, cores) ∧
        (tm.ended, tm.saved, tm.exited, tm.due) = (false, false, [], []) ∧
        ∀ b, b < n.rc.barriers → b < 16 → tm.bars[b]? = some ⟨n.rc.groups, 0, 0, 0, false⟩) ∧
      (mine → n.rc.dieres = false → s.chooseCores x n.rc [] n.rc.cores 0 [] = none →
        ∃ t, exec i s = .next t ∧ t = { s with dies := t.dies } ∧ (t.die x).dist = { D with
          held := some (l, team)
          spare := (List.range 96).map (fun c => (96 * x + c, (s.openRows (96 * x + c), 127 - s.slots (96 * x + c)))) }))) ∧
  (∀ (s : State) (x k : Nat) (r : LaunchRec), s.chooseCores x r [] 1 0 [] = some [k] →
    let can := fun (j : Nat) => s.canTake j (r.need 0) = true
    k / 96 = x ∧ can k ∧ ∀ j, j / 96 = x → can j → s.openRows j < s.openRows k ∨ s.openRows j = s.openRows k ∧ k ≤ j) ∧
  ∀ (s : State) (l team tix gix core q slot : Nat) (n : Launch), s.pickSlot core = some (q, slot) →
    let t := s.startGroup l n team tix gix core
    let role := n.rc.roleOf gix
    let ceil := n.rc.ceils.getD role 0
    ∃ g, t = { s with groups := t.groups, fresh := s.fresh + 1 } ∧
      (∀ j, t.grp j = if j = s.fresh then some g else s.grp j) ∧
      (g.lseq, g.team, g.gix, g.role, g.core, g.quad, g.slot) = (l, some team, gix, role, core, q, slot) ∧
      (g.ceil, g.resv, g.acc, g.waits, g.tgt, g.rot) = (ceil, ceil, [], [], 0, 0) ∧
      g.conv = List.replicate 8 ⟨List.range 256, [], none⟩ ∧
      (∀ m, g.rs m = ([BitVec.ofNat 32 n.rc.args, BitVec.ofNat 32 (n.rc.args / 2 ^ 32), BitVec.ofNat 32 tix,
        BitVec.ofNat 32 gix, BitVec.ofNat 32 (n.dies.findIdx (· = core / 96)), BitVec.ofNat 32 n.dies.length,
        BitVec.ofNat 32 role, BitVec.ofNat 32 n.stepNow] : List Word).getD m 0) ∧
      ∀ y, (Tbl.get? g.threads y).isSome = decide (y < 256) ∧ ∀ th, Tbl.get? g.threads y = some th →
        let index := (tix * n.rc.groups + gix) * 256 + y
        th.pc = ⟨n.rc.entry, 0⟩ ∧ th.place = .ready ∧ th.p = 0 ∧ th.tok = [0, 0, 0, 0] ∧
        th.gidx = BitVec.ofNat 64 index ∧ th.rng = n.rc.seed ^^^ (th.gidx * 0x9E3779B97F4A7C15) ∧
        ∀ m, th.lane false m = if ceil ≤ m then 0 else if m = 0 then BitVec.ofNat 32 y
          else if m = 1 then BitVec.ofNat 32 index else 0

namespace Sys2Proof.Claims

/-- Something of a pool may be stolen to die x (R300). -/
def Offers (s : State) (x : Nat) (Y : Pool) : Prop := s.poolTeams Y x ≠ [] ∨ s.poolBins Y x ≠ []

/-- Y is, of a list of pools, the one with the most queued teams plus ready bins among those that hold something for die x,
the lowest number winning a tie (R299). -/
def Richest (s : State) (x : Nat) (l : List Pool) (Y : Pool) : Prop :=
  let work := fun (Z : Pool) => ((s.poolQueues Z).map (·.queue.length)).sum +
    s.bins.countP (fun e => decide (e.2.core / 96 ∈ Z.dies) && e.2.closed.isSome)
  Y ∈ l ∧ Offers s x Y ∧ ∀ Z ∈ l, Z ≠ Y → Offers s x Z → work Z < work Y ∨ work Z = work Y ∧ Y.key < Z.key

/-- Die x holds nothing queued and nothing ready, and a core of it has a free slot (R299). -/
def Idle (s : State) (x : Nat) : Prop :=
  (s.die x).dist.queue = [] ∧ (∀ e ∈ s.bins, e.2.core / 96 = x → e.2.closed = none) ∧ ∃ k, k / 96 = x ∧ s.slots k < 127

/-- Die x steals from Y: a die of its package; where nothing of its siblings is for it and its package is idle, another package of
its tray; where nothing of those is for it and every package of its tray is idle, another tray (R299). -/
def Source (s : State) (x : Nat) (Y : Pool) : Prop :=
  let p := x / 4
  let tray := fun (q : Nat) => (s.pkg q).tray
  let idle := fun (q : Nat) => ∀ z, z / 4 = q → Idle s z
  let dies := ((List.range 4).map (fun i => Pool.ofDie (4 * p + i))).filter (fun D => D.key ≠ x)
  let packages := ((List.range s.npkg).filter (fun q => tray q = tray p ∧ q ≠ p)).map Pool.ofPackage
  let trays := ((((List.range s.npkg).map tray).dedup).filter (· ≠ tray p)).map s.trayPool
  Richest s x dies Y ∨ (∀ D ∈ dies, ¬ Offers s x D) ∧ idle p ∧
    (Richest s x packages Y ∨ (∀ P ∈ packages, ¬ Offers s x P) ∧ (∀ q, q < s.npkg → tray q = tray p → idle q) ∧ Richest s x trays Y)

end Sys2Proof.Claims

/-- R299, R300: a die in service whose distributor and units hold nothing, with a free slot, takes from the die, package or tray with
the most its youngest queued team, or else its latest-closed ready bin, which becomes a closed bin of the core
with the most free rows that has room for its records, its records released from the die that held them; a die that is not idle takes nothing. -/
def Sys2Proof.Claims.Stealing : Prop :=
  (∀ (s : State) (x : Nat), ¬ Idle s x ∨ (s.die x).inService = false → exec (.workSteal x) s = .next s) ∧
  ∀ (s : State) (x : Nat) (Y : Pool), Idle s x → (s.die x).inService = true → Source s x Y → (∀ q, (s.pkg q).tray < 64) →
    let o := exec (.workSteal x) s
    (∀ e ∈ s.poolTeams Y x, (∀ f ∈ s.poolTeams Y x, f ≠ e → s.prio e.1 < s.prio f.1 ∨
        s.prio e.1 = s.prio f.1 ∧ (f.2 < e.2 ∨ f.2 = e.2 ∧ f.1 < e.1)) →
      ∃ t, o = .next t ∧ t = { s with dies := t.dies, packages := t.packages, trays := t.trays } ∧
        (t.die x).dist = (s.die x).dist.add e ∧
        (∀ z ∈ Y.dies, (t.die z).dist = (s.die z).dist.remove e) ∧ (∀ d ∈ Y.dists, t.distAt d = (s.distAt d).remove e) ∧
        ∀ z, z ≠ x → z ∉ Y.dies → t.die z = s.die z) ∧
    (∀ b ∈ s.poolBins Y x, ∀ n k, s.poolTeams Y x = [] → (s.bins.map (·.1)).Nodup →
      (∀ c ∈ s.poolBins Y x, c ≠ b → c.2.closed.getD 0 < b.2.closed.getD 0) → Tbl.get? s.launches b.2.lseq = some n →
      s.binCore x (n.rc.ceils.getD 0 0) b.2.recs.length = some k → s.remoteLines (b.2.core / 96) = [] →
      s.backOut (b.2.core / 96) = false → k / 96 = x →
      o = .next { s with
        bins := Tbl.modify s.bins b.1 (fun v => { v with core := k, closed := some s.fresh }), fresh := s.fresh + 1
        recs := b.2.recs.foldl (fun t id => Tbl.modify t id (fun r => { r with die := x })) s.recs })

/-- R174, R179, R294 to R296, R299, R300: teams reach dies and cores. Where the spec leaves a point open it follows the model's choice or reading: logs 52, 55, 92, 93, 100. -/
def Obligations.DistributionAndStealing : Prop := Claims.Distribution ∧ Claims.Stealing

/-! ## Pre-emption and restore (R217, R301 to R305, R353, R355) -/

namespace Sys2Proof.Claims

/-- Group g, restored, is g' : its threads stand where they stood with the registers they had, faulted ones ready again
unless the group waited for a trap reserve, its count kept, or for room in its fault area (R355). -/
def Revived (g g' : Group) : Prop :=
  let waited := (g.handler = none ∨ g.verdict ≠ none) ∧ ((∃ w, g.stop = .reserve w) ∨
    g.stop = .stopped ∧ ((∃ r ∈ g.faults, r.written = false) ∨ g.verdict ≠ none))
  (g'.halted, g'.recovering, g'.ember, g'.resv, g'.ceil, g'.tgt, g'.s) = (false, true, false, g.ceil, g.ceil, g.tgt, g.s) ∧
  (waited → g'.faults = g.faults ∧ (g.stop = .stopped → g'.stop = .stopped) ∧
    ∀ w, g.stop = .reserve w → ∃ w', g'.stop = .reserve w' ∧ w'.acc = w.acc) ∧
  (¬ waited → g'.faults = [] ∧ (g.handler = none → g'.stop = .none) ∧ (g.handler ≠ none → ∃ w, g'.stop = .reserve w)) ∧
  ∀ y th, Tbl.get? g.threads y = some th → ∃ th', Tbl.get? g'.threads y = some th' ∧
    th' = { th with place := th'.place, demand := th'.demand } ∧
    (th.place = .ready → th'.place = .ready ∧ th'.demand = th.demand) ∧
    (th.place = .faulted → (waited → th'.place = .faulted) ∧ (¬ waited → th'.place = .ready))

/-- s with the list of the commands in progress that have failed at one of their launches as given, in the mirror too (R377,
R380). -/
def WithFailed (s : State) (l : List Nat) : State := Mirrored s { s.queue with failed := l }

/-- s with the command of slot i ended: done, unless it has failed at another launch (R380). -/
def Ended (s : State) (i : Nat) : State :=
  if i ∈ s.queue.failed then WithFailed s (s.queue.failed.filter (· ≠ i)) else Answered s i 2 0

end Sys2Proof.Claims

/-- R301 to R303, R353: before the limit the groups of a pre-empted launch run on; at the limit, or at once with FULL, the
last group of it stops and is saved: its fixed-latency writes complete, its slots and place are given up, its block is
written where it fits; where it does not, the command ends with STATUS 4 and DETAIL 1 and the group goes on. When
everything is saved the last block and the header are stored, STATE becomes 7 and the command is done, unless it has failed
at another launch, and not before. -/
def Sys2Proof.Claims.Preemption : Prop :=
  (∀ (s : State) (l j : Nat) (n : Launch) (p : Preempt) (g : Group), Tbl.get? s.launches l = some n → n.preempt = some p →
    s.grp j = some g → g.lseq = l → g.residence = .resident → g.halted = false → g.waits = [] →
    (∀ e ∈ s.groups, e.2.lseq = l → e = (j, g)) → (s.groups.map (·.1)).Nodup → (s.teams.map (·.1)).Nodup →
    (∀ e ∈ s.recs, e.2.lseq ≠ l) → (∀ e ∈ s.jobs, e.2.state ≠ .waiting ∧ e.2.state ≠ .running) →
    (∀ e ∈ s.reqs, e.2.g ≠ j) → (∀ e ∈ s.mops, e.2.g ≠ j) →
    (∀ x, s.remoteLines x = [] ∧ s.backOut x = false) → (∀ e ∈ g.threads, e.2.place = .ready ∧ e.2.vsoft = [] ∧ e.2.vhard = []) → g.ssoft = [] → g.shard = [] →
    (∀ k, g.team = some k → ∃ tm, Tbl.get? s.teams k = some tm ∧ tm.lseq = l ∧ tm.saved = false ∧ tm.due = []) →
    (∀ e ∈ s.groups, e.2.team = g.team → g.team ≠ none → e.1 = j) →
    (∀ e ∈ s.teams, e.2.lseq = l → e.2.saved = true ∨ g.team = some e.1) →
    let o := exec (.fullTierPreempt l) s
    let due := p.full = true ∨ (Tbl.get? p.arrival g.core).getD 0 + 2 ^ p.limit ≤ s.now g.core
    let H := s.haltDue l p
    (¬ due → o = .next s) ∧
    (due → ∀ h, H.grp j = some h →
      let B := H.settleWrites j h
      let block := match g.team with
        | none => B.kindledBlock j g.serial.toNat
        | some k => (Tbl.get? s.teams k).elim [] (fun tm => B.teamBlock k tm n)
      (p.used + block.length ≤ p.saveLen → ∃ t g' n', o = .next t ∧ t.grp j = some g' ∧
        t = { B.devWrite (p.save + p.used) block with
          groups := t.groups, cores := t.cores, launches := t.launches, teams := t.teams } ∧ block.take 4 = natToBytes 4 (if g.team = none then 2 else 1) ∧
        (∀ i, i ≠ j → t.grp i = s.grp i) ∧ Tbl.get? t.launches l = some n' ∧
        n'.preempt = some { p with used := p.used + block.length } ∧
        (n'.savedTeams, n'.savedKindled) = (n.savedTeams ++ g.team.toList, n.savedKindled ++ if g.team = none then [j] else []) ∧
        (∀ k, g.team = some k → ∃ tm, Tbl.get? t.teams k = some tm ∧ tm.saved = true) ∧
        (g'.residence, g'.halted, g'.acc, g'.s, g'.ceil) = (.saved, true, [], g.s, g.ceil) ∧
        g'.savedAcc = g.acc.map (fun e => (e.1, s.slot g.core e.2)) ∧
        (t.core g.core).accFree = (s.core g.core).accFree ++ g.acc.map (·.2) ∧
        (∀ q ∈ (t.core g.core).quads, q.trap ≠ some j ∧ ∀ a ∈ q.active, a.g ≠ some j) ∧
        ∀ y th, Tbl.get? g.threads y = some th → ∃ th', Tbl.get? g'.threads y = some th' ∧
          (th'.pc, th'.place, th'.rng, th'.demand) = (th.pc, th.place, th.rng, th.demand) ∧ th.Keeps th' ∧
          (∀ m, th'.lane (g.inHandler y) m = th.lane (g.inHandler y) m) ∧
          ∀ m, m < 7 → th'.pred (g.inHandler y) m = th.pred (g.inHandler y) m) ∧
      (p.saveLen < p.used + block.length → ∃ t g' n', o = .next t ∧ t.grp j = some g' ∧
        (g'.residence, g'.halted, g'.acc) = (.resident, false, g.acc) ∧ Tbl.get? t.launches l = some n' ∧
        n'.preempt = none ∧ n'.state = n.state ∧
        ∀ i, p.slots = [i] → ∃ u, t = Answered (WithFailed u (i :: u.queue.failed)) i 4 1 ∧
          u = { B with launches := u.launches, groups := u.groups }))) ∧
  ∀ (s : State) (l : Nat) (n : Launch) (p : Preempt), Tbl.get? s.launches l = some n → n.preempt = some p → n.state = 2 →
    n.ending = none →
    let o := exec (.preemptSaveComplete l) s
    let aside := (∀ e ∈ s.groups, e.2.lseq = l → e.2.halted = true ∧ e.2.residence ≠ .resident) ∧
      (∀ e ∈ s.jobs, e.2.lseq = l → e.2.state ≠ .waiting ∧ e.2.state ≠ .running) ∧
      (∀ e ∈ s.teams, e.2.lseq = l → e.2.ended = true ∨ e.2.saved = true) ∧
      ∀ e ∈ s.recs, e.2.lseq = l → e.2.place = .saved
    let last := bytesOf 4 0xFFFFFFFF ++ bytesOf 4 0 ++ bytesOf 8 64 ++ List.replicate 48 0
    let header := bytesOf 8 l ++ bytesOf 4 n.stepNow ++ bytesOf 4 n.savedTeams.length ++ bytesOf 4 n.savedKindled.length ++
      bytesOf 4 n.savedRecs.length ++ bytesOf 8 (p.used + 64) ++ List.replicate 4064 0
    let n' := { n with state := 7, preempt := none, saveAt := p.save }
    (aside → p.used + 64 ≤ p.saveLen → ∃ t u, o = .next t ∧
      u = Noted { (s.devWrite (p.save + p.used) last).devWrite p.save header with launches := u.launches } n' ∧
      (∀ k, Tbl.get? u.launches k = if k = l then some n' else Tbl.get? s.launches k) ∧ (p.slots = [] → t = u) ∧
      ∀ i, p.slots = [i] → (∀ e ∈ s.launches, e.1 ≠ l → e.2.resuming ≠ some i ∧ ∀ q, e.2.preempt = some q → i ∉ q.slots) →
        n.resuming ≠ some i → (s.launches.map (·.1)).Nodup → t = Ended u i) ∧
    (¬ aside → o = .next s)

/-- R304, R355: a resume command brings a saved launch back to STATE 2, on the dies it had where all are usable; its
records then re-enter routing in their saved order, its teams, a die span together, and kindled groups go to cores that can take them, in
recovery order, and the command is done when nothing is left. A restored group takes a slot of its new core, each thread
where it stood with the registers it had, faulted words to be executed again. -/
def Sys2Proof.Claims.Restoring : Prop :=
  (∀ (s : State) (l i : Nat) (n : Launch), Tbl.get? s.launches l = some n → n.resuming = some i →
    let o := exec (.teamRestore l) s
    (n.state = 7 → (∀ e ∈ s.launches, e.1 < l → e.2.resuming ≠ some i) → (∀ x ∈ n.dies, s.usable x = true) →
      ∃ t, o = .next t ∧ LaunchIs s t l { n with state := 2 }) ∧
    (n.state = 2 → n.preempt = none →
      (n.savedRecs ≠ [] → n.savedRecs.Nodup → ∃ t, o = .next t ∧
        t = { s with recs := t.recs, launches := t.launches, fresh := s.fresh + n.savedRecs.length } ∧
        (∀ k, Tbl.get? t.launches k = if k = l then some { n with savedRecs := [] } else Tbl.get? s.launches k) ∧
        (∀ m id, n.savedRecs[m]? = some id → Tbl.get? t.recs id = (Tbl.get? s.recs id).map (fun r =>
          { r with place := .routing, born := s.fresh + m, again := true, bound := none })) ∧
        ∀ id, id ∉ n.savedRecs → Tbl.get? t.recs id = Tbl.get? s.recs id) ∧
      (∀ k rest rs r more ps, n.savedRecs = [] → n.savedTeams = k :: rest → n.savedTeams.Nodup → s.returnsWith n k = rs →
        rs = r :: more → s.restorePlace l n (s.restoreDies n r.tm) rs = some ps →
        (∀ y ∈ rs, y.tm.held = [] ∧ ∀ e ∈ n.savedJobs, e.2.team ≠ some y.team) → (∀ x, s.remoteLines x = []) →
        (n.rc.dieres = false → rs.map (·.team) = [k]) ∧
        (n.rc.dieres = true → ∀ k' ∈ n.savedTeams, ∀ tm tm', Tbl.get? s.teams k = some tm → Tbl.get? s.teams k' = some tm' →
          tm'.cores.getD 0 0 / 96 = tm.cores.getD 0 0 / 96 → ∃ y ∈ rs, y.team = k') ∧
        ∃ t n', o = .next t ∧ Tbl.get? t.launches l = some n' ∧
          (∀ k' ∈ n.savedTeams, (∀ y ∈ rs, y.team ≠ k') → k' ∈ n'.savedTeams) ∧
          ∀ y ∈ rs, y.team ∉ n'.savedTeams ∧ ∃ cores, (y, cores) ∈ ps ∧
            Tbl.get? t.teams y.team = some { y.tm with cores := cores, saved := false } ∧
            ∀ c ∈ cores, (t.core c).restoreAt = s.now c ∧
              ((s.core c).mode = .barrel → (t.core c).nextMode = some .recovery)) ∧
      (∀ j g c, n.savedRecs = [] → n.savedTeams = [] → n.savedJobs = [] → n.savedKindled = [j] → s.grp j = some g →
        (∀ x, s.remoteLines x = []) → g.residence = .saved → g.savedAcc = [] →
        ((g.core / 96 :: n.dies).filter (fun x => n.dies.contains x && s.usable x)).findSome?
          (fun x => s.restoreCores x [] [wantOf [g] 0 0] []) = some [c] →
        ∀ q slot, s.pickSlot c = some (q, slot) → ∃ t g' n', o = .next t ∧ t.grp j = some g' ∧ Revived g g' ∧
          (g'.residence, g'.core, g'.quad, g'.slot) = (.resident, c, q, slot) ∧
          Tbl.get? t.launches l = some n' ∧ n'.savedKindled = []) ∧
      (n.savedRecs = [] → n.savedTeams = [] → n.savedKindled = [] → n.savedJobs = [] →
        (s.launches.map (·.1)).Nodup → ∃ t u, o = .next t ∧ u = { s with launches := u.launches } ∧
          (∀ k, Tbl.get? u.launches k = if k = l then some { n with resuming := none } else Tbl.get? s.launches k) ∧
          let other := ∃ e ∈ s.launches, e.1 ≠ l ∧ (e.2.resuming = some i ∨ ∃ q, e.2.preempt = some q ∧ i ∈ q.slots)
          (other → t = u) ∧ (¬ other → t = Ended u i)))) ∧
  ∀ (s : State) (j k q slot : Nat) (g : Group), s.grp j = some g → g.residence = .saved → g.savedAcc = [] →
    s.pickSlot k = some (q, slot) → ∃ g', (s.reviveGroup j g k).grp j = some g' ∧ Revived g g' ∧
      (g'.residence, g'.core, g'.quad, g'.slot) = (.resident, k, q, slot) ∧
      ∀ i, i ≠ j → (s.reviveGroup j g k).grp i = s.grp i

/-- R301 to R304, R353, R355: launches leave the machine and come back. Where the spec leaves a point open it follows the model's choice or reading: logs 14, 15, 21, 63, 64, 66, 70, 92, 95, 98. -/
def Obligations.PreemptionAndRestoring : Prop := Claims.Preemption ∧ Claims.Restoring

/-! ## Expiries, deadlocks and lost dies (R226, R227, R237, R330, R331, R349 to R351) -/

namespace Sys2Proof.Claims

/-- The fault area of launch l, which is n, has room for a record. -/
def Room (s : State) (l : Nat) (n : Launch) : Prop :=
  Tbl.get? s.launches l = some n ∧ n.area ≠ 0 ∧
  s.devNat (n.area + 8) 8 - s.devNat (n.area + 16) 8 < 2 ^ (s.devNat (n.area + 4) 4 % 32)

/-- s with one record stored in the fault area of n, against group g: code (class 1), thread, PC, detail
and the words for a diagnostic record; its address, mask and sequence are 0, and PUT is one higher (R336, R337). -/
def Logged (s : State) (n : Launch) (g : Group) (code thread : Nat) (pc : Pc) (detail : Nat) (diag : Option Nat) : State :=
  let put := s.devNat (n.area + 8) 8
  let words : List Nat :=
    [code + 2 ^ 8 + (if g.handler = none then 0 else 2 ^ 12) + (if diag = none then 0 else 2 ^ 13),
     (s.teamOf g).elim 0xFFFFFFFF (·.tix), g.lseq, g.lseq / 2 ^ 32, if g.team.isSome then g.gix else g.serial.toNat, thread,
     pc.off.toNat, pc.ix, 0, 0, detail, 0, 0, 0, g.core % 96 + 2 ^ 7 * (g.core / 96 % 4) + 2 ^ 16 * (g.core / 384),
     diag.getD 0xFFFFFFFF]
  (s.devWrite (n.area + 0x1000 + 64 * (put % 2 ^ (s.devNat (n.area + 4) 4 % 32))) (words.flatMap (bytesOf 4))).devWrite
    (n.area + 8) (bytesOf 8 (put + 1))

/-- From B to t only what the end of teams and groups changes has changed, and the status record of launch l is stored. -/
def OnlyEnds (l : Nat) (B t : State) : Prop :=
  ∃ n', Tbl.get? t.launches l = some n' ∧ t = Noted { B with
    groups := t.groups, teams := t.teams, launches := t.launches, cores := t.cores, mops := t.mops, reqs := t.reqs
    jobs := t.jobs, passed := t.passed } n'

/-- From s to t team k, which is tm of launch l, which is n, has been terminated: its groups are gone and the launch
counts it (R347). -/
def TeamEnded (s t : State) (l : Nat) (n : Launch) (k : Nat) (tm : Team) : Prop :=
  (∀ e ∈ t.groups, e.2.team ≠ some k) ∧ (∃ tm', Tbl.get? t.teams k = some tm' ∧ tm'.ended = true) ∧
  (∀ i g, s.grp i = some g → g.team ≠ some k → t.grp i = some g) ∧
  ∃ n', Tbl.get? t.launches l = some n' ∧ n'.state = n.state ∧ n'.terminated = min (n.terminated + 1) 0xFFFFFFFF ∧
    n'.firstTerm = if n.firstTerm = 0xFFFFFFFF then tm.tix else n.firstTerm

end Sys2Proof.Claims

/-- R330, R331, R350, R226, R227, R237: a wait that has reached 2^WDOG cycles writes a diagnostic record and the 0x20
record of its team's lowest-numbered waiting group; a team all of whose groups are blocked on it, with no claim that fits,
writes the 0x21 record of its smallest claim; a core with no free accumulator slot, every holder of one waiting to bind,
writes the 0x22 record of the oldest waiter; the team then ends. Where the condition does not hold nothing happens. Where the spec leaves a point open it follows the model's choice or reading: logs 15, 40, 58, 61, 85. -/
def Obligations.ExpiryAndDeadlock : Prop :=
  (∀ (s : State) (j k : Nat) (g : Group) (n : Launch) (tm : Team) (w : WaitInfo) (rest : List WaitInfo),
    let o := exec (.watchdogExpiry j) s
    let log := s.devNat (n.area + 4) 4
    let dput := s.devNat (n.area + 24) 8
    let D := (s.devWrite (n.area + 0x1000 + 64 * 2 ^ (log % 32) + 4096 * (dput % 2 ^ (log / 2 ^ 8 % 32)))
      (s.teamDiag k tm n)).devWrite (n.area + 24) (bytesOf 8 (dput + 1))
    s.grp j = some g → Tbl.get? s.launches g.lseq = some n → (s.groups.map (·.1)).Nodup → g.verdict = none →
    ((∀ v ∈ s.countingWaits g, v.watch.count (s.now g.core) < 2 ^ n.rc.wdog) → o = .next s) ∧
    ((∃ v ∈ s.countingWaits g, 2 ^ n.rc.wdog ≤ v.watch.count (s.now g.core)) → n.area ≠ 0 → Room D g.lseq n →
      g.residence = .resident →
      g.team = some k → Tbl.get? s.teams k = some tm → tm.ended = false → tm.lseq = g.lseq → s.allWaits g = w :: rest →
      (∀ e ∈ s.groups, e.2.team = some k → e.2.faults = [] ∧ e.2.verdict = none ∧ (e.1 ≠ j → s.allWaits e.2 ≠ [] → g.gix < e.2.gix)) →
      dput - s.devNat (n.area + 32) 8 < 2 ^ (log / 2 ^ 8 % 32) →
      ∃ t, o = .next t ∧ TeamEnded s t g.lseq n k tm ∧ OnlyEnds g.lseq (Logged D n g 0x20 w.thread w.pc
        (w.code + (if w.code = 2 ∨ w.code = 13 then 2 ^ 4 * w.bar else 0) + 2 ^ 8 * n.rc.wdog) (some dput)) t)) ∧
  (∀ (s : State) (j k w m : Nat) (g : Group) (x : GWait) (n : Launch) (tm : Team),
    let o := exec (.registerClaimDeadlock k) s
    let claims := fun (e : Nat × Group) (v : Nat × GWait) (c : Nat) => e ∈ s.groups ∧ e.2.team = some k ∧ v ∈ e.2.waits ∧
      v.2.kind = .claim c
    Tbl.get? s.teams k = some tm → (s.groups.map (·.1)).Nodup →
    ((∃ e ∈ s.groups, e.2.team = some k ∧ s.blockedOn k e.2 = false) ∨ (∀ e v c, ¬ claims e v c) ∨
        (∃ e v c, claims e v c ∧ c ≤ s.freeRows e.2.core) → o = .next s) ∧
    (s.grp j = some g → claims (j, g) (w, x) m → Room s g.lseq n → tm.ended = false → tm.lseq = g.lseq →
      (∀ e ∈ s.groups, e.2.team = some k → s.blockedOn k e.2 = true ∧ e.2.faults = []) →
      (∀ e v c, claims e v c → s.freeRows e.2.core < c ∧
        (e.1 = j ∧ v = (w, x) ∨ m < c ∨ m = c ∧ g.gix < e.2.gix)) →
      ∃ t, o = .next t ∧ TeamEnded s t g.lseq n k tm ∧ OnlyEnds g.lseq (Logged s n g 0x21 ((x.sigs.map (·.t)).headD 0) x.at_.pc
        (s.freeRows g.core % 2 ^ 16 + 2 ^ 16 * m) none) t)) ∧
  ∀ (s : State) (c j k w : Nat) (g : Group) (x : GWait) (m : Mop) (n : Launch) (tm : Team),
    let o := exec (.accumulatorDeadlock c) s
    let binds := fun (e : Nat × Group) (v : Nat × GWait) => e ∈ s.residentOn c ∧ v ∈ e.2.waits ∧ ∃ q, v.2.kind = .bind q
    let holds := (s.core c).accFree = [] ∧ ∀ e ∈ s.groupsOn c, e.2.acc ≠ [] → e.2.residence = .resident ∧ ∃ v, binds e v
    (s.groups.map (·.1)).Nodup →
    (¬ holds ∨ (∀ e v, ¬ binds e v) → o = .next s) ∧
    (holds → s.grp j = some g → g.halted = false → Tbl.get? g.waits w = some x → x.kind = .bind m → binds (j, g) (w, x) →
      (∀ e v, binds e v → e.1 = j ∧ v = (w, x) ∨ x.born < v.2.born) → Room s g.lseq n → g.team = some k →
      Tbl.get? s.teams k = some tm → tm.ended = false → tm.lseq = g.lseq →
      (∀ e ∈ s.groups, e.2.team = some k → e.2.faults = []) →
      ∃ t, o = .next t ∧ TeamEnded s t g.lseq n k tm ∧ OnlyEnds g.lseq (Logged s n g 0x22 ((x.sigs.map (·.t)).headD 0) x.at_.pc
        (m.h + 2 ^ 8 * (((s.groupsOn c).filter (fun e => e.2.team = some k)).map (fun e => e.2.acc.length)).sum
          + 2 ^ 16 * ((s.residentOn c).filter (fun e => e.2.binds)).length) none) t)

/-- R349: a die that is lost leaves service, its caches and translations gone, and EVENTS rises by 1; its records and bins
are discarded; each stack that it owned passes to its other port die, HSEQ one higher. A team or kindled group on it
ends, with a 0x62 record that names the package and the die. A die already lost, or of no package of the domain, changes
nothing, nor is a die lost for which no cause of R349 stands. Where the spec leaves a point open it follows the model's choice or reading: logs 15, 54, 59, 60, 67. -/
def Obligations.LostDies : Prop :=
  ∀ (s : State) (x : Nat),
    let o := exec (.lostDie x) s
    let here := fun (e : Nat × Group) => e.2.core / 96 = x ∧ e.2.aside = false
    let P := s.pkg (x / 4)
    let silentPkg := ∃ c, P.silent = some c ∧ c + 2 ^ 24 ≤ s.clock s.primaryPkg
    let fails := P.lost = true ∨ silentPkg ∨ (s.die x).trouble = .down ∨
      ∃ c, (s.die x).trouble = .silent c ∧ c + 2 ^ 24 ≤ s.clock (x / 4)
    let gone := fun (b t : State) =>
      ((t.pkg (x / 4)).lost = true ↔ P.lost = true ∨ silentPkg) ∧
      (t.die x).lost = true ∧ (t.die x).inService = false ∧ (t.die x).l2 = [] ∧ (t.die x).tlb = [] ∧
      (t.pkg (x / 4)).events = min (P.events + 1) 65535 ∧
      (∀ e ∈ t.bins, e.2.core / 96 ≠ x) ∧ (∀ e ∈ t.recs, ∀ u, e.2.place = .entering u → u / 96 ≠ x) ∧
      (∀ y, y ≠ x → (t.die y).l2 = (b.die y).l2) ∧
      ∀ i, i < 8 →
        let n := 8 * (x / 4) + i
        let k := s.stack n
        (k.owner ≠ x % 4 → t.stack n = k) ∧
        (k.owner = x % 4 → ∀ y, y ≠ x % 4 → (x % 4 = i / 2 ∧ y = (i / 2 + 1) % 4 ∨
          x % 4 = (i / 2 + 1) % 4 ∧ y = i / 2) →
          t.stack n = { k with owner := y, hseq := k.hseq + 1, team := none, bar := none })
    ((s.die x).lost = true ∨ 4 * s.npkg ≤ x ∨ ¬ fails → o = .next s) ∧
    (fails → (s.die x).lost = false → x < 4 * s.npkg → P.stks.length = 8 →
      (∀ i, i < 8 → (s.stack (8 * (x / 4) + i)).st = .steady) →
      (∀ e ∈ s.jobs, e.2.state ≠ .waiting ∧ e.2.state ≠ .running) → (s.die x).dist.queue = [] →
      ((∀ e ∈ s.groups, ¬ here e) → ∃ t, o = .next t ∧ gone s t ∧ t.mem = s.mem ∧ ∀ j, t.grp j = s.grp j) ∧
      ∀ j k g n tm, s.grp j = some g → here (j, g) → (∀ e ∈ s.groups, here e → e = (j, g)) →
        (s.groups.map (·.1)).Nodup → Room s g.lseq n → s.convicted g = false →
        (∀ e ∈ s.groups, e.1 = j ∨ g.team ≠ none ∧ e.2.team = g.team → e.2.faults = []) →
        let B := Logged s n g 0x62 0 ⟨0, 0⟩ (x / 4 % 256 + 2 ^ 8 * (x % 4)) none
        let only := fun (u t : State) => OnlyEnds g.lseq B u ∧ t = { u with
          dies := t.dies, packages := t.packages, recs := t.recs, bins := t.bins, trays := t.trays, rack := t.rack
          cores := t.cores }
        (g.team = some k → Tbl.get? s.teams k = some tm → tm.ended = false → tm.lseq = g.lseq → ∃ t u, o = .next t ∧
          gone u t ∧ TeamEnded s t g.lseq n k tm ∧ only u t) ∧
        (g.team = none → ∃ t u, o = .next t ∧ gone u t ∧ t.grp j = none ∧ only u t ∧
          ∃ n', Tbl.get? t.launches g.lseq = some n' ∧ n'.terminated = min (n.terminated + 1) 0xFFFFFFFF ∧
            n'.firstTerm = n.firstTerm))

/-! ## The fabric (R361 to R367, R376, R387) -/

namespace Sys2Proof.Claims

/-- o is the machine B in which packet id has become what `after` says and nothing else has changed but the order of events. -/
def PacketIs (B : State) (id : Nat) (after : Option Packet) (o : Outcome) : Prop :=
  ∃ t, o = .next t ∧ t = { B with packets := t.packets, fresh := t.fresh } ∧
    ∀ k, Tbl.get? t.packets k = if k = id then after else Tbl.get? B.packets k

/-- o is the machine B after packet id, which is p now, has come to its destination package, where it leaves the fabric:
dirty bytes are merged at their home, once that is steady, and acknowledged; a job's request has come; the bytes of a
collective are acknowledged (R254, R316, R363, R365). -/
def Delivered (B : State) (id : Nat) (p : Packet) (o : Outcome) : Prop :=
  let answered := fun (C : State) (cargo : Cargo) (tag die : Nat) => ∃ t q, o = .next t ∧
    t = { C with packets := t.packets, fresh := C.fresh + 1 } ∧ Tbl.get? t.packets C.fresh = some q ∧
    (q.cargo, q.src, q.srcTag, q.seq, q.dest, q.place) = (cargo, p.dest, tag, p.seq, die / 4, die % 4) ∧
    (q.at_, q.port, q.hop, q.path) = (p.dest, none, 0, []) ∧
    ∀ k, k ≠ C.fresh → Tbl.get? t.packets k = if k = id then none else Tbl.get? B.packets k
  match p.cargo with
  | .lineBack x n =>
    (B.homeOpen (64 * n) = true → answered (B.landLine x n) (.lineAck x n) p.srcTag x) ∧
    (B.homeOpen (64 * n) = false → PacketIs B id (some { p with at_ := p.dest, port := none }) o)
  | .engine key born page => ∃ t, o = .next t ∧ t = { B with packets := t.packets, jobs := t.jobs } ∧
    (∀ k, Tbl.get? t.packets k = if k = id then none else Tbl.get? B.packets k) ∧
    (∀ k, k ≠ key → Tbl.get? t.jobs k = Tbl.get? B.jobs k) ∧
    Tbl.get? t.jobs key = (Tbl.get? B.jobs key).map (fun j => if j.born = born then
      { j with trips := j.trips.map (fun v => if v.va / 4096 = page then { v with there := true } else v) } else j)
  | .coll key born => answered B (.collBack key born) (collTag (4 * p.dest + p.place)) (key / 32 / 96)
  | _ => PacketIs B id none o

/-- o is the machine B after packet id, which is p, has passed to package `next` at a port of it, which takes custody, or
has come to its destination there (R363, R365). -/
def Passed (B : State) (id : Nat) (p : Packet) (next port : Nat) (detour escape : Bool) (o : Outcome) : Prop :=
  let q := { p with path := p.path ++ [(p.at_, next)], detour := p.detour || detour }
  (next = p.dest → Delivered B id q o) ∧
  (next ≠ p.dest → PacketIs B id (some { q with
    at_ := next, port := some port, vc := p.hop, since := B.fresh, hop := p.hop + 1, escape := escape, timer := none
    armed := B.clock next, probing := false }) o)

/-- A packet that is the head of its virtual channel waits for room in the full buffer of its next hop, which has a head
(R363, R367). -/
def Blocked (s : State) (id : Nat) (p : Packet) : Prop :=
  p.at_ ≠ p.dest ∧ p.escape = false ∧ s.isHead p = true ∧ ∃ c n, s.nextHop p = some c ∧ s.inPort p c.next = some n ∧
    c.next ≠ p.dest ∧ s.flowFree id p c.next = true ∧ s.full p c.next n false = true ∧
    ∃ e ∈ s.buffer c.next n p.cargo.isResponse p.hop false, s.isHead e.2 = true

end Sys2Proof.Claims

/-- R361, R362, R363, R365, R367: the packet at the head of its virtual channel passes to the next hop of its flow's path,
which takes custody, or reaches its destination and leaves the fabric; while an earlier packet of its flow has not passed
the same way it stays, and so it does where its link is down; where the buffer of the next hop is full its timer is armed. The choices of a
path have a weight; a detour is taken at the first hop alone, and a path has 2 hops, or 3 with its detour. -/
def Sys2Proof.Claims.FabricHops : Prop :=
  (∀ (s : State) (id : Nat) (p : Packet), Tbl.get? s.packets id = some p →
    let o := exec (.fabricHop id) s
    let mate := fun (e : Nat × Packet) => e.1 < id ∧ e.2.srcTag = p.srcTag ∧ e.2.src = p.src ∧ e.2.dest = p.dest
    (p.at_ = p.dest → Delivered s id p o) ∧
    (p.at_ ≠ p.dest →
      (s.isHead p = false ∨ (s.pkg p.dest).lost = true ∨ s.nextHop p = none → o = .next s) ∧
      ∀ c, s.isHead p = true → (s.pkg p.dest).lost = false → s.nextHop p = some c →
        (s.inPort p c.next = none → o = .next s) ∧
        ∀ n, s.inPort p c.next = some n →
          ((∃ e ∈ s.packets, mate e ∧ (p.at_, c.next) ∉ e.2.path) → o = .next s) ∧
          ((∀ e ∈ s.packets, mate e → (p.at_, c.next) ∈ e.2.path) →
            (c.next = p.dest ∨ s.full p c.next n p.escape = false → Passed s id p c.next n c.detour p.escape o) ∧
            (c.next ≠ p.dest → s.full p c.next n p.escape = true →
              (p.timer ≠ none → o = .next s) ∧
              (p.timer = none → PacketIs s id (some { p with timer := some (2 ^ 14), armed := s.clock p.at_ }) o))))) ∧
  ∀ (s : State) (p : Packet),
    (∀ c, s.nextHop p = some c →
      let entry := ((s.pkg p.at_).routes.getD p.dest 0).toNat
      p.hop < (if p.detour then 3 else 2) ∧
      ∃ h, h < 4 ∧ c.next = entry / 2 ^ (16 * h) % 2 ^ 8 ∧ c.weight = entry / 2 ^ (16 * h + 8) % 2 ^ 4 ∧
        c.detour = entry.testBit (16 * h + 12) ∧ c.weight ≠ 0 ∧
        (p.detour = true ∨ p.escape = true ∨ 1 ≤ p.hop → c.detour = false)) ∧
    ∀ a n, s.inPort p a = some n → ∃ i : Nat, ((s.pkg p.at_).ports[i]?).map (fun (m : Port) => (m.neigh, m.lstate)) = some (a, 2)

/-- R364, R361, R362, R367: a failed flit is replayed, and the 32nd failure in a row takes its port down; a loaded route
table, its reserved bits zero, is a new version; a head packet that waits for a full
buffer sends one probe when its timer runs out, after 2^14 cycles at first, which arms the timer with twice the interval, to 2^24 cycles,
where it finds no cycle of blocked packets, and where it comes back moves the packet into the escape buffer of its next
hop once that is free. -/
def Sys2Proof.Claims.LinksAndRecovery : Prop :=
  (∀ (s : State) (pkg n : Nat) (p : Port), (s.pkg pkg).ports[n]? = some p → ∃ t p', exec (.flitReplay pkg n) s = .next t ∧
    t = { s with packages := t.packages } ∧ (t.pkg pkg).ports[n]? = some p' ∧
    (∀ q, q ≠ pkg → t.pkg q = s.pkg q) ∧ (∀ m, m ≠ n → (t.pkg pkg).ports[m]? = (s.pkg pkg).ports[m]?) ∧
    (p.fails = 0 → p' = p) ∧ (32 ≤ p.fails → p' = { p with lstate := 0, fails := 0 }) ∧
    (0 < p.fails → p.fails < 32 → p' = { p with retry := min (p.retry + 1) 65535, fails := 0 })) ∧
  (∀ (s : State) (pkg : Nat) (entries : List Dword), entries.length = 256 → ∃ t,
    exec (.routeTableLoad pkg entries) s = .next t ∧ t = { s with packages := t.packages } ∧
    (t.pkg pkg).routes = entries.map (fun e => e &&& 0x1FFF1FFF1FFF1FFF) ∧ (t.pkg pkg).routeVersion = (s.pkg pkg).routeVersion + 1 ∧
    ((s.pkg pkg).fabric.length = 6 → (t.pkg pkg).fabric.getD 5 0 = ((s.pkg pkg).fabric.getD 5 0 + 1) % 2 ^ 64) ∧
    ∀ q, q ≠ pkg → t.pkg q = s.pkg q) ∧
  ∀ (s : State) (id : Nat) (p : Packet), Tbl.get? s.packets id = some p →
    let becomes := fun (i : Instr) (after : Option Packet) => ∃ t, exec i s = .next t ∧
      t = { s with packets := t.packets, packages := t.packages } ∧
      ∀ k, Tbl.get? t.packets k = if k = id then after else Tbl.get? s.packets k
    let due := ∃ n, p.timer = some n ∧ p.armed + n ≤ s.clock p.at_
    (p.probing = false → due → Blocked s id p → becomes (.recoveryProbe id) (some { p with probing := true })) ∧
    (p.probing = true ∨ ¬ due ∨ ¬ Blocked s id p → exec (.recoveryProbe id) s = .next s) ∧
    (p.probing = true → s.inCycle id p = false → becomes (.probeReturn id false)
      (some { p with timer := some (min (2 * p.timer.getD (2 ^ 14)) (2 ^ 24)), armed := s.clock p.at_, probing := false })) ∧
    (p.probing = true → s.inCycle id p = true → ∀ c, s.nextHop { p with escape := true } = some c →
      (∀ n, s.inPort p c.next = some n → s.flowFree id p c.next = true → s.full p c.next n true = false →
        Passed ((s.countFabric p.at_ 1).countFabric p.at_ 2) id p c.next n false true (exec (.probeReturn id true) s)) ∧
      ((∀ n, s.inPort p c.next = some n → s.flowFree id p c.next = false ∨ s.full p c.next n true = true) →
        exec (.probeReturn id true) s = .next s)) ∧
    ∀ cycle, p.probing = false ∨ s.inCycle id p ≠ cycle → exec (.probeReturn id cycle) s = .next s

/-- R361 to R365, R367: packets between packages. Where the spec leaves a point open it follows the model's choice or reading: logs 67, 91, 102. -/
def Obligations.FabricTransport : Prop := Claims.FabricHops ∧ Claims.LinksAndRecovery

/-- R365, R366: a hop sends a notice only where the destination package is withdrawn, the fabric manager has declared it
unreachable, or the destination die of spawn or collective traffic is not in service; it raises 0x60 against the thread of a request, whose token falls,
or of a spawn, whose record is gone, or of a release whose write-back it was, with the reason and both packages in the
detail; a job fails with 0x60; for a response it is logged, and the request gets no reply. -/
def Sys2Proof.Claims.ErrorNotices : Prop :=
  ∀ (s : State) (id reason : Nat) (p : Packet), Tbl.get? s.packets id = some p →
    let o := exec (.errorNotice id reason) s
    let down := fun (x : Nat) => (s.die x).inService = false
    let cause := (reason = 1 ∧ (s.pkg p.dest).lost = true) ∨ (reason = 2 ∧ p.dest ∈ (s.pkg p.at_).declared) ∨
      (reason = 3 ∧ ((∃ r q, p.cargo = .record r ∧ Tbl.get? s.recs r = some q ∧ down (s.targetDie q)) ∨
        ∃ key born, p.cargo = .coll key born ∧ down (4 * p.dest + p.place)))
    let detail := BitVec.ofNat 32 (reason + 2 ^ 8 * (p.at_ % 256) + 2 ^ 16 * (p.dest % 256))
    let raised := fun (t : State) (j y : Nat) (g : Group) (pc : Pc) (a : Nat) => ∃ g' f, t.grp j = some g' ∧
      (g'.faults.length = g.faults.length + 1 ∧ g'.faults.getLast? = some f) ∧
      (f.code, f.thread, f.pc, f.address) = (0x60, y, pc, BitVec.ofNat 64 a) ∧
      f.detail = detail ∧ f.srcseq = BitVec.ofNat 64 p.seq
    let stands := fun (t : State) (j y : Nat) => ∃ g' th', t.grp j = some g' ∧ Tbl.get? g'.threads y = some th' ∧
      th'.place = .faulted
    let gone := fun (t : State) => Tbl.get? t.packets id = none
    let releasing := fun (x : Nat) (e : Nat × Req) => e ∈ s.reqs ∧ e.2.core / 96 = x ∧ e.2.isDone = false ∧
      e.2.hasRelease = true ∧ (e.2.kind = .seal ∨ 2 ≤ e.2.reachScope)
    (¬ cause → o = .next s) ∧
    (cause →
      (∀ r q g th, p.cargo = .request r → Tbl.get? s.reqs r = some q → q.stage = .issued → s.grp q.g = some g →
        Tbl.get? g.threads q.t = some th → ∃ t, o = .next t ∧ gone t ∧ Tbl.get? t.reqs r = none ∧
          raised t q.g q.t g q.at_.pc q.pa ∧ t.mem = s.mem ∧
          (q.blocking = true ∨ th.words = q.nth ∧ th.place = .ready → stands t q.g q.t) ∧
          ∃ g' th', t.grp q.g = some g' ∧ Tbl.get? g'.threads q.t = some th' ∧
            th'.tok = if q.accepted = true then th.tok else th.tok.set q.tok (th.token q.tok - 1)) ∧
      (∀ r q g th at_ h w dead, p.cargo = .record r → Tbl.get? s.recs r = some q → s.grp q.srcG = some g →
        Tbl.get? g.threads q.srcT = some th → th.place = .waiting (.spawn r) at_ h w dead →
        ∃ t, o = .next t ∧ gone t ∧ Tbl.get? t.recs r = none ∧ raised t q.srcG q.srcT g at_.pc 0 ∧ stands t q.srcG q.srcT) ∧
      (∀ x n, p.cargo = .lineBack x n → (∀ e ∈ s.groups, e.2.die = x → e.2.releasing = []) →
        ((∀ e, ¬ releasing x e) → ∃ t, o = .next t ∧ gone t ∧
          t = { s with packets := t.packets, packages := t.packages, dies := t.dies } ∧
          ∀ y k, t.l2 y k = if y = x ∧ k = n then (s.l2 x n).map (fun l => { l with dirty := 0 }) else s.l2 y k) ∧
        ∀ r q g th, releasing x (r, q) → (∀ e, releasing x e → e = (r, q)) → (s.reqs.map (·.1)).Nodup →
          s.grp q.g = some g → Tbl.get? g.threads q.t = some th → ∃ t, o = .next t ∧ gone t ∧
            Tbl.get? t.reqs r = none ∧ raised t q.g q.t g q.at_.pc (64 * n)) ∧
      (∀ key born j, ((∃ page, p.cargo = .engine key born page) ∨ p.cargo = .coll key born) → Tbl.get? s.jobs key = some j →
        j.born = born → j.live = true → ∃ t j', o = .next t ∧ gone t ∧ Tbl.get? t.jobs key = some j' ∧
          (j'.state = .failed ∧ j'.fault = 0x60 ∨ ∃ a, j'.failing = some ⟨0x60, a, p.seq⟩)) ∧
      ∀ r, p.cargo = .response r → ∃ t, o = .next t ∧ gone t ∧
        t = { s with packets := t.packets, packages := t.packages, reqs := t.reqs } ∧
        (∀ k, Tbl.get? t.reqs k = if k = r then (Tbl.get? s.reqs r).map (fun q => { q with lost := true })
          else Tbl.get? s.reqs k) ∧
        ((s.pkg p.at_).fabric.length = 6 → ∀ n, n = 3 ∨ n = 4 →
          (t.pkg p.at_).fabric.getD n 0 = ((s.pkg p.at_).fabric.getD n 0 + 1) % 2 ^ 64))

/-- R387: the oldest RDMA write of a queue pair is performed at its home and acknowledged; one to a sealed, owner-local or lost
page, or to one that may not be written, or has no translation, is refused to the peer, memory as it was and no fault raised. -/
def Sys2Proof.Claims.RdmaWrites : Prop :=
  ∀ (s : State) (q id : Nat) (w : Rdma) (before after : List (Nat × Rdma)),
    let o := exec (.rdmaWrite q) s
    let va := w.va.toNat
    let walk := s.walk va 4 s.ptRoot.toNat
    let said := fun (ok : Bool) (k : Nat) => if k = id then some { w with done := some ok } else Tbl.get? s.rdmas k
    let refuses := fun (pa : Nat) (e : TlbEntry) =>
      e.w = false ∨ e.ol = true ∨ s.sealedPage va = true ∨ s.stackLost pa = true
    s.rdmas = before ++ (id, w) :: after → w.queue = q → w.done = none → (s.rdmas.map (·.1)).Nodup →
    (∀ v ∈ before, v.2.queue ≠ q ∨ v.2.done ≠ none) → 0 < w.bytes.length → va % 64 + w.bytes.length ≤ 64 →
    (2 ^ 57 ≤ va ∨ (∃ c d, walk = .bad c d) ∨ (∃ pa e, walk = .ok pa e ∧ refuses pa e) →
      ∃ t, o = .next t ∧ t = { s with rdmas := t.rdmas } ∧ ∀ k, Tbl.get? t.rdmas k = said false k) ∧
    ∀ pa e, va < 2 ^ 57 → walk = .ok pa e → ¬ refuses pa e →
      (s.homeOpen pa = false → o = .next s) ∧
      (s.homeOpen pa = true → s.firstFor pa = none → paSpace pa = 0 → (∀ x, s.l2 x (pa / 64) = none) → s.mem.wf = true →
        ∃ t, o = .next t ∧ t = { s with rdmas := t.rdmas, mem := t.mem, memBad := t.memBad } ∧
          (∀ k, Tbl.get? t.rdmas k = said true k) ∧
          ∀ a, t.mem.read a = if pa ≤ a ∧ a < pa + w.bytes.length then w.bytes.getD (a - pa) 0 else s.mem.read a)

/-- R365, R366, R387: error notices and the writes of peers. Where the spec leaves a point open it follows the model's choice or reading: logs 68, 91, 99, 101, 102. -/
def Obligations.NoticesAndRdma : Prop := Claims.ErrorNotices ∧ Claims.RdmaWrites

/-! ## The command queue (R171, R172, R301, R346, R378 to R383) -/

namespace Sys2Proof.Claims

/-- Command c stands at the head of the queue, of the given type, its reserved bits 0 (R378, R379). -/
structure Head (s : State) (c : Cmd) (type : Nat) : Prop where
  formed : s.formed = true
  mirror : s.replica = none ∨ ∃ p, p < s.npkg ∧ (s.pkg p).mirror = true ∧ (s.pkg p).lost = false
  waits : s.queue.head.toNat < s.queue.tail.toNat
  slot : c = ⟨s.queue.head.toNat, s.queue.qbase.toNat + 320 * (s.queue.head.toNat % 2 ^ s.queue.log2.toNat)⟩
  names : s.names c.at_ = true
  type_ : s.devNat c.at_ 1 = type
  clean : s.devNat (c.at_ + 2) 2 = 0 ∧ s.devNat (c.at_ + 8) 8 < 8 ∧ s.devNat (c.at_ + 0x30) 16 = 0

/-- A field of n bytes of the body of command c. -/
def body (s : State) (c : Cmd) (o n : Nat) : Nat := s.devNat (c.at_ + 64 + o) n

/-- o is the machine B after the command has been accepted with a STATUS and a DETAIL: they are stored in its slot, HEAD is one
higher, and the mirror holds the command, what was stored and the queue (R377, R379). -/
def Accepts (B : State) (c : Cmd) (status detail : Nat) (o : Outcome) : Prop :=
  let held := B.replica.map (fun r => { r with commands := Tbl.put r.commands c.slot (B.devRead c.at_ 320) })
  let A := Answered { B with replica := held } c.slot status detail
  o = .next (Mirrored A { A.queue with head := A.queue.head + 1 })

end Sys2Proof.Claims

/-- R377, R378, R379: no command is taken while HEAD has reached TAIL, the domain is not formed or its mirror is lost, and no event takes a command
of another type; a reserved bit, an unknown type, KIND 2 or 3, or a LIMIT out of range refuses the command, the state
otherwise as it was. -/
def Sys2Proof.Claims.CommandQueue : Prop :=
  ∀ (s : State) (c : Cmd) (type : Nat),
    let events : List (Nat × Instr) := [(1, .launch), (2, .preempt), (2, .resume), (3, .faultResume), (4, .terminate),
      (4, .terminateAll), (5, .dieOutOfService), (5, .dieInService), (6, .tlbInvalidate), (7, .domainConfiguration),
      (8, .dieWindow)]
    let mirrored := s.replica = none ∨ ∃ p, p < s.npkg ∧ (s.pkg p).mirror = true ∧ (s.pkg p).lost = false
    (∀ e ∈ events, s.formed = false ∨ ¬ mirrored ∨ s.queue.tail.toNat ≤ s.queue.head.toNat → exec e.2 s = .next s) ∧
    (Head s c type →
      (∀ e ∈ events, 1 ≤ type → type ≤ 8 → e.1 ≠ type → exec e.2 s = .next s) ∧
      (type = 0 ∨ 9 ≤ type → Accepts s c 3 1 (exec .launch s)) ∧
      (type = 2 →
        let word := body s c 0x10 4
        (2 ≤ word % 4 ∨ word % 4 = 0 ∧ word / 2 ^ 11 ≠ 0 → Accepts s c 3 1 (exec .preempt s)) ∧
        (word % 4 = 1 → word / 2 ^ 11 ≠ 0 → Accepts s c 3 1 (exec .resume s)) ∧
        (word % 4 = 0 → word / 2 ^ 11 = 0 → word.testBit 4 = false → word / 2 ^ 5 % 2 ^ 6 < 10 ∨ 40 < word / 2 ^ 5 % 2 ^ 6 →
          Accepts s c 3 4 (exec .preempt s)))) ∧
    (s.formed = true → mirrored → s.queue.head.toNat < s.queue.tail.toNat →
      c = ⟨s.queue.head.toNat, s.queue.qbase.toNat + 320 * (s.queue.head.toNat % 2 ^ s.queue.log2.toNat)⟩ →
      s.names c.at_ = true → s.devNat c.at_ 1 = type →
      (s.devNat (c.at_ + 2) 2 ≠ 0 ∨ 8 ≤ s.devNat (c.at_ + 8) 8 ∨ s.devNat (c.at_ + 0x30) 16 ≠ 0) →
      ∀ e ∈ ([(1, .launch), (3, .faultResume), (6, .tlbInvalidate), (7, .domainConfiguration), (8, .dieWindow)] :
        List (Nat × Instr)), e.1 = type → Accepts s c 3 1 (exec e.2 s))

/-- R172, R183, R379: a launch whose record passes the checks is entered in STATE 1 with STATUS 2; one that does not is
refused with STATUS 3 and the first reason that holds, and stands in STATE 6; a repeated or falling LSEQ is the first
reason; no launch is accepted whose addresses, counts, ranges or fault area R172 refuses. -/
def Sys2Proof.Claims.LaunchCommand : Prop :=
  ∀ (s : State) (c : Cmd), Head s c 1 →
    let r := s.launchRec c
    let entered := fun (B : State) (n : Launch) (queue : Queue) (state reason detail : Nat) =>
      (n.rc, n.state, n.reason, n.detail, n.terminated, n.firstTerm) = (r, state, reason, detail, 0, 0xFFFFFFFF) ∧
      (n.area, n.areaLen, n.statAddr, n.spillBase, n.slot) = (s.devNat (c.at_ + 0x10) 8, s.devNat (c.at_ + 0x18) 8,
        s.devNat (c.at_ + 0x20) 8, s.devNat (c.at_ + 0x28) 8, c.slot) ∧
      B = Noted { s with launches := B.launches, queue := queue } n
    (s.refuse c r = none → ∃ B n, Accepts B c 2 0 (exec .launch s) ∧ entered B n { s.queue with lastSeq := r.lseq } 1 0 0 ∧
      ∀ l, Tbl.get? B.launches l = if l = r.lseq then some n else Tbl.get? s.launches l) ∧
    (∀ k d, s.refuse c r = some (k, d) → ∃ B n, Accepts B c 3 k (exec .launch s) ∧ entered B n s.queue 6 k d ∧
      ∀ l, Tbl.get? B.launches l = if l = r.lseq ∧ Tbl.get? s.launches l = none then some n else Tbl.get? s.launches l) ∧
    (r.lseq = 0 ∨ r.lseq ≤ s.queue.lastSeq → s.refuse c r = some (1, 0)) ∧
    (s.refuse c r = none →
      s.queue.lastSeq < r.lseq ∧ r.codebase % 4096 = 0 ∧ r.args % 64 = 0 ∧ r.entry.toNat % 4 = 0 ∧ 0 < r.teams ∧
      0 < r.steps ∧ 1 ≤ r.groups ∧ r.groups ≤ 256 ∧
      (∀ i, i < r.roles → i < 4 → 1 ≤ r.ceils.getD i 0 ∧ r.ceils.getD i 0 ≤ 128 ∧ 1 ≤ r.ngroups.getD i 0) ∧
      (∀ q, q < r.cores → (r.groupsOf q).length ≤ 127 ∧ r.rowsOf q ≤ 4096) ∧
      r.scratch ≤ 1024 ∧ r.scratch % 4 = 0 ∧ r.barriers ≤ 16 ∧ 1 ≤ r.minDies ∧ r.minDies ≤ r.maxDies ∧ r.maxDies ≤ 1024 ∧
      16 ≤ r.wdog ∧ r.wdog ≤ 40 ∧ (r.gather = 0 ∨ 64 ≤ r.gather ∧ r.gather ≤ 65536) ∧
      (r.park = true → r.phaseRec ≠ 0 ∧ r.phaseRec % 64 = 0) ∧ (∀ i, i < 4 → r.prereq.getD i 0 = 0 ∨ r.prereq.getD i 0 < r.lseq) ∧
      (∀ i, i < 3 → r.rights.getLsbD i = true → (s.devNat (c.at_ + 8) 1).testBit i = true) ∧
      s.devNat (c.at_ + 0x10) 8 ≠ 0 ∧ s.devNat (c.at_ + 0x10) 8 % 4096 = 0)

/-- R172, R183, R378, R379: the command queue and the launch command. Where the spec leaves a point open it follows the model's choice or reading: logs 11, 15, 70, 79, 100, 104. -/
def Obligations.QueueAndLaunch : Prop := Claims.CommandQueue ∧ Claims.LaunchCommand

/-- R301, R302, R304, R346, R380: the commands that act on a launch, a team or a group: a pre-emption of a launch in STATE
2, and a resume of one in STATE 7, begin with STATUS 1, and without a target end with STATUS 2; a fault resume lets a
group stopped for the driver at its 0x10 records go on; terminate ends a team of the running step, or a kindled group;
with ALL a whole launch ends, with STATE 5 and REASON 4 once its writes are performed; what does not exist is refused with DETAIL 2. Where the spec leaves a point open it follows the model's choice or reading: logs 70, 71, 87, 94. -/
def Obligations.LaunchControl : Prop :=
  (∀ (s : State) (c : Cmd), Head s c 2 →
    let word := body s c 0x10 4
    let target := body s c 8 8
    let meant := fun (e : Nat × Launch) => if target = 0 then e.2.rc.prio ≤ word / 4 % 4 else e.1 = target
    (word % 4 = 0 → word / 2 ^ 11 = 0 → (word.testBit 4 = true ∨ 10 ≤ word / 2 ^ 5 % 2 ^ 6 ∧ word / 2 ^ 5 % 2 ^ 6 ≤ 40) →
      ((∀ e ∈ s.launches, meant e → e.2.state ≠ 2) → Accepts s c 2 0 (exec .preempt s)) ∧
      ∀ l n, Tbl.get? s.launches l = some n → meant (l, n) → n.state = 2 → n.preempt = none → n.resuming = none →
        (∀ e ∈ s.launches, meant e → e.2.state = 2 → e = (l, n)) → (s.launches.map (·.1)).Nodup →
        ∃ (B : State) (p : Preempt), Accepts B c 1 0 (exec .preempt s) ∧ B = { s with launches := B.launches } ∧
          (∀ k, Tbl.get? B.launches k = if k = l then some { n with preempt := some p } else Tbl.get? s.launches k) ∧
          (p.slots, p.full, p.save, p.saveLen, p.used) =
            ([c.slot], word.testBit 4, body s c 0x18 8, s.devNat (c.at_ + 0x18) 8, 4096) ∧
          (word.testBit 4 = false → p.limit = word / 2 ^ 5 % 2 ^ 6) ∧
          ∀ k, (Tbl.get? s.cores k).isSome = true → Tbl.get? p.arrival k = some (s.now k)) ∧
    (word % 4 = 1 → word / 2 ^ 11 = 0 →
      ((∀ e ∈ s.launches, meant e → e.2.state ≠ 7) → Accepts s c 2 0 (exec .resume s)) ∧
      ∀ l n, Tbl.get? s.launches l = some n → meant (l, n) → n.state = 7 → n.resuming = none →
        (∀ e ∈ s.launches, meant e → e.2.state = 7 → e = (l, n)) → (s.launches.map (·.1)).Nodup →
        ∃ B : State, Accepts B c 1 0 (exec .resume s) ∧ B = { s with launches := B.launches } ∧
          ∀ k, Tbl.get? B.launches k = if k = l then some { n with resuming := some c.slot } else Tbl.get? s.launches k)) ∧
  (∀ (s : State) (c : Cmd), Head s c 3 →
    let named := fun (e : Nat × Group) => e.2.lseq = body s c 0 8 ∧
      (e.2.aside = true ∨ e.2.core % 96 + 2 ^ 7 * (e.2.core / 96 % 4) + 2 ^ 16 * (e.2.core / 384) = body s c 16 4) ∧
      (s.teamOf e.2).elim (body s c 8 4 = 0xFFFFFFFF ∧ e.2.serial.toNat = body s c 12 4)
        (fun tm => tm.tix = body s c 8 4 ∧ e.2.gix = body s c 12 4)
    ((∀ e ∈ s.groups, named e → e.2.stop ≠ .driver) → Accepts s c 3 2 (exec .faultResume s)) ∧
    ∀ j g, s.grp j = some g → named (j, g) → (∀ e ∈ s.groups, named e → e = (j, g)) → g.stop = .driver →
      (s.groups.map (·.1)).Nodup →
      ∃ (B : State) (g' : Group), Accepts B c 2 0 (exec .faultResume s) ∧ B = { s with groups := B.groups } ∧
        (∀ i, i ≠ j → B.grp i = s.grp i) ∧ B.grp j = some g' ∧ g'.faults = g.faults.filter (fun f => f.code ≠ 0x10) ∧
        (g'.stop = if g'.faults = [] then .none else .stopped) ∧
        ∀ y th, Tbl.get? g.threads y = some th → ∃ th', Tbl.get? g'.threads y = some th' ∧
          (th'.pc, th'.v, th'.p) = (th.pc, th.v, th.p) ∧
          (th.place = .faulted → (∀ f ∈ g'.faults, f.thread ≠ y) → th'.place = .ready) ∧
          (th.place = .faulted → (∃ f ∈ g'.faults, f.thread = y) → th'.place = .faulted)) ∧
  ∀ (s : State) (c : Cmd), Head s c 4 →
    let l := body s c 0 8
    let flags := body s c 0x14 4
    let here := fun (n : Launch) => n.state = 2 ∨ n.state = 7
    let meant := fun (n : Launch) (e : Nat × Team) => e.2.lseq = l ∧ e.2.tix = body s c 8 4 ∧ e.2.step = n.stepNow ∧
      e.2.ended = false
    (flags % 2 = 0 → flags ≠ 0 → Accepts s c 3 1 (exec .terminate s)) ∧
    (flags % 2 = 1 → flags ≠ 1 → Accepts s c 3 1 (exec .terminateAll s)) ∧
    (flags = 0 →
      ((∀ n, Tbl.get? s.launches l = some n → ¬ here n) → Accepts s c 3 2 (exec .terminate s)) ∧
      ∀ n, Tbl.get? s.launches l = some n → here n → body s c 8 4 ≠ 0xFFFFFFFF →
        ((∀ e ∈ s.teams, ¬ meant n e) → Accepts s c 3 2 (exec .terminate s)) ∧
        ∀ k tm, Tbl.get? s.teams k = some tm → meant n (k, tm) → (∀ e ∈ s.teams, meant n e → e.1 = k) →
          (s.groups.map (·.1)).Nodup → ∃ B, Accepts B c 2 0 (exec .terminate s) ∧ TeamEnded s B l n k tm) ∧
    (flags = 1 →
      (∀ n, Tbl.get? s.launches l = some n → n.state ∈ [0, 1, 2, 7] →
        (n.ending ≠ none → Accepts s c 2 0 (exec .terminateAll s)) ∧
        (n.ending = none → ∃ (B : State) (n' : Launch), Accepts B c 2 0 (exec .terminateAll s) ∧
          (∀ e ∈ B.groups, e.2.lseq ≠ l) ∧ (∀ e ∈ B.recs, e.2.lseq ≠ l) ∧ Tbl.get? B.launches l = some n' ∧
          n'.terminated = n.terminated ∧ (n'.ending = some (4, 0) ∧ n'.state = n.state ∨
            n'.ending = none ∧ (n'.state, n'.reason) = (5, 4)) ∧
          ((∀ e ∈ s.reqs, e.2.lseq = l → e.2.isDone = true) →
            (∀ e ∈ s.jobs, e.2.lseq = l → e.2.state ≠ .waiting ∧ e.2.state ≠ .running) →
            (∀ x ∈ n.dies, s.remoteLines x = [] ∧ s.backOut x = false) → n'.ending = none))) ∧
      ((∀ n, Tbl.get? s.launches l = some n → n.state ∉ [0, 1, 2, 7]) → Accepts s c 3 2 (exec .terminateAll s)))

/-- R380, R381, R383, R182: the commands that act on dies and the domain. A die taken out of service takes no new team but
a pinned one of its own, and ends its command once no running step has it; a die back in service may join again; TLB
invalidation acts in every die; the page-table root and the seal map change only while no launch waits, runs or is saved;
a die window is 0 or a multiple of 2^40. A write to the register window sets QBASE, LOG2SLOTS and TAIL, in the mirror's replica too, and nothing else. Where the spec leaves a point open it follows the model's choice or reading: logs 71, 72, 73. -/
def Obligations.DeviceCommands : Prop :=
  (∀ (s : State) (c : Cmd), Head s c 5 →
    let word := body s c 0 4
    let x := 4 * (word % 2 ^ 8) + word / 2 ^ 8 % 4
    let bad := word / 2 ^ 10 % 2 ^ 6 ≠ 0 ∨ word / 2 ^ 17 ≠ 0 ∨ body s c 4 252 ≠ 0
    let home := fun (e : Nat × Nat) => s.pinnedTo x e = true
    let i : Instr := if word.testBit 16 then .dieInService else .dieOutOfService
    (bad → Accepts s c 3 1 (exec i s)) ∧
    (¬ bad → 4 * s.npkg ≤ x → Accepts s c 3 2 (exec i s)) ∧
    (¬ bad → x < 4 * s.npkg → word.testBit 16 = true → ∃ B : State, Accepts B c 2 0 (exec i s) ∧
      B = { s with dies := Tbl.put s.dies x { s.die x with inService := true, trouble := .none, lost := false, dying := false } }) ∧
    (¬ bad → x < 4 * s.npkg → word.testBit 16 = false → (s.pkg (x / 4)).lost = false →
      ∃ B : State, Accepts B c 1 0 (exec i s) ∧ B = { s with dies := B.dies, packages := B.packages } ∧
        (B.die x).inService = false ∧ c.slot ∈ (B.die x).service ∧
        (∀ e, e ∈ (B.die x).dist.queue ↔ e ∈ (s.die x).dist.queue ∧ home e) ∧
        (∀ e, e ∈ (B.pkg (x / 4)).dist.queue ↔ e ∈ (s.pkg (x / 4)).dist.queue ∨ e ∈ (s.die x).dist.queue ∧ ¬ home e))) ∧
  (∀ (s : State) (x : Nat),
    ((∃ e ∈ s.launches, e.2.state = 2 ∧ x ∈ e.2.dies) → exec (.dieWithdrawn x) s = .next s) ∧
    ((∀ e ∈ s.launches, e.2.state = 2 → x ∉ e.2.dies) → ∃ t, exec (.dieWithdrawn x) s = .next t ∧
      let u := { s with dies := Tbl.put s.dies x { s.die x with service := [] } }
      ((s.die x).service = [] → t = u) ∧ ∀ i, (s.die x).service = [i] → t = Answered u i 2 0)) ∧
  (∀ (s : State) (c : Cmd), Head s c 6 →
    let page := body s c 0 8 / 4096 * 4096
    let extent := body s c 8 4
    (extent ≠ 1 → extent ≠ 3 → Accepts s c 3 1 (exec .tlbInvalidate s)) ∧
    (extent = 1 ∨ extent = 3 → ∃ B : State, Accepts B c 2 0 (exec .tlbInvalidate s) ∧
      B = { s with dies := B.dies, cores := B.cores, jobs := B.jobs } ∧
      let stays := fun (e : TlbEntry) => extent = 1 ∧ ¬ (e.va < page + 4096 ∧ page < e.va + e.size)
      (∀ y e, y < 4 * s.npkg → (e ∈ (B.die y).tlb ↔ e ∈ (s.die y).tlb ∧ stays e)) ∧
      ∀ k e, k / 384 < s.npkg → (e ∈ (B.core k).tlb ↔ e ∈ (s.core k).tlb ∧ stays e))) ∧
  (∀ (s : State) (c : Cmd), Head s c 7 →
    let busy := ∃ e ∈ s.launches, e.2.state = 1 ∨ e.2.state = 2 ∨ e.2.state = 7
    let map := body s c 8 8
    let len := body s c 16 8
    let short := map ≠ 0 ∧ len < 0x10000 + 4096 * 0x8000
    (busy → Accepts s c 3 3 (exec .domainConfiguration s)) ∧
    (¬ busy → short → Accepts s c 3 1 (exec .domainConfiguration s)) ∧
    (¬ busy → ¬ short → Accepts { s with
      ptRoot := BitVec.ofNat 64 (body s c 0 8), sealMap := BitVec.ofNat 64 map, sealLen := BitVec.ofNat 64 len }
      c 2 0 (exec .domainConfiguration s))) ∧
  (∀ (s : State) (c : Cmd), Head s c 8 →
    let word := body s c 0 4
    let x := 4 * (word % 2 ^ 8) + word / 2 ^ 8 % 4
    let base := body s c 8 8
    let bad := base % 2 ^ 40 ≠ 0 ∨ 2 ^ 57 ≤ base
    (4 * s.npkg ≤ x → Accepts s c 3 2 (exec .dieWindow s)) ∧
    (x < 4 * s.npkg → bad → Accepts s c 3 1 (exec .dieWindow s)) ∧
    (x < 4 * s.npkg → ¬ bad → Accepts
      { s with dies := Tbl.put s.dies x { s.die x with window := BitVec.ofNat 64 base } } c 2 0 (exec .dieWindow s))) ∧
  ∀ (s : State) (p o : Nat) (bytes : List Byte), p < s.npkg → o + bytes.length ≤ 2 ^ 36 → o < 2 ^ 36 →
    let write := exec (.registerWindowWrite p o bytes) s
    (o + bytes.length ≤ 0x40 ∨ 0x58 ≤ o → write = .next (Mirrored s s.queue)) ∧
    (bytes.length = 8 → o = 0x40 → write = .next (Mirrored s { s.queue with qbase := BitVec.ofNat 64 (bytesToNat bytes) })) ∧
    (bytes.length = 1 → o = 0x48 → write = .next (Mirrored s { s.queue with log2 := BitVec.ofNat 4 (bytesToNat bytes) })) ∧
    (bytes.length = 8 → o = 0x50 → write = .next (Mirrored s { s.queue with tail := BitVec.ofNat 64 (bytesToNat bytes) }))

/-! ## The platform (R2, R217, R360, R377, R384, R388) -/

namespace Sys2Proof.Claims

/-- o is the machine s with package pkg changed to p and nothing else. -/
def Turned (s : State) (pkg : Nat) (p : Package) (o : Outcome) : Prop :=
  ∃ t, o = .next t ∧ t = { s with packages := t.packages } ∧ ∀ q, t.pkg q = if q = pkg then p else s.pkg q

/-- The security version that the header of an image names, and the length that it gives for what follows the header. -/
def headerNumber (i : Image) (o n : Nat) : Nat := bytesToNat ((i.body.drop o).take n)

/-- The boot of package pkg refuses an image for a cause: 1 its key digest differs from the fuses', 2 its signature over
the image's digest fails, 3 the SVN in its header is below the fuses' (R384). -/
def ImageRefused (pkg : Nat) (key : List Byte) (i : Image) (cause : Nat) : Prop :=
  let good := key.length = 1952 ∧ Config.shake256 key = Config.fuseKeyDigest pkg
  let signed := i.sig.length = 3309 ∧ i.body.length = 16 + headerNumber i 8 8 ∧
    Config.mldsaVerify key (Config.shake256 i.body) i.sig = true
  cause = 1 ∧ ¬ good ∨ cause = 2 ∧ good ∧ ¬ signed ∨ cause = 3 ∧ good ∧ signed ∧ headerNumber i 4 4 < (Config.fuseSvn pkg).toNat

/-- Package p becomes q by loading an image at a stage of its boot: an accepted one is extended into the measurement register
and is then the latest that has run; a refused one, or none, halts the boot (R384). -/
def Loads (pkg stage : Nat) (key : List Byte) (image : Option Image) (after : Boot) (p q : Package) : Prop :=
  (image = none → q = { p with boot := .halted stage 0 }) ∧
  ∀ m, image = some m →
    (∀ c, ImageRefused pkg key m c → q = { p with boot := .halted stage c }) ∧
    ((∀ c, ¬ ImageRefused pkg key m c) → q = { p with
      measure := Config.shake256 (p.measure ++ Config.shake256 m.body), ran := p.ran ++ [headerNumber m 4 4], boot := after })

end Sys2Proof.Claims

/-- R388, R2, R311, R217, R384: the supplies come up in three steps and a power limit from 1,000 W to 4,200 W is set; a
powered package at its reset has every stack with its default owner, steady, HSEQ 0, the measurement register and the identification block zero, its
dies and cores at reset, the cores in urgency order for start-up, and what ran on it gone. -/
def Sys2Proof.Claims.PowerAndReset : Prop :=
  ∀ (s : State) (pkg : Nat), let p := s.pkg pkg
    Turned s pkg { p with power := min (p.power + 1) 3 } (exec (.powerSequence pkg) s) ∧
    (∀ watts, Turned s pkg (if 1000 ≤ watts ∧ watts ≤ 4200 then { p with powerLimit := watts } else p)
      (exec (.powerLimit pkg watts) s)) ∧
    (p.power < 3 → exec (.packageReset pkg) s = .next s) ∧
    (3 ≤ p.power → ∃ t, exec (.packageReset pkg) s = .next t ∧
      t = { s with
        packages := t.packages, dies := t.dies, cores := t.cores, groups := t.groups, reqs := t.reqs, mops := t.mops
        jobs := t.jobs, recs := t.recs, bins := t.bins, walks := t.walks, passed := t.passed, packets := t.packets } ∧
      (∀ n, n < 8 → (t.pkg pkg).stks[n]? = some ⟨([0, 1, 1, 2, 2, 3, 3, 0] : List Nat).getD n 0, .steady, 0, 0, none, none, 0⟩) ∧
      ((t.pkg pkg).boot, (t.pkg pkg).measure, (t.pkg pkg).fabric) = (.reset, List.replicate 64 0, List.replicate 6 0) ∧
      ((t.pkg pkg).number, (t.pkg pkg).tray, (t.pkg pkg).slot, (t.pkg pkg).events) = (0, 0, 0, 0) ∧ (t.pkg pkg).power = p.power ∧ (t.pkg pkg).powerLimit = p.powerLimit ∧
      (∀ q, q ≠ pkg → t.pkg q = s.pkg q) ∧ (∀ x, x / 4 ≠ pkg → t.die x = s.die x) ∧ (∀ k, k / 384 ≠ pkg → t.core k = s.core k) ∧
      (∀ x, x / 4 = pkg → (t.die x).tlb = [] ∧ (t.die x).l2 = [] ∧ (t.die x).window = 0) ∧
      (∀ k, k / 384 = pkg → (t.core k).mode = .startup ∧ (t.core k).counters = List.replicate 15 0 ∧
        (t.core k).accFree = List.range 32 ∧ (t.core k).l1 = []) ∧
      ((s.groups.map (·.1)).Nodup → ∀ j, t.grp j = (s.grp j).filter (fun g => g.core / 384 ≠ pkg)))

/-- R384, R217: each boot stage acts only after the one before it. Stage 1 brings every port to LSTATE 1; stages 2 and 3
extend an accepted image into the measurement register and halt at a refused one, for good, stage 3 the firmware of the
command processors after the driver's image; stage 4 takes every core from
start-up by its self-test to the barrel; a quote, after stage 3, is signed over the nonce, the measurement, the identification block and
the versions of the images that have run. -/
def Sys2Proof.Claims.Booting : Prop :=
  ∀ (s : State) (pkg : Nat), let p := s.pkg pkg
    Turned s pkg (if p.boot = .reset then { p with
      ports := List.replicate 144 ⟨0x1FF, 1, 0, 0⟩, boot := .trained } else p) (exec (.flueTraining pkg) s) ∧
    let key := (p.flashImg.map (·.key)).getD []
    (p.boot ≠ .trained → Turned s pkg p (exec (.hostFirmwareVerify pkg) s)) ∧
    (p.boot = .trained → ∃ q, Loads pkg 2 key p.flashImg .hostFw p q ∧ Turned s pkg q (exec (.hostFirmwareVerify pkg) s)) ∧
    (p.boot ≠ .hostFw → Turned s pkg p (exec (.driverImageLoad pkg) s)) ∧
    (p.boot = .hostFw → ∃ q r, Loads pkg 3 key p.driverImg .driver p q ∧ (q.boot ≠ .driver → r = q) ∧
      (q.boot = .driver → Loads pkg 3 key p.firmImg .driver q r) ∧ Turned s pkg r (exec (.driverImageLoad pkg) s)) ∧
    (∀ stage cause, p.boot = .halted stage cause →
      ∀ i ∈ ([.flueTraining pkg, .hostFirmwareVerify pkg, .driverImageLoad pkg] : List Instr), Turned s pkg p (exec i s)) ∧
    (p.boot ≠ .driver → exec (.coreSelfTest pkg) s = .next s) ∧
    (p.boot = .driver → ∃ t, exec (.coreSelfTest pkg) s = .next t ∧ t = { s with cores := t.cores, packages := t.packages } ∧
      (∀ k, t.core k = if k / 384 ≠ pkg then s.core k else match (s.core k).mode with
        | .startup => { s.core k with nextMode := some .selftest }
        | .selftest => { s.core k with nextMode := some .barrel }
        | _ => s.core k) ∧
      (∀ q, q ≠ pkg → t.pkg q = s.pkg q) ∧
      ((∀ k, k / 384 = pkg → (t.core k).mode = .barrel ∨ (t.core k).nextMode = some .barrel) →
        t.pkg pkg = { p with boot := .cores }) ∧
      ((∃ k, k / 384 = pkg ∧ (t.core k).mode ≠ .barrel ∧ (t.core k).nextMode ≠ some .barrel) → t.pkg pkg = p)) ∧
    (p.mail = [] ∨ p.boot ∉ [.driver, .cores, .joined] → Turned s pkg p (exec (.attestationQuote pkg) s)) ∧
    ∀ nonce rest, p.mail = nonce :: rest → p.boot ∈ [.driver, .cores, .joined] → ∃ said,
      said = nonce ++ p.measure ++ (List.range 64).map (s.windowByte pkg) ++ p.ran.flatMap (bytesOf 4) ∧
      Turned s pkg { p with mail := rest, quotes := p.quotes ++ [said ++ Config.identitySign pkg said ++ Config.identityKey pkg] }
        (exec (.attestationQuote pkg) s)

/-- R2, R217, R311, R384, R388: power, reset and boot. Where the spec leaves a point open it follows the model's choice or reading: logs 7, 76, 77, 78, 103. -/
def Obligations.PowerAndBoot : Prop := Claims.PowerAndReset ∧ Claims.Booting

namespace Sys2Proof.Claims

/-- Package p of a domain of P packages works. -/
def Works (s : State) (P p : Nat) : Prop := p < P ∧ (s.pkg p).lost = false

/-- Package p is the lowest-numbered working package of its tray. -/
def Lowest (s : State) (P p : Nat) : Prop := Works s P p ∧ ∀ q, Works s P q → (s.pkg q).tray = (s.pkg p).tray → p ≤ q

/-- In t the packages of a domain of P know the primary p, and the mirror: the lowest-numbered working package of the
next tray, cyclically, that has one; there is none in a domain of one tray (R377; that the trays follow one another
cyclically is the model's choice). -/
def Paired (s t : State) (P p : Nat) : Prop :=
  let far := fun (q : Nat) => ((s.pkg q).tray + 63 - (s.pkg p).tray) % 64
  (∀ q, q < P → ((t.pkg q).primary = true ↔ q = p)) ∧
  (∀ m, Lowest s P m → (s.pkg m).tray ≠ (s.pkg p).tray → (∀ q, Works s P q → (s.pkg q).tray ≠ (s.pkg p).tray → far m ≤ far q) →
    (∀ q, q < P → ((t.pkg q).mirror = true ↔ q = m)) ∧ ∃ r, t.replica = some r ∧ r.queue = t.queue) ∧
  ((∀ q, Works s P q → (s.pkg q).tray = (s.pkg p).tray) → (∀ q, q < P → (t.pkg q).mirror = false) ∧ t.replica = none)

/-- A graph of P packages over working links in which each has 48 neighbours, both ways, and any other package is a neighbour
of a neighbour (R360). -/
def Regular (P : Nat) (graph : List (List Nat)) : Prop :=
  let ns := fun (p : Nat) => graph.getD p []
  ∀ p, p < P → (ns p).length = 48 ∧ (ns p).Nodup ∧ p ∉ ns p ∧
    (∀ q ∈ ns p, q < P ∧ p ∈ ns q ∧ Config.linkWorks p q = true) ∧
    ∀ q, q < P → q ≠ p → q ∈ ns p ∨ ∃ r ∈ ns p, q ∈ ns r

end Sys2Proof.Claims

/-- R360, R377: the packages with open cores form the domain: each pair of up to 49 is linked by its share of the 144
ports, the lower neighbours by one more; the primary is the lowest-numbered working package of the lowest-numbered tray;
without a graph nothing forms. The mirror of a lost primary becomes primary and goes on with the queue it holds; a lost
mirror is replaced. Where the spec leaves a point open it follows the model's choice or reading: logs 69, 74, 75, 104. -/
def Obligations.FormationAndFailover : Prop :=
  (∀ (s : State) (P : Nat), P ≤ 256 → (∀ p, p < P → (s.pkg p).boot = .cores) → (P < 256 → (s.pkg P).boot ≠ .cores) →
    let o := exec .domainFormation s
    (s.formed = true ∨ P = 0 ∨ 50 ≤ P ∧ ¬ Regular P (Config.graph P) → o = .next s) ∧
    ∀ pr, s.formed = false → (P < 50 ∨ Regular P (Config.graph P)) → (∀ r, s.replica = some r → r.queue = s.queue) → (∀ p, p < P → (s.pkg p).tray < 64) → Lowest s P pr →
      (∀ q, Works s P q → (s.pkg pr).tray ≤ (s.pkg q).tray) →
      ∃ t, o = .next t ∧ t = { s with packages := t.packages, npkg := P, formed := true, replica := t.replica } ∧
        Paired s t P pr ∧ (∀ p, P ≤ p → t.pkg p = s.pkg p) ∧
        ∀ p, p < P → ((t.pkg p).number, (t.pkg p).boot, (t.pkg p).tray) = (p, .joined, (s.pkg p).tray) ∧
          (P = 1 → (t.pkg p).ports = (s.pkg p).ports) ∧
          (P ≤ 49 → ∀ q, q < P → q ≠ p → ((t.pkg p).ports.filter (fun n => n.neigh = q ∧ n.lstate = 2)).length =
            144 / (P - 1) + if (if q < p then q else q - 1) < 144 % (P - 1) then 1 else 0) ∧
          (50 ≤ P → ∀ q ∈ (Config.graph P).getD p [], ((t.pkg p).ports.filter (fun n => n.neigh = q ∧ n.lstate = 2)).length = 3)) ∧
  ∀ (s : State) (p : Nat), p < s.npkg → (∀ q, q < s.npkg → ((s.pkg q).primary = true ↔ q = p)) →
    (s.replica = none ∨ (∀ q, q < s.npkg → (s.pkg q).mirror = false) → exec .failover s = .next s) ∧
    ∀ m held, m < s.npkg → (∀ q, q < s.npkg → ((s.pkg q).mirror = true ↔ q = m)) → s.replica = some held →
      (∀ q, q < s.npkg → (s.pkg q).tray < 64) →
      let o := exec .failover s
      let old := held.queue.qbase.toNat
      let base := BitVec.ofNat 64 (if paPkg old = p then old % 2 ^ 44 + m * 2 ^ 44 else old)
      ((s.pkg p).lost = (s.pkg m).lost → o = .next s) ∧
      ((s.pkg p).lost = false → (s.pkg m).lost = true → held.queue = s.queue → ∃ t, o = .next t ∧
        t = { s with packages := t.packages, replica := t.replica } ∧ Paired s t s.npkg p) ∧
      ((s.pkg p).lost = true → (s.pkg m).lost = false → ∃ t, o = .next t ∧
        t = { s with
          packages := t.packages, queue := t.queue, replica := t.replica, mem := t.mem, memBad := t.memBad, dies := t.dies
          cores := t.cores } ∧
        Paired s t s.npkg m ∧
        (held.commands = [] → held.status = [] → held.queue.tail.toNat ≤ held.queue.head.toNat →
          t.queue = { held.queue with qbase := base } ∧ t.mem = s.mem))

/-! ## Reset, the step, and the encoding -/

/-- What the rules say of a package at reset: every stack with its default owner, steady, HSEQ 0 (R2, R311); every core
with its counters 0 (R157), in urgency order for start-up (R217), its 32 accumulator slots free (R235); no die window
(R182); no command taken (R378). No launch, team or group runs. Memory lists nothing, in canonical form; that it then
reads zero is the model's choice (log 2). Where the spec leaves a point open it follows the model's choice or reading: logs 2, 4, 5, 7, 77. -/
def Obligations.ResetState : Prop :=
  let s := State.reset
  (∀ p n, n < 8 → (s.pkg p).stks[n]? = some ⟨([0, 1, 1, 2, 2, 3, 3, 0] : List Nat).getD n 0, .steady, 0, 0, none, none, 0⟩) ∧
  (∀ k, (s.core k).mode = .startup ∧ (∀ n, s.counter k n = 0) ∧ (s.core k).accFree = List.range 32 ∧ (s.core k).acc = []) ∧
  (∀ x, (s.die x).window = 0 ∧ (s.die x).tlb = [] ∧ (s.die x).l2 = []) ∧
  s.formed = false ∧ s.queue.head = 0 ∧ s.sealMap = 0 ∧
  s.launches = [] ∧ s.teams = [] ∧ s.groups = [] ∧ s.reqs = [] ∧ s.mem.wf = true ∧ ∀ a, s.mem.read a = 0

namespace Sys2Proof.Claims

/-- Entry `now % 8` of the quadrant whose turn it is on core k, in the barrel, holds group g, which is gr, and may issue;
no other group of the quadrant waits for an entry, and nothing else is due in the cycle. -/
structure Served (s : State) (k g : Nat) (gr : Group) : Prop where
  barrel : (s.core k).mode = .barrel
  entry_ : ∃ e, s.entry k (s.core k).turn (s.now k % 8) = e ∧ e.g = some g ∧ e.from_ ≤ s.now k
  alone : s.pending k (s.core k).turn = []
  idle : (s.core k).turn = 0 → s.dueWork k = s
  group : s.grp g = some gr
  runs : gr.stop = .none
  last : ∀ c, gr.lastIssue = some c → c + 8 ≤ s.now k

/-- The group once its issue slot has begun: where its last slot lies 8 cycles back, the slots owed are one fewer (R26). -/
def Opened (s : State) (k : Nat) (gr : Group) : Group :=
  if ∀ c, gr.lastSlot = some c → c + 8 ≤ s.now k then
    { gr with
      threads := gr.threads.map (fun e => (e.1, { e.2 with demand := e.2.demand - 1 }))
      lastSlot := some (s.now k), yielded := false }
  else { gr with yielded := false }

end Sys2Proof.Claims

/-- A step takes the first turn of the agenda, or a free one (log 1). In an issue turn of a core the word that the slot
issues is executed, and the core passes to its next quadrant; where the words at the packet's clause decode to a
well-formed instruction, that instruction is the one executed, on the machine in which the slot has been counted and the
packet is the one being executed; memory is as it was and every thread stands at its PC with its registers. A clause's words
are those that stand in memory behind its translation (R16). Where the spec leaves a point open it follows the model's choice or reading: logs 1, 7, 23, 81, 88, 89, 90. -/
def Obligations.StepRunsDecoded : Prop :=
  (∀ s : State,
    (∀ k, s.turn = .issue k → step s =
      match s.taken.beginIssue k with
      | (B, none) => .next (B.nextTurn k)
      | (B, some i) => match exec i B with
        | .next t => .next (t.nextTurn k)
        | .fault f => .fault f
        | .refused r => .refused r) ∧
    (∀ g, s.turn = .settle g → step s = .next (s.taken.settle g)) ∧
    (∀ i, s.turn = .event i → step s = exec i s.taken) ∧
    (∀ e, s.turn = .outside e → step s = s.taken.input e) ∧
    (∀ x rest, s.agenda = x :: rest → s.turn = x ∧ s.taken = { s with agenda := rest, ticks := s.ticks + 1 }) ∧
    (s.agenda = [] → s.turn = Config.nextTurn s.ticks)) ∧
  (∀ (s : State) (k g : Nat) (gr : Group) (pc : Pc) (tids : List Nat) (C : State) (h : Word) (ws : List Word) (i : Instr),
    s.turn = .issue k → Served s.taken k g gr →
    let now := Opened s k gr
    let A := { s.taken with groups := s.groups.modify g (fun u => Opened s k u) }
    now.exits = [] → (∀ e ∈ now.threads, A.heldBy g now e.1 e.2 ≠ .fetch) →
    packPacket (A.readyThreads g now) = some (pc, tids) →
    A.clause g gr.core (A.codeBase gr) pc.off.toNat = (C, .ok h ws) →
    headerOk h ws = true → indexOk h ws pc.ix = true →
    decodeLegal (h.toNat / 2 ^ 4 % 8) (ws.getD pc.ix 0) (ws.getD (pc.ix + 1) 0) = some i →
    (isTranscendental i = true → (s.quad k (s.core k).turn).busy ≤ s.now k) →
    C.overRoom now (h.toNat / 2 ^ 4 % 8) (ws.getD pc.ix 0) i tids = false →
    ((s.pkg (k / 384)).powerLimit < 4200 → Config.idleSlot C.ticks = false) →
    ∃ B : State, s.taken.beginIssue k = (B, some i) ∧ (B.cur.g, B.cur.tids, B.cur.at_.pc) = (g, tids, pc) ∧
      (∀ len, formLen (h.toNat / 2 ^ 4 % 8) (opOf (ws.getD pc.ix 0)).toNat = some len → B.cur.at_.next =
        if ws.length ≤ pc.ix + len then ⟨pc.off + BitVec.ofNat 32 (4 * (ws.length + 1)), 0⟩ else ⟨pc.off, pc.ix + len⟩) ∧
      B = { C with groups := B.groups, cores := B.cores, cur := B.cur } ∧ C.mem = s.mem ∧
      (∀ j, j ≠ g → B.grp j = s.grp j) ∧
      ∃ gr', B.grp g = some gr' ∧ (gr'.s, gr'.conv, gr'.acc, gr'.waits) = (gr.s, gr.conv, gr.acc, gr.waits) ∧
        gr'.lastIssue = some (s.now k) ∧
        ∀ y th, Tbl.get? gr.threads y = some th → ∃ th', Tbl.get? gr'.threads y = some th' ∧
          th' = { th with demand := th'.demand, age := th'.age, past := decide (y ∈ tids) || th.past }) ∧
  ∀ (s : State) (g k base off : Nat) (e : TlbEntry) (h : Word) (ws : List Word),
    let va := fun (n : Nat) => (base + (off + 4 * n) % 2 ^ 32) % 2 ^ 64
    let pa := fun (n : Nat) => e.pa + (va n - e.va)
    (∀ p ∈ s.passed, p.agent ≠ .fetch g) →
    (∀ n, n ≤ ws.length → Mapped s k (va n) .fetch e ∧ s.homeOpen (pa n) = true ∧ s.firstFor (pa n) = none) →
    (∀ n w, (h :: ws)[n]? = some w → w = BitVec.ofNat 32 (bytesToNat
      (if e.uc then s.ucRead (pa n) 4 else s.homeRead (pa n) 4).1)) → ws.length = h.toNat % 16 →
    s.clause g k base off = (s.useTlb k e, .ok h ws)

/-- Words written out from the encodings of R19, R20, R24, R31, R36, R37 and R76 decode to the instructions they stand for;
an unassigned OP, a nonzero unused field, an odd pair and an access word that R25 refuses do not decode. -/
def Obligations.DecodeWords : Prop :=
  let w := fun (stall guard operands op : Nat) => BitVec.ofNat 32 (stall * 2 ^ 30 + guard * 2 ^ 27 + operands * 2 ^ 6 + op)
  let three := fun (d a b : Nat) => d * 2 ^ 14 + a * 2 ^ 7 + b
  let matrix := fun (h clear slot a b : Nat) => h * 2 ^ 18 + clear * 2 ^ 17 + slot * 2 ^ 14 + a * 2 ^ 7 + b
  let access := fun (width order scope ms nt sp off : Nat) => BitVec.ofNat 32
    (width + order * 2 ^ 3 + scope * 2 ^ 6 + ms * 2 ^ 9 + nt * 2 ^ 10 + sp * 2 ^ 11 + off * 2 ^ 12)
  decodeLegal 0 (w 3 5 (three 1 2 3) 0x02) 0 = some (.sadd ⟨3, 5⟩ 1 2 3) ∧
  decodeLegal 0 (w 0 0 (three 127 0 0) 0x01) 0xDEADBEEF = some (.smovl ⟨0, 0⟩ 127 0xDEADBEEF) ∧
  decodeLegal 1 (w 1 7 (three 4 6 8) 0x1F) 0 = some (.vadd64 ⟨1, 7⟩ 4 6 8) ∧
  decodeLegal 1 (w 2 1 (three 9 10 11) 0x38) 0 = some (.gshfl ⟨2, 1⟩ 9 10 11) ∧
  decodeLegal 2 (w 0 7 (three 4 2 0) 0x00) (access 4 1 3 0 1 0 0xFFFF0) =
    some (.ld ⟨0, 7⟩ 4 2 (access 4 1 3 0 1 0 0xFFFF0)) ∧
  decodeLegal 2 (w 0 2 (three 6 8 10) 0x08) (access 3 4 4 1 0 0 0) =
    some (.atomadd ⟨0, 2⟩ 6 8 10 (access 3 4 4 1 0 0 0)) ∧
  decodeLegal 3 (w 0 6 (matrix 5 1 2 8 12) 0x00) 0 = some (.tmma ⟨0, 6⟩ 5 true 2 8 12) ∧
  decodeLegal 3 0x02820090 0 = some (.cpy ⟨0, 0⟩ 40 16 2) ∧
  decodeLegal 3 (w 0 0 (three 40 16 17) 0x10) 0 = none ∧
  decodeLegal 4 (w 0 4 0 0x00) 0xFFFFFFF0 = some (.bra ⟨0, 4⟩ 0xFFFFFFF0) ∧
  decodeLegal 4 (w 0 7 (2 * 2 ^ 12 + 0xABC) 0x04) 0 = some (.lpad ⟨0, 7⟩ 2 0xABC) ∧
  decodeLegal 4 (w 0 3 (1 * 2 ^ 18 + 4 * 2 ^ 15 + 10 * 2 ^ 8 + 20 * 2 + 1) 0x05) 64 = some (.spawn ⟨0, 3⟩ 1 4 10 20 true 64) ∧
  decodeLegal 4 (w 0 7 0x1ABCDE 0x0C) 0 = some (.trap ⟨0, 7⟩ 0x1ABCDE) ∧
  decodeLegal 5 (w 0 7 (three 10 0 0) 0x07) 0 = some (.cycrd ⟨0, 7⟩ 10) ∧
  (∀ lit, decodeLegal 1 (w 0 7 0 0x2E) lit = none) ∧
  (∀ cls w lit, 6 ≤ cls → decodeLegal cls w lit = none) ∧
  decodeLegal 0 (w 0 0 (three 1 2 3) 0x00) 0 = none ∧
  decodeLegal 1 (w 0 7 (three 4 6 9) 0x1F) 0 = none ∧
  decodeLegal 2 (w 0 7 (three 4 2 0) 0x00) (access 5 0 0 0 0 0 0) = none ∧
  decodeLegal 2 (w 0 7 (three 4 2 0) 0x00) (access 2 2 0 0 0 0 0) = none ∧
  decodeLegal 2 (w 0 7 (three 4 2 0) 0x00) (access 2 0 0 1 0 0 0) = none

/-- Every instruction that has an encoding and is well formed decodes from it: the class and OP give its length, the
decoder gives it back whatever word follows, and the word that the encoder writes is the only one of it. -/
def Obligations.DecodeEncode : Prop :=
  ∀ (i : Instr) (cls : Nat) (ws rest : List Word), i.wf = true → encode i = some (cls, ws) →
    cls < 6 ∧ formLen cls (opOf (ws.getD 0 0)).toNat = some ws.length ∧
    decodeLegal cls (ws.getD 0 0) ((ws ++ rest).getD 1 0) = some i

/-- A word that decodes, with its literal where its form has one, is the encoding of the instruction (R19 to R23). -/
def Obligations.EncodeDecode : Prop :=
  ∀ (cls : Nat) (w lit : Word) (i : Instr), decodeLegal cls w lit = some i →
    i.wf = true ∧ ∃ n, formLen cls (opOf w).toNat = some n ∧ encode i = some (cls, [w, lit].take n)

/-- Every step keeps memory in its canonical form. Where the spec leaves a point open it follows the model's choice or reading: log 2. -/
def Obligations.CanonicalStep : Prop :=
  ∀ s t : State, s.mem.wf = true → step s = .next t → t.mem.wf = true
end

