-- ==== Sys2Proof/Laws/Table.lean ====
section
/-! SUPPORT. Laws of tables and of byte memory: reading after putting, changing and removing, and the canonical form,
which every store keeps. -/

namespace Sys2Proof.Machine

namespace Tbl

variable {α : Type}

@[simp] theorem get?_nil (n : Nat) : get? ([] : Tbl α) n = none := rfl

theorem get?_put (t : Tbl α) (n m : Nat) (a : α) : get? (t.put n a) m = if n = m then some a else get? t m := by
  induction t with
  | nil => simp [put, get?]
  | cons e r ih =>
    obtain ⟨k, v⟩ := e
    simp only [put]
    split
    · simp [get?]
    · split
      · subst_vars; simp only [get?]; split <;> simp_all
      · simp only [get?, ih]; split <;> (try split) <;> simp_all

@[simp] theorem get?_put_self (t : Tbl α) (n : Nat) (a : α) : get? (t.put n a) n = some a := by simp [get?_put]

theorem get?_put_ne (t : Tbl α) {n m : Nat} (a : α) (h : m ≠ n) : get? (t.put n a) m = get? t m := by
  simp [get?_put, Ne.symm h]

theorem get?_modify (t : Tbl α) (n m : Nat) (f : α → α) :
    get? (t.modify n f) m = if n = m then (get? t m).map f else get? t m := by
  induction t with
  | nil => simp [modify]
  | cons e r ih =>
    obtain ⟨k, v⟩ := e
    simp only [modify, List.map_cons] at ih ⊢
    by_cases hk : k = n
    · subst hk
      simp only [if_true, get?, ih]
      split <;> simp_all
    · simp only [if_neg hk, get?, ih]
      split <;> (try split) <;> simp_all

@[simp] theorem get?_modify_self (t : Tbl α) (n : Nat) (f : α → α) :
    get? (t.modify n f) n = (get? t n).map f := by simp [get?_modify]

theorem get?_modify_ne (t : Tbl α) {n m : Nat} (f : α → α) (h : m ≠ n) : get? (t.modify n f) m = get? t m := by
  simp [get?_modify, Ne.symm h]

theorem get?_del (t : Tbl α) (n m : Nat) : get? (t.del n) m = if n = m then none else get? t m := by
  induction t with
  | nil => simp [del]
  | cons e r ih =>
    obtain ⟨k, v⟩ := e
    simp only [del, List.filter_cons] at ih ⊢
    by_cases hk : k = n
    · simp only [hk, ne_eq, not_true, decide_false, Bool.false_eq_true, if_false, ih, get?]
      split <;> simp_all
    · simp only [ne_eq, hk, not_false_eq_true, decide_true, if_true, get?, ih]
      split <;> (try split) <;> simp_all

@[simp] theorem get?_del_self (t : Tbl α) (n : Nat) : get? (t.del n) n = none := by simp [get?_del]

theorem get?_del_ne (t : Tbl α) {n m : Nat} (h : m ≠ n) : get? (t.del n) m = get? t m := by
  simp [get?_del, Ne.symm h]

theorem getD_put (t : Tbl α) (n m : Nat) (a d : α) : (t.put n a).getD m d = if n = m then a else t.getD m d := by
  simp only [getD, get?_put]; split <;> rfl

theorem getD_del (t : Tbl α) (n m : Nat) (d : α) : (t.del n).getD m d = if n = m then d else t.getD m d := by
  simp only [getD, get?_del]; split <;> rfl

/-- A map that keeps keys reads as the entry mapped. -/
theorem get?_map (t : Tbl α) (f : Nat → α → α) (n : Nat) :
    get? (t.map (fun e => (e.1, f e.1 e.2)) : Tbl α) n = (get? t n).map (f n) := by
  induction t with
  | nil => rfl
  | cons e r ih =>
    obtain ⟨k, v⟩ := e
    simp only [List.map_cons, get?, ih]
    split <;> simp_all

@[simp] theorem keys_modify (t : Tbl α) (n : Nat) (f : α → α) : (t.modify n f).keys = t.keys := by
  induction t with
  | nil => rfl
  | cons e r ih =>
    simp only [keys, modify, List.map_cons] at ih ⊢
    rw [ih]; split <;> rfl

end Tbl

/-! ## Memory -/

namespace Memory

theorem read_write (m : Memory) (n a : Nat) (b : Byte) (h : ∃ lo, risesFrom lo m = true) :
    (m.write n b).read a = if n = a then b else m.read a := by
  obtain ⟨lo, h⟩ := h
  induction m generalizing lo with
  | nil =>
    simp only [write]
    split
    · split <;> simp_all [read]
    · simp only [read]; split <;> (try split) <;> simp_all
  | cons e r ih =>
    obtain ⟨k, v⟩ := e
    simp only [risesFrom, Bool.and_eq_true, decide_eq_true_eq] at h
    have gap : ∀ x lo' (m' : Memory), risesFrom lo' m' = true → x < lo' → m'.read x = unlisted := by
      intro x lo' m' hr hx
      cases m' with
      | nil => rfl
      | cons e' r' =>
        simp only [risesFrom, Bool.and_eq_true, decide_eq_true_eq] at hr
        simp only [read]
        rw [if_neg (by omega), if_pos (by omega)]
    simp only [write]
    by_cases hn : n < k
    · simp only [hn, if_true]
      split
      · by_cases ha : n = a
        · subst ha
          have hne : k ≠ n := by omega
          simp_all [read]
        · simp [ha]
      · by_cases ha : n = a
        · simp [read, ha]
        · simp only [read, if_neg ha]
          by_cases h1 : a < n
          · have h2 : k ≠ a := by omega
            have h3 : a < k := by omega
            simp [h1, h2, h3]
          · simp [h1]
    · simp only [hn, if_false]
      by_cases hk : k = n
      · subst hk
        simp only [if_true]
        split
        · by_cases ha : k = a
          · subst ha
            rw [if_pos rfl, gap k (k + 1) r h.2 (by omega)]; simp_all
          · simp only [if_neg ha, read]
            by_cases h1 : a < k
            · simp [h1, gap a (k + 1) r h.2 (by omega)]
            · simp [h1]
        · by_cases ha : k = a <;> simp [read, ha]
      · simp only [if_neg hk, read, ih _ h.2]
        by_cases ha : n = a
        · subst ha; simp [hk, hn]
        · simp [ha]

/-- A store keeps what rises from a bound below it. -/
theorem risesFrom_write (m : Memory) (n : Nat) (b : Byte) : ∀ lo, risesFrom lo m = true → lo ≤ n →
    risesFrom lo (m.write n b) = true := by
  induction m with
  | nil =>
    intro lo _ hn
    simp only [write]; split <;> simp_all [risesFrom]
  | cons e r ih =>
    obtain ⟨k, v⟩ := e
    intro lo h hn
    have h' := h
    simp only [risesFrom, Bool.and_eq_true, decide_eq_true_eq] at h
    have weaken : ∀ (m' : Memory) a c, risesFrom a m' = true → c ≤ a → risesFrom c m' = true := by
      intro m' a c hr hc
      cases m' with
      | nil => rfl
      | cons e' r' =>
        simp only [risesFrom, Bool.and_eq_true, decide_eq_true_eq] at hr ⊢
        exact ⟨⟨by omega, hr.1.2⟩, hr.2⟩
    simp only [write]
    split
    · split
      · exact h'
      · simp only [risesFrom, Bool.and_eq_true, decide_eq_true_eq]
        exact ⟨⟨hn, by assumption⟩, ⟨by omega, h.1.2⟩, h.2⟩
    · split
      · split
        · exact weaken r _ _ h.2 (by omega)
        · simp only [risesFrom, Bool.and_eq_true, decide_eq_true_eq]
          subst_vars
          exact ⟨⟨by omega, by assumption⟩, h.2⟩
      · simp only [risesFrom, Bool.and_eq_true, decide_eq_true_eq]
        exact ⟨h.1, ih _ h.2 (by omega)⟩

/-- Every store keeps the canonical form. -/
theorem wf_write (m : Memory) (n : Nat) (b : Byte) (h : m.wf = true) : (m.write n b).wf = true :=
  risesFrom_write m n b 0 h (Nat.zero_le n)

theorem wf_writeBytes (bs : List Byte) : ∀ (m : Memory) (a : Nat), m.wf = true → (m.writeBytes a bs).wf = true := by
  induction bs with
  | nil => intro m a h; exact h
  | cons b r ih => intro m a h; exact ih _ _ (wf_write m a b h)

theorem wf_writeNat (m : Memory) (a n x : Nat) (h : m.wf = true) : (m.writeNat a n x).wf = true :=
  wf_writeBytes _ m a h

@[simp] theorem wf_nil : Memory.wf [] = true := rfl

/-- Reading a byte after storing one. -/
theorem read_write_wf (m : Memory) (n a : Nat) (b : Byte) (h : m.wf = true) :
    (m.write n b).read a = if n = a then b else m.read a := read_write m n a b ⟨0, h⟩

/-- Reading outside stored bytes. -/
theorem read_writeBytes_out (bs : List Byte) : ∀ (m : Memory) (a x : Nat), m.wf = true →
    (x < a ∨ a + bs.length ≤ x) → (m.writeBytes a bs).read x = m.read x := by
  induction bs with
  | nil => intro m a x _ _; rfl
  | cons b r ih =>
    intro m a x h hx
    simp only [List.length_cons] at hx
    simp only [writeBytes]
    rw [ih _ _ _ (wf_write m a b h) (by omega), read_write_wf m a x b h, if_neg (by omega)]

/-- Reading the stored bytes. -/
theorem readBytes_writeBytes (bs : List Byte) : ∀ (m : Memory) (a : Nat), m.wf = true →
    (m.writeBytes a bs).readBytes a bs.length = bs := by
  induction bs with
  | nil => intro m a _; rfl
  | cons b r ih =>
    intro m a h
    simp only [writeBytes, List.length_cons, readBytes]
    rw [ih _ _ (wf_write m a b h), read_writeBytes_out _ _ _ _ (wf_write m a b h) (by omega),
      read_write_wf m a a b h, if_pos rfl]

end Memory

end Sys2Proof.Machine
end

