-- ==== Sys2Proof/Laws/State.lean ====
section
/-! SUPPORT. One lemma for each field under each update of the state, so that no proof unfolds a record update. -/

namespace Sys2Proof.Machine

variable (s : State)

/-! ### onCore -/

@[simp] theorem State.onCore_agenda (k : Nat) (f : Core → Core) : (s.onCore k f).agenda = s.agenda := rfl
@[simp] theorem State.onCore_ticks (k : Nat) (f : Core → Core) : (s.onCore k f).ticks = s.ticks := rfl
@[simp] theorem State.onCore_cur (k : Nat) (f : Core → Core) : (s.onCore k f).cur = s.cur := rfl
@[simp] theorem State.onCore_fresh (k : Nat) (f : Core → Core) : (s.onCore k f).fresh = s.fresh := rfl
@[simp] theorem State.onCore_npkg (k : Nat) (f : Core → Core) : (s.onCore k f).npkg = s.npkg := rfl
@[simp] theorem State.onCore_formed (k : Nat) (f : Core → Core) : (s.onCore k f).formed = s.formed := rfl
@[simp] theorem State.onCore_mem (k : Nat) (f : Core → Core) : (s.onCore k f).mem = s.mem := rfl
@[simp] theorem State.onCore_memBad (k : Nat) (f : Core → Core) : (s.onCore k f).memBad = s.memBad := rfl
@[simp] theorem State.onCore_packages (k : Nat) (f : Core → Core) : (s.onCore k f).packages = s.packages := rfl
@[simp] theorem State.onCore_dies (k : Nat) (f : Core → Core) : (s.onCore k f).dies = s.dies := rfl
@[simp] theorem State.onCore_launches (k : Nat) (f : Core → Core) : (s.onCore k f).launches = s.launches := rfl
@[simp] theorem State.onCore_teams (k : Nat) (f : Core → Core) : (s.onCore k f).teams = s.teams := rfl
@[simp] theorem State.onCore_groups (k : Nat) (f : Core → Core) : (s.onCore k f).groups = s.groups := rfl
@[simp] theorem State.onCore_reqs (k : Nat) (f : Core → Core) : (s.onCore k f).reqs = s.reqs := rfl
@[simp] theorem State.onCore_jobs (k : Nat) (f : Core → Core) : (s.onCore k f).jobs = s.jobs := rfl
@[simp] theorem State.onCore_mops (k : Nat) (f : Core → Core) : (s.onCore k f).mops = s.mops := rfl
@[simp] theorem State.onCore_recs (k : Nat) (f : Core → Core) : (s.onCore k f).recs = s.recs := rfl
@[simp] theorem State.onCore_bins (k : Nat) (f : Core → Core) : (s.onCore k f).bins = s.bins := rfl
@[simp] theorem State.onCore_walks (k : Nat) (f : Core → Core) : (s.onCore k f).walks = s.walks := rfl
@[simp] theorem State.onCore_words (k : Nat) (f : Core → Core) : (s.onCore k f).words = s.words := rfl
@[simp] theorem State.onCore_passed (k : Nat) (f : Core → Core) : (s.onCore k f).passed = s.passed := rfl
@[simp] theorem State.onCore_packets (k : Nat) (f : Core → Core) : (s.onCore k f).packets = s.packets := rfl
@[simp] theorem State.onCore_rdmas (k : Nat) (f : Core → Core) : (s.onCore k f).rdmas = s.rdmas := rfl
@[simp] theorem State.onCore_queue (k : Nat) (f : Core → Core) : (s.onCore k f).queue = s.queue := rfl
@[simp] theorem State.onCore_replica (k : Nat) (f : Core → Core) : (s.onCore k f).replica = s.replica := rfl
@[simp] theorem State.onCore_ptRoot (k : Nat) (f : Core → Core) : (s.onCore k f).ptRoot = s.ptRoot := rfl
@[simp] theorem State.onCore_sealMap (k : Nat) (f : Core → Core) : (s.onCore k f).sealMap = s.sealMap := rfl
@[simp] theorem State.onCore_sealLen (k : Nat) (f : Core → Core) : (s.onCore k f).sealLen = s.sealLen := rfl
@[simp] theorem State.onCore_rack (k : Nat) (f : Core → Core) : (s.onCore k f).rack = s.rack := rfl
@[simp] theorem State.onCore_trays (k : Nat) (f : Core → Core) : (s.onCore k f).trays = s.trays := rfl

/-! ### onDie -/

@[simp] theorem State.onDie_agenda (x : Nat) (f : Die → Die) : (s.onDie x f).agenda = s.agenda := rfl
@[simp] theorem State.onDie_ticks (x : Nat) (f : Die → Die) : (s.onDie x f).ticks = s.ticks := rfl
@[simp] theorem State.onDie_cur (x : Nat) (f : Die → Die) : (s.onDie x f).cur = s.cur := rfl
@[simp] theorem State.onDie_fresh (x : Nat) (f : Die → Die) : (s.onDie x f).fresh = s.fresh := rfl
@[simp] theorem State.onDie_npkg (x : Nat) (f : Die → Die) : (s.onDie x f).npkg = s.npkg := rfl
@[simp] theorem State.onDie_formed (x : Nat) (f : Die → Die) : (s.onDie x f).formed = s.formed := rfl
@[simp] theorem State.onDie_mem (x : Nat) (f : Die → Die) : (s.onDie x f).mem = s.mem := rfl
@[simp] theorem State.onDie_memBad (x : Nat) (f : Die → Die) : (s.onDie x f).memBad = s.memBad := rfl
@[simp] theorem State.onDie_packages (x : Nat) (f : Die → Die) : (s.onDie x f).packages = s.packages := rfl
@[simp] theorem State.onDie_cores (x : Nat) (f : Die → Die) : (s.onDie x f).cores = s.cores := rfl
@[simp] theorem State.onDie_launches (x : Nat) (f : Die → Die) : (s.onDie x f).launches = s.launches := rfl
@[simp] theorem State.onDie_teams (x : Nat) (f : Die → Die) : (s.onDie x f).teams = s.teams := rfl
@[simp] theorem State.onDie_groups (x : Nat) (f : Die → Die) : (s.onDie x f).groups = s.groups := rfl
@[simp] theorem State.onDie_reqs (x : Nat) (f : Die → Die) : (s.onDie x f).reqs = s.reqs := rfl
@[simp] theorem State.onDie_jobs (x : Nat) (f : Die → Die) : (s.onDie x f).jobs = s.jobs := rfl
@[simp] theorem State.onDie_mops (x : Nat) (f : Die → Die) : (s.onDie x f).mops = s.mops := rfl
@[simp] theorem State.onDie_recs (x : Nat) (f : Die → Die) : (s.onDie x f).recs = s.recs := rfl
@[simp] theorem State.onDie_bins (x : Nat) (f : Die → Die) : (s.onDie x f).bins = s.bins := rfl
@[simp] theorem State.onDie_walks (x : Nat) (f : Die → Die) : (s.onDie x f).walks = s.walks := rfl
@[simp] theorem State.onDie_words (x : Nat) (f : Die → Die) : (s.onDie x f).words = s.words := rfl
@[simp] theorem State.onDie_passed (x : Nat) (f : Die → Die) : (s.onDie x f).passed = s.passed := rfl
@[simp] theorem State.onDie_packets (x : Nat) (f : Die → Die) : (s.onDie x f).packets = s.packets := rfl
@[simp] theorem State.onDie_rdmas (x : Nat) (f : Die → Die) : (s.onDie x f).rdmas = s.rdmas := rfl
@[simp] theorem State.onDie_queue (x : Nat) (f : Die → Die) : (s.onDie x f).queue = s.queue := rfl
@[simp] theorem State.onDie_replica (x : Nat) (f : Die → Die) : (s.onDie x f).replica = s.replica := rfl
@[simp] theorem State.onDie_ptRoot (x : Nat) (f : Die → Die) : (s.onDie x f).ptRoot = s.ptRoot := rfl
@[simp] theorem State.onDie_sealMap (x : Nat) (f : Die → Die) : (s.onDie x f).sealMap = s.sealMap := rfl
@[simp] theorem State.onDie_sealLen (x : Nat) (f : Die → Die) : (s.onDie x f).sealLen = s.sealLen := rfl
@[simp] theorem State.onDie_rack (x : Nat) (f : Die → Die) : (s.onDie x f).rack = s.rack := rfl
@[simp] theorem State.onDie_trays (x : Nat) (f : Die → Die) : (s.onDie x f).trays = s.trays := rfl

/-! ### replicate and packetOut (R363, R377) -/

@[simp] theorem State.replicate_agenda (f : Replica → Replica) : (s.replicate f).agenda = s.agenda := rfl
@[simp] theorem State.replicate_ticks (f : Replica → Replica) : (s.replicate f).ticks = s.ticks := rfl
@[simp] theorem State.replicate_cur (f : Replica → Replica) : (s.replicate f).cur = s.cur := rfl
@[simp] theorem State.replicate_fresh (f : Replica → Replica) : (s.replicate f).fresh = s.fresh := rfl
@[simp] theorem State.replicate_npkg (f : Replica → Replica) : (s.replicate f).npkg = s.npkg := rfl
@[simp] theorem State.replicate_formed (f : Replica → Replica) : (s.replicate f).formed = s.formed := rfl
@[simp] theorem State.replicate_mem (f : Replica → Replica) : (s.replicate f).mem = s.mem := rfl
@[simp] theorem State.replicate_memBad (f : Replica → Replica) : (s.replicate f).memBad = s.memBad := rfl
@[simp] theorem State.replicate_packages (f : Replica → Replica) : (s.replicate f).packages = s.packages := rfl
@[simp] theorem State.replicate_dies (f : Replica → Replica) : (s.replicate f).dies = s.dies := rfl
@[simp] theorem State.replicate_cores (f : Replica → Replica) : (s.replicate f).cores = s.cores := rfl
@[simp] theorem State.replicate_launches (f : Replica → Replica) : (s.replicate f).launches = s.launches := rfl
@[simp] theorem State.replicate_teams (f : Replica → Replica) : (s.replicate f).teams = s.teams := rfl
@[simp] theorem State.replicate_groups (f : Replica → Replica) : (s.replicate f).groups = s.groups := rfl
@[simp] theorem State.replicate_reqs (f : Replica → Replica) : (s.replicate f).reqs = s.reqs := rfl
@[simp] theorem State.replicate_jobs (f : Replica → Replica) : (s.replicate f).jobs = s.jobs := rfl
@[simp] theorem State.replicate_mops (f : Replica → Replica) : (s.replicate f).mops = s.mops := rfl
@[simp] theorem State.replicate_recs (f : Replica → Replica) : (s.replicate f).recs = s.recs := rfl
@[simp] theorem State.replicate_bins (f : Replica → Replica) : (s.replicate f).bins = s.bins := rfl
@[simp] theorem State.replicate_walks (f : Replica → Replica) : (s.replicate f).walks = s.walks := rfl
@[simp] theorem State.replicate_words (f : Replica → Replica) : (s.replicate f).words = s.words := rfl
@[simp] theorem State.replicate_passed (f : Replica → Replica) : (s.replicate f).passed = s.passed := rfl
@[simp] theorem State.replicate_packets (f : Replica → Replica) : (s.replicate f).packets = s.packets := rfl
@[simp] theorem State.replicate_rdmas (f : Replica → Replica) : (s.replicate f).rdmas = s.rdmas := rfl
@[simp] theorem State.replicate_queue (f : Replica → Replica) : (s.replicate f).queue = s.queue := rfl
@[simp] theorem State.replicate_ptRoot (f : Replica → Replica) : (s.replicate f).ptRoot = s.ptRoot := rfl
@[simp] theorem State.replicate_sealMap (f : Replica → Replica) : (s.replicate f).sealMap = s.sealMap := rfl
@[simp] theorem State.replicate_sealLen (f : Replica → Replica) : (s.replicate f).sealLen = s.sealLen := rfl
@[simp] theorem State.replicate_rack (f : Replica → Replica) : (s.replicate f).rack = s.rack := rfl
@[simp] theorem State.replicate_trays (f : Replica → Replica) : (s.replicate f).trays = s.trays := rfl
@[simp] theorem State.replicate_replica (f : Replica → Replica) : (s.replicate f).replica = s.replica.map f := rfl

@[simp] theorem State.packetOut_agenda (c : Cargo) (x t q : Nat) (p : PkgPlace) (n : Nat) (g : Option CollTag) :
    (s.packetOut c x t q p n g).agenda = s.agenda := rfl
@[simp] theorem State.packetOut_ticks (c : Cargo) (x t q : Nat) (p : PkgPlace) (n : Nat) (g : Option CollTag) :
    (s.packetOut c x t q p n g).ticks = s.ticks := rfl
@[simp] theorem State.packetOut_cur (c : Cargo) (x t q : Nat) (p : PkgPlace) (n : Nat) (g : Option CollTag) :
    (s.packetOut c x t q p n g).cur = s.cur := rfl
@[simp] theorem State.packetOut_npkg (c : Cargo) (x t q : Nat) (p : PkgPlace) (n : Nat) (g : Option CollTag) :
    (s.packetOut c x t q p n g).npkg = s.npkg := rfl
@[simp] theorem State.packetOut_formed (c : Cargo) (x t q : Nat) (p : PkgPlace) (n : Nat) (g : Option CollTag) :
    (s.packetOut c x t q p n g).formed = s.formed := rfl
@[simp] theorem State.packetOut_mem (c : Cargo) (x t q : Nat) (p : PkgPlace) (n : Nat) (g : Option CollTag) :
    (s.packetOut c x t q p n g).mem = s.mem := rfl
@[simp] theorem State.packetOut_memBad (c : Cargo) (x t q : Nat) (p : PkgPlace) (n : Nat) (g : Option CollTag) :
    (s.packetOut c x t q p n g).memBad = s.memBad := rfl
@[simp] theorem State.packetOut_packages (c : Cargo) (x t q : Nat) (p : PkgPlace) (n : Nat) (g : Option CollTag) :
    (s.packetOut c x t q p n g).packages = s.packages := rfl
@[simp] theorem State.packetOut_dies (c : Cargo) (x t q : Nat) (p : PkgPlace) (n : Nat) (g : Option CollTag) :
    (s.packetOut c x t q p n g).dies = s.dies := rfl
@[simp] theorem State.packetOut_cores (c : Cargo) (x t q : Nat) (p : PkgPlace) (n : Nat) (g : Option CollTag) :
    (s.packetOut c x t q p n g).cores = s.cores := rfl
@[simp] theorem State.packetOut_launches (c : Cargo) (x t q : Nat) (p : PkgPlace) (n : Nat) (g : Option CollTag) :
    (s.packetOut c x t q p n g).launches = s.launches := rfl
@[simp] theorem State.packetOut_teams (c : Cargo) (x t q : Nat) (p : PkgPlace) (n : Nat) (g : Option CollTag) :
    (s.packetOut c x t q p n g).teams = s.teams := rfl
@[simp] theorem State.packetOut_groups (c : Cargo) (x t q : Nat) (p : PkgPlace) (n : Nat) (g : Option CollTag) :
    (s.packetOut c x t q p n g).groups = s.groups := rfl
@[simp] theorem State.packetOut_reqs (c : Cargo) (x t q : Nat) (p : PkgPlace) (n : Nat) (g : Option CollTag) :
    (s.packetOut c x t q p n g).reqs = s.reqs := rfl
@[simp] theorem State.packetOut_jobs (c : Cargo) (x t q : Nat) (p : PkgPlace) (n : Nat) (g : Option CollTag) :
    (s.packetOut c x t q p n g).jobs = s.jobs := rfl
@[simp] theorem State.packetOut_mops (c : Cargo) (x t q : Nat) (p : PkgPlace) (n : Nat) (g : Option CollTag) :
    (s.packetOut c x t q p n g).mops = s.mops := rfl
@[simp] theorem State.packetOut_recs (c : Cargo) (x t q : Nat) (p : PkgPlace) (n : Nat) (g : Option CollTag) :
    (s.packetOut c x t q p n g).recs = s.recs := rfl
@[simp] theorem State.packetOut_bins (c : Cargo) (x t q : Nat) (p : PkgPlace) (n : Nat) (g : Option CollTag) :
    (s.packetOut c x t q p n g).bins = s.bins := rfl
@[simp] theorem State.packetOut_walks (c : Cargo) (x t q : Nat) (p : PkgPlace) (n : Nat) (g : Option CollTag) :
    (s.packetOut c x t q p n g).walks = s.walks := rfl
@[simp] theorem State.packetOut_words (c : Cargo) (x t q : Nat) (p : PkgPlace) (n : Nat) (g : Option CollTag) :
    (s.packetOut c x t q p n g).words = s.words := rfl
@[simp] theorem State.packetOut_passed (c : Cargo) (x t q : Nat) (p : PkgPlace) (n : Nat) (g : Option CollTag) :
    (s.packetOut c x t q p n g).passed = s.passed := rfl
@[simp] theorem State.packetOut_rdmas (c : Cargo) (x t q : Nat) (p : PkgPlace) (n : Nat) (g : Option CollTag) :
    (s.packetOut c x t q p n g).rdmas = s.rdmas := rfl
@[simp] theorem State.packetOut_queue (c : Cargo) (x t q : Nat) (p : PkgPlace) (n : Nat) (g : Option CollTag) :
    (s.packetOut c x t q p n g).queue = s.queue := rfl
@[simp] theorem State.packetOut_replica (c : Cargo) (x t q : Nat) (p : PkgPlace) (n : Nat) (g : Option CollTag) :
    (s.packetOut c x t q p n g).replica = s.replica := rfl
@[simp] theorem State.packetOut_ptRoot (c : Cargo) (x t q : Nat) (p : PkgPlace) (n : Nat) (g : Option CollTag) :
    (s.packetOut c x t q p n g).ptRoot = s.ptRoot := rfl
@[simp] theorem State.packetOut_sealMap (c : Cargo) (x t q : Nat) (p : PkgPlace) (n : Nat) (g : Option CollTag) :
    (s.packetOut c x t q p n g).sealMap = s.sealMap := rfl
@[simp] theorem State.packetOut_sealLen (c : Cargo) (x t q : Nat) (p : PkgPlace) (n : Nat) (g : Option CollTag) :
    (s.packetOut c x t q p n g).sealLen = s.sealLen := rfl
@[simp] theorem State.packetOut_rack (c : Cargo) (x t q : Nat) (p : PkgPlace) (n : Nat) (g : Option CollTag) :
    (s.packetOut c x t q p n g).rack = s.rack := rfl
@[simp] theorem State.packetOut_trays (c : Cargo) (x t q : Nat) (p : PkgPlace) (n : Nat) (g : Option CollTag) :
    (s.packetOut c x t q p n g).trays = s.trays := rfl
@[simp] theorem State.packetOut_fresh (c : Cargo) (x t q : Nat) (p : PkgPlace) (n : Nat) (g : Option CollTag) :
    (s.packetOut c x t q p n g).fresh = s.fresh + 1 := rfl

/-! ### onPkg -/

@[simp] theorem State.onPkg_agenda (p : Nat) (f : Package → Package) : (s.onPkg p f).agenda = s.agenda := rfl
@[simp] theorem State.onPkg_ticks (p : Nat) (f : Package → Package) : (s.onPkg p f).ticks = s.ticks := rfl
@[simp] theorem State.onPkg_cur (p : Nat) (f : Package → Package) : (s.onPkg p f).cur = s.cur := rfl
@[simp] theorem State.onPkg_fresh (p : Nat) (f : Package → Package) : (s.onPkg p f).fresh = s.fresh := rfl
@[simp] theorem State.onPkg_npkg (p : Nat) (f : Package → Package) : (s.onPkg p f).npkg = s.npkg := rfl
@[simp] theorem State.onPkg_formed (p : Nat) (f : Package → Package) : (s.onPkg p f).formed = s.formed := rfl
@[simp] theorem State.onPkg_mem (p : Nat) (f : Package → Package) : (s.onPkg p f).mem = s.mem := rfl
@[simp] theorem State.onPkg_memBad (p : Nat) (f : Package → Package) : (s.onPkg p f).memBad = s.memBad := rfl
@[simp] theorem State.onPkg_dies (p : Nat) (f : Package → Package) : (s.onPkg p f).dies = s.dies := rfl
@[simp] theorem State.onPkg_cores (p : Nat) (f : Package → Package) : (s.onPkg p f).cores = s.cores := rfl
@[simp] theorem State.onPkg_launches (p : Nat) (f : Package → Package) : (s.onPkg p f).launches = s.launches := rfl
@[simp] theorem State.onPkg_teams (p : Nat) (f : Package → Package) : (s.onPkg p f).teams = s.teams := rfl
@[simp] theorem State.onPkg_groups (p : Nat) (f : Package → Package) : (s.onPkg p f).groups = s.groups := rfl
@[simp] theorem State.onPkg_reqs (p : Nat) (f : Package → Package) : (s.onPkg p f).reqs = s.reqs := rfl
@[simp] theorem State.onPkg_jobs (p : Nat) (f : Package → Package) : (s.onPkg p f).jobs = s.jobs := rfl
@[simp] theorem State.onPkg_mops (p : Nat) (f : Package → Package) : (s.onPkg p f).mops = s.mops := rfl
@[simp] theorem State.onPkg_recs (p : Nat) (f : Package → Package) : (s.onPkg p f).recs = s.recs := rfl
@[simp] theorem State.onPkg_bins (p : Nat) (f : Package → Package) : (s.onPkg p f).bins = s.bins := rfl
@[simp] theorem State.onPkg_walks (p : Nat) (f : Package → Package) : (s.onPkg p f).walks = s.walks := rfl
@[simp] theorem State.onPkg_words (p : Nat) (f : Package → Package) : (s.onPkg p f).words = s.words := rfl
@[simp] theorem State.onPkg_passed (p : Nat) (f : Package → Package) : (s.onPkg p f).passed = s.passed := rfl
@[simp] theorem State.onPkg_packets (p : Nat) (f : Package → Package) : (s.onPkg p f).packets = s.packets := rfl
@[simp] theorem State.onPkg_rdmas (p : Nat) (f : Package → Package) : (s.onPkg p f).rdmas = s.rdmas := rfl
@[simp] theorem State.onPkg_queue (p : Nat) (f : Package → Package) : (s.onPkg p f).queue = s.queue := rfl
@[simp] theorem State.onPkg_replica (p : Nat) (f : Package → Package) : (s.onPkg p f).replica = s.replica := rfl
@[simp] theorem State.onPkg_ptRoot (p : Nat) (f : Package → Package) : (s.onPkg p f).ptRoot = s.ptRoot := rfl
@[simp] theorem State.onPkg_sealMap (p : Nat) (f : Package → Package) : (s.onPkg p f).sealMap = s.sealMap := rfl
@[simp] theorem State.onPkg_sealLen (p : Nat) (f : Package → Package) : (s.onPkg p f).sealLen = s.sealLen := rfl
@[simp] theorem State.onPkg_rack (p : Nat) (f : Package → Package) : (s.onPkg p f).rack = s.rack := rfl
@[simp] theorem State.onPkg_trays (p : Nat) (f : Package → Package) : (s.onPkg p f).trays = s.trays := rfl

/-! ### onGroup -/

@[simp] theorem State.onGroup_agenda (g : Nat) (f : Group → Group) : (s.onGroup g f).agenda = s.agenda := rfl
@[simp] theorem State.onGroup_ticks (g : Nat) (f : Group → Group) : (s.onGroup g f).ticks = s.ticks := rfl
@[simp] theorem State.onGroup_cur (g : Nat) (f : Group → Group) : (s.onGroup g f).cur = s.cur := rfl
@[simp] theorem State.onGroup_fresh (g : Nat) (f : Group → Group) : (s.onGroup g f).fresh = s.fresh := rfl
@[simp] theorem State.onGroup_npkg (g : Nat) (f : Group → Group) : (s.onGroup g f).npkg = s.npkg := rfl
@[simp] theorem State.onGroup_formed (g : Nat) (f : Group → Group) : (s.onGroup g f).formed = s.formed := rfl
@[simp] theorem State.onGroup_mem (g : Nat) (f : Group → Group) : (s.onGroup g f).mem = s.mem := rfl
@[simp] theorem State.onGroup_memBad (g : Nat) (f : Group → Group) : (s.onGroup g f).memBad = s.memBad := rfl
@[simp] theorem State.onGroup_packages (g : Nat) (f : Group → Group) : (s.onGroup g f).packages = s.packages := rfl
@[simp] theorem State.onGroup_dies (g : Nat) (f : Group → Group) : (s.onGroup g f).dies = s.dies := rfl
@[simp] theorem State.onGroup_cores (g : Nat) (f : Group → Group) : (s.onGroup g f).cores = s.cores := rfl
@[simp] theorem State.onGroup_launches (g : Nat) (f : Group → Group) : (s.onGroup g f).launches = s.launches := rfl
@[simp] theorem State.onGroup_teams (g : Nat) (f : Group → Group) : (s.onGroup g f).teams = s.teams := rfl
@[simp] theorem State.onGroup_reqs (g : Nat) (f : Group → Group) : (s.onGroup g f).reqs = s.reqs := rfl
@[simp] theorem State.onGroup_jobs (g : Nat) (f : Group → Group) : (s.onGroup g f).jobs = s.jobs := rfl
@[simp] theorem State.onGroup_mops (g : Nat) (f : Group → Group) : (s.onGroup g f).mops = s.mops := rfl
@[simp] theorem State.onGroup_recs (g : Nat) (f : Group → Group) : (s.onGroup g f).recs = s.recs := rfl
@[simp] theorem State.onGroup_bins (g : Nat) (f : Group → Group) : (s.onGroup g f).bins = s.bins := rfl
@[simp] theorem State.onGroup_walks (g : Nat) (f : Group → Group) : (s.onGroup g f).walks = s.walks := rfl
@[simp] theorem State.onGroup_words (g : Nat) (f : Group → Group) : (s.onGroup g f).words = s.words := rfl
@[simp] theorem State.onGroup_passed (g : Nat) (f : Group → Group) : (s.onGroup g f).passed = s.passed := rfl
@[simp] theorem State.onGroup_packets (g : Nat) (f : Group → Group) : (s.onGroup g f).packets = s.packets := rfl
@[simp] theorem State.onGroup_rdmas (g : Nat) (f : Group → Group) : (s.onGroup g f).rdmas = s.rdmas := rfl
@[simp] theorem State.onGroup_queue (g : Nat) (f : Group → Group) : (s.onGroup g f).queue = s.queue := rfl
@[simp] theorem State.onGroup_replica (g : Nat) (f : Group → Group) : (s.onGroup g f).replica = s.replica := rfl
@[simp] theorem State.onGroup_ptRoot (g : Nat) (f : Group → Group) : (s.onGroup g f).ptRoot = s.ptRoot := rfl
@[simp] theorem State.onGroup_sealMap (g : Nat) (f : Group → Group) : (s.onGroup g f).sealMap = s.sealMap := rfl
@[simp] theorem State.onGroup_sealLen (g : Nat) (f : Group → Group) : (s.onGroup g f).sealLen = s.sealLen := rfl
@[simp] theorem State.onGroup_rack (g : Nat) (f : Group → Group) : (s.onGroup g f).rack = s.rack := rfl
@[simp] theorem State.onGroup_trays (g : Nat) (f : Group → Group) : (s.onGroup g f).trays = s.trays := rfl

/-! ### onThread -/

@[simp] theorem State.onThread_agenda (g x : Nat) (f : Thread → Thread) : (s.onThread g x f).agenda = s.agenda := rfl
@[simp] theorem State.onThread_ticks (g x : Nat) (f : Thread → Thread) : (s.onThread g x f).ticks = s.ticks := rfl
@[simp] theorem State.onThread_cur (g x : Nat) (f : Thread → Thread) : (s.onThread g x f).cur = s.cur := rfl
@[simp] theorem State.onThread_fresh (g x : Nat) (f : Thread → Thread) : (s.onThread g x f).fresh = s.fresh := rfl
@[simp] theorem State.onThread_npkg (g x : Nat) (f : Thread → Thread) : (s.onThread g x f).npkg = s.npkg := rfl
@[simp] theorem State.onThread_formed (g x : Nat) (f : Thread → Thread) : (s.onThread g x f).formed = s.formed := rfl
@[simp] theorem State.onThread_mem (g x : Nat) (f : Thread → Thread) : (s.onThread g x f).mem = s.mem := rfl
@[simp] theorem State.onThread_memBad (g x : Nat) (f : Thread → Thread) : (s.onThread g x f).memBad = s.memBad := rfl
@[simp] theorem State.onThread_packages (g x : Nat) (f : Thread → Thread) : (s.onThread g x f).packages = s.packages := rfl
@[simp] theorem State.onThread_dies (g x : Nat) (f : Thread → Thread) : (s.onThread g x f).dies = s.dies := rfl
@[simp] theorem State.onThread_cores (g x : Nat) (f : Thread → Thread) : (s.onThread g x f).cores = s.cores := rfl
@[simp] theorem State.onThread_launches (g x : Nat) (f : Thread → Thread) : (s.onThread g x f).launches = s.launches := rfl
@[simp] theorem State.onThread_teams (g x : Nat) (f : Thread → Thread) : (s.onThread g x f).teams = s.teams := rfl
@[simp] theorem State.onThread_reqs (g x : Nat) (f : Thread → Thread) : (s.onThread g x f).reqs = s.reqs := rfl
@[simp] theorem State.onThread_jobs (g x : Nat) (f : Thread → Thread) : (s.onThread g x f).jobs = s.jobs := rfl
@[simp] theorem State.onThread_mops (g x : Nat) (f : Thread → Thread) : (s.onThread g x f).mops = s.mops := rfl
@[simp] theorem State.onThread_recs (g x : Nat) (f : Thread → Thread) : (s.onThread g x f).recs = s.recs := rfl
@[simp] theorem State.onThread_bins (g x : Nat) (f : Thread → Thread) : (s.onThread g x f).bins = s.bins := rfl
@[simp] theorem State.onThread_walks (g x : Nat) (f : Thread → Thread) : (s.onThread g x f).walks = s.walks := rfl
@[simp] theorem State.onThread_words (g x : Nat) (f : Thread → Thread) : (s.onThread g x f).words = s.words := rfl
@[simp] theorem State.onThread_passed (g x : Nat) (f : Thread → Thread) : (s.onThread g x f).passed = s.passed := rfl
@[simp] theorem State.onThread_packets (g x : Nat) (f : Thread → Thread) : (s.onThread g x f).packets = s.packets := rfl
@[simp] theorem State.onThread_rdmas (g x : Nat) (f : Thread → Thread) : (s.onThread g x f).rdmas = s.rdmas := rfl
@[simp] theorem State.onThread_queue (g x : Nat) (f : Thread → Thread) : (s.onThread g x f).queue = s.queue := rfl
@[simp] theorem State.onThread_replica (g x : Nat) (f : Thread → Thread) : (s.onThread g x f).replica = s.replica := rfl
@[simp] theorem State.onThread_ptRoot (g x : Nat) (f : Thread → Thread) : (s.onThread g x f).ptRoot = s.ptRoot := rfl
@[simp] theorem State.onThread_sealMap (g x : Nat) (f : Thread → Thread) : (s.onThread g x f).sealMap = s.sealMap := rfl
@[simp] theorem State.onThread_sealLen (g x : Nat) (f : Thread → Thread) : (s.onThread g x f).sealLen = s.sealLen := rfl
@[simp] theorem State.onThread_rack (g x : Nat) (f : Thread → Thread) : (s.onThread g x f).rack = s.rack := rfl
@[simp] theorem State.onThread_trays (g x : Nat) (f : Thread → Thread) : (s.onThread g x f).trays = s.trays := rfl

/-! ### onTeam -/

@[simp] theorem State.onTeam_agenda (n : Nat) (f : Team → Team) : (s.onTeam n f).agenda = s.agenda := rfl
@[simp] theorem State.onTeam_ticks (n : Nat) (f : Team → Team) : (s.onTeam n f).ticks = s.ticks := rfl
@[simp] theorem State.onTeam_cur (n : Nat) (f : Team → Team) : (s.onTeam n f).cur = s.cur := rfl
@[simp] theorem State.onTeam_fresh (n : Nat) (f : Team → Team) : (s.onTeam n f).fresh = s.fresh := rfl
@[simp] theorem State.onTeam_npkg (n : Nat) (f : Team → Team) : (s.onTeam n f).npkg = s.npkg := rfl
@[simp] theorem State.onTeam_formed (n : Nat) (f : Team → Team) : (s.onTeam n f).formed = s.formed := rfl
@[simp] theorem State.onTeam_mem (n : Nat) (f : Team → Team) : (s.onTeam n f).mem = s.mem := rfl
@[simp] theorem State.onTeam_memBad (n : Nat) (f : Team → Team) : (s.onTeam n f).memBad = s.memBad := rfl
@[simp] theorem State.onTeam_packages (n : Nat) (f : Team → Team) : (s.onTeam n f).packages = s.packages := rfl
@[simp] theorem State.onTeam_dies (n : Nat) (f : Team → Team) : (s.onTeam n f).dies = s.dies := rfl
@[simp] theorem State.onTeam_cores (n : Nat) (f : Team → Team) : (s.onTeam n f).cores = s.cores := rfl
@[simp] theorem State.onTeam_launches (n : Nat) (f : Team → Team) : (s.onTeam n f).launches = s.launches := rfl
@[simp] theorem State.onTeam_groups (n : Nat) (f : Team → Team) : (s.onTeam n f).groups = s.groups := rfl
@[simp] theorem State.onTeam_reqs (n : Nat) (f : Team → Team) : (s.onTeam n f).reqs = s.reqs := rfl
@[simp] theorem State.onTeam_jobs (n : Nat) (f : Team → Team) : (s.onTeam n f).jobs = s.jobs := rfl
@[simp] theorem State.onTeam_mops (n : Nat) (f : Team → Team) : (s.onTeam n f).mops = s.mops := rfl
@[simp] theorem State.onTeam_recs (n : Nat) (f : Team → Team) : (s.onTeam n f).recs = s.recs := rfl
@[simp] theorem State.onTeam_bins (n : Nat) (f : Team → Team) : (s.onTeam n f).bins = s.bins := rfl
@[simp] theorem State.onTeam_walks (n : Nat) (f : Team → Team) : (s.onTeam n f).walks = s.walks := rfl
@[simp] theorem State.onTeam_words (n : Nat) (f : Team → Team) : (s.onTeam n f).words = s.words := rfl
@[simp] theorem State.onTeam_passed (n : Nat) (f : Team → Team) : (s.onTeam n f).passed = s.passed := rfl
@[simp] theorem State.onTeam_packets (n : Nat) (f : Team → Team) : (s.onTeam n f).packets = s.packets := rfl
@[simp] theorem State.onTeam_rdmas (n : Nat) (f : Team → Team) : (s.onTeam n f).rdmas = s.rdmas := rfl
@[simp] theorem State.onTeam_queue (n : Nat) (f : Team → Team) : (s.onTeam n f).queue = s.queue := rfl
@[simp] theorem State.onTeam_replica (n : Nat) (f : Team → Team) : (s.onTeam n f).replica = s.replica := rfl
@[simp] theorem State.onTeam_ptRoot (n : Nat) (f : Team → Team) : (s.onTeam n f).ptRoot = s.ptRoot := rfl
@[simp] theorem State.onTeam_sealMap (n : Nat) (f : Team → Team) : (s.onTeam n f).sealMap = s.sealMap := rfl
@[simp] theorem State.onTeam_sealLen (n : Nat) (f : Team → Team) : (s.onTeam n f).sealLen = s.sealLen := rfl
@[simp] theorem State.onTeam_rack (n : Nat) (f : Team → Team) : (s.onTeam n f).rack = s.rack := rfl
@[simp] theorem State.onTeam_trays (n : Nat) (f : Team → Team) : (s.onTeam n f).trays = s.trays := rfl

/-! ### onLaunch -/

@[simp] theorem State.onLaunch_agenda (l : Nat) (f : Launch → Launch) : (s.onLaunch l f).agenda = s.agenda := rfl
@[simp] theorem State.onLaunch_ticks (l : Nat) (f : Launch → Launch) : (s.onLaunch l f).ticks = s.ticks := rfl
@[simp] theorem State.onLaunch_cur (l : Nat) (f : Launch → Launch) : (s.onLaunch l f).cur = s.cur := rfl
@[simp] theorem State.onLaunch_fresh (l : Nat) (f : Launch → Launch) : (s.onLaunch l f).fresh = s.fresh := rfl
@[simp] theorem State.onLaunch_npkg (l : Nat) (f : Launch → Launch) : (s.onLaunch l f).npkg = s.npkg := rfl
@[simp] theorem State.onLaunch_formed (l : Nat) (f : Launch → Launch) : (s.onLaunch l f).formed = s.formed := rfl
@[simp] theorem State.onLaunch_mem (l : Nat) (f : Launch → Launch) : (s.onLaunch l f).mem = s.mem := rfl
@[simp] theorem State.onLaunch_memBad (l : Nat) (f : Launch → Launch) : (s.onLaunch l f).memBad = s.memBad := rfl
@[simp] theorem State.onLaunch_packages (l : Nat) (f : Launch → Launch) : (s.onLaunch l f).packages = s.packages := rfl
@[simp] theorem State.onLaunch_dies (l : Nat) (f : Launch → Launch) : (s.onLaunch l f).dies = s.dies := rfl
@[simp] theorem State.onLaunch_cores (l : Nat) (f : Launch → Launch) : (s.onLaunch l f).cores = s.cores := rfl
@[simp] theorem State.onLaunch_teams (l : Nat) (f : Launch → Launch) : (s.onLaunch l f).teams = s.teams := rfl
@[simp] theorem State.onLaunch_groups (l : Nat) (f : Launch → Launch) : (s.onLaunch l f).groups = s.groups := rfl
@[simp] theorem State.onLaunch_reqs (l : Nat) (f : Launch → Launch) : (s.onLaunch l f).reqs = s.reqs := rfl
@[simp] theorem State.onLaunch_jobs (l : Nat) (f : Launch → Launch) : (s.onLaunch l f).jobs = s.jobs := rfl
@[simp] theorem State.onLaunch_mops (l : Nat) (f : Launch → Launch) : (s.onLaunch l f).mops = s.mops := rfl
@[simp] theorem State.onLaunch_recs (l : Nat) (f : Launch → Launch) : (s.onLaunch l f).recs = s.recs := rfl
@[simp] theorem State.onLaunch_bins (l : Nat) (f : Launch → Launch) : (s.onLaunch l f).bins = s.bins := rfl
@[simp] theorem State.onLaunch_walks (l : Nat) (f : Launch → Launch) : (s.onLaunch l f).walks = s.walks := rfl
@[simp] theorem State.onLaunch_words (l : Nat) (f : Launch → Launch) : (s.onLaunch l f).words = s.words := rfl
@[simp] theorem State.onLaunch_passed (l : Nat) (f : Launch → Launch) : (s.onLaunch l f).passed = s.passed := rfl
@[simp] theorem State.onLaunch_packets (l : Nat) (f : Launch → Launch) : (s.onLaunch l f).packets = s.packets := rfl
@[simp] theorem State.onLaunch_rdmas (l : Nat) (f : Launch → Launch) : (s.onLaunch l f).rdmas = s.rdmas := rfl
@[simp] theorem State.onLaunch_queue (l : Nat) (f : Launch → Launch) : (s.onLaunch l f).queue = s.queue := rfl
@[simp] theorem State.onLaunch_replica (l : Nat) (f : Launch → Launch) : (s.onLaunch l f).replica = s.replica := rfl
@[simp] theorem State.onLaunch_ptRoot (l : Nat) (f : Launch → Launch) : (s.onLaunch l f).ptRoot = s.ptRoot := rfl
@[simp] theorem State.onLaunch_sealMap (l : Nat) (f : Launch → Launch) : (s.onLaunch l f).sealMap = s.sealMap := rfl
@[simp] theorem State.onLaunch_sealLen (l : Nat) (f : Launch → Launch) : (s.onLaunch l f).sealLen = s.sealLen := rfl
@[simp] theorem State.onLaunch_rack (l : Nat) (f : Launch → Launch) : (s.onLaunch l f).rack = s.rack := rfl
@[simp] theorem State.onLaunch_trays (l : Nat) (f : Launch → Launch) : (s.onLaunch l f).trays = s.trays := rfl

/-! ### onJob -/

@[simp] theorem State.onJob_agenda (j : Nat) (f : Job → Job) : (s.onJob j f).agenda = s.agenda := rfl
@[simp] theorem State.onJob_ticks (j : Nat) (f : Job → Job) : (s.onJob j f).ticks = s.ticks := rfl
@[simp] theorem State.onJob_cur (j : Nat) (f : Job → Job) : (s.onJob j f).cur = s.cur := rfl
@[simp] theorem State.onJob_fresh (j : Nat) (f : Job → Job) : (s.onJob j f).fresh = s.fresh := rfl
@[simp] theorem State.onJob_npkg (j : Nat) (f : Job → Job) : (s.onJob j f).npkg = s.npkg := rfl
@[simp] theorem State.onJob_formed (j : Nat) (f : Job → Job) : (s.onJob j f).formed = s.formed := rfl
@[simp] theorem State.onJob_mem (j : Nat) (f : Job → Job) : (s.onJob j f).mem = s.mem := rfl
@[simp] theorem State.onJob_memBad (j : Nat) (f : Job → Job) : (s.onJob j f).memBad = s.memBad := rfl
@[simp] theorem State.onJob_packages (j : Nat) (f : Job → Job) : (s.onJob j f).packages = s.packages := rfl
@[simp] theorem State.onJob_dies (j : Nat) (f : Job → Job) : (s.onJob j f).dies = s.dies := rfl
@[simp] theorem State.onJob_cores (j : Nat) (f : Job → Job) : (s.onJob j f).cores = s.cores := rfl
@[simp] theorem State.onJob_launches (j : Nat) (f : Job → Job) : (s.onJob j f).launches = s.launches := rfl
@[simp] theorem State.onJob_teams (j : Nat) (f : Job → Job) : (s.onJob j f).teams = s.teams := rfl
@[simp] theorem State.onJob_groups (j : Nat) (f : Job → Job) : (s.onJob j f).groups = s.groups := rfl
@[simp] theorem State.onJob_reqs (j : Nat) (f : Job → Job) : (s.onJob j f).reqs = s.reqs := rfl
@[simp] theorem State.onJob_mops (j : Nat) (f : Job → Job) : (s.onJob j f).mops = s.mops := rfl
@[simp] theorem State.onJob_recs (j : Nat) (f : Job → Job) : (s.onJob j f).recs = s.recs := rfl
@[simp] theorem State.onJob_bins (j : Nat) (f : Job → Job) : (s.onJob j f).bins = s.bins := rfl
@[simp] theorem State.onJob_walks (j : Nat) (f : Job → Job) : (s.onJob j f).walks = s.walks := rfl
@[simp] theorem State.onJob_words (j : Nat) (f : Job → Job) : (s.onJob j f).words = s.words := rfl
@[simp] theorem State.onJob_passed (j : Nat) (f : Job → Job) : (s.onJob j f).passed = s.passed := rfl
@[simp] theorem State.onJob_packets (j : Nat) (f : Job → Job) : (s.onJob j f).packets = s.packets := rfl
@[simp] theorem State.onJob_rdmas (j : Nat) (f : Job → Job) : (s.onJob j f).rdmas = s.rdmas := rfl
@[simp] theorem State.onJob_queue (j : Nat) (f : Job → Job) : (s.onJob j f).queue = s.queue := rfl
@[simp] theorem State.onJob_replica (j : Nat) (f : Job → Job) : (s.onJob j f).replica = s.replica := rfl
@[simp] theorem State.onJob_ptRoot (j : Nat) (f : Job → Job) : (s.onJob j f).ptRoot = s.ptRoot := rfl
@[simp] theorem State.onJob_sealMap (j : Nat) (f : Job → Job) : (s.onJob j f).sealMap = s.sealMap := rfl
@[simp] theorem State.onJob_sealLen (j : Nat) (f : Job → Job) : (s.onJob j f).sealLen = s.sealLen := rfl
@[simp] theorem State.onJob_rack (j : Nat) (f : Job → Job) : (s.onJob j f).rack = s.rack := rfl
@[simp] theorem State.onJob_trays (j : Nat) (f : Job → Job) : (s.onJob j f).trays = s.trays := rfl

/-! ### onReq -/

@[simp] theorem State.onReq_agenda (r : Nat) (f : Req → Req) : (s.onReq r f).agenda = s.agenda := rfl
@[simp] theorem State.onReq_ticks (r : Nat) (f : Req → Req) : (s.onReq r f).ticks = s.ticks := rfl
@[simp] theorem State.onReq_cur (r : Nat) (f : Req → Req) : (s.onReq r f).cur = s.cur := rfl
@[simp] theorem State.onReq_fresh (r : Nat) (f : Req → Req) : (s.onReq r f).fresh = s.fresh := rfl
@[simp] theorem State.onReq_npkg (r : Nat) (f : Req → Req) : (s.onReq r f).npkg = s.npkg := rfl
@[simp] theorem State.onReq_formed (r : Nat) (f : Req → Req) : (s.onReq r f).formed = s.formed := rfl
@[simp] theorem State.onReq_mem (r : Nat) (f : Req → Req) : (s.onReq r f).mem = s.mem := rfl
@[simp] theorem State.onReq_memBad (r : Nat) (f : Req → Req) : (s.onReq r f).memBad = s.memBad := rfl
@[simp] theorem State.onReq_packages (r : Nat) (f : Req → Req) : (s.onReq r f).packages = s.packages := rfl
@[simp] theorem State.onReq_dies (r : Nat) (f : Req → Req) : (s.onReq r f).dies = s.dies := rfl
@[simp] theorem State.onReq_cores (r : Nat) (f : Req → Req) : (s.onReq r f).cores = s.cores := rfl
@[simp] theorem State.onReq_launches (r : Nat) (f : Req → Req) : (s.onReq r f).launches = s.launches := rfl
@[simp] theorem State.onReq_teams (r : Nat) (f : Req → Req) : (s.onReq r f).teams = s.teams := rfl
@[simp] theorem State.onReq_groups (r : Nat) (f : Req → Req) : (s.onReq r f).groups = s.groups := rfl
@[simp] theorem State.onReq_jobs (r : Nat) (f : Req → Req) : (s.onReq r f).jobs = s.jobs := rfl
@[simp] theorem State.onReq_mops (r : Nat) (f : Req → Req) : (s.onReq r f).mops = s.mops := rfl
@[simp] theorem State.onReq_recs (r : Nat) (f : Req → Req) : (s.onReq r f).recs = s.recs := rfl
@[simp] theorem State.onReq_bins (r : Nat) (f : Req → Req) : (s.onReq r f).bins = s.bins := rfl
@[simp] theorem State.onReq_walks (r : Nat) (f : Req → Req) : (s.onReq r f).walks = s.walks := rfl
@[simp] theorem State.onReq_words (r : Nat) (f : Req → Req) : (s.onReq r f).words = s.words := rfl
@[simp] theorem State.onReq_passed (r : Nat) (f : Req → Req) : (s.onReq r f).passed = s.passed := rfl
@[simp] theorem State.onReq_packets (r : Nat) (f : Req → Req) : (s.onReq r f).packets = s.packets := rfl
@[simp] theorem State.onReq_rdmas (r : Nat) (f : Req → Req) : (s.onReq r f).rdmas = s.rdmas := rfl
@[simp] theorem State.onReq_queue (r : Nat) (f : Req → Req) : (s.onReq r f).queue = s.queue := rfl
@[simp] theorem State.onReq_replica (r : Nat) (f : Req → Req) : (s.onReq r f).replica = s.replica := rfl
@[simp] theorem State.onReq_ptRoot (r : Nat) (f : Req → Req) : (s.onReq r f).ptRoot = s.ptRoot := rfl
@[simp] theorem State.onReq_sealMap (r : Nat) (f : Req → Req) : (s.onReq r f).sealMap = s.sealMap := rfl
@[simp] theorem State.onReq_sealLen (r : Nat) (f : Req → Req) : (s.onReq r f).sealLen = s.sealLen := rfl
@[simp] theorem State.onReq_rack (r : Nat) (f : Req → Req) : (s.onReq r f).rack = s.rack := rfl
@[simp] theorem State.onReq_trays (r : Nat) (f : Req → Req) : (s.onReq r f).trays = s.trays := rfl

/-! ### onRec -/

@[simp] theorem State.onRec_agenda (r : Nat) (f : SpawnRec → SpawnRec) : (s.onRec r f).agenda = s.agenda := rfl
@[simp] theorem State.onRec_ticks (r : Nat) (f : SpawnRec → SpawnRec) : (s.onRec r f).ticks = s.ticks := rfl
@[simp] theorem State.onRec_cur (r : Nat) (f : SpawnRec → SpawnRec) : (s.onRec r f).cur = s.cur := rfl
@[simp] theorem State.onRec_fresh (r : Nat) (f : SpawnRec → SpawnRec) : (s.onRec r f).fresh = s.fresh := rfl
@[simp] theorem State.onRec_npkg (r : Nat) (f : SpawnRec → SpawnRec) : (s.onRec r f).npkg = s.npkg := rfl
@[simp] theorem State.onRec_formed (r : Nat) (f : SpawnRec → SpawnRec) : (s.onRec r f).formed = s.formed := rfl
@[simp] theorem State.onRec_mem (r : Nat) (f : SpawnRec → SpawnRec) : (s.onRec r f).mem = s.mem := rfl
@[simp] theorem State.onRec_memBad (r : Nat) (f : SpawnRec → SpawnRec) : (s.onRec r f).memBad = s.memBad := rfl
@[simp] theorem State.onRec_packages (r : Nat) (f : SpawnRec → SpawnRec) : (s.onRec r f).packages = s.packages := rfl
@[simp] theorem State.onRec_dies (r : Nat) (f : SpawnRec → SpawnRec) : (s.onRec r f).dies = s.dies := rfl
@[simp] theorem State.onRec_cores (r : Nat) (f : SpawnRec → SpawnRec) : (s.onRec r f).cores = s.cores := rfl
@[simp] theorem State.onRec_launches (r : Nat) (f : SpawnRec → SpawnRec) : (s.onRec r f).launches = s.launches := rfl
@[simp] theorem State.onRec_teams (r : Nat) (f : SpawnRec → SpawnRec) : (s.onRec r f).teams = s.teams := rfl
@[simp] theorem State.onRec_groups (r : Nat) (f : SpawnRec → SpawnRec) : (s.onRec r f).groups = s.groups := rfl
@[simp] theorem State.onRec_reqs (r : Nat) (f : SpawnRec → SpawnRec) : (s.onRec r f).reqs = s.reqs := rfl
@[simp] theorem State.onRec_jobs (r : Nat) (f : SpawnRec → SpawnRec) : (s.onRec r f).jobs = s.jobs := rfl
@[simp] theorem State.onRec_mops (r : Nat) (f : SpawnRec → SpawnRec) : (s.onRec r f).mops = s.mops := rfl
@[simp] theorem State.onRec_bins (r : Nat) (f : SpawnRec → SpawnRec) : (s.onRec r f).bins = s.bins := rfl
@[simp] theorem State.onRec_walks (r : Nat) (f : SpawnRec → SpawnRec) : (s.onRec r f).walks = s.walks := rfl
@[simp] theorem State.onRec_words (r : Nat) (f : SpawnRec → SpawnRec) : (s.onRec r f).words = s.words := rfl
@[simp] theorem State.onRec_passed (r : Nat) (f : SpawnRec → SpawnRec) : (s.onRec r f).passed = s.passed := rfl
@[simp] theorem State.onRec_packets (r : Nat) (f : SpawnRec → SpawnRec) : (s.onRec r f).packets = s.packets := rfl
@[simp] theorem State.onRec_rdmas (r : Nat) (f : SpawnRec → SpawnRec) : (s.onRec r f).rdmas = s.rdmas := rfl
@[simp] theorem State.onRec_queue (r : Nat) (f : SpawnRec → SpawnRec) : (s.onRec r f).queue = s.queue := rfl
@[simp] theorem State.onRec_replica (r : Nat) (f : SpawnRec → SpawnRec) : (s.onRec r f).replica = s.replica := rfl
@[simp] theorem State.onRec_ptRoot (r : Nat) (f : SpawnRec → SpawnRec) : (s.onRec r f).ptRoot = s.ptRoot := rfl
@[simp] theorem State.onRec_sealMap (r : Nat) (f : SpawnRec → SpawnRec) : (s.onRec r f).sealMap = s.sealMap := rfl
@[simp] theorem State.onRec_sealLen (r : Nat) (f : SpawnRec → SpawnRec) : (s.onRec r f).sealLen = s.sealLen := rfl
@[simp] theorem State.onRec_rack (r : Nat) (f : SpawnRec → SpawnRec) : (s.onRec r f).rack = s.rack := rfl
@[simp] theorem State.onRec_trays (r : Nat) (f : SpawnRec → SpawnRec) : (s.onRec r f).trays = s.trays := rfl

/-! ### onStack -/

@[simp] theorem State.onStack_agenda (n : Nat) (f : Stack → Stack) : (s.onStack n f).agenda = s.agenda := rfl
@[simp] theorem State.onStack_ticks (n : Nat) (f : Stack → Stack) : (s.onStack n f).ticks = s.ticks := rfl
@[simp] theorem State.onStack_cur (n : Nat) (f : Stack → Stack) : (s.onStack n f).cur = s.cur := rfl
@[simp] theorem State.onStack_fresh (n : Nat) (f : Stack → Stack) : (s.onStack n f).fresh = s.fresh := rfl
@[simp] theorem State.onStack_npkg (n : Nat) (f : Stack → Stack) : (s.onStack n f).npkg = s.npkg := rfl
@[simp] theorem State.onStack_formed (n : Nat) (f : Stack → Stack) : (s.onStack n f).formed = s.formed := rfl
@[simp] theorem State.onStack_mem (n : Nat) (f : Stack → Stack) : (s.onStack n f).mem = s.mem := rfl
@[simp] theorem State.onStack_memBad (n : Nat) (f : Stack → Stack) : (s.onStack n f).memBad = s.memBad := rfl
@[simp] theorem State.onStack_dies (n : Nat) (f : Stack → Stack) : (s.onStack n f).dies = s.dies := rfl
@[simp] theorem State.onStack_cores (n : Nat) (f : Stack → Stack) : (s.onStack n f).cores = s.cores := rfl
@[simp] theorem State.onStack_launches (n : Nat) (f : Stack → Stack) : (s.onStack n f).launches = s.launches := rfl
@[simp] theorem State.onStack_teams (n : Nat) (f : Stack → Stack) : (s.onStack n f).teams = s.teams := rfl
@[simp] theorem State.onStack_groups (n : Nat) (f : Stack → Stack) : (s.onStack n f).groups = s.groups := rfl
@[simp] theorem State.onStack_reqs (n : Nat) (f : Stack → Stack) : (s.onStack n f).reqs = s.reqs := rfl
@[simp] theorem State.onStack_jobs (n : Nat) (f : Stack → Stack) : (s.onStack n f).jobs = s.jobs := rfl
@[simp] theorem State.onStack_mops (n : Nat) (f : Stack → Stack) : (s.onStack n f).mops = s.mops := rfl
@[simp] theorem State.onStack_recs (n : Nat) (f : Stack → Stack) : (s.onStack n f).recs = s.recs := rfl
@[simp] theorem State.onStack_bins (n : Nat) (f : Stack → Stack) : (s.onStack n f).bins = s.bins := rfl
@[simp] theorem State.onStack_walks (n : Nat) (f : Stack → Stack) : (s.onStack n f).walks = s.walks := rfl
@[simp] theorem State.onStack_words (n : Nat) (f : Stack → Stack) : (s.onStack n f).words = s.words := rfl
@[simp] theorem State.onStack_passed (n : Nat) (f : Stack → Stack) : (s.onStack n f).passed = s.passed := rfl
@[simp] theorem State.onStack_packets (n : Nat) (f : Stack → Stack) : (s.onStack n f).packets = s.packets := rfl
@[simp] theorem State.onStack_rdmas (n : Nat) (f : Stack → Stack) : (s.onStack n f).rdmas = s.rdmas := rfl
@[simp] theorem State.onStack_queue (n : Nat) (f : Stack → Stack) : (s.onStack n f).queue = s.queue := rfl
@[simp] theorem State.onStack_replica (n : Nat) (f : Stack → Stack) : (s.onStack n f).replica = s.replica := rfl
@[simp] theorem State.onStack_ptRoot (n : Nat) (f : Stack → Stack) : (s.onStack n f).ptRoot = s.ptRoot := rfl
@[simp] theorem State.onStack_sealMap (n : Nat) (f : Stack → Stack) : (s.onStack n f).sealMap = s.sealMap := rfl
@[simp] theorem State.onStack_sealLen (n : Nat) (f : Stack → Stack) : (s.onStack n f).sealLen = s.sealLen := rfl
@[simp] theorem State.onStack_rack (n : Nat) (f : Stack → Stack) : (s.onStack n f).rack = s.rack := rfl
@[simp] theorem State.onStack_trays (n : Nat) (f : Stack → Stack) : (s.onStack n f).trays = s.trays := rfl

/-! ### tick -/

@[simp] theorem State.tick_agenda : (s.tick).agenda = s.agenda := rfl
@[simp] theorem State.tick_ticks : (s.tick).ticks = s.ticks := rfl
@[simp] theorem State.tick_cur : (s.tick).cur = s.cur := rfl
@[simp] theorem State.tick_npkg : (s.tick).npkg = s.npkg := rfl
@[simp] theorem State.tick_formed : (s.tick).formed = s.formed := rfl
@[simp] theorem State.tick_mem : (s.tick).mem = s.mem := rfl
@[simp] theorem State.tick_memBad : (s.tick).memBad = s.memBad := rfl
@[simp] theorem State.tick_packages : (s.tick).packages = s.packages := rfl
@[simp] theorem State.tick_dies : (s.tick).dies = s.dies := rfl
@[simp] theorem State.tick_cores : (s.tick).cores = s.cores := rfl
@[simp] theorem State.tick_launches : (s.tick).launches = s.launches := rfl
@[simp] theorem State.tick_teams : (s.tick).teams = s.teams := rfl
@[simp] theorem State.tick_groups : (s.tick).groups = s.groups := rfl
@[simp] theorem State.tick_reqs : (s.tick).reqs = s.reqs := rfl
@[simp] theorem State.tick_jobs : (s.tick).jobs = s.jobs := rfl
@[simp] theorem State.tick_mops : (s.tick).mops = s.mops := rfl
@[simp] theorem State.tick_recs : (s.tick).recs = s.recs := rfl
@[simp] theorem State.tick_bins : (s.tick).bins = s.bins := rfl
@[simp] theorem State.tick_walks : (s.tick).walks = s.walks := rfl
@[simp] theorem State.tick_words : (s.tick).words = s.words := rfl
@[simp] theorem State.tick_passed : (s.tick).passed = s.passed := rfl
@[simp] theorem State.tick_packets : (s.tick).packets = s.packets := rfl
@[simp] theorem State.tick_rdmas : (s.tick).rdmas = s.rdmas := rfl
@[simp] theorem State.tick_queue : (s.tick).queue = s.queue := rfl
@[simp] theorem State.tick_replica : (s.tick).replica = s.replica := rfl
@[simp] theorem State.tick_ptRoot : (s.tick).ptRoot = s.ptRoot := rfl
@[simp] theorem State.tick_sealMap : (s.tick).sealMap = s.sealMap := rfl
@[simp] theorem State.tick_sealLen : (s.tick).sealLen = s.sealLen := rfl
@[simp] theorem State.tick_rack : (s.tick).rack = s.rack := rfl
@[simp] theorem State.tick_trays : (s.tick).trays = s.trays := rfl

/-! ### count -/

@[simp] theorem State.count_agenda (k n x : Nat) : (s.count k n x).agenda = s.agenda := rfl
@[simp] theorem State.count_ticks (k n x : Nat) : (s.count k n x).ticks = s.ticks := rfl
@[simp] theorem State.count_cur (k n x : Nat) : (s.count k n x).cur = s.cur := rfl
@[simp] theorem State.count_fresh (k n x : Nat) : (s.count k n x).fresh = s.fresh := rfl
@[simp] theorem State.count_npkg (k n x : Nat) : (s.count k n x).npkg = s.npkg := rfl
@[simp] theorem State.count_formed (k n x : Nat) : (s.count k n x).formed = s.formed := rfl
@[simp] theorem State.count_mem (k n x : Nat) : (s.count k n x).mem = s.mem := rfl
@[simp] theorem State.count_memBad (k n x : Nat) : (s.count k n x).memBad = s.memBad := rfl
@[simp] theorem State.count_packages (k n x : Nat) : (s.count k n x).packages = s.packages := rfl
@[simp] theorem State.count_dies (k n x : Nat) : (s.count k n x).dies = s.dies := rfl
@[simp] theorem State.count_launches (k n x : Nat) : (s.count k n x).launches = s.launches := rfl
@[simp] theorem State.count_teams (k n x : Nat) : (s.count k n x).teams = s.teams := rfl
@[simp] theorem State.count_groups (k n x : Nat) : (s.count k n x).groups = s.groups := rfl
@[simp] theorem State.count_reqs (k n x : Nat) : (s.count k n x).reqs = s.reqs := rfl
@[simp] theorem State.count_jobs (k n x : Nat) : (s.count k n x).jobs = s.jobs := rfl
@[simp] theorem State.count_mops (k n x : Nat) : (s.count k n x).mops = s.mops := rfl
@[simp] theorem State.count_recs (k n x : Nat) : (s.count k n x).recs = s.recs := rfl
@[simp] theorem State.count_bins (k n x : Nat) : (s.count k n x).bins = s.bins := rfl
@[simp] theorem State.count_walks (k n x : Nat) : (s.count k n x).walks = s.walks := rfl
@[simp] theorem State.count_words (k n x : Nat) : (s.count k n x).words = s.words := rfl
@[simp] theorem State.count_passed (k n x : Nat) : (s.count k n x).passed = s.passed := rfl
@[simp] theorem State.count_packets (k n x : Nat) : (s.count k n x).packets = s.packets := rfl
@[simp] theorem State.count_rdmas (k n x : Nat) : (s.count k n x).rdmas = s.rdmas := rfl
@[simp] theorem State.count_queue (k n x : Nat) : (s.count k n x).queue = s.queue := rfl
@[simp] theorem State.count_replica (k n x : Nat) : (s.count k n x).replica = s.replica := rfl
@[simp] theorem State.count_ptRoot (k n x : Nat) : (s.count k n x).ptRoot = s.ptRoot := rfl
@[simp] theorem State.count_sealMap (k n x : Nat) : (s.count k n x).sealMap = s.sealMap := rfl
@[simp] theorem State.count_sealLen (k n x : Nat) : (s.count k n x).sealLen = s.sealLen := rfl
@[simp] theorem State.count_rack (k n x : Nat) : (s.count k n x).rack = s.rack := rfl
@[simp] theorem State.count_trays (k n x : Nat) : (s.count k n x).trays = s.trays := rfl

/-! ### What the updates write -/

@[simp] theorem State.onGroup_grp (j i : Nat) (f : Group → Group) :
    (s.onGroup j f).grp i = if j = i then (s.grp i).map f else s.grp i := Tbl.get?_modify _ _ _ _
@[simp] theorem State.onGroup_get? (j i : Nat) (f : Group → Group) :
    Tbl.get? (s.onGroup j f).groups i = if j = i then (Tbl.get? s.groups i).map f else Tbl.get? s.groups i :=
  Tbl.get?_modify _ _ _ _
theorem State.grp_def (j : Nat) : s.grp j = Tbl.get? s.groups j := rfl
@[simp] theorem State.onThread_grp (j i x : Nat) (f : Thread → Thread) :
    (s.onThread j x f).grp i = if j = i then (s.grp i).map (·.onThread x f) else s.grp i := s.onGroup_grp _ _ _
@[simp] theorem Group.onThread_get? (g : Group) (x y : Nat) (f : Thread → Thread) :
    Tbl.get? (g.onThread x f).threads y = if x = y then (Tbl.get? g.threads y).map f else Tbl.get? g.threads y :=
  Tbl.get?_modify _ _ _ _
@[simp] theorem Group.onThread_keys (g : Group) (x : Nat) (f : Thread → Thread) :
    Tbl.keys (g.onThread x f).threads = Tbl.keys g.threads := Tbl.keys_modify _ _ _
@[simp] theorem State.onCore_core (k i : Nat) (f : Core → Core) :
    (s.onCore k f).core i = if k = i then f (s.core k) else s.core i := by
  simp only [State.core, State.onCore, Tbl.getD_put]
@[simp] theorem State.onDie_die (x i : Nat) (f : Die → Die) :
    (s.onDie x f).die i = if x = i then f (s.die x) else s.die i := by
  simp only [State.die, State.onDie, Tbl.getD_put]
@[simp] theorem State.onPkg_pkg (p i : Nat) (f : Package → Package) :
    (s.onPkg p f).pkg i = if p = i then f (s.pkg p) else s.pkg i := by
  simp only [State.pkg, State.onPkg, Tbl.getD_put]
@[simp] theorem State.count_core (k n x i : Nat) : (s.count k n x).core i =
    if k = i then { s.core k with counters := (s.core k).counters.set n (((s.core k).counters.getD n 0 + x) % 2 ^ 64) }
    else s.core i := s.onCore_core _ _ _
@[simp] theorem State.count_grp (k n x j : Nat) : (s.count k n x).grp j = s.grp j := rfl
@[simp] theorem State.onCore_grp (k j : Nat) (f : Core → Core) : (s.onCore k f).grp j = s.grp j := rfl
@[simp] theorem State.onTeam_grp (k j : Nat) (f : Team → Team) : (s.onTeam k f).grp j = s.grp j := rfl
@[simp] theorem State.onGroup_core (j k : Nat) (f : Group → Group) : (s.onGroup j f).core k = s.core k := rfl
@[simp] theorem State.onThread_core (j x k : Nat) (f : Thread → Thread) : (s.onThread j x f).core k = s.core k := rfl
@[simp] theorem State.onTeam_core (j k : Nat) (f : Team → Team) : (s.onTeam j f).core k = s.core k := rfl
@[simp] theorem State.tick_grp (j : Nat) : s.tick.grp j = s.grp j := rfl
@[simp] theorem State.tick_core (k : Nat) : s.tick.core k = s.core k := rfl
@[simp] theorem State.tick_fresh : s.tick.fresh = s.fresh + 1 := rfl

theorem State.thr_of {s : State} {j x : Nat} {g : Group} {th : Thread} (hg : s.grp j = some g)
    (ht : Tbl.get? g.threads x = some th) : s.thr j x = some th := by simp [State.thr, hg, ht]

/-! ### Beside -/

theorem State.Beside.refl (j : Nat) : s.Beside s j := ⟨rfl, fun _ _ => rfl, fun _ => rfl⟩

theorem State.Beside.trans {s t u : State} {j : Nat} (a : s.Beside t j) (b : t.Beside u j) : s.Beside u j := by
  refine ⟨?_, fun i h => (b.others i h).trans (a.others i h), fun k => ?_⟩
  · rw [b.rest, a.rest]
  · have h1 := a.cores k
    have h2 := b.cores k
    rw [← h1]; rw [← h2]

theorem State.Beside.onGroup (j : Nat) (f : Group → Group) : s.Beside (s.onGroup j f) j :=
  ⟨rfl, fun i h => by simp [Ne.symm h], fun _ => rfl⟩

theorem State.Beside.onThread (j x : Nat) (f : Thread → Thread) : s.Beside (s.onThread j x f) j :=
  State.Beside.onGroup s j _

theorem State.Beside.count (j k n x : Nat) : s.Beside (s.count k n x) j := by
  refine ⟨rfl, fun i _ => rfl, fun i => ?_⟩
  rw [State.count_core]; split
  · subst_vars; rfl
  · rfl

theorem Group.SameBut.refl (g : Group) : g.SameBut g := rfl

theorem Group.SameBut.trans {a b c : Group} (h : a.SameBut b) (k : b.SameBut c) : a.SameBut c := by
  unfold Group.SameBut at *; rw [k, h]

end Sys2Proof.Machine
end

