-- ==== Sys2Proof/Laws/Packet.lean ====
section
/-! SUPPORT. What a packet of predicate-guarded threads does: the ECC check that finds nothing, the front of a thread,
retirement, the law of a vector word and the law of a packet of one thread. -/

namespace Sys2Proof.Machine

/-! ## The ECC check finds nothing -/

theorem filter_marks_nil {l m : List Nat} (h : ∀ n ∈ l, n ∉ m) : l.filter m.contains = [] := by
  rw [List.filter_eq_nil_iff]; intro n hn; simp [h n hn]

theorem State.scrubLanes_clean {s : State} {j x : Nat} {ns : List Nat}
    (h : ∀ g th, s.grp j = some g → Tbl.get? g.threads x = some th → ∀ n ∈ ns,
      markKey (g.inHandler x) n ∉ th.vsoft ∧ markKey (g.inHandler x) n ∉ th.vhard) :
    s.scrubLanes j x ns = s := by
  unfold State.scrubLanes State.scrubLaneKeys
  cases hg : Tbl.get? s.groups j with
  | none => rfl
  | some g =>
    cases ht : Tbl.get? g.threads x with
    | none => simp [ht]
    | some th =>
      have hk := h g th hg ht
      simp only [Option.elim_some, Option.bind_some, ht]
      have e1 : (ns.map (markKey (g.inHandler x))).filter th.vsoft.contains = [] :=
        filter_marks_nil (by simpa using fun n hn => (hk n hn).1)
      have e2 : (ns.map (markKey (g.inHandler x))).filter th.vhard.contains = [] :=
        filter_marks_nil (by simpa using fun n hn => (hk n hn).2)
      exact if_pos (by rw [Bool.and_eq_true]; exact ⟨List.isEmpty_iff.mpr e1, List.isEmpty_iff.mpr e2⟩)

theorem State.scrubUniforms_clean {s : State} {j : Nat} {ns : List Nat}
    (h : ∀ g, s.grp j = some g → ∀ n ∈ ns, markKey g.handling n ∉ g.ssoft ∧ markKey g.handling n ∉ g.shard) :
    s.scrubUniforms j ns = s := by
  unfold State.scrubUniforms State.scrubUniformKeys
  cases hg : Tbl.get? s.groups j with
  | none => rfl
  | some g =>
    have hk := h g hg
    simp only [Option.elim_some]
    have e1 : (ns.map (markKey g.handling)).filter g.ssoft.contains = [] :=
      filter_marks_nil (by simpa using fun n hn => (hk n hn).1)
    have e2 : (ns.map (markKey g.handling)).filter g.shard.contains = [] :=
      filter_marks_nil (by simpa using fun n hn => (hk n hn).2)
    exact if_pos (by rw [Bool.and_eq_true]; exact ⟨List.isEmpty_iff.mpr e1, List.isEmpty_iff.mpr e2⟩)

theorem State.scrub_clean {s : State} {g : Group} {sh : Shape} (hg : s.grp s.cur.g = some g) (hc : g.Clean sh) :
    s.scrub sh = s := by
  unfold State.scrub
  have key : ∀ l : List Nat, l.foldl (fun s' t => s'.scrubLanes s'.cur.g t sh.vs) s = s := by
    intro l
    induction l with
    | nil => rfl
    | cons x l ih =>
      rw [List.foldl_cons, State.scrubLanes_clean]
      · exact ih
      · intro g' th h1 h2
        rw [hg] at h1; cases h1
        exact hc.2 x th h2
  simp only [key]
  apply State.scrubUniforms_clean
  intro g' h1
  rw [hg] at h1; cases h1
  exact hc.1

/-! ## Retirement -/

theorem State.retire_eq {s : State} {j x : Nat} {g : Group} {h : Hd} {at_ : Ctx} {dead : List Nat}
    (hg : s.grp j = some g) :
    s.retire j x h at_ dead = (s.count g.core 2 1).onGroup j (fun gr =>
      { (gr.onThread x (Thread.retire (gr.inHandler x) h at_ dead)) with retired := (gr.retired + 1) % 2 ^ 64 }) := by
  rw [State.grp_def] at hg; simp only [State.retire, hg]

theorem State.retire_grp {s : State} {j x : Nat} {g : Group} (h : Hd) (at_ : Ctx) (dead : List Nat)
    (hg : s.grp j = some g) :
    (s.retire j x h at_ dead).grp j = some { (g.onThread x (Thread.retire (g.inHandler x) h at_ dead)) with
      retired := (g.retired + 1) % 2 ^ 64 } := by
  rw [State.retire_eq hg]; simp [hg]

theorem State.retire_beside {s : State} {j x : Nat} (h : Hd) (at_ : Ctx) (dead : List Nat) :
    s.Beside (s.retire j x h at_ dead) j := by
  cases hg : s.grp j with
  | none => rw [State.grp_def] at hg; simp only [State.retire, hg]; exact State.Beside.refl s j
  | some g => rw [State.retire_eq hg]; exact (State.Beside.count s j _ _ _).trans (State.Beside.onGroup _ _ _)

theorem State.retire_get? {s : State} {j x : Nat} {g : Group} (h : Hd) (at_ : Ctx) (dead : List Nat)
    (hg : s.groups.get? j = some g) :
    (s.retire j x h at_ dead).groups.get? j = some { (g.onThread x (Thread.retire (g.inHandler x) h at_ dead)) with
      retired := (g.retired + 1) % 2 ^ 64 } := State.retire_grp h at_ dead hg

/-! ## The front of a thread -/

theorem State.front_congr {s s' : State} {g g' : Group} {h : Hd} {sh : Shape} {always : Bool} {x : Nat}
    (hg : s.grp s.cur.g = some g) (hb : s.Beside s' s.cur.g) (hg' : s'.grp s.cur.g = some g') (hs : g.SameBut g')
    (ht : Tbl.get? g'.threads x = Tbl.get? g.threads x) :
    s'.front h sh always x = match s.front h sh always x with
      | .run _ th => .run g' th
      | r => r := by
  have hcur : s'.cur = s.cur := by rw [hb.rest]
  have hl : s'.launches = s.launches := by rw [hb.rest]
  have htm : s'.teams = s.teams := by rw [hb.rest]
  have hlseq : g'.lseq = g.lseq := by rw [hs]
  have hteam : g'.team = g.team := by rw [hs]
  have hhandler : g'.handler = g.handler := by rw [hs]
  have hceil : g'.ceil = g.ceil := by rw [hs]
  have hsp : g'.spois = g.spois := by rw [hs]
  have hck : s'.checking g' = s.checking g := by
    simp only [State.checking, State.launchOf, State.teamOf, hl, htm, hlseq, hteam]
  have hih : ∀ y, g'.inHandler y = g.inHandler y := by intro y; simp only [Group.inHandler, hhandler]
  have hh : g'.handling = g.handling := by simp only [Group.handling, hhandler]
  have hoc : ∀ b n, g'.overCeiling b n = g.overCeiling b n := by intro b n; simp only [Group.overCeiling, hceil]
  rw [State.grp_def] at hg hg'
  simp only [State.front, hcur, hg, hg', ht]
  cases Tbl.get? g.threads x with
  | none => rfl
  | some th =>
    simp only [hck, wordFault, hih, hh, hoc, hsp]
    split
    · rfl
    · split
      · rfl
      · split <;> rfl

/-- What the front says of a thread that runs. -/
theorem State.front_run {s : State} {h : Hd} {sh : Shape} {always : Bool} {x : Nat} {g : Group} {th : Thread}
    (hf : s.front h sh always x = .run g th) :
    s.grp s.cur.g = some g ∧ Tbl.get? g.threads x = some th ∧ (always || th.pr h.guard.toNat) = true := by
  simp only [State.front] at hf
  split at hf
  · cases hf
  · rename_i g0 hg
    split at hf
    · cases hf
    · rename_i th0 ht
      split at hf
      · cases hf
      · split at hf
        · cases hf
        · split at hf
          · cases hf
          · cases hf
            refine ⟨hg, ht, ?_⟩
            simp only [Bool.not_eq_true, Bool.and_eq_false_imp, Bool.not_eq_true', Bool.not_eq_false'] at *
            cases always <;> simp_all

/-- The front of a live thread that meets no fault. -/
theorem State.front_clear {s : State} {h : Hd} {sh : Shape} {always : Bool} {x : Nat} {g : Group} {th : Thread}
    (hg : s.grp s.cur.g = some g) (ht : Tbl.get? g.threads x = some th)
    (hc : ∀ c d, s.front h sh always x ≠ .fault c d) :
    s.front h sh always x = if always || th.pr h.guard.toNat then .run g th else .skip := by
  rw [State.grp_def] at hg
  simp only [State.front, hg, ht] at hc ⊢
  split
  · rename_i d hd; rw [hd] at hc; exact absurd rfl (hc _ _)
  · rename_i hd
    rw [hd] at hc
    simp only [] at hc
    cases always <;> cases hp : th.pr h.guard.toNat <;> simp_all
    all_goals
      split
      · rename_i c d hw; rw [hw] at hc; exact absurd rfl (hc c d)
      · rfl

/-! ## A vector word -/

/-- The thread of a vector word afterwards (R84): its effect where it takes part, and its retirement. -/
def Thread.afterVector (hm : Bool) (h : Hd) (at_ : Ctx) (sh : Shape) (always : Bool) (f : Bool → Thread → Thread)
    (th : Thread) : Thread :=
  Thread.retire hm h at_ sh.dead (if always || th.pr h.guard.toNat then f hm th else th)

theorem Group.inHandler_sameBut {g g' : Group} (h : g.SameBut g') (x : Nat) : g'.inHandler x = g.inHandler x := by
  rw [h]; rfl

/-- The state after the threads of a vector word in turn. -/
structure VectorRun (s s1 : State) (g : Group) (h : Hd) (sh : Shape) (always : Bool)
    (f : Group → Bool → Thread → Thread) (done : List Nat) : Prop where
  beside : s.Beside s1 s.cur.g
  group : ∃ g1, s1.grp s.cur.g = some g1 ∧ g.SameBut g1 ∧
    (∀ y ∈ done, ∀ th, Tbl.get? g.threads y = some th →
      Tbl.get? g1.threads y = some (th.afterVector (g.inHandler y) h s.cur.at_ sh always (f g))) ∧
    (∀ y, y ∉ done → Tbl.get? g1.threads y = Tbl.get? g.threads y)

theorem State.vector_fold {s : State} {g : Group} {h : Hd} {sh : Shape} {always : Bool}
    {f : Group → Bool → Thread → Thread} (R : s.Ready g h sh always)
    (hf : ∀ g', g.SameBut g' → f g' = f g) :
    ∀ (rest done : List Nat) (s1 : State) (a : List Nat), VectorRun s s1 g h sh always f done →
      (∀ x ∈ rest, x ∈ s.cur.tids) → rest.Nodup → (∀ x ∈ rest, x ∉ done) →
      VectorRun s (State.packetThreads h sh always (fun t s g _ => (s.onCur t (f g)).done h sh t) rest (s1, a)).1
        g h sh always f (done ++ rest) := by
  intro rest
  induction rest with
  | nil => intro done s1 a V _ _ _; simpa [State.packetThreads] using V
  | cons x rest ih =>
    intro done s1 a V hin hnd hdis
    simp only [State.packetThreads]
    have key : VectorRun s (s1.part h sh always x (fun s g _ => (s.onCur x (f g)).done h sh x)) g h sh always f
        (done ++ [x]) := by
      obtain ⟨g1, hg1, hsame, hdone, hrest⟩ := V.group
      have hx : x ∉ done := hdis x (by simp)
      obtain ⟨th, hth⟩ := Option.isSome_iff_exists.mp (R.live x (hin x (by simp)))
      have hth1 : Tbl.get? g1.threads x = some th := by rw [hrest x hx, hth]
      have hfr := State.front_clear R.group hth (R.clear x (hin x (by simp)))
      have hfr1 := State.front_congr (h := h) (sh := sh) (always := always) (x := x) R.group V.beside hg1 hsame
        (by rw [hth1, hth])
      rw [hfr] at hfr1
      have hcur : s1.cur = s.cur := by rw [V.beside.rest]
      simp only [State.part, hfr1]
      by_cases ht : (always || th.pr h.guard.toNat) = true
      · simp only [ht, if_true]
        simp only [State.done, State.onCur, hcur]
        set s2 := s1.onGroup s.cur.g (fun g => g.onThread x (f g1 (g.inHandler x))) with hs2
        have hg2 : s2.grp s.cur.g = some (g1.onThread x (f g1 (g1.inHandler x))) := by simp [hs2, hg1]
        have hc2 : s2.cur = s.cur := hcur
        rw [hc2]
        have hg3 := State.retire_grp (x := x) h s.cur.at_ sh.dead hg2
        refine ⟨(V.beside.trans (State.Beside.onGroup _ _ _)).trans (State.retire_beside _ _ _), _, hg3, ?_, ?_, ?_⟩
        · unfold Group.SameBut at hsame ⊢; rw [hsame]; rfl
        · intro y hy th' hth'
          simp only [List.mem_append, List.mem_singleton] at hy
          rcases hy with hy | rfl
          · have hne : x ≠ y := fun e => hx (e ▸ hy)
            simp [Group.onThread_get?, hne, hdone y hy th' hth']
          · rw [hth] at hth'; cases hth'
            simp only [Group.onThread_get?, if_true, hth1, Option.map_some]
            simp only [Thread.afterVector, ht, if_true, hf g1 hsame, Group.inHandler_sameBut hsame]
            congr 2
            show (g1.onThread y _).inHandler y = _
            exact Group.inHandler_sameBut hsame y
        · intro y hy
          simp only [List.mem_append, List.mem_singleton, not_or] at hy
          simp [Group.onThread_get?, Ne.symm hy.2, hrest y hy.1]
      · simp only [ht, hcur]
        have hg3 := State.retire_grp (x := x) h s.cur.at_ sh.dead hg1
        refine ⟨V.beside.trans (State.retire_beside _ _ _), _, hg3, ?_, ?_, ?_⟩
        · unfold Group.SameBut at hsame ⊢; rw [hsame]; rfl
        · intro y hy th' hth'
          simp only [List.mem_append, List.mem_singleton] at hy
          rcases hy with hy | rfl
          · have hne : x ≠ y := fun e => hx (e ▸ hy)
            simp [Group.onThread_get?, hne, hdone y hy th' hth']
          · rw [hth] at hth'; cases hth'
            simp only [Group.onThread_get?, if_true, hth1, Option.map_some]
            simp only [Thread.afterVector, ht, Group.inHandler_sameBut hsame]
            rfl
        · intro y hy
          simp only [List.mem_append, List.mem_singleton, not_or] at hy
          simp [Group.onThread_get?, Ne.symm hy.2, hrest y hy.1]
    have := ih (done ++ [x]) _ (if s1.applied (s1.part h sh always x (fun s g _ => (s.onCur x (f g)).done h sh x)) h sh
      always x then a ++ [x] else a) key (fun y hy => hin y (by simp [hy])) (List.nodup_cons.mp hnd).2 (by
        intro y hy
        simp only [List.mem_append, List.mem_singleton, not_or]
        exact ⟨hdis y (by simp [hy]), fun e => (List.nodup_cons.mp hnd).1 (e ▸ hy)⟩)
    simpa using this

/-- Marking a record's completion changes nothing where no record has come. -/
theorem State.markApplied_same {s : State} {g : Group} {n : Nat} {done : List Nat} (hg : s.grp s.cur.g = some g)
    (hn : g.faults.length ≤ n) : (s.markApplied n done).grp s.cur.g = some g ∧
      s.Beside (s.markApplied n done) s.cur.g := by
  refine ⟨?_, State.Beside.onGroup s _ _⟩
  simp only [State.markApplied, State.onGroup_grp, if_true, hg, Option.map_some]
  rw [List.drop_eq_nil_of_le hn, List.take_of_length_le hn]
  simp [oneUniform]

/-- The law of a vector word: every thread of the packet takes the effect where it takes part, and retires; every other
thread, group and piece of state is as it was, the counters of the cores apart. -/
theorem State.vector_law {s : State} {g : Group} {h : Hd} {sh : Shape} {always : Bool}
    {f : Group → Bool → Thread → Thread} (R : s.Ready g h sh always) (hf : ∀ g', g.SameBut g' → f g' = f g) :
    VectorRun s (s.vector h sh always f) g h sh always f s.cur.tids := by
  have V0 : VectorRun s s g h sh always f [] :=
    ⟨State.Beside.refl s _, g, R.group, Group.SameBut.refl g, by simp, by simp⟩
  have V := State.vector_fold R hf s.cur.tids [] s [] V0 (fun x h => h) R.nodup (by simp)
  simp only [List.nil_append] at V
  have hcur := congrArg State.cur V.beside.rest
  simp only [State.vector, State.packet, State.scrub_clean R.group R.clean]
  set r := State.packetThreads h sh always (fun t s g _ => (s.onCur t (f g)).done h sh t) s.cur.tids (s, []) with hr
  obtain ⟨g1, hg1, hs1, hd, hn⟩ := V.group
  have hcur' : r.1.cur = s.cur := hcur
  have hfc : s.faultCount = g.faults.length := by
    have := R.group; rw [State.grp_def] at this; simp [State.faultCount, this]
  have hfl : g1.faults = g.faults := by rw [hs1]
  have M := State.markApplied_same (s := r.1) (g := g1) (n := s.faultCount) (done := r.2) (by rw [hcur']; exact hg1)
    (by rw [hfc, hfl])
  rw [hcur'] at M
  exact ⟨V.beside.trans M.2, g1, M.1, hs1, hd, hn⟩

/-! ## A packet of one thread -/

/-- The law of a packet of one thread that takes part: the word's own effect on it, and the completion mask of the
records that the word adds. -/
theorem State.packet_one {s : State} {g : Group} {x : Nat} {th : Thread} {h : Hd} {sh : Shape}
    {body : Nat → State → Group → Thread → State} (A : s.Alone g x th h sh) :
    ∃ done, s.packet h sh false body = (body x s g th).markApplied s.faultCount done := by
  have hp : s.part h sh false x (body x) = body x s g th := by simp only [State.part, A.runs]
  refine ⟨if s.applied (body x s g th) h sh false x then [x] else [], ?_⟩
  simp only [State.packet, State.scrub_clean A.group A.clean, A.only, State.packetThreads, hp]
  rfl

end Sys2Proof.Machine
end

