-- ==== Sys2Proof/Laws/Lane.lean ====
section
/-! SUPPORT. What a thread's lanes and predicates hold once every fixed-latency write is readable (R27), after each of
the thread's own operations: a write, the passing of a demand, a lane that dies, a retirement. -/

namespace Sys2Proof.Machine

/-! ## Reading after writing at once -/

theorem Thread.rd_wv (hm : Bool) (t : Thread) (d n : Nat) (w : Word) :
    (t.wv hm d w).rd hm n = if d = n then w else t.rd hm n := by
  unfold Thread.wv Thread.rd
  cases hd : (hm && decide (112 ≤ d)) <;> cases hn : (hm && decide (112 ≤ n)) <;>
    simp only [if_true, Bool.false_eq_true, if_false, Tbl.getD_put] <;>
    (by_cases e : d = n <;> simp_all)

@[simp] theorem Thread.wv_p (hm : Bool) (t : Thread) (d : Nat) (w : Word) : (t.wv hm d w).p = t.p := by
  unfold Thread.wv; split <;> rfl
@[simp] theorem Thread.wv_pend (hm : Bool) (t : Thread) (d : Nat) (w : Word) : (t.wv hm d w).pend = t.pend := by
  unfold Thread.wv; split <;> rfl
@[simp] theorem Thread.wv_rng (hm : Bool) (t : Thread) (d : Nat) (w : Word) : (t.wv hm d w).rng = t.rng := by
  unfold Thread.wv; split <;> rfl
@[simp] theorem Thread.wp_pend (t : Thread) (d : Nat) (b : Bool) : (t.wp d b).pend = t.pend := by
  unfold Thread.wp; split <;> rfl
@[simp] theorem Thread.wp_rng (t : Thread) (d : Nat) (b : Bool) : (t.wp d b).rng = t.rng := by
  unfold Thread.wp; split <;> rfl
@[simp] theorem Thread.rd_wp (hm : Bool) (t : Thread) (d n : Nat) (b : Bool) : (t.wp d b).rd hm n = t.rd hm n := by
  unfold Thread.wp; split <;> rfl
@[simp] theorem Thread.pr_wv (hm : Bool) (t : Thread) (d n : Nat) (w : Word) : (t.wv hm d w).pr n = t.pr n := by
  simp [Thread.pr]

theorem Thread.pr_wp (t : Thread) (d n : Nat) (b : Bool) (hn : n < 7) :
    (t.wp d b).pr n = if d = n then b else t.pr n := by
  have h7 : (n == 7) = false := by simp; omega
  unfold Thread.wp Thread.pr
  split
  · rw [if_neg (by omega)]
  · rename_i hd
    have hd' : d < 7 := by omega
    cases b
    · by_cases h : d = n
      · subst h
        simp only [h7, Bool.false_or, if_true, Bool.false_eq_true, if_false, BitVec.getLsbD_and, BitVec.getLsbD_not,
          BitVec.getLsbD_ofNat, hd', decide_true, Bool.true_and, Nat.testBit_two_pow_self]
        simp
      · simp only [h7, Bool.false_or, if_neg h, Bool.false_eq_true, if_false, BitVec.getLsbD_and, BitVec.getLsbD_not,
          BitVec.getLsbD_ofNat, hn, decide_true, Bool.true_and, Nat.testBit_two_pow_of_ne h]
        simp
    · by_cases h : d = n
      · subst h
        simp only [h7, Bool.false_or, if_true, BitVec.getLsbD_or, BitVec.getLsbD_ofNat, hd', decide_true, Bool.true_and,
          Nat.testBit_two_pow_self]
        simp
      · simp only [h7, Bool.false_or, if_neg h, if_true, BitVec.getLsbD_or, BitVec.getLsbD_ofNat, hn, decide_true,
          Bool.true_and, Nat.testBit_two_pow_of_ne h]
        simp

/-! ## The last write of a name -/

/-- The value of the last pending write of a name. -/
def lastOf (f : File) (n : Nat) : List Pend → Option Word
  | [] => none
  | p :: r => (lastOf f n r).or (if p.file = f ∧ p.reg = n then some p.val else none)

theorem lastOf_append (f : File) (n : Nat) (a b : List Pend) :
    lastOf f n (a ++ b) = (lastOf f n b).or (lastOf f n a) := by
  induction a with
  | nil => simp [lastOf]
  | cons p r ih => simp only [List.cons_append, lastOf, ih, Option.or_assoc]

theorem lastOf_filter (f : File) (n : Nat) (q : Pend → Bool) (l : List Pend)
    (h : ∀ p ∈ l, p.file = f → p.reg = n → q p = true) : lastOf f n (l.filter q) = lastOf f n l := by
  induction l with
  | nil => rfl
  | cons p r ih =>
    have ih := ih (fun p hp => h p (by simp [hp]))
    simp only [List.filter_cons]
    split
    · simp only [lastOf, ih]
    · rename_i hq
      have : ¬ (p.file = f ∧ p.reg = n) := fun hh => hq (h p (by simp) hh.1 hh.2)
      simp [lastOf, ih, this]

theorem lastOf_filter_none (f : File) (n : Nat) (q : Pend → Bool) (l : List Pend)
    (h : ∀ p ∈ l, p.file = f → p.reg = n → q p = false) : lastOf f n (l.filter q) = none := by
  induction l with
  | nil => rfl
  | cons p r ih =>
    have ih := ih (fun p hp => h p (by simp [hp]))
    simp only [List.filter_cons]
    split
    · rename_i hq
      have : ¬ (p.file = f ∧ p.reg = n) := by
        intro hh; rw [h p (by simp) hh.1 hh.2] at hq; simp at hq
      simp [lastOf, ih, this]
    · exact ih

theorem lastOf_sum (f : File) (n : Nat) (u : Pend → Nat) (l : List Pend) :
    lastOf f n (l.map (fun p => { p with sum := u p })) = lastOf f n l := by
  induction l with
  | nil => rfl
  | cons p r ih => simp only [List.map_cons, lastOf, ih]

/-- What a lane holds at the end of its pending writes. -/
def Thread.lastV (hm : Bool) (t : Thread) (n : Nat) : Word := (lastOf .vec n t.pend).getD (t.rd hm n)
/-- What a predicate holds at the end of its pending writes. -/
def Thread.lastP (t : Thread) (n : Nat) : Bool := ((lastOf .pred n t.pend).map (· != 0)).getD (t.pr n)

/-- One step of maturing. -/
def Thread.ripen (hm : Bool) (t : Thread) (p : Pend) : Thread :=
  if p.lat ≤ p.sum then
    { t.commit hm p with pend := (t.commit hm p).pend.filter (fun q => !(q.file == p.file && q.reg == p.reg)) }
  else { t with pend := t.pend ++ [p] }

theorem Thread.mature_eq (hm : Bool) (t : Thread) :
    t.mature hm = t.pend.foldl (Thread.ripen hm) { t with pend := [] } := rfl

@[simp] theorem Thread.commit_pend (hm : Bool) (t : Thread) (p : Pend) : (t.commit hm p).pend = t.pend := by
  unfold Thread.commit; split <;> simp
@[simp] theorem Thread.commit_rng (hm : Bool) (t : Thread) (p : Pend) : (t.commit hm p).rng = t.rng := by
  unfold Thread.commit; split <;> simp

theorem Thread.commit_rd (hm : Bool) (t : Thread) (p : Pend) (n : Nat) :
    (t.commit hm p).rd hm n = if p.file = .vec ∧ p.reg = n then p.val else t.rd hm n := by
  unfold Thread.commit
  split <;> rename_i h <;> simp [h, Thread.rd_wv]

theorem Thread.commit_pr (hm : Bool) (t : Thread) (p : Pend) (n : Nat) (hn : n < 7) :
    (t.commit hm p).pr n = if p.file = .pred ∧ p.reg = n then p.val != 0 else t.pr n := by
  unfold Thread.commit
  split <;> rename_i h <;> simp [h, Thread.pr_wp _ _ _ _ hn]

theorem Thread.rd_pend (hm : Bool) (t : Thread) (l : List Pend) (n : Nat) :
    ({ t with pend := l } : Thread).rd hm n = t.rd hm n := rfl
theorem Thread.pr_pend (t : Thread) (l : List Pend) (n : Nat) : ({ t with pend := l } : Thread).pr n = t.pr n := rfl

theorem Thread.ripen_lastV (hm : Bool) (t : Thread) (p : Pend) (n : Nat) :
    (t.ripen hm p).lastV hm n = if p.file = .vec ∧ p.reg = n then p.val else t.lastV hm n := by
  unfold Thread.ripen
  split
  · simp only [Thread.lastV, Thread.rd_pend, Thread.commit_pend, Thread.commit_rd]
    split
    · rename_i h
      rw [lastOf_filter_none]
      · rfl
      · intro q _ h1 h2; simp [h.1, h.2, h1, h2]
    · rename_i h
      rw [lastOf_filter]
      intro q _ h1 h2
      simp only [Bool.not_eq_true', Bool.and_eq_false_imp, beq_iff_eq, beq_eq_false_iff_ne]
      intro h3 h4; exact h ⟨by rw [← h3, h1], by rw [← h4, h2]⟩
  · simp only [Thread.lastV, Thread.rd_pend, lastOf_append, lastOf]
    split <;> simp_all

theorem Thread.ripen_lastP (hm : Bool) (t : Thread) (p : Pend) (n : Nat) (hn : n < 7) :
    (t.ripen hm p).lastP n = if p.file = .pred ∧ p.reg = n then p.val != 0 else t.lastP n := by
  unfold Thread.ripen
  split
  · simp only [Thread.lastP, Thread.pr_pend, Thread.commit_pend, Thread.commit_pr _ _ _ _ hn]
    split
    · rename_i h
      rw [lastOf_filter_none]
      · rfl
      · intro q _ h1 h2; simp [h.1, h.2, h1, h2]
    · rename_i h
      rw [lastOf_filter]
      intro q _ h1 h2
      simp only [Bool.not_eq_true', Bool.and_eq_false_imp, beq_iff_eq, beq_eq_false_iff_ne]
      intro h3 h4; exact h ⟨by rw [← h3, h1], by rw [← h4, h2]⟩
  · simp only [Thread.lastP, Thread.pr_pend, lastOf_append, lastOf]
    split <;> simp_all

theorem Thread.ripen_rng (hm : Bool) (t : Thread) (p : Pend) : (t.ripen hm p).rng = t.rng := by
  unfold Thread.ripen; split <;> simp

theorem Thread.ripen_fold (hm : Bool) (l : List Pend) (n : Nat) : ∀ t : Thread,
    (l.foldl (Thread.ripen hm) t).lastV hm n = (lastOf .vec n l).getD (t.lastV hm n)
    ∧ (n < 7 → (l.foldl (Thread.ripen hm) t).lastP n = ((lastOf .pred n l).map (· != 0)).getD (t.lastP n))
    ∧ (l.foldl (Thread.ripen hm) t).rng = t.rng := by
  induction l with
  | nil => intro t; exact ⟨rfl, fun _ => rfl, rfl⟩
  | cons p r ih =>
    intro t
    simp only [List.foldl_cons, lastOf]
    obtain ⟨h1, h2, h3⟩ := ih (t.ripen hm p)
    refine ⟨?_, fun hn => ?_, by rw [h3, Thread.ripen_rng]⟩
    · rw [h1, Thread.ripen_lastV]
      cases lastOf .vec n r <;> simp
      split <;> rfl
    · rw [h2 hn, Thread.ripen_lastP _ _ _ _ hn]
      cases lastOf .pred n r <;> simp
      split <;> rfl

/-- Maturing changes nothing of what the names hold in the end. -/
theorem Thread.mature_lastV (hm : Bool) (t : Thread) (n : Nat) : (t.mature hm).lastV hm n = t.lastV hm n := by
  rw [Thread.mature_eq, (Thread.ripen_fold hm t.pend n _).1]; rfl
theorem Thread.mature_lastP (hm : Bool) (t : Thread) (n : Nat) (hn : n < 7) : (t.mature hm).lastP n = t.lastP n := by
  rw [Thread.mature_eq, (Thread.ripen_fold hm t.pend n _).2.1 hn]; rfl
@[simp] theorem Thread.mature_rng (hm : Bool) (t : Thread) : (t.mature hm).rng = t.rng := by
  rw [Thread.mature_eq, (Thread.ripen_fold hm t.pend 0 _).2.2]

theorem Thread.ripen_all_pend (hm : Bool) (l : List Pend) (h : ∀ p ∈ l, p.lat ≤ p.sum) : ∀ t : Thread, t.pend = [] →
    (l.foldl (Thread.ripen hm) t).pend = [] := by
  induction l with
  | nil => intro t ht; exact ht
  | cons p r ih =>
    intro t ht
    rw [List.foldl_cons]
    apply ih (fun q hq => h q (by simp [hq]))
    simp [Thread.ripen, h p (by simp), ht]

theorem Thread.flush_pend (hm : Bool) (t : Thread) : (t.flush hm).pend = [] := by
  unfold Thread.flush
  rw [Thread.mature_eq]
  apply Thread.ripen_all_pend
  · intro p hp
    simp only [List.mem_map] at hp
    obtain ⟨q, _, rfl⟩ := hp
    exact Nat.le_refl _
  · rfl

/-- A lane in the end: its last pending write, or what it holds. -/
theorem Thread.lane_eq (hm : Bool) (t : Thread) (n : Nat) : t.lane hm n = t.lastV hm n := by
  have h := Thread.mature_lastV hm { t with pend := t.pend.map (fun p => { p with sum := p.lat }) } n
  have hp := Thread.flush_pend hm t
  unfold Thread.lane
  have h1 : (t.flush hm).lastV hm n = (t.flush hm).rd hm n := by simp [Thread.lastV, hp, lastOf]
  rw [← h1]
  unfold Thread.flush
  rw [h]
  simp only [Thread.lastV, Thread.rd_pend]
  rw [lastOf_sum]

/-- A predicate in the end. -/
theorem Thread.pred_eq (hm : Bool) (t : Thread) (n : Nat) (hn : n < 7) : t.pred hm n = t.lastP n := by
  have h := Thread.mature_lastP hm { t with pend := t.pend.map (fun p => { p with sum := p.lat }) } n hn
  have hp := Thread.flush_pend hm t
  unfold Thread.pred
  have h1 : (t.flush hm).lastP n = (t.flush hm).pr n := by simp [Thread.lastP, hp, lastOf]
  rw [← h1]
  unfold Thread.flush
  rw [h]
  simp only [Thread.lastP, Thread.pr_pend]
  rw [lastOf_sum]

/-! ## The thread's own operations -/

theorem Thread.lane_writeV (hm : Bool) (t : Thread) (d n : Nat) (w : Word) (lat : Nat) :
    (t.writeV d w lat).lane hm n = if d = n then w else t.lane hm n := by
  simp only [Thread.lane_eq, Thread.lastV, Thread.writeV, Thread.write, Thread.rd_pend, lastOf_append, lastOf]
  split <;> simp_all

theorem Thread.pred_writeV (hm : Bool) (t : Thread) (d n : Nat) (w : Word) (lat : Nat) (hn : n < 7) :
    (t.writeV d w lat).pred hm n = t.pred hm n := by
  simp only [Thread.pred_eq _ _ _ hn, Thread.lastP, Thread.writeV, Thread.write, Thread.pr_pend, lastOf_append, lastOf]
  simp

theorem Thread.lane_writeP (hm : Bool) (t : Thread) (d n : Nat) (b : Bool) (lat : Nat) :
    (t.writeP d b lat).lane hm n = t.lane hm n := by
  unfold Thread.writeP
  split
  · simp only [Thread.lane_eq, Thread.lastV, Thread.write, Thread.rd_pend, lastOf_append, lastOf]
    simp
  · rfl

theorem Thread.pred_writeP (hm : Bool) (t : Thread) (d n : Nat) (b : Bool) (lat : Nat) (hn : n < 7) :
    (t.writeP d b lat).pred hm n = if d = n then b else t.pred hm n := by
  unfold Thread.writeP
  split
  · simp only [Thread.pred_eq _ _ _ hn, Thread.lastP, Thread.write, Thread.pr_pend, lastOf_append, lastOf]
    by_cases h : d = n
    · subst h; cases b <;> simp
    · simp [h]
  · rw [if_neg (by omega)]

@[simp] theorem Thread.writeV_rng (t : Thread) (d : Nat) (w : Word) (lat : Nat) : (t.writeV d w lat).rng = t.rng := rfl
@[simp] theorem Thread.writeP_rng (t : Thread) (d : Nat) (b : Bool) (lat : Nat) : (t.writeP d b lat).rng = t.rng := by
  unfold Thread.writeP; split <;> rfl

theorem Thread.lane_passDemand (hm : Bool) (t : Thread) (k n : Nat) : (t.passDemand hm k).lane hm n = t.lane hm n := by
  simp only [Thread.lane_eq, Thread.passDemand, Thread.mature_lastV]
  simp only [Thread.lastV, Thread.rd_pend]
  rw [lastOf_sum]

theorem Thread.pred_passDemand (hm : Bool) (t : Thread) (k n : Nat) (hn : n < 7) :
    (t.passDemand hm k).pred hm n = t.pred hm n := by
  simp only [Thread.pred_eq _ _ _ hn, Thread.passDemand, Thread.mature_lastP _ _ _ hn]
  simp only [Thread.lastP, Thread.pr_pend]
  rw [lastOf_sum]

@[simp] theorem Thread.passDemand_rng (hm : Bool) (t : Thread) (k : Nat) : (t.passDemand hm k).rng = t.rng := by
  simp [Thread.passDemand]

theorem Thread.killLane_rd (hm : Bool) (t : Thread) (d n : Nat) :
    (t.killLane hm d).rd hm n = if d = n then 0 else t.rd hm n := by
  unfold Thread.killLane Thread.rd
  cases hd : (hm && decide (112 ≤ d)) <;> cases hn : (hm && decide (112 ≤ n)) <;>
    simp only [if_true, Bool.false_eq_true, if_false, Tbl.getD_del] <;>
    (by_cases e : d = n <;> simp_all)

theorem Thread.killLane_pend (hm : Bool) (t : Thread) (d : Nat) :
    (t.killLane hm d).pend = t.pend.filter (fun p => !(p.file == File.vec && p.reg == d)) := by
  unfold Thread.killLane; dsimp only; split <;> rfl

@[simp] theorem Thread.killLane_rng (hm : Bool) (t : Thread) (d : Nat) : (t.killLane hm d).rng = t.rng := by
  unfold Thread.killLane; dsimp only; split <;> rfl

@[simp] theorem Thread.killLane_pr (hm : Bool) (t : Thread) (d n : Nat) : (t.killLane hm d).pr n = t.pr n := by
  unfold Thread.killLane; dsimp only; split <;> rfl

theorem Thread.lane_killLane (hm : Bool) (t : Thread) (d n : Nat) :
    (t.killLane hm d).lane hm n = if d = n then 0 else t.lane hm n := by
  simp only [Thread.lane_eq, Thread.lastV, Thread.killLane_pend, Thread.killLane_rd]
  split
  · subst_vars
    rw [lastOf_filter_none]
    · rfl
    · intro q _ h1 h2; simp [h1, h2]
  · rename_i h
    rw [lastOf_filter]
    intro q _ h1 h2
    simp [h1, h2, Ne.symm h]

theorem Thread.pred_killLane (hm : Bool) (t : Thread) (d n : Nat) (hn : n < 7) :
    (t.killLane hm d).pred hm n = t.pred hm n := by
  simp only [Thread.pred_eq _ _ _ hn, Thread.lastP, Thread.killLane_pend, Thread.killLane_pr]
  rw [lastOf_filter]
  intro q _ h1 h2
  simp [h1]

theorem Thread.kill_fold (hm : Bool) (dead : List Nat) (n : Nat) : ∀ t : Thread,
    (dead.foldl (fun t n => t.killLane hm n) t).lane hm n = (if n ∈ dead then 0 else t.lane hm n)
    ∧ (n < 7 → (dead.foldl (fun t n => t.killLane hm n) t).pred hm n = t.pred hm n)
    ∧ (dead.foldl (fun t n => t.killLane hm n) t).rng = t.rng := by
  induction dead with
  | nil => intro t; exact ⟨rfl, fun _ => rfl, rfl⟩
  | cons d r ih =>
    intro t
    obtain ⟨h1, h2, h3⟩ := ih (t.killLane hm d)
    rw [List.foldl_cons]
    refine ⟨?_, fun hn => ?_, by rw [h3]; simp⟩
    · rw [h1, Thread.lane_killLane]
      by_cases hd : d = n
      · subst hd; simp
      · simp [hd, Ne.symm hd]
    · rw [h2 hn, Thread.pred_killLane _ _ _ _ hn]

/-- What retirement leaves in a lane: zero where the word is its last reader, else what it held (R29). -/
theorem Thread.lane_retire (hm : Bool) (h : Hd) (at_ : Ctx) (dead : List Nat) (t : Thread) (n : Nat) :
    (t.retire hm h at_ dead).lane hm n = if at_.dead = true ∧ n ∈ dead then 0 else t.lane hm n := by
  have e : ∀ (u : Thread) (a : Pc) (b c : Nat) (d : Place) (p : Bool) (k w m : Nat),
      ({ u with pc := a, demand := b, age := c, place := d, past := p, chunk := k, wd := w, words := m } : Thread).lane hm n = u.lane hm n := by
    intro u a b c d p k w m; simp only [Thread.lane_eq]; rfl
  simp only [Thread.retire, e]
  split
  · rw [(Thread.kill_fold hm dead n _).1, Thread.lane_passDemand]; simp [*]
  · rw [Thread.lane_passDemand]; simp [*]

theorem Thread.pred_retire (hm : Bool) (h : Hd) (at_ : Ctx) (dead : List Nat) (t : Thread) (n : Nat) (hn : n < 7) :
    (t.retire hm h at_ dead).pred hm n = t.pred hm n := by
  have e : ∀ (u : Thread) (a : Pc) (b c : Nat) (d : Place) (p : Bool) (k w m : Nat),
      ({ u with pc := a, demand := b, age := c, place := d, past := p, chunk := k, wd := w, words := m } : Thread).pred hm n = u.pred hm n := by
    intro u a b c d p k w m; simp only [Thread.pred_eq _ _ _ hn]; rfl
  simp only [Thread.retire, e]
  split
  · rw [(Thread.kill_fold hm dead n _).2.1 hn, Thread.pred_passDemand _ _ _ _ hn]
  · rw [Thread.pred_passDemand _ _ _ _ hn]

@[simp] theorem Thread.retire_rng (hm : Bool) (h : Hd) (at_ : Ctx) (dead : List Nat) (t : Thread) :
    (t.retire hm h at_ dead).rng = t.rng := by
  simp only [Thread.retire]
  split
  · rw [(Thread.kill_fold hm dead 0 _).2.2]; simp
  · simp

@[simp] theorem Thread.retire_pc (hm : Bool) (h : Hd) (at_ : Ctx) (dead : List Nat) (t : Thread) :
    (t.retire hm h at_ dead).pc = at_.next := rfl

@[simp] theorem Thread.retire_place (hm : Bool) (h : Hd) (at_ : Ctx) (dead : List Nat) (t : Thread) :
    (t.retire hm h at_ dead).place = .ready := rfl

@[simp] theorem Thread.retire_demand (hm : Bool) (h : Hd) (at_ : Ctx) (dead : List Nat) (t : Thread) :
    (t.retire hm h at_ dead).demand = demandOf h.stall := rfl

/-! ## What no data word touches -/

theorem Thread.Keeps.refl (t : Thread) : t.Keeps t := rfl
theorem Thread.Keeps.trans {t u w : Thread} (h : t.Keeps u) (k : u.Keeps w) : t.Keeps w := by
  unfold Thread.Keeps at *; rw [k, h]
theorem Thread.keeps_wv (hm : Bool) (t : Thread) (n : Nat) (w : Word) : t.Keeps (t.wv hm n w) := by
  unfold Thread.wv; split <;> rfl
theorem Thread.keeps_wp (t : Thread) (n : Nat) (b : Bool) : t.Keeps (t.wp n b) := by unfold Thread.wp; split <;> rfl
theorem Thread.keeps_commit (hm : Bool) (t : Thread) (p : Pend) : t.Keeps (t.commit hm p) := by
  unfold Thread.commit; split
  · exact Thread.keeps_wv _ _ _ _
  · exact Thread.keeps_wp _ _ _
  · rfl
theorem Thread.keeps_mature (hm : Bool) (t : Thread) : t.Keeps (t.mature hm) := by
  unfold Thread.mature
  have key : ∀ (l : List Pend) (u : Thread), t.Keeps u → t.Keeps (l.foldl (fun t p =>
      if p.lat ≤ p.sum then
        let t := t.commit hm p
        { t with pend := t.pend.filter (fun q => !(q.file == p.file && q.reg == p.reg)) }
      else { t with pend := t.pend ++ [p] }) u) := by
    intro l
    induction l with
    | nil => intro u h; exact h
    | cons p l ih =>
      intro u h
      rw [List.foldl_cons]
      apply ih
      split
      · exact h.trans (Thread.keeps_commit hm u p)
      · exact h
  exact key _ _ rfl
theorem Thread.keeps_passDemand (hm : Bool) (t : Thread) (d : Nat) : t.Keeps (t.passDemand hm d) :=
  Thread.Keeps.trans (u := { t with pend := t.pend.map (fun p => { p with sum := p.sum + d }) }) rfl
    (Thread.keeps_mature hm _)
theorem Thread.keeps_killLane (hm : Bool) (t : Thread) (n : Nat) : t.Keeps (t.killLane hm n) := by
  unfold Thread.killLane; dsimp only; split <;> rfl
theorem Thread.keeps_kill (hm : Bool) (dead : List Nat) : ∀ t : Thread,
    t.Keeps (dead.foldl (fun t n => t.killLane hm n) t) := by
  induction dead with
  | nil => intro t; rfl
  | cons n l ih => intro t; exact (Thread.keeps_killLane hm t n).trans (ih _)
theorem Thread.keeps_retire (hm : Bool) (h : Hd) (at_ : Ctx) (dead : List Nat) (t : Thread) :
    t.Keeps (t.retire hm h at_ dead) := by
  unfold Thread.retire
  have k := Thread.keeps_passDemand hm t (demandOf h.stall)
  split
  · exact k.trans (Thread.keeps_kill hm dead _)
  · exact k
theorem Thread.keeps_writeP (t : Thread) (n : Nat) (b : Bool) (lat : Nat) : t.Keeps (t.writeP n b lat) := by
  unfold Thread.writeP; split <;> rfl
theorem Thread.keeps_writeV (t : Thread) (n : Nat) (w : Word) (lat : Nat) : t.Keeps (t.writeV n w lat) := rfl

theorem Thread.lane_rng (hm : Bool) (t : Thread) (r : Dword) (n : Nat) :
    ({ t with rng := r } : Thread).lane hm n = t.lane hm n := by simp only [Thread.lane_eq]; rfl
theorem Thread.pred_rng (hm : Bool) (t : Thread) (r : Dword) (n : Nat) (hn : n < 7) :
    ({ t with rng := r } : Thread).pred hm n = t.pred hm n := by simp only [Thread.pred_eq _ _ _ hn]; rfl

end Sys2Proof.Machine
end

