-- ==== Sys2Proof/Laws/Vector.lean ====
section
/-! SUPPORT. The law of a vector word in the terms of claims: from the effect on one thread to the result over a
packet, and the shared vector shapes. -/

namespace Sys2Proof.Machine

/-- From the effect of a vector word on one thread to its result over the packet. -/
theorem State.vectorResult_of {s : State} {g : Group} {h : Hd} {sh : Shape} {always : Bool}
    {f : Group → Bool → Thread → Thread} {V : Bool → Thread → List (Nat × Word)}
    {P : Bool → Thread → List (Nat × Bool)} {G : Bool → Thread → Dword} (R : s.Ready g h sh always)
    (hf : ∀ g', g.SameBut g' → f g' = f g)
    (hV : ∀ hm th n, (f g hm th).lane hm n = (Tbl.get? (V hm th) n).getD (th.lane hm n))
    (hP : ∀ hm th n, n < 7 → (f g hm th).pred hm n = (Tbl.get? (P hm th) n).getD (th.pred hm n))
    (hG : ∀ hm th, (f g hm th).rng = G hm th) (hK : ∀ hm th, Thread.Keeps th (f g hm th)) :
    s.VectorResult (.next (s.vector h sh always f)) g h sh always V P G := by
  obtain ⟨hb, g1, hg1, hs, hd, hn⟩ := State.vector_law R hf
  refine ⟨_, g1, rfl, hb, hg1, hs, hn, ?_⟩
  intro x hx th hth
  refine ⟨_, hd x hx th hth, rfl, rfl, ?_, ?_, ?_, ?_⟩
  · intro n
    rw [Thread.afterVector, Thread.lane_retire]
    split
    · rfl
    · split
      · rw [hV]
      · rfl
  · intro n h7
    rw [Thread.afterVector, Thread.pred_retire _ _ _ _ _ _ h7]
    split
    · rw [hP _ _ _ h7]
    · rfl
  · rw [Thread.afterVector, Thread.retire_rng]
    split
    · rw [hG]
    · rfl
  · rw [Thread.afterVector]
    refine Thread.Keeps.trans ?_ (Thread.keeps_retire _ _ _ _ _)
    split
    · exact hK _ _
    · rfl

/-- A word that writes one lane and reads uniforms. -/
theorem State.vectorResult_lane {s : State} {g : Group} {h : Hd} {sh : Shape} {always : Bool} (d lat : Nat)
    (v : Group → Bool → Thread → Word) (R : s.Ready g h sh always) (hv : ∀ g', g.SameBut g' → v g' = v g) :
    s.VectorResult (.next (s.vector h sh always (fun g hm t => t.writeV d (v g hm t) lat))) g h sh always
      (fun hm t => [(d, v g hm t)]) (fun _ _ => []) (fun _ t => t.rng) := by
  refine State.vectorResult_of R ?_ ?_ ?_ ?_ ?_
  · intro g' hg'; simp only [hv g' hg']
  · intro hm th n; rw [Thread.lane_writeV]; simp only [Tbl.get?]; split <;> rfl
  · intro hm th n h7; rw [Thread.pred_writeV _ _ _ _ _ _ h7]; rfl
  · intro hm th; rfl
  · intro hm th; exact Thread.Keeps.refl _

/-- A word that writes a pair of lanes. -/
theorem State.vectorResult_pair {s : State} {g : Group} {h : Hd} {sh : Shape} {always : Bool} (d lat : Nat)
    (v : Bool → Thread → Nat) (R : s.Ready g h sh always) :
    s.VectorResult (.next (s.vector h sh always (fun _ hm t => t.writePair d (v hm t) lat))) g h sh always
      (fun hm t => [(d, BitVec.ofNat 32 (v hm t)), (d + 1, BitVec.ofNat 32 (v hm t / 2 ^ 32))])
      (fun _ _ => []) (fun _ t => t.rng) := by
  refine State.vectorResult_of R ?_ ?_ ?_ ?_ ?_
  · intro g' _; rfl
  · intro hm th n
    rw [Thread.writePair, Thread.lane_writeV, Thread.lane_writeV]
    simp only [Tbl.get?]
    by_cases h1 : d = n
    · subst h1; simp
    · by_cases h2 : d + 1 = n
      · simp [h1, h2]
      · simp [h1, h2]
  · intro hm th n h7; rw [Thread.writePair, Thread.pred_writeV _ _ _ _ _ _ h7, Thread.pred_writeV _ _ _ _ _ _ h7]; rfl
  · intro hm th; rfl
  · intro hm th; exact Thread.Keeps.refl _

/-- A word that writes a predicate; p7 stays true. -/
theorem State.vectorResult_pred {s : State} {g : Group} {h : Hd} {sh : Shape} {always : Bool} (d lat : Nat)
    (v : Group → Bool → Thread → Bool) (R : s.Ready g h sh always) (hv : ∀ g', g.SameBut g' → v g' = v g) :
    s.VectorResult (.next (s.vector h sh always (fun g hm t => t.writeP d (v g hm t) lat))) g h sh always
      (fun _ _ => []) (fun hm t => [(d, v g hm t)]) (fun _ t => t.rng) := by
  refine State.vectorResult_of R ?_ ?_ ?_ ?_ ?_
  · intro g' hg'; simp only [hv g' hg']
  · intro hm th n; rw [Thread.lane_writeP]; rfl
  · intro hm th n h7; rw [Thread.pred_writeP _ _ _ _ _ _ h7]; simp only [Tbl.get?]; split <;> rfl
  · intro hm th; simp
  · intro hm th; exact Thread.keeps_writeP _ _ _ _

end Sys2Proof.Machine
end

