-- ==== Sys2Proof/Laws/Sign.lean ====
section
/-! SUPPORT. The law of a signing that a packet completes: the word executes once, in a state in which the packet's
threads are signing and the register is fresh; and the law of the signers' retirement. -/

namespace Sys2Proof.Machine

/-! ## Signatures in order -/

theorem Conv.mem_sign (c : Conv) (g y : Sig) (h : ∀ z ∈ c.signed, z.t ≠ g.t) :
    y ∈ c.sign g ↔ y = g ∨ y ∈ c.signed := by
  simp only [Conv.sign, List.mem_append, List.mem_filter, List.mem_singleton, decide_eq_true_eq]
  constructor
  · rintro ((⟨h1, _⟩ | h1) | ⟨h1, _⟩) <;> simp_all
  · rintro (rfl | h1)
    · simp
    · have := h y h1
      rcases Nat.lt_or_gt_of_ne this with h2 | h2
      · exact .inl (.inl ⟨h1, h2⟩)
      · exact .inr ⟨h1, h2⟩

theorem Conv.sign_order (c : Conv) (g : Sig) (h : (c.signed.map (·.t)).Pairwise (· < ·)) :
    ((c.sign g).map (·.t)).Pairwise (· < ·) := by
  have sub : ∀ q : Sig → Bool, ((c.signed.filter q).map (·.t)).Pairwise (· < ·) := fun q =>
    h.sublist (List.Sublist.map _ List.filter_sublist)
  simp only [Conv.sign, List.map_append, List.map_cons, List.map_nil]
  rw [List.pairwise_append, List.pairwise_append]
  refine ⟨⟨sub _, by simp, ?_⟩, sub _, ?_⟩
  · intro a ha b hb
    simp only [List.mem_map, List.mem_filter, decide_eq_true_eq, List.mem_singleton] at ha hb
    obtain ⟨y, ⟨_, hy⟩, rfl⟩ := ha; subst hb; exact hy
  · intro a ha b hb
    simp only [List.mem_append, List.mem_map, List.mem_filter, decide_eq_true_eq, List.mem_singleton] at ha hb
    obtain ⟨z, ⟨_, hz⟩, rfl⟩ := hb
    rcases ha with ⟨y, ⟨_, hy⟩, rfl⟩ | rfl
    · exact lt_trans hy hz
    · exact hz

/-! ## One thread after another signs -/

/-- A group apart from where its threads stand and from its convergence registers. -/
def Group.bare (g : Group) : Group :=
  { g with threads := g.threads.map (fun (e : Nat × Thread) => (e.1, { e.2 with place := .ready })), conv := [] }

theorem Group.bare_liveNames {g g1 : Group} (h : g1.bare = g.bare) : g1.liveNames = g.liveNames := by
  have key : ∀ k : Group, k.liveNames = k.bare.liveNames := by
    intro k; simp only [Group.liveNames, Group.bare, List.any_map]; rfl
  rw [key g1, key g, h]

theorem Group.bare_place (g : Group) (x : Nat) (p : Place) (cv : List Conv) :
    ({ (g.onThread x (fun th => { th with place := p })) with conv := cv } : Group).bare = g.bare := by
  simp only [Group.bare, Group.onThread, Tbl.modify, List.map_map]
  congr 1
  apply List.map_congr_left
  intro e _
  simp only [Function.comp]; split <;> rfl

/-- Groups after changes to group j that leave it bare as it was. -/
def SameGroups (a b : Tbl Group) (j : Nat) : Prop := ∃ F : Group → Group, b = Tbl.modify a j F ∧ ∀ k, (F k).bare = k.bare

theorem SameGroups.refl (a : Tbl Group) (j : Nat) : SameGroups a a j :=
  ⟨fun k => k, by simp [Tbl.modify], fun _ => rfl⟩

theorem SameGroups.modify {a b : Tbl Group} {j : Nat} (h : SameGroups a b j) (F : Group → Group)
    (hF : ∀ k, (F k).bare = k.bare) : SameGroups a (Tbl.modify b j F) j := by
  obtain ⟨H, rfl, hH⟩ := h
  refine ⟨fun k => F (H k), ?_, fun k => (hF _).trans (hH k)⟩
  simp only [Tbl.modify, List.map_map]
  apply List.map_congr_left
  intro e _
  simp only [Function.comp]
  by_cases e1 : e.1 = j <;> simp [e1]

theorem SameGroups.onGroup {a : Tbl Group} {s : State} {j : Nat} {F : Group → Group} (h : SameGroups a s.groups j)
    (hF : ∀ k, (F k).bare = k.bare) : SameGroups a (s.onGroup j F).groups j := h.modify F hF

/-- The state after some threads of the packet have signed. -/
structure SignRun (s s1 : State) (g : Group) (c : Nat) (cv : Conv) (i : Instr) (h : Hd) (sh : Shape)
    (done : List Nat) : Prop where
  beside : s.Beside s1 s.cur.g
  rest : s1 = { s with groups := s1.groups }
  same : SameGroups s.groups s1.groups s.cur.g
  group : ∃ g1 S B, s1.grp s.cur.g = some g1 ∧
    g1 = { g with threads := g1.threads, conv := g.conv.set c { cv with signed := S, bound := B } } ∧
    (done = [] → B = cv.bound) ∧ (∀ b, B = some b → b.i = i ∧ b.hd = h ∧ b.at_ = s.cur.at_) ∧
    (done ≠ [] → B ≠ none) ∧
    (∀ y, y ∈ S ↔ y ∈ cv.signed ∨ ∃ x ∈ done, ∃ th, Tbl.get? g.threads x = some th ∧
      y = th.signature (g.inHandler x) x sh) ∧
    (S.map (·.t)).Pairwise (· < ·) ∧
    (∀ x ∈ done, ∀ th, Tbl.get? g.threads x = some th →
      Tbl.get? g1.threads x = some { th with place := .signing c }) ∧
    (∀ x, x ∉ done → Tbl.get? g1.threads x = Tbl.get? g.threads x) ∧
    Tbl.keys g1.threads = Tbl.keys g.threads

theorem signature_t (hm : Bool) (th : Thread) (x : Nat) (sh : Shape) : (th.signature hm x sh).t = x := rfl

theorem State.sign_fold {s : State} {g : Group} {c : Nat} {cv : Conv} {i : Instr} {h : Hd} {sh : Shape} {long : Bool}
    (C : s.Completes g c cv i h sh long) (hc : c = h.guard.toNat) :
    ∀ (rest done : List Nat) (s1 : State), SignRun s s1 g c cv i h sh done →
      (∀ x ∈ rest, x ∈ s.cur.tids) → (∀ x ∈ done, x ∈ s.cur.tids) → rest.Nodup → (∀ x ∈ rest, x ∉ done) →
      SignRun s (rest.foldl (fun s t => s.signOne i h sh long t) s1) g c cv i h sh (done ++ rest) := by
  intro rest
  induction rest with
  | nil => intro done s1 V _ _ _ _; simpa using V
  | cons x rest ih =>
    intro done s1 V hin hdn hnd hdis
    rw [List.foldl_cons]
    have key : SignRun s (s1.signOne i h sh long x) g c cv i h sh (done ++ [x]) := by
      obtain ⟨g1, S, B, hg1, hsame, hB0, hB1, hB2, hS, hord, hd, hn, hk⟩ := V.group
      have hx : x ∉ done := hdis x (by simp)
      have hxt := hin x (by simp)
      obtain ⟨th, hth⟩ := Option.isSome_iff_exists.mp (C.live x hxt)
      have hth1 : Tbl.get? g1.threads x = some th := by rw [hn x hx, hth]
      have hcur : s1.cur = s.cur := by rw [V.beside.rest]
      have hl : s1.launches = s.launches := by rw [V.beside.rest]
      have htm : s1.teams = s.teams := by rw [V.beside.rest]
      have hck : s1.checking g1 = s.checking g := by
        have e1 : g1.lseq = g.lseq := by rw [hsame]
        have e2 : g1.team = g.team := by rw [hsame]
        simp only [State.checking, State.launchOf, State.teamOf, hl, htm, e1, e2]
      have hih : g1.inHandler x = g.inHandler x := by
        have e : g1.handler = g.handler := by rw [hsame]
        simp only [Group.inHandler, e]
      have hoc : ∀ b n, g1.overCeiling b n = g.overCeiling b n := by
        intro b n; have e : g1.ceil = g.ceil := by rw [hsame]
        simp only [Group.overCeiling, e]
      have hlen : c < g.conv.length := by
        have := C.register; exact (List.getElem?_eq_some_iff.mp this).1
      have hcv : g1.conv.getD c (Conv.fresh []) = { cv with signed := S, bound := B } := by
        have e : g1.conv = g.conv.set c { cv with signed := S, bound := B } := by rw [hsame]
        rw [e]; simp [List.getD, hlen]
      have hmem : cv.members.contains x = true := by simpa using C.member x hxt
      have hceil := C.ceiling x hxt
      have hvio : (if s.checking g = true then th.violation (sh.uses none) else none) = none := by
        split
        · rename_i hck'; exact C.readable hck' x hxt th hth
        · rfl
      have hbnd : (B.elim false (fun b => decide (b.at_.pc ≠ s.cur.at_.pc))) = false := by
        cases hB : B with
        | none => rfl
        | some b => simp [(hB1 b hB).2.2]
      have htok : (long && decide (63 ≤ th.token s.cur.at_.tok)) = false := by
        cases hlg : long
        · rfl
        · have := C.tokens hlg x hxt th hth; simp; omega
      have hone : s1.signOne i h sh long x = s1.onGroup s.cur.g (fun gr =>
          { (gr.onThread x (fun th => { th with place := .signing c })) with
            conv := gr.conv.set c { ({ cv with signed := S, bound := B } : Conv) with
              signed := ({ cv with signed := S, bound := B } : Conv).sign (th.signature (g.inHandler x) x sh),
              bound := some (B.getD ⟨i, h, s.cur.at_, ⟨th.wd, s1.now g1.core⟩⟩) } }) := by
        have hg1' := hg1
        rw [State.grp_def] at hg1'
        simp only [State.signOne, hcur, hg1', hth1, hih, hoc, hceil, hck, hvio, ← hc, hcv, hmem, Bool.not_true,
          Bool.false_eq_true, if_false, hbnd, htok]
      rw [hone]
      refine ⟨V.beside.trans (State.Beside.onGroup _ _ _), ?_, ?_, ?_⟩
      · simp only [State.onGroup]; rw [V.rest]
      · refine V.same.onGroup (F := _) (fun k => ?_)
        exact Group.bare_place k x (.signing c) _
      have hSt : ∀ z ∈ ({ cv with signed := S, bound := B } : Conv).signed, z.t ≠ (th.signature (g.inHandler x) x sh).t := by
        intro z hz
        rcases (hS z).mp hz with hz | ⟨y, hy, th', _, rfl⟩
        · intro e; exact (C.fresh z hz).2 (by rw [e]; exact hxt)
        · intro e
          simp only [signature_t] at e
          exact hx (e ▸ hy)
      refine ⟨_, ({ cv with signed := S, bound := B } : Conv).sign (th.signature (g.inHandler x) x sh),
        some (B.getD ⟨i, h, s.cur.at_, ⟨th.wd, s1.now g1.core⟩⟩),
        by simp only [State.onGroup_grp, if_true, hg1, Option.map_some]; rfl, ?_, by simp, ?_, by simp, ?_, ?_, ?_, ?_, ?_⟩
      · have e : g1.conv = g.conv.set c { cv with signed := S, bound := B } := by rw [hsame]
        rw [hsame]
        simp only [Group.onThread, List.set_set]
      · intro b hb
        cases hB : B with
        | none =>
          simp only [hB, Option.getD_none, Option.some.injEq] at hb
          subst hb; exact ⟨rfl, rfl, rfl⟩
        | some b' =>
          simp only [hB, Option.getD_some, Option.some.injEq] at hb
          subst hb; exact hB1 b' hB
      · intro y
        rw [Conv.mem_sign _ _ _ hSt]
        simp only [hS, List.mem_append, List.mem_singleton]
        constructor
        · rintro (rfl | h1 | ⟨z, hz, th', h1, h2⟩)
          · exact .inr ⟨x, .inr rfl, th, hth, rfl⟩
          · exact .inl h1
          · exact .inr ⟨z, .inl hz, th', h1, h2⟩
        · rintro (h1 | ⟨z, hz | rfl, th', h1, h2⟩)
          · exact .inr (.inl h1)
          · exact .inr (.inr ⟨z, hz, th', h1, h2⟩)
          · rw [hth] at h1; cases h1; exact .inl h2
      · exact Conv.sign_order _ _ hord
      · intro y hy th' hth'
        simp only [List.mem_append, List.mem_singleton] at hy
        rcases hy with hy | rfl
        · have hne : x ≠ y := fun e => hx (e ▸ hy)
          simp [hne, hd y hy th' hth']
        · rw [hth] at hth'; cases hth'
          simp [hth1]
      · intro y hy
        simp only [List.mem_append, List.mem_singleton, not_or] at hy
        simp [Ne.symm hy.2, hn y hy.1]
      · dsimp only; rw [Group.onThread_keys]; exact hk
    have := ih (done ++ [x]) _ key (fun y hy => hin y (by simp [hy])) (by
        intro y hy
        simp only [List.mem_append, List.mem_singleton] at hy
        rcases hy with hy | rfl
        · exact hdn y hy
        · exact hin y (by simp)) (List.nodup_cons.mp hnd).2 (by
        intro y hy
        simp only [List.mem_append, List.mem_singleton, not_or]
        exact ⟨hdis y (by simp [hy]), fun e => (List.nodup_cons.mp hnd).1 (e ▸ hy)⟩)
    simpa using this

/-- A completed signing as the word's single execution meets it. -/
structure SignDone (s s1 : State) (g : Group) (c : Nat) (cv : Conv) (i : Instr) (h : Hd) (sh : Shape) (o : Once) :
    Prop where
  beside : s.Beside s1 s.cur.g
  rest : s1 = { s with groups := s1.groups }
  same : SameGroups s.groups s1.groups s.cur.g
  og : o.g = s.cur.g
  oat : o.at_ = s.cur.at_
  oi : o.i = i
  ohd : o.hd = h
  snap : o.snap = none
  sigs : ∀ y, y ∈ o.sigs ↔ y ∈ cv.signed ∨ ∃ x ∈ s.cur.tids, ∃ th, Tbl.get? g.threads x = some th ∧
      y = th.signature (g.inHandler x) x sh
  order : o.tids.Pairwise (· < ·)
  members : ∀ x, x ∈ o.tids ↔ x ∈ cv.members
  group : ∃ g1, s1.grp s.cur.g = some g1 ∧
    g1 = { g with threads := g1.threads, conv := g.conv.set c (Conv.fresh cv.members) } ∧
    (∀ x ∈ s.cur.tids, ∀ th, Tbl.get? g.threads x = some th →
      Tbl.get? g1.threads x = some { th with place := .signing c }) ∧
    (∀ x, x ∉ s.cur.tids → Tbl.get? g1.threads x = Tbl.get? g.threads x) ∧
    Tbl.keys g1.threads = Tbl.keys g.threads

/-- The law of a signing: the word executes once for the group, and what it answers decides what follows. -/
theorem State.sign_law {s : State} {g : Group} {c : Nat} {cv : Conv} {i : Instr} {h : Hd} {sh : Shape} {long : Bool}
    (run : Instr → Once → State → OnceRes) (C : s.Completes g c cv i h sh long) (hc : c = h.guard.toNat) :
    ∃ o s1, s.signPacket run i h sh long = o.after (run i o s1) ∧ SignDone s s1 g c cv i h sh o := by
  have hclean : s.scrub { sh with us := [] } = s :=
    State.scrub_clean C.group ⟨by simp, C.clean.2⟩
  have hlen : c < g.conv.length := (List.getElem?_eq_some_iff.mp C.register).1
  have hcv0 : g.conv[c]? = some cv := C.register
  have V0 : SignRun s s g c cv i h sh [] := by
    refine ⟨State.Beside.refl s _, rfl, SameGroups.refl _ _, g, cv.signed, cv.bound, C.group, ?_, fun _ => rfl, C.bound, by simp, by simp,
      C.order, by simp, by simp, rfl⟩
    have : g.conv.set c { cv with signed := cv.signed, bound := cv.bound } = g.conv := by
      obtain ⟨h1, h2⟩ := List.getElem?_eq_some_iff.mp hcv0
      rw [← h2]; exact List.set_getElem_self h1
    rw [this]
  have V := State.sign_fold C hc s.cur.tids [] s V0 (fun x h => h) (by simp) C.nodup (by simp)
  simp only [List.nil_append] at V
  set s2 := s.cur.tids.foldl (fun s t => s.signOne i h sh long t) s with hs2
  obtain ⟨g1, S, B, hg1, hsame, -, hB1, hB2, hS, hord, hd, hn, hk⟩ := V.group
  obtain ⟨b, hb⟩ := Option.ne_none_iff_exists'.mp (hB2 C.some_)
  obtain ⟨hbi, hbh, hba⟩ := hB1 b hb
  have hcur : s2.cur = s.cur := by rw [V.beside.rest]
  have hcv : g1.conv.getD c (Conv.fresh []) = { cv with signed := S, bound := B } := by
    have e : g1.conv = g.conv.set c { cv with signed := S, bound := B } := by rw [hsame]
    rw [e]; simp [List.getD, hlen]
  have hmemS : ∀ x, x ∈ S.map (·.t) ↔ x ∈ cv.members := by
    intro x
    simp only [List.mem_map]
    constructor
    · rintro ⟨y, hy, rfl⟩
      rcases (hS y).mp hy with hy | ⟨z, hz, th, _, rfl⟩
      · exact (C.fresh y hy).1
      · exact C.member z hz
    · intro hx
      rcases C.full x hx with h1 | ⟨y, hy, rfl⟩
      · obtain ⟨th, hth⟩ := Option.isSome_iff_exists.mp (C.live x h1)
        exact ⟨_, (hS _).mpr (.inr ⟨x, h1, th, hth, rfl⟩), rfl⟩
      · exact ⟨y, (hS y).mpr (.inl hy), rfl⟩
  have hfull : ({ cv with signed := S, bound := B } : Conv).full = true := by
    simp only [Conv.full, hb, Option.isSome_some, Bool.true_and, List.all_eq_true, List.any_eq_true, decide_eq_true_eq]
    intro x hx
    have := (hmemS x).mpr hx
    simpa using this
  refine ⟨⟨s.cur.g, b.at_, b.i, b.hd, S, b.watch, none⟩,
    s2.onGroup s.cur.g (fun gr => { gr with conv := gr.conv.set c (Conv.fresh cv.members) }), ?_, ?_⟩
  · simp only [State.signPacket, hclean, ← hs2, hcur, ← hc]
    have hg1' := hg1
    rw [State.grp_def] at hg1'
    simp only [State.completeSigning, hg1', hcv]
    rw [hb] at hfull
    simp only [hb, hfull, if_true, hbi]
  · refine ⟨V.beside.trans (State.Beside.onGroup _ _ _), by simp only [State.onGroup]; rw [V.rest],
      V.same.onGroup (F := _) (fun k => rfl), rfl, hba, hbi, hbh, rfl, hS, hord, hmemS, ?_⟩
    refine ⟨_, by simp only [State.onGroup_grp, if_true, hg1, Option.map_some]; rfl, ?_, ?_, ?_, ?_⟩
    · rw [hsame]; simp only [List.set_set]
    · exact hd
    · exact hn
    · exact hk

/-! ## The signers retire -/

/-- The state after some threads of a group have retired a word. -/
structure RetireRun (s s1 : State) (j : Nat) (g : Group) (h : Hd) (at_ : Ctx) (dead : List Nat) (done : List Nat) :
    Prop where
  beside : s.Beside s1 j
  group : ∃ g1, s1.grp j = some g1 ∧ g.SameBut g1 ∧
    (∀ y ∈ done, ∀ th, Tbl.get? g.threads y = some th →
      Tbl.get? g1.threads y = some (th.retire (g.inHandler y) h at_ dead)) ∧
    (∀ y, y ∉ done → Tbl.get? g1.threads y = Tbl.get? g.threads y)

theorem State.retire_fold {s : State} {j : Nat} {g : Group} {h : Hd} {at_ : Ctx} {dead : List Nat} :
    ∀ (rest done : List Nat) (s1 : State), RetireRun s s1 j g h at_ dead done → rest.Nodup → (∀ x ∈ rest, x ∉ done) →
      RetireRun s (s1.retireAll j rest h at_ dead) j g h at_ dead (done ++ rest) := by
  intro rest
  induction rest with
  | nil => intro done s1 V _ _; simpa [State.retireAll] using V
  | cons x rest ih =>
    intro done s1 V hnd hdis
    have key : RetireRun s (s1.retire j x h at_ dead) j g h at_ dead (done ++ [x]) := by
      obtain ⟨g1, hg1, hs, hd, hn⟩ := V.group
      have hx : x ∉ done := hdis x (by simp)
      refine ⟨V.beside.trans (State.retire_beside _ _ _), _, State.retire_grp h at_ dead hg1, ?_, ?_, ?_⟩
      · unfold Group.SameBut at hs ⊢; rw [hs]; rfl
      · intro y hy th hth
        simp only [List.mem_append, List.mem_singleton] at hy
        rcases hy with hy | rfl
        · have hne : x ≠ y := fun e => hx (e ▸ hy)
          simp [Group.onThread_get?, hne, hd y hy th hth]
        · simp only [Group.onThread_get?, if_true, hn y hx, hth, Option.map_some, Group.inHandler_sameBut hs]
      · intro y hy
        simp only [List.mem_append, List.mem_singleton, not_or] at hy
        simp [Group.onThread_get?, Ne.symm hy.2, hn y hy.1]
    have := ih (done ++ [x]) _ key (List.nodup_cons.mp hnd).2 (by
        intro y hy
        simp only [List.mem_append, List.mem_singleton, not_or]
        exact ⟨hdis y (by simp [hy]), fun e => (List.nodup_cons.mp hnd).1 (e ▸ hy)⟩)
    simpa [State.retireAll] using this

/-- The law of the signers' retirement. -/
theorem State.retireAll_law {s : State} {j : Nat} {g : Group} (h : Hd) (at_ : Ctx) (dead : List Nat) {tids : List Nat}
    (hg : s.grp j = some g) (hnd : tids.Nodup) :
    RetireRun s (s.retireAll j tids h at_ dead) j g h at_ dead tids := by
  have V0 : RetireRun s s j g h at_ dead [] := ⟨State.Beside.refl s _, g, hg, Group.SameBut.refl g, by simp, by simp⟩
  simpa using State.retire_fold tids [] s V0 hnd (by simp)

end Sys2Proof.Machine
end

