-- ==== Sys2Proof/Laws/Uniform.lean ====
section
/-! SUPPORT. The law of a word that executes once for its group and answers that its signers retire, and of the uniform
data forms. -/

namespace Sys2Proof.Machine

/-! ## Writing uniform registers -/

theorem Group.rs_ws (g : Group) (d n : Nat) (w : Word) : (g.ws d w).rs n = if d = n then w else g.rs n := by
  unfold Group.ws Group.rs
  cases hh : g.handler with
  | none => simp only [Tbl.getD_put]
  | some k =>
    by_cases hd : 112 ≤ d <;> by_cases hn : 112 ≤ n <;> simp only [hd, hn, if_true, if_false, Tbl.getD_put] <;>
      (by_cases e : d = n <;> simp_all)

theorem Group.ws_threads (g : Group) (d : Nat) (w : Word) (T : Tbl Thread) :
    ({ g with threads := T } : Group).ws d w = { g.ws d w with threads := T } := by
  unfold Group.ws
  cases hh : g.handler with
  | none => rfl
  | some k => by_cases hd : 112 ≤ d <;> simp [hd]

theorem Group.rs_threads (g : Group) (n : Nat) (T : Tbl Thread) : ({ g with threads := T } : Group).rs n = g.rs n := rfl

theorem Group.wsN_threads (ws : List Word) : ∀ (g : Group) (d : Nat) (T : Tbl Thread),
    ({ g with threads := T } : Group).wsN d ws = { g.wsN d ws with threads := T } := by
  induction ws with
  | nil => intro g d T; rfl
  | cons w r ih => intro g d T; rw [Group.wsN, Group.ws_threads, ih]; rfl

/-- Registers n upward with the words of a list. -/
def numbered : Nat → List Word → List (Nat × Word)
  | _, [] => []
  | n, w :: r => (n, w) :: numbered (n + 1) r

theorem numbered_low (ws : List Word) : ∀ d n, n < d → Tbl.get? (numbered d ws) n = none := by
  induction ws with
  | nil => intro d n _; rfl
  | cons w r ih => intro d n h; simp only [numbered, Tbl.get?]; rw [if_neg (by omega), ih _ _ (by omega)]

theorem Group.writes_ws (g : Group) (d : Nat) (w : Word) : g.Writes (g.ws d w) [(d, w)] := by
  refine ⟨?_, ?_, ?_⟩
  · unfold Group.ws; cases hh : g.handler with
    | none => simp
    | some k => by_cases hd : 112 ≤ d <;> simp [hd]
  · unfold Group.ws; cases hh : g.handler with
    | none => simp
    | some k => by_cases hd : 112 ≤ d <;> simp [hd]
  · intro n; rw [Group.rs_ws]; simp only [Tbl.get?]; split <;> rfl

theorem Group.writes_nil (g : Group) : g.Writes g [] := by
  refine ⟨rfl, ?_, fun n => rfl⟩
  cases hh : g.handler <;> simp

theorem Group.Writes.trans {a b c : Group} {U W : List (Nat × Word)} (h : a.Writes b U) (k : b.Writes c W) :
    a.Writes c (W ++ U) := by
  refine ⟨?_, ?_, ?_⟩
  · rw [k.1, h.1]
  · rw [k.2.1, h.2.1]; cases a.handler <;> simp
  · intro n; rw [k.2.2, h.2.2]
    have : ∀ (x y : List (Nat × Word)), Tbl.get? (x ++ y) n = (Tbl.get? x n).or (Tbl.get? y n) := by
      intro x y
      induction x with
      | nil => simp
      | cons e r ih => obtain ⟨p, v⟩ := e; simp only [List.cons_append, Tbl.get?, ih]; split <;> simp
    rw [this]; cases Tbl.get? W n <;> simp

theorem Group.writes_wsN (ws : List Word) : ∀ (g : Group) (d : Nat), g.Writes (g.wsN d ws) (numbered d ws) := by
  induction ws with
  | nil => intro g d; exact Group.writes_nil g
  | cons w r ih =>
    intro g d
    have h := (Group.writes_ws g d w).trans (ih (g.ws d w) (d + 1))
    refine ⟨h.1, h.2.1, ?_⟩
    intro n
    have := h.2.2 n
    simp only [Group.wsN] at this ⊢
    rw [this]
    have hap : Tbl.get? (numbered (d + 1) r ++ [(d, w)]) n = Tbl.get? (numbered d (w :: r)) n := by
      have : ∀ (x y : List (Nat × Word)), Tbl.get? (x ++ y) n = (Tbl.get? x n).or (Tbl.get? y n) := by
        intro x y
        induction x with
        | nil => simp
        | cons e r ih => obtain ⟨p, v⟩ := e; simp only [List.cons_append, Tbl.get?, ih]; split <;> simp
      rw [this]
      simp only [numbered, Tbl.get?]
      by_cases e : d = n
      · subst e; simp [numbered_low r (d + 1) d (by omega)]
      · simp [e]
    rw [hap]

/-! ## Reading uniform sources -/

theorem Once.read_law {o : Once} {us : List Nat} {s : State} {g : Group} (k : State → Group → OnceRes)
    (ho : o.snap = none) (hg : s.grp o.g = some g)
    (hc : ∀ n ∈ us, markKey g.handling n ∉ g.ssoft ∧ markKey g.handling n ∉ g.shard) (hs : g.Sound us) :
    o.read us s k = k s g := by
  have h1 : s.scrubUniforms o.g us = s := State.scrubUniforms_clean (by
    intro g' h; rw [hg] at h; cases h; exact hc)
  rw [State.grp_def] at hg
  simp only [Once.read, ho, h1, hg]
  unfold Group.Sound at hs
  rw [hs]

/-! ## The law of a word that ends in its signers' retirement -/

/-- The general law: where the execution of the word answers that it is done in a state s2, whose group is G but for its
threads, the members go on from there. -/
theorem State.once_done {s : State} {g : Group} {c : Nat} {cv : Conv} {i : Instr} {h : Hd} {sh : Shape} {long : Bool}
    {run : Instr → Once → State → OnceRes} {G : Group} {P : State → Prop}
    (C : s.Completes g c cv i h sh long) (hc : c = h.guard.toNat) (hdead : onceDead i = [])
    (hrun : ∀ o s1 T, SignDone s s1 g c cv i h sh o → s1.grp s.cur.g = some { g.executed c cv with threads := T } →
      Tbl.keys T = Tbl.keys g.threads →
      ∃ s2, run i o s1 = .done s2 ∧ P s2 ∧ s2.grp s.cur.g = some { G with threads := T })
    (hH : ∀ x, G.inHandler x = g.inHandler x) :
    ∃ s2 g', P s2 ∧ s2.Beside (s.signPacket run i h sh long) s.cur.g ∧
      (s.signPacket run i h sh long).grp s.cur.g = some g' ∧ G.SameBut g' ∧
      (∀ x, x ∉ cv.members → Tbl.get? g'.threads x = Tbl.get? g.threads x) ∧
      ∀ x ∈ cv.members, ∀ th, Tbl.get? g.threads x = some th →
        ∃ th', Tbl.get? g'.threads x = some th' ∧ th'.pc = s.cur.at_.next ∧ th'.place = .ready ∧
          (∀ n, th'.lane (g.inHandler x) n = th.lane (g.inHandler x) n) ∧
          (∀ n, n < 7 → th'.pred (g.inHandler x) n = th.pred (g.inHandler x) n) ∧ th'.rng = th.rng ∧ th.Keeps th' := by
  obtain ⟨o, s1, he, D⟩ := State.sign_law run C hc
  obtain ⟨g1, hg1, hg1e, hsig, hoth, hkeys⟩ := D.group
  have hex : g1 = { g.executed c cv with threads := g1.threads } := hg1e
  obtain ⟨s2, hr, hP, hg2⟩ := hrun o s1 g1.threads D (by rw [hg1]; exact congrArg some hex) hkeys
  rw [he, hr]
  simp only [Once.after, D.oi, hdead, D.og, D.oat, D.ohd]
  have hnd : o.tids.Nodup := D.order.imp (fun h => Nat.ne_of_lt h)
  have L := State.retireAll_law h s.cur.at_ [] hg2 hnd
  obtain ⟨g3, hg3, hs3, hd3, hn3⟩ := L.group
  refine ⟨s2, g3, hP, L.beside, hg3, ?_, ?_, ?_⟩
  · unfold Group.SameBut at hs3 ⊢; rw [hs3]
  · intro x hx
    have hxo : x ∉ o.tids := fun e => hx ((D.members x).mp e)
    rw [hn3 x hxo]
    exact hoth x (fun e => hx (C.member x e))
  · intro x hx th hth
    have hxo : x ∈ o.tids := (D.members x).mpr hx
    have hih : ({ G with threads := g1.threads } : Group).inHandler x = g.inHandler x := hH x
    have hpl : ∃ p, Tbl.get? g1.threads x = some { th with place := p } := by
      by_cases hxt : x ∈ s.cur.tids
      · exact ⟨_, hsig x hxt th hth⟩
      · exact ⟨th.place, by rw [hoth x hxt, hth]⟩
    obtain ⟨p, hp⟩ := hpl
    refine ⟨_, hd3 x hxo _ hp, rfl, rfl, ?_, ?_, ?_, ?_⟩
    · intro n
      rw [hih, Thread.lane_retire]
      simp only [List.not_mem_nil, and_false, if_false, Thread.lane_eq]; rfl
    · intro n hn
      rw [hih, Thread.pred_retire _ _ _ _ _ _ hn]
      simp only [Thread.pred_eq _ _ _ hn]; rfl
    · rw [hih, Thread.retire_rng]
    · exact Thread.Keeps.trans (u := { th with place := p }) rfl (Thread.keeps_retire _ _ _ _ _)

/-- The law of a word whose execution makes of s a state B and of its group G: the members go on from there. -/
theorem State.base_law {s B : State} {g : Group} {c : Nat} {cv : Conv} {i : Instr} {h : Hd} {sh : Shape} {long : Bool}
    {run : Instr → Once → State → OnceRes} {G : Group}
    (C : s.Completes g c cv i h sh long) (hc : c = h.guard.toNat) (hdead : onceDead i = []) (hB : B.cur = s.cur)
    (hrun : ∀ o s1 T, SignDone s s1 g c cv i h sh o → s1.grp s.cur.g = some { g.executed c cv with threads := T } →
      Tbl.keys T = Tbl.keys g.threads →
      ∃ s2, run i o s1 = .done s2 ∧ B.Beside s2 s.cur.g ∧ s2.grp s.cur.g = some { G with threads := T })
    (hH : ∀ x, G.inHandler x = g.inHandler x) :
    B.OnceResult (.next (s.signPacket run i h sh long)) g cv G := by
  obtain ⟨s2, g', hb, hb2, hg', hs, hn, hm⟩ := State.once_done (P := fun s2 => B.Beside s2 s.cur.g) (G := G)
    (run := run) C hc hdead hrun hH
  exact ⟨_, g', rfl, by rw [hB]; exact hb.trans hb2, by rw [hB]; exact hg', hs, hn, by rw [hB]; exact hm⟩

/-- The law of a word whose execution changes its group alone. -/
theorem State.once_law {s : State} {g : Group} {c : Nat} {cv : Conv} {i : Instr} {h : Hd} {sh : Shape} {long : Bool}
    {run : Instr → Once → State → OnceRes} {G : Group}
    (C : s.Completes g c cv i h sh long) (hc : c = h.guard.toNat) (hdead : onceDead i = [])
    (hrun : ∀ o s1 T, SignDone s s1 g c cv i h sh o → s1.grp s.cur.g = some { g.executed c cv with threads := T } →
      Tbl.keys T = Tbl.keys g.threads →
      ∃ F, run i o s1 = .done (s1.onGroup s.cur.g F) ∧ F { g.executed c cv with threads := T } = { G with threads := T })
    (hH : ∀ x, G.inHandler x = g.inHandler x) :
    s.OnceResult (.next (s.signPacket run i h sh long)) g cv G := by
  obtain ⟨s2, g', hb, hb2, hg', hs, hn, hm⟩ := State.once_done (P := fun s2 => s.Beside s2 s.cur.g) (G := G)
    (run := run) C hc hdead (by
      intro o s1 T D hg1 hk
      obtain ⟨F, hr, hF⟩ := hrun o s1 T D hg1 hk
      exact ⟨_, hr, D.beside.trans (State.Beside.onGroup _ _ _), by simp [hg1, hF]⟩) hH
  exact ⟨_, g', rfl, hb.trans hb2, hg', hs, hn, hm⟩

theorem Group.writes_inHandler {g G : Group} {U : List (Nat × Word)} (h : g.Writes G U) (x : Nat) :
    G.inHandler x = g.inHandler x := by
  simp only [Group.inHandler]
  rw [h.2.1]
  cases g.handler <;> simp

/-- The law of a uniform data form: what it writes from the group's uniform registers as the word finds them. -/
theorem State.uniform_law {s : State} {g : Group} {c : Nat} {cv : Conv} {i : Instr} {h : Hd} {sh : Shape} {d : Nat}
    {us : List Nat} {run : Instr → Once → State → OnceRes} {f : Once → Group → List Word} {ws : List Word}
    (C : s.Completes g c cv i h sh false) (hc : c = h.guard.toNat) (hdead : onceDead i = [])
    (hus : ∀ n ∈ us, n ∈ sh.us) (hs : g.Sound us)
    (hrun : ∀ o s1, o.g = s.cur.g → run i o s1 = o.read us s1 (fun s gr => .done (s.onGroup o.g (·.wsN d (f o gr)))))
    (hf : ∀ o s1, SignDone s s1 g c cv i h sh o → ∀ T, f o { g.executed c cv with threads := T } = ws) :
    s.UniformResult (.next (s.signPacket run i h sh false)) g c cv (numbered d ws) := by
  refine ⟨(g.executed c cv).wsN d ws, ?_, Group.writes_wsN ws _ _⟩
  refine State.once_law C hc hdead ?_ ?_
  · intro o s1 T D hg1 _
    refine ⟨fun gr => gr.wsN d ws, ?_, Group.wsN_threads _ _ _ _⟩
    rw [hrun o s1 D.og, Once.read_law (g := { g.executed c cv with threads := T }) _ D.snap (by rw [D.og]; exact hg1)
      (fun n hn => C.clean.1 n (hus n hn)) hs, D.og, hf o s1 D T]
  · intro x; rw [Group.writes_inHandler (Group.writes_wsN ws (g.executed c cv) d)]; rfl

end Sys2Proof.Machine
end

