-- ==== Sys2Proof/Laws/Barrier.lean ====
section
/-! SUPPORT. Laws of releases with nothing outstanding, of barrier updates and of the generation that an SFENCE
advances. -/

namespace Sys2Proof.Machine

/-! ## A release that has nothing to wait for -/

theorem State.advanceReq_done {s : State} {rid : Nat} {r : Req} (h : Tbl.get? s.reqs rid = some r) (hd : r.isDone = true) :
    s.advanceReq rid = s := by
  simp only [State.advanceReq, h, hd, Bool.true_or, if_true]

theorem State.drain_quiet {s : State} {j : Nat} {tids : List Nat}
    (h : ∀ e ∈ s.reqs, e.2.g = j → e.2.t ∈ tids → e.2.isDone = true ∧ Tbl.get? s.reqs e.1 = some e.2) :
    s.drainThreads j tids = s := by
  unfold State.drainThreads
  have key : ∀ l : List (Nat × Req), (∀ e ∈ l, e.2.isDone = true ∧ Tbl.get? s.reqs e.1 = some e.2) →
      l.foldl (fun s e => s.advanceReq e.1) s = s := by
    intro l
    induction l with
    | nil => intro _; rfl
    | cons e l ih =>
      intro hl
      obtain ⟨h1, h2⟩ := hl e (by simp)
      rw [List.foldl_cons, State.advanceReq_done h2 h1]
      exact ih (fun e he => hl e (by simp [he]))
  apply key
  intro e he
  simp only [List.mem_filter, Bool.and_eq_true, decide_eq_true_eq, List.contains_eq_mem] at he
  exact h e he.1 he.2.1 he.2.2

/-- A release at group or die scope with nothing left to perform changes nothing. -/
theorem State.releaseAt_quiet {s : State} {j scope : Nat} {tids : List Nat} (hs : scope < 2)
    (h : ∀ e ∈ s.reqs, e.2.g = j → e.2.t ∈ tids →
      e.2.isDone = true ∧ s.inFabric e.1 = false ∧ Tbl.get? s.reqs e.1 = some e.2) :
    s.releaseAt j tids scope = some s := by
  unfold State.releaseAt
  split
  · rfl
  · have hd : s.drained j tids = true := by
      simp only [State.drained, List.all_eq_true, Bool.or_eq_true, Bool.not_eq_true', Bool.and_eq_false_iff,
        beq_eq_false_iff_ne, List.contains_eq_mem, decide_eq_false_iff_not]
      intro e he
      by_cases h1 : e.2.g = j
      · by_cases h2 : e.2.t ∈ tids
        · exact .inl (by simp [(h e he h1 h2).1, (h e he h1 h2).2.1])
        · exact .inr (.inr h2)
      · exact .inr (.inl h1)
    simp only [State.drain_quiet (fun e he h1 h2 => ⟨(h e he h1 h2).1, (h e he h1 h2).2.2⟩), hd, if_true, State.releaseLines]
    rw [if_neg (by omega)]
    simp [hs]

/-! ## Barrier updates -/

theorem State.updateBar_eq (s : State) (t n : Nat) (f : Bar → Bar × Bool) :
    s.updateBar t n f = (if (f (s.bar t n)).2 then { s with
        teams := Tbl.modify s.teams t (fun tm => { tm with bars := tm.bars.set n (f (s.bar t n)).1 })
        groups := s.groups.map (fun (e : Nat × Group) =>
          if e.2.team = some t then (e.1, e.2.meet n) else e) }
      else { s with teams := Tbl.modify s.teams t (fun tm => { tm with bars := tm.bars.set n (f (s.bar t n)).1 }) }) := by
  unfold State.updateBar
  cases h : (f (s.bar t n)).2 <;> simp [h, State.onTeam]

/-- The barrier just written, read back. -/
theorem State.bar_updated {s : State} {t n : Nat} {f : Bar → Bar × Bool} {tm : Team} (ht : Tbl.get? s.teams t = some tm)
    (hn : n < tm.bars.length) : (s.updateBar t n f).bar t n = (f (s.bar t n)).1 := by
  have key : ∀ (u : State), u.teams = Tbl.modify s.teams t (fun tm => { tm with bars := tm.bars.set n (f (s.bar t n)).1 }) →
      u.bar t n = (f (s.bar t n)).1 := by
    intro u hu
    simp only [State.bar, hu, Tbl.get?_modify_self, ht, Option.map_some, Option.elim_some]
    simp [List.getD, hn]
  rw [State.updateBar_eq]; split <;> exact key _ rfl

/-- A group's target phase for a barrier, after it has been set. -/
theorem Group.tgtOf_setTgt (g : Group) (b : Nat) (v : Bool) (hb : b < 16) : (g.setTgt b v).tgtOf b = v := by
  have h2 : (BitVec.ofNat 16 (2 ^ b)).getLsbD b = true := by
    rw [BitVec.getLsbD_ofNat]; simp only [hb, decide_true, Bool.true_and, Nat.testBit_two_pow_self]
  cases v
  · simp only [Group.tgtOf, Group.setTgt, Bool.false_eq_true, if_false, BitVec.getLsbD_and, BitVec.getLsbD_not, h2,
      Bool.not_true, Bool.and_false]
  · simp only [Group.tgtOf, Group.setTgt, if_true, BitVec.getLsbD_or, h2, Bool.or_true]

/-- A form that names a barrier below the count reaches its effect. -/
theorem Once.onBar_law {o : Once} {us : List Nat} {s : State} {g : Group} {n tm : Nat}
    (k : State → Group → Nat → OnceRes) (ho : o.snap = none) (hg : s.grp o.g = some g)
    (hc : ∀ n ∈ us, markKey g.handling n ∉ g.ssoft ∧ markKey g.handling n ∉ g.shard) (hs : g.Sound us) (ht : g.team = some tm) (hb : n < s.barriers g) : o.onBar n us s k = k s g tm := by
  unfold Once.onBar
  rw [Once.read_law _ ho hg hc hs]
  simp only [ht, if_neg (Nat.not_le.mpr hb)]

end Sys2Proof.Machine
end

