-- ==== Sys2Proof/Laws/Canonical.lean ====
section
/-! SUPPORT. The shared operations that write memory keep its canonical form, one lemma each; the provers cite them
instead of unfolding the operations. -/

namespace Sys2Proof.Machine

/-- A choice of two machines, each with canonical memory. -/
theorem ite_wf {c : Prop} [Decidable c] {a b : State} (ha : a.mem.wf = true) (hb : b.mem.wf = true) :
    (if c then a else b).mem.wf = true := by
  by_cases h : c
  · rw [if_pos h]; exact ha
  · rw [if_neg h]; exact hb

theorem reset_mem_wf : State.reset.mem.wf = true := rfl

theorem dramWrite_wf (s : State) (pa : Nat) (bs : List Byte) (h : s.mem.wf = true) : (s.dramWrite pa bs).mem.wf = true :=
  Memory.wf_writeBytes _ _ _ h

theorem lineToDram_wf (s : State) (n : Nat) (l : Line) (h : s.mem.wf = true) : (s.lineToDram n l).mem.wf = true :=
  Memory.wf_writeBytes _ _ _ h

theorem mergeHome_wf (s : State) (n : Nat) (l : Line) (h : s.mem.wf = true) : (s.mergeHome n l).mem.wf = true := by
  simp only [State.mergeHome]
  split
  · exact h
  · exact lineToDram_wf _ _ _ h

theorem landLine_wf (s : State) (x n : Nat) (h : s.mem.wf = true) : (s.landLine x n).mem.wf = true := by
  simp only [State.landLine]
  split
  · exact h
  · split
    · exact h
    · split
      · exact lineToDram_wf _ _ _ h
      · exact mergeHome_wf _ _ _ h

theorem writeBackLine_wf (s : State) (x n : Nat) (h : s.mem.wf = true) : (s.writeBackLine x n).mem.wf = true :=
  ite_wf (landLine_wf _ _ _ h) h

theorem replicateQueue_mem (s : State) : s.replicateQueue.mem = s.mem := rfl

theorem windowWrite_mem (s : State) (off : Nat) (bs : List Byte) : (s.windowWrite off bs).mem = s.mem := by
  unfold State.windowWrite
  exact replicateQueue_mem _

theorem homeWriteFor_wf (s : State) (pa : Nat) (bs : List Byte) (k : Option Nat) (h : s.mem.wf = true) :
    (s.homeWriteFor pa bs k).mem.wf = true := by
  unfold State.homeWriteFor
  refine ite_wf (by rw [windowWrite_mem]; exact h) (ite_wf (dramWrite_wf _ _ _ h) ?_)
  dsimp only
  cases s.l2 (s.homeDie pa) (pa / 64) with
  | none => exact dramWrite_wf _ _ _ h
  | some l => exact h

theorem homeWrite_wf (s : State) (pa : Nat) (bs : List Byte) (h : s.mem.wf = true) : (s.homeWrite pa bs).mem.wf = true :=
  homeWriteFor_wf s pa bs none h

theorem devWrite_wf (s : State) (pa : Nat) (bs : List Byte) (h : s.mem.wf = true) : (s.devWrite pa bs).mem.wf = true := by
  unfold State.devWrite
  generalize linePieces bs.length pa bs.length = ps
  induction ps generalizing s with
  | nil => exact h
  | cons e ps ih => exact ih _ (homeWrite_wf s _ _ h)

theorem seal_wf (s t : State) (va : Nat) (h : s.mem.wf = true) (e : s.seal va = some t) : t.mem.wf = true := by
  simp only [State.seal, Option.map_eq_some_iff] at e
  obtain ⟨n, -, rfl⟩ := e
  exact devWrite_wf _ _ _ (ite_wf (devWrite_wf _ _ _ h) (devWrite_wf _ _ _ (devWrite_wf _ _ _ h)))

theorem unseal_wf (s : State) (va : Nat) (h : s.mem.wf = true) : (s.unseal va).mem.wf = true := by
  simp only [State.unseal]
  split
  · exact h
  · refine ite_wf ?_ h
    exact ite_wf (devWrite_wf _ _ _ (devWrite_wf _ _ _ (devWrite_wf _ _ _ h))) (devWrite_wf _ _ _ (devWrite_wf _ _ _ h))

theorem appendRecord_wf (s t : State) (l : Nat) (ws : List Word) (h : s.mem.wf = true) (e : s.appendRecord l ws = some t) :
    t.mem.wf = true := by
  simp only [State.appendRecord] at e
  split at e
  · cases e; exact h
  · split at e
    · cases e; exact h
    · split at e
      · cases e
      · cases e; exact devWrite_wf _ _ _ (devWrite_wf _ _ _ h)

theorem writeRecords_wf (g : Nat) (gr : Group) (rs : List FaultRec) : ∀ s : State, s.mem.wf = true →
    (s.writeRecords g gr rs).1.mem.wf = true := by
  induction rs with
  | nil => intro s h; exact h
  | cons r rest ih =>
    intro s h
    simp only [State.writeRecords]
    split
    · exact ih s h
    · split
      · next t e => exact ih t (appendRecord_wf _ _ _ _ h e)
      · exact h

theorem settleRecords_wf (s : State) (g : Nat) (h : s.mem.wf = true) : (s.settleRecords g).1.mem.wf = true := by
  simp only [State.settleRecords]
  split
  · exact h
  · exact writeRecords_wf _ _ _ s h

theorem statusWord_wf (s : State) (pa : Nat) (bs : List Byte) (h : s.mem.wf = true) : (s.statusWord pa bs).mem.wf = true :=
  devWrite_wf s pa bs h

theorem writeStatus_wf (s : State) (l : Nat) (h : s.mem.wf = true) : (s.writeStatus l).mem.wf = true := by
  unfold State.writeStatus
  generalize s.launches.get? l = o
  cases o with
  | none => exact h
  | some n =>
    exact statusWord_wf _ _ _ h

theorem setStatus_wf (s : State) (l : Nat) (f : Launch → Launch) (h : s.mem.wf = true) : (s.setStatus l f).mem.wf = true :=
  writeStatus_wf _ _ h

theorem spill_wf (s : State) (x : Nat) (r : SpawnRec) (h : s.mem.wf = true) : (s.spill x r).mem.wf = true := by
  unfold State.spill
  generalize s.launches.get? r.lseq = o
  cases o with
  | none => exact h
  | some n =>
    simp only
    generalize 32 * n.rc.spill * x = a
    generalize 32 * (n.spillPut.getD x 0 % n.rc.spill) = b
    exact devWrite_wf _ _ _ h

theorem setSlot_wf (s : State) (i status detail : Nat) (h : s.mem.wf = true) :
    (s.setSlot i status detail).mem.wf = true := by
  unfold State.setSlot
  exact statusWord_wf _ _ _ (statusWord_wf _ _ _ h)

theorem doneSlots_wf (slots : List Nat) : ∀ s : State, s.mem.wf = true → (s.doneSlots slots).mem.wf = true := by
  intro s h
  simp only [State.doneSlots]
  revert s
  induction slots with
  | nil => intro s h; exact h
  | cons i rest ih =>
    intro s h
    simp only [List.foldl_cons]
    split
    · exact ih s h
    · split
      · exact ih _ h
      · exact ih _ (setSlot_wf _ _ _ _ h)

theorem putBlock_wf (s t : State) (l : Nat) (p : Preempt) (bs : List Byte) (h : s.mem.wf = true)
    (e : s.putBlock l p bs = some t) : t.mem.wf = true := by
  simp only [State.putBlock] at e
  split at e
  · cases e
  · cases e; exact devWrite_wf _ _ _ h

theorem appendDiag_wf (s t : State) (l i : Nat) (bs : List Byte) (h : s.mem.wf = true)
    (e : s.appendDiag l bs = some (t, i)) : t.mem.wf = true := by
  simp only [State.appendDiag] at e
  split at e
  · cases e; exact h
  · split at e
    · cases e; exact h
    · split at e
      · cases e
      · cases e; exact devWrite_wf _ _ _ (devWrite_wf _ _ _ h)

end Sys2Proof.Machine
end

