-- ==== Sys2Proof/Laws/Decode.lean ====
section
/-! SUPPORT. The fields of a packed instruction word (R19, R20): each is read back as it was packed. -/

namespace Sys2Proof
theorem packWord_bit (h f op i) : (packWord h f op).getLsbD i =
    if i < 6 then op.getLsbD i else if i < 27 then f.bits.getLsbD (i - 6)
    else if i < 30 then h.guard.getLsbD (i - 27) else h.stall.getLsbD (i - 30) := by
  change BitVec.getLsbD (w := 2 + 3 + 21 + 6) (h.stall ++ h.guard ++ f.bits ++ op) i = _
  simp only [BitVec.getLsbD_append]
  split <;> [rfl; skip]
  split <;> split <;> (try omega) <;> (try split) <;> (try split) <;> (try omega) <;> congr 1
theorem opOf_pack (h f op) : opOf (packWord h f op) = op := by
  simp only [opOf]; ext i hi; simp [BitVec.getElem_extractLsb', packWord_bit, hi, BitVec.getLsbD_eq_getElem]
theorem opsOf_pack (h f op) : opsOf (packWord h f op) = f := by
  cases f with | mk b =>
  simp only [opsOf, Ops21.mk.injEq]; ext i hi
  have h1 : ¬ (6 + i < 6) := by omega
  have h2 : 6 + i < 27 := by omega
  simp [BitVec.getElem_extractLsb', packWord_bit, h2, BitVec.getLsbD_eq_getElem, hi]
theorem hdOf_pack (h f op) : hdOf (packWord h f op) = h := by
  cases h with | mk s g =>
  simp only [hdOf, Hd.mk.injEq]
  constructor <;> ext i hi
  · have h1 : ¬ (30 + i < 6) := by omega
    have h2 : ¬ 30 + i < 27 := by omega
    simp [BitVec.getElem_extractLsb', packWord_bit, h1, h2, BitVec.getLsbD_eq_getElem, hi]
  · have h1 : ¬ (27 + i < 6) := by omega
    have h2 : 27 + i < 30 := by omega
    simp [BitVec.getElem_extractLsb', packWord_bit, h1, h2, BitVec.getLsbD_eq_getElem, hi]

end Sys2Proof
end

