-- ==== Sys2Proof/Laws/Device.lean ====
section
/-! SUPPORT. The device's own reads and writes where no L2 holds a line: a write touches its bytes in DRAM and nothing
else, and a read gives what stands there; the provers cite these instead of unfolding the pieces. -/

namespace Sys2Proof.Machine

/-- The bytes of a memory, one by one. -/
theorem Memory.readBytes_eq (m : Memory) (n : Nat) : ∀ a, m.readBytes a n = (List.range n).map (fun i => m.read (a + i)) := by
  induction n with
  | zero => intro a; rfl
  | succ n ih =>
    intro a
    rw [Memory.readBytes, ih, List.range_succ_eq_map, List.map_cons, List.map_map]
    exact congrArg (_ :: ·) (List.map_congr_left fun i _ => congrArg m.read (by simp only [Nat.succ_eq_add_one]; omega))

/-- The pieces of an access stand within it, each within a line, and none is empty. -/
theorem linePieces_within (f : Nat) : ∀ a n, ∀ e ∈ linePieces f a n, a ≤ e.1 ∧ e.1 + e.2 ≤ a + n ∧ e.1 % 64 + e.2 ≤ 64 ∧ 0 < e.2 := by
  induction f with
  | zero => intro a n e he; simp [linePieces] at he
  | succ f ih =>
    intro a n e he
    cases n with
    | zero => simp [linePieces] at he
    | succ n =>
      simp only [linePieces, List.mem_cons] at he
      rcases he with rfl | he
      · simp only; omega
      · have := ih _ _ e he; omega

/-- A write at a home without a line in an L2, outside the register window, goes to DRAM. -/
theorem homeWrite_dram (s : State) (pa : Nat) (bs : List Byte) (h : paSpace pa ≠ 2) (l : ∀ x n, s.l2 x n = none) :
    s.homeWrite pa bs = s.dramWrite pa bs := by
  unfold State.homeWrite State.homeWriteFor
  rw [if_neg h]
  by_cases k : paSpace pa = 1
  · rw [if_pos k]
  · rw [if_neg k]; simp only [l]

/-- A write of the device changes its bytes of memory and nothing else. -/
theorem devWrite_only (s : State) (pa : Nat) (bs : List Byte) (wf : s.mem.wf = true) (l : ∀ x n, s.l2 x n = none)
    (h : ∀ a, pa ≤ a → a < pa + bs.length → paSpace a ≠ 2) :
    s.devWrite pa bs = { s with mem := (s.devWrite pa bs).mem, memBad := (s.devWrite pa bs).memBad } ∧
    ∀ a, a < pa ∨ pa + bs.length ≤ a → (s.devWrite pa bs).mem.read a = s.mem.read a := by
  have fold : ∀ (ps : List (Nat × Nat)) (t : State), (∀ e ∈ ps, e ∈ linePieces bs.length pa bs.length) → t.mem.wf = true →
      (∀ x n, t.l2 x n = none) →
      let u := ps.foldl (fun s e => s.homeWrite e.1 ((bs.drop (e.1 - pa)).take e.2)) t
      u = { t with mem := u.mem, memBad := u.memBad } ∧ ∀ a, a < pa ∨ pa + bs.length ≤ a → u.mem.read a = t.mem.read a := by
    intro ps
    induction ps with
    | nil => exact fun t _ _ _ => ⟨rfl, fun _ _ => rfl⟩
    | cons e ps ih =>
      intro t hp wf l
      have hw := linePieces_within _ _ _ e (hp e (List.mem_cons_self ..))
      have one : t.homeWrite e.1 ((bs.drop (e.1 - pa)).take e.2) = t.dramWrite e.1 ((bs.drop (e.1 - pa)).take e.2) :=
        homeWrite_dram t _ _ (h e.1 hw.1 (by omega)) l
      have r := ih (t.dramWrite e.1 ((bs.drop (e.1 - pa)).take e.2)) (fun x hx => hp x (List.mem_cons_of_mem _ hx))
        (dramWrite_wf _ _ _ wf) l
      simp only [List.foldl_cons, one]
      refine ⟨r.1, fun a ha => (r.2 a ha).trans ?_⟩
      exact Memory.read_writeBytes_out _ _ _ _ wf (by
        have := List.length_take_le e.2 (bs.drop (e.1 - pa))
        omega)
  exact fold _ s (fun _ h => h) wf l

/-- What the home reads where no L2 holds the line stands in DRAM. -/
theorem homeRead_dram (s : State) (pa n : Nat) (h : paSpace pa ≠ 2) (l : ∀ x m, s.l2 x m = none) (k : pa % 64 + n ≤ 64) :
    (s.homeRead pa n).1 = (List.range n).map (fun i => s.mem.read (pa + i)) := by
  unfold State.homeRead
  rw [if_neg h]
  split
  · exact Memory.readBytes_eq _ _ _
  · simp only [State.homeLine, l, State.dramLine, Memory.readBytes_eq]
    apply List.ext_getElem
    · simp only [List.length_take, List.length_drop, List.length_map, List.length_range]; omega
    · intro i _ _
      simp only [List.getElem_take, List.getElem_drop, List.getElem_map, List.getElem_range]
      exact congrArg s.mem.read (by omega)

/-- The device reads the same number from two machines whose memories agree on its bytes. -/
theorem devNat_congr (s t : State) (pa n : Nat) (hs : ∀ x m, s.l2 x m = none) (ht : ∀ x m, t.l2 x m = none)
    (h : ∀ a, pa ≤ a → a < pa + n → paSpace a ≠ 2 ∧ t.mem.read a = s.mem.read a) : t.devNat pa n = s.devNat pa n := by
  unfold State.devNat State.devRead
  refine congrArg bytesToNat (congrArg List.flatten (List.map_congr_left fun e he => ?_))
  obtain ⟨h1, h2, h3, h4⟩ := linePieces_within _ _ _ e he
  have hp := (h e.1 h1 (by omega)).1
  rw [homeRead_dram t _ _ hp ht h3, homeRead_dram s _ _ hp hs h3]
  exact List.map_congr_left fun i hi => (h (e.1 + i) (by omega) (by have := List.mem_range.mp hi; omega)).2

end Sys2Proof.Machine
end

