-- ==== Sys2Proof/Tests/Slice0.lean ====
section
/-! SUPPORT. The model's own tests: ill-formed terms that the check refuses, words written out from the spec's
encodings, small steps with results worked out from the spec, and a state and operands that meet the hypotheses of
each statement. -/

open Sys2Proof Sys2Proof.Machine Sys2Proof.Claims

/- One theorem is checked after another: many at once take much memory. -/
set_option Elab.async false

namespace Sys2Proof.Tests

/-- A well-formed word has none of these: an ill-formed term for each check of the fields, literals and access words
(R21, R25, R61, R63, R64, R84, R86, R94, R99, R102, R104, R105, R125, R139, R152). -/
theorem test_ill_formed_uniform : ∀ i ∈ ([.slea ⟨0, 0⟩ 1 2 3, .slea ⟨0, 0⟩ 2 1 3, .sadd64 ⟨0, 0⟩ 1 2 4, .sadd64 ⟨0, 0⟩ 2 1 4,
    .sadd64 ⟨0, 0⟩ 2 4 1, .srd ⟨0, 0⟩ 0 20, .srd ⟨0, 0⟩ 1 9, .srd ⟨0, 0⟩ 1 18, .sbfe ⟨0, 0⟩ 0 0 0, .sbfe ⟨0, 0⟩ 0 0 (33 * 32),
    .sbfe ⟨0, 0⟩ 0 0 (2 * 32 + 31), .sbfe ⟨0, 0⟩ 0 0 (0x1000 + 32), .cseta ⟨0, 0⟩ 8, .csetp ⟨0, 0⟩ 8 0, .csetp ⟨0, 0⟩ 0 8,
    .barinit ⟨0, 0⟩ 16 0 0, .bararr ⟨0, 0⟩ 16, .barwait ⟨0, 0⟩ 16, .bararrw ⟨0, 0⟩ 16, .waitany ⟨0, 0⟩ 0 0 2,
    .barrd ⟨0, 0⟩ 2 0, .barrd ⟨0, 0⟩ 4 16, .regrd ⟨0, 0⟩ 6, .relv ⟨0, 0⟩ 100 29, .relv ⟨0, 0⟩ 100 0] : List Instr),
    i.wf = false := by decide

/-- The same for the vector words. -/
theorem test_ill_formed_vector : ∀ i ∈ ([.vbfe ⟨0, 7⟩ 0 0 0, .vcmp ⟨0, 7⟩ 96 0 0, .vcmps ⟨0, 7⟩ 96 0 0, .pand ⟨0, 7⟩ 8 0 0,
    .pand ⟨0, 7⟩ 0 8 0, .pand ⟨0, 7⟩ 0 0 8, .por ⟨0, 7⟩ 8 0 0, .pxor ⟨0, 7⟩ 0 8 0, .pnot ⟨0, 7⟩ 8 0, .pnot ⟨0, 7⟩ 0 8,
    .vadd64 ⟨0, 7⟩ 1 2 4, .vadd64 ⟨0, 7⟩ 2 1 4, .vadd64 ⟨0, 7⟩ 2 4 1, .vfcmp ⟨0, 7⟩ 64 0 0, .cvt ⟨0, 7⟩ 0 0 0 0x00F,
    .cvt ⟨0, 7⟩ 0 0 0 0x0F0, .cvt ⟨0, 7⟩ 0 0 0 0x800, .cvt ⟨0, 7⟩ 0 0 0 0x400, .cvt ⟨0, 7⟩ 0 0 1 0x010,
    .cvtsr ⟨0, 7⟩ 0 0 0 0x100, .srseed ⟨0, 7⟩ 1, .srrd ⟨0, 7⟩ 1, .vhadd ⟨0, 7⟩ 0 0 0 8, .vhmul ⟨0, 7⟩ 0 0 0 8,
    .vhfma ⟨0, 7⟩ 0 0 0 8, .vhmax ⟨0, 7⟩ 0 0 0 2, .gballot ⟨0, 0⟩ 4 0, .gballot ⟨0, 0⟩ 8 8, .gpref ⟨0, 0⟩ 0 8,
    .gcnt ⟨0, 0⟩ 0 8, .gred ⟨0, 0⟩ 0 0 11, .gred ⟨0, 0⟩ 0 0 16, .gred ⟨0, 0⟩ 0 0 32, .gmaxi ⟨0, 0⟩ 1 0 0, .gmaxi ⟨0, 0⟩ 0 0 5,
    .gscan ⟨0, 0⟩ 0 0 32] : List Instr), i.wf = false := by decide

/-- The same for the memory words: width, order, scope, flags, offset and the shapes of registers. -/
theorem test_ill_formed_memory : ∀ i ∈ ([.ld ⟨0, 7⟩ 0 0 5, .ld ⟨0, 7⟩ 0 0 0x012, .ld ⟨0, 7⟩ 0 0 0x142, .ld ⟨0, 7⟩ 0 0 0x202,
    .ld ⟨0, 7⟩ 0 1 2, .ld ⟨0, 7⟩ 1 0 3, .ld ⟨0, 7⟩ 2 0 4, .ld ⟨0, 7⟩ 0 0 0x842, .ldx ⟨0, 7⟩ 0 1 0 2, .st ⟨0, 7⟩ 0 0 0x00A,
    .stx ⟨0, 7⟩ 1 0 0 3, .atomadd ⟨0, 7⟩ 0 0 0 1, .atomfadd ⟨0, 7⟩ 0 0 0 3, .atommin ⟨0, 7⟩ 1 0 0 3, .atomcas ⟨0, 7⟩ 0 0 1 2,
    .atomcas ⟨0, 7⟩ 0 0 2 3, .fence ⟨0, 7⟩ 0, .fence ⟨0, 7⟩ 0x1008, .sfence ⟨0, 7⟩ 8, .seal ⟨0, 7⟩ 1 0 0, .seal ⟨0, 7⟩ 0 1 0,
    .unseal ⟨0, 7⟩ 1 0 0, .pref ⟨0, 7⟩ 2 0 0, .pref ⟨0, 7⟩ 0 1 0, .rclaim ⟨0, 7⟩ 1 0 0 3, .rclaim ⟨0, 7⟩ 0 0 0 2,
    .rcommit ⟨0, 7⟩ 0 1 0 3, .rcommit ⟨0, 7⟩ 0 0 0 0x00B, .rawait ⟨0, 7⟩ 0 0 0 0x013, .rretire ⟨0, 7⟩ 1 0 3, .putq ⟨0, 7⟩ 0 1 0 0,
    .putq ⟨0, 7⟩ 0 0 0 3] : List Instr), i.wf = false := by decide

/-- The same for the engine, control and system words. -/
theorem test_ill_formed_other : ∀ i ∈ ([.tmma ⟨0, 0⟩ 0 false 0 1 0, .tmma ⟨0, 0⟩ 0 false 0 0 2, .tmmat ⟨0, 0⟩ 0 false 0 1 0,
    .accst ⟨0, 0⟩ 0 0 1, .accld ⟨0, 0⟩ 0 false 0 2, .accadd ⟨0, 0⟩ 0 false 8, .cpy ⟨0, 0⟩ 0 1 0, .gath ⟨0, 0⟩ 0 0 17,
    .scat ⟨0, 0⟩ 0 8 0, .coll ⟨0, 0⟩ 0 16 0, .engrd ⟨0, 0⟩ 2 0, .lpad ⟨0, 6⟩ 0 0, .spawn ⟨0, 7⟩ 0 5 0 127 false 0,
    .spawnb ⟨0, 7⟩ 7 0 127 false 0, .joinw ⟨0, 7⟩ 1, .cjoin ⟨0, 0⟩ 8, .tlbinv ⟨0, 7⟩ 1 0, .cinv ⟨0, 7⟩ 0 1 0, .perfrd ⟨0, 7⟩ 1 0, .perfrd ⟨0, 7⟩ 0 16, .stkrd ⟨0, 7⟩ 1 0, .cycrd ⟨0, 7⟩ 1, .eccrd ⟨0, 7⟩ 2 0] :
    List Instr), i.wf = false := by decide

/-- Class 0: words written out from the spec's encodings (R19, R20, R24, R31, R36, R37, R76). -/
theorem test_decode_uniform_1 : ∀ e ∈ ([
    (0x00C10000, 0x00000000, .smov ⟨0, 0⟩ 12 8),
    (0x48C00001, 0x00000144, .smovl ⟨1, 1⟩ 12 0x144),
    (0x90C10502, 0x00000000, .sadd ⟨2, 2⟩ 12 8 20),
    (0xD8C10003, 0x00000144, .saddl ⟨3, 3⟩ 12 8 0x144),
    (0x20C10504, 0x00000000, .ssub ⟨0, 4⟩ 12 8 20),
    (0x68C10505, 0x00000000, .smul ⟨1, 5⟩ 12 8 20),
    (0xB0C10506, 0x00000000, .smulhi ⟨2, 6⟩ 12 8 20),
    (0xC0C10507, 0x00000000, .smulhin ⟨3, 0⟩ 12 8 20),
    (0x08C10508, 0x00000000, .sand ⟨0, 1⟩ 12 8 20),
    (0x50C10509, 0x00000000, .sor ⟨1, 2⟩ 12 8 20),
    (0x98C1050A, 0x00000000, .sxor ⟨2, 3⟩ 12 8 20),
    (0xE0C1050B, 0x00000000, .sshl ⟨3, 4⟩ 12 8 20),
    (0x28C1050C, 0x00000000, .sshr ⟨0, 5⟩ 12 8 20),
    (0x70C1050D, 0x00000000, .ssar ⟨1, 6⟩ 12 8 20),
    (0x80C1050E, 0x00000000, .smin ⟨2, 0⟩ 12 8 20),
    (0xC8C1050F, 0x00000000, .smax ⟨3, 1⟩ 12 8 20),
    (0x10C10510, 0x00000000, .sminn ⟨0, 2⟩ 12 8 20),
    (0x58C10511, 0x00000000, .smaxn ⟨1, 3⟩ 12 8 20),
    (0xA0C10512, 0x00000000, .sceq ⟨2, 4⟩ 12 8 20),
    (0xE8C10513, 0x00000000, .scne ⟨3, 5⟩ 12 8 20)] : List (Word × Word × Instr)),
    decodeLegal 0 e.1 e.2.1 = some e.2.2 := by decide

/-- Class 0: words written out from the spec's encodings (R19, R20, R24, R31, R36, R37, R76). -/
theorem test_decode_uniform_2 : ∀ e ∈ ([
    (0x30C10514, 0x00000000, .sclt ⟨0, 6⟩ 12 8 20),
    (0x40C10515, 0x00000000, .scle ⟨1, 0⟩ 12 8 20),
    (0x88C10516, 0x00000000, .scltn ⟨2, 1⟩ 12 8 20),
    (0xD0C10517, 0x00000000, .sclen ⟨3, 2⟩ 12 8 20),
    (0x18C10518, 0x00000000, .ssel ⟨0, 3⟩ 12 8 20),
    (0x60C10519, 0x00000000, .slea ⟨1, 4⟩ 12 8 20),
    (0xA8C1051A, 0x00000000, .sadd64 ⟨2, 5⟩ 12 8 20),
    (0xF0C1001B, 0x00000000, .sclz ⟨3, 6⟩ 12 8),
    (0x00C1001C, 0x00000000, .spop ⟨0, 0⟩ 12 8),
    (0x48C0025D, 0x00000000, .srd ⟨1, 1⟩ 12 9),
    (0x9001051E, 0x00000000, .swr ⟨2, 2⟩ 8 20),
    (0xD8C1001F, 0x00000974, .sbfe ⟨3, 3⟩ 12 8 0x974),
    (0x20500020, 0x00000000, .cseta ⟨0, 4⟩ 5),
    (0x6850C021, 0x00000000, .csetp ⟨1, 5⟩ 5 6),
    (0xB0B10522, 0x00000000, .barinit ⟨2, 6⟩ 11 8 20),
    (0xC0B00023, 0x00000000, .bararr ⟨3, 0⟩ 11),
    (0x08B00024, 0x00000000, .barwait ⟨0, 1⟩ 11),
    (0x50B00025, 0x00000000, .bararrw ⟨1, 2⟩ 11),
    (0x98C10066, 0x00000000, .waitany ⟨2, 3⟩ 12 8 1),
    (0xE0C12027, 0x00000000, .barrd ⟨3, 4⟩ 12 9)] : List (Word × Word × Instr)),
    decodeLegal 0 e.1 e.2.1 = some e.2.2 := by decide

/-- Class 0: words written out from the spec's encodings (R19, R20, R24, R31, R36, R37, R76). -/
theorem test_decode_uniform_3 : ∀ e ∈ ([
    (0x28000528, 0x00000000, .regrel ⟨0, 5⟩ 20),
    (0x70000529, 0x00000000, .regclm ⟨1, 6⟩ 20),
    (0x80C0002A, 0x00000000, .regrd ⟨2, 0⟩ 12),
    (0xC800002B, 0x00000000, .dbar ⟨3, 1⟩),
    (0x1001052C, 0x00000000, .relv ⟨0, 2⟩ 8 20)] : List (Word × Word × Instr)),
    decodeLegal 0 e.1 e.2.1 = some e.2.2 := by decide

/-- Class 1: words written out from the spec's encodings (R19, R20, R24, R31, R36, R37, R76). -/
theorem test_decode_vector_1 : ∀ e ∈ ([
    (0x58C10000, 0x00000000, .vmov ⟨1, 3⟩ 12 8),
    (0xA0C00001, 0x00000144, .vmovl ⟨2, 4⟩ 12 0x144),
    (0xE8C10002, 0x00000000, .vmovs ⟨3, 5⟩ 12 8),
    (0x30C10503, 0x00000000, .vadd ⟨0, 6⟩ 12 8 20),
    (0x40C10504, 0x00000000, .vadds ⟨1, 0⟩ 12 8 20),
    (0x88C10005, 0x00000144, .vaddl ⟨2, 1⟩ 12 8 0x144),
    (0xD0C10506, 0x00000000, .vsub ⟨3, 2⟩ 12 8 20),
    (0x18C10507, 0x00000000, .vmul ⟨0, 3⟩ 12 8 20),
    (0x60C10508, 0x00000000, .vmulhi ⟨1, 4⟩ 12 8 20),
    (0xA8C10509, 0x00000000, .vmulhin ⟨2, 5⟩ 12 8 20),
    (0xF0C1050A, 0x00000000, .vmad ⟨3, 6⟩ 12 8 20),
    (0x00C1050B, 0x00000000, .vand ⟨0, 0⟩ 12 8 20),
    (0x48C1050C, 0x00000000, .vor ⟨1, 1⟩ 12 8 20),
    (0x90C1050D, 0x00000000, .vxor ⟨2, 2⟩ 12 8 20),
    (0xD8C1050E, 0x00000000, .vshl ⟨3, 3⟩ 12 8 20),
    (0x20C1050F, 0x00000000, .vshr ⟨0, 4⟩ 12 8 20),
    (0x68C10510, 0x00000000, .vsar ⟨1, 5⟩ 12 8 20),
    (0xB0C10511, 0x00000000, .vmin ⟨2, 6⟩ 12 8 20),
    (0xC0C10512, 0x00000000, .vmax ⟨3, 0⟩ 12 8 20),
    (0x08C10513, 0x00000000, .vminn ⟨0, 1⟩ 12 8 20)] : List (Word × Word × Instr)),
    decodeLegal 1 e.1 e.2.1 = some e.2.2 := by decide

/-- Class 1: words written out from the spec's encodings (R19, R20, R24, R31, R36, R37, R76). -/
theorem test_decode_vector_2 : ∀ e ∈ ([
    (0x50C10514, 0x00000000, .vmaxn ⟨1, 2⟩ 12 8 20),
    (0x98C10015, 0x00000000, .vclz ⟨2, 3⟩ 12 8),
    (0xE0C10016, 0x00000000, .vpop ⟨3, 4⟩ 12 8),
    (0x28C10017, 0x00000974, .vbfe ⟨0, 5⟩ 12 8 0x974),
    (0x71110518, 0x00000000, .vcmp ⟨1, 6⟩ 17 8 20),
    (0x81110519, 0x00000000, .vcmps ⟨2, 0⟩ 17 8 20),
    (0xC8C1051A, 0x00000000, .vsel ⟨3, 1⟩ 12 8 20),
    (0x1050C0DB, 0x00000000, .pand ⟨0, 2⟩ 5 6 3),
    (0x5850C0DC, 0x00000000, .por ⟨1, 3⟩ 5 6 3),
    (0xA050C0DD, 0x00000000, .pxor ⟨2, 4⟩ 5 6 3),
    (0xE850C01E, 0x00000000, .pnot ⟨3, 5⟩ 5 6),
    (0x30C1051F, 0x00000000, .vadd64 ⟨0, 6⟩ 12 8 20),
    (0x40C10520, 0x00000000, .vfadd ⟨1, 0⟩ 12 8 20),
    (0x88C10521, 0x00000000, .vfsub ⟨2, 1⟩ 12 8 20),
    (0xD0C10522, 0x00000000, .vfmul ⟨3, 2⟩ 12 8 20),
    (0x18C10523, 0x00000000, .vfma ⟨0, 3⟩ 12 8 20),
    (0x60C10524, 0x00000000, .vfmas ⟨1, 4⟩ 12 8 20),
    (0xA8C10525, 0x00000000, .vfmin ⟨2, 5⟩ 12 8 20),
    (0xF0C10526, 0x00000000, .vfmax ⟨3, 6⟩ 12 8 20),
    (0x03910527, 0x00000000, .vfcmp ⟨0, 0⟩ 57 8 20)] : List (Word × Word × Instr)),
    decodeLegal 1 e.1 e.2.1 = some e.2.2 := by decide

/-- Class 1: words written out from the spec's encodings (R19, R20, R24, R31, R36, R37, R76). -/
theorem test_decode_vector_3 : ∀ e ∈ ([
    (0x48C10028, 0x00000000, .vfrcp ⟨1, 1⟩ 12 8),
    (0x90C10029, 0x00000000, .vfrsq ⟨2, 2⟩ 12 8),
    (0xD8C1002A, 0x00000000, .vfsqrt ⟨3, 3⟩ 12 8),
    (0x20C1002B, 0x00000000, .vfexp2 ⟨0, 4⟩ 12 8),
    (0x68C1002C, 0x00000000, .vflog2 ⟨1, 5⟩ 12 8),
    (0xB0C1002D, 0x00000000, .vfclass ⟨2, 6⟩ 12 8),
    (0xC0C10530, 0x00000106, .cvt ⟨3, 0⟩ 12 8 20 0x106),
    (0x08C10531, 0x00000006, .cvtsr ⟨0, 1⟩ 12 8 20 6),
    (0x50010032, 0x00000000, .srseed ⟨1, 2⟩ 8),
    (0x98C00033, 0x00000000, .srrd ⟨2, 3⟩ 12),
    (0xE0C10534, 0x00000005, .vhadd ⟨3, 4⟩ 12 8 20 5),
    (0x28C10535, 0x00000005, .vhmul ⟨0, 5⟩ 12 8 20 5),
    (0x70C10536, 0x00000005, .vhfma ⟨1, 6⟩ 12 8 20 5),
    (0x80C10537, 0x00000001, .vhmax ⟨2, 0⟩ 12 8 20 1),
    (0xC8C10538, 0x00000000, .gshfl ⟨3, 1⟩ 12 8 20),
    (0x1100C039, 0x00000000, .gballot ⟨0, 2⟩ 16 6),
    (0x58C0C03A, 0x00000000, .gpref ⟨1, 3⟩ 12 6),
    (0xA0C0C03B, 0x00000000, .gcnt ⟨2, 4⟩ 12 6),
    (0xE8C102BC, 0x00000000, .gred ⟨3, 5⟩ 12 8 10),
    (0x30C100FD, 0x00000000, .gmaxi ⟨0, 6⟩ 12 8 3)] : List (Word × Word × Instr)),
    decodeLegal 1 e.1 e.2.1 = some e.2.2 := by decide

/-- Class 1: words written out from the spec's encodings (R19, R20, R24, R31, R36, R37, R76). -/
theorem test_decode_vector_4 : ∀ e ∈ ([
    (0x40C106BE, 0x00000000, .gscan ⟨1, 0⟩ 12 8 26),
    (0x88C1053F, 0x00000000, .gbcast ⟨2, 1⟩ 12 8 20)] : List (Word × Word × Instr)),
    decodeLegal 1 e.1 e.2.1 = some e.2.2 := by decide

/-- Class 2: words written out from the spec's encodings (R19, R20, R24, R31, R36, R37, R76). -/
theorem test_decode_memory_1 : ∀ e ∈ ([
    (0xD0C10000, 0xFFFF84CB, .ld ⟨3, 2⟩ 12 8 0xFFFF84CB),
    (0x18C10501, 0xFFFF84CB, .ldx ⟨0, 3⟩ 12 8 20 0xFFFF84CB),
    (0x60C10002, 0x00010054, .st ⟨1, 4⟩ 12 8 0x00010054),
    (0xA8C10503, 0x00010054, .stx ⟨2, 5⟩ 12 8 20 0x00010054),
    (0xF0C10508, 0x000080A3, .atomadd ⟨3, 6⟩ 12 8 20 0x000080A3),
    (0x00C10509, 0x0000431A, .atomfadd ⟨0, 0⟩ 12 8 20 0x0000431A),
    (0x48C1050A, 0x000080A3, .atommin ⟨1, 1⟩ 12 8 20 0x000080A3),
    (0x90C1050B, 0x000080A3, .atommax ⟨2, 2⟩ 12 8 20 0x000080A3),
    (0xD8C1050C, 0x000080A3, .atomminn ⟨3, 3⟩ 12 8 20 0x000080A3),
    (0x20C1050D, 0x000080A3, .atommaxn ⟨0, 4⟩ 12 8 20 0x000080A3),
    (0x68C1050E, 0x000080A3, .atomand ⟨1, 5⟩ 12 8 20 0x000080A3),
    (0xB0C1050F, 0x000080A3, .atomor ⟨2, 6⟩ 12 8 20 0x000080A3),
    (0xC0C10510, 0x000080A3, .atomxor ⟨3, 0⟩ 12 8 20 0x000080A3),
    (0x08C10511, 0x000080A3, .atomxchg ⟨0, 1⟩ 12 8 20 0x000080A3),
    (0x50C10512, 0x000080A3, .atomcas ⟨1, 2⟩ 12 8 20 0x000080A3),
    (0x98000013, 0x00000120, .fence ⟨2, 3⟩ 0x00000120),
    (0xE0000014, 0x00000000, .sfence ⟨3, 4⟩ 0x00000000),
    (0x28010515, 0x00040000, .seal ⟨0, 5⟩ 8 20 0x00040000),
    (0x70010516, 0x00040000, .unseal ⟨1, 6⟩ 8 20 0x00040000),
    (0x80110017, 0x00040000, .pref ⟨2, 0⟩ 1 8 0x00040000)] : List (Word × Word × Instr)),
    decodeLegal 2 e.1 e.2.1 = some e.2.2 := by decide

/-- Class 2: words written out from the spec's encodings (R19, R20, R24, R31, R36, R37, R76). -/
theorem test_decode_memory_2 : ∀ e ∈ ([
    (0xC8C10518, 0x0008008B, .rclaim ⟨3, 1⟩ 12 8 20 0x0008008B),
    (0x10C10519, 0x00080093, .rcommit ⟨0, 2⟩ 12 8 20 0x00080093),
    (0x58C1051A, 0x0008008B, .rawait ⟨1, 3⟩ 12 8 20 0x0008008B),
    (0xA001051B, 0x00080093, .rretire ⟨2, 4⟩ 8 20 0x00080093),
    (0xE8C1051C, 0x00080110, .putq ⟨3, 5⟩ 12 8 20 0x00080110)] : List (Word × Word × Instr)),
    decodeLegal 2 e.1 e.2.1 = some e.2.2 := by decide

/-- Class 3: words written out from the spec's encodings (R19, R20, R24, R31, R36, R37, R76). -/
theorem test_decode_engine_1 : ∀ e ∈ ([
    (0x35B10500, 0x00000000, .tmma ⟨0, 6⟩ 5 true 3 8 20),
    (0x45B10501, 0x00000000, .tmmat ⟨1, 0⟩ 5 true 3 8 20),
    (0x8D000002, 0x00000000, .acczero ⟨2, 1⟩ 5),
    (0xD5310003, 0x00000000, .accst ⟨3, 2⟩ 5 3 8),
    (0x1DB10004, 0x00000000, .accld ⟨0, 3⟩ 5 true 3 8),
    (0x65000005, 0x00000000, .accrel ⟨1, 4⟩ 5),
    (0xAD010006, 0x00000000, .accscl ⟨2, 5⟩ 5 8),
    (0xF5800187, 0x00000000, .accadd ⟨3, 6⟩ 5 true 6),
    (0x05010508, 0x00000000, .accrd ⟨0, 0⟩ 5 8 20),
    (0x48C20090, 0x00000000, .cpy ⟨1, 1⟩ 12 16 2),
    (0x90C20092, 0x00000000, .gath ⟨2, 2⟩ 12 16 2),
    (0xD8C20093, 0x00000000, .scat ⟨3, 3⟩ 12 16 2),
    (0x20C40094, 0x00000000, .coll ⟨0, 4⟩ 12 32 2),
    (0x68C10515, 0x00000000, .handover ⟨1, 5⟩ 12 8 20),
    (0xB0C10016, 0x00000000, .engrd ⟨2, 6⟩ 12 8),
    (0xC0C10017, 0x00000000, .jobcan ⟨3, 0⟩ 12 8)] : List (Word × Word × Instr)),
    decodeLegal 3 e.1 e.2.1 = some e.2.2 := by decide

/-- Class 4: words written out from the spec's encodings (R19, R20, R24, R31, R36, R37, R76). -/
theorem test_decode_control_1 : ∀ e ∈ ([
    (0x08000000, 0x00000144, .bra ⟨0, 1⟩ 0x144),
    (0x50C00001, 0x00000144, .call ⟨1, 2⟩ 12 0x144),
    (0x98010002, 0x00000000, .ret ⟨2, 3⟩ 8),
    (0xE0010003, 0x00000144, .jtab ⟨3, 4⟩ 8 0x144),
    (0x380AAF04, 0x00000000, .lpad ⟨0, 7⟩ 2 0xABC),
    (0x74628A45, 0x00000144, .spawn ⟨1, 6⟩ 4 3 10 20 true 0x144),
    (0x80628A46, 0x00000144, .spawnb ⟨2, 0⟩ 3 10 20 true 0x144),
    (0xC8000007, 0x00000000, .exit ⟨3, 1⟩),
    (0x10000008, 0x00000000, .exitj ⟨0, 2⟩),
    (0x58010009, 0x00000000, .joinw ⟨1, 3⟩ 8),
    (0xA050000A, 0x00000000, .cjoin ⟨2, 4⟩ 5),
    (0xE800000B, 0x00000000, .yield ⟨3, 5⟩),
    (0x3048D14C, 0x00000000, .trap ⟨0, 6⟩ 0x12345),
    (0x4048D14D, 0x00000000, .bkpt ⟨1, 0⟩ 0x12345),
    (0x8800000E, 0x00000000, .nop ⟨2, 1⟩)] : List (Word × Word × Instr)),
    decodeLegal 4 e.1 e.2.1 = some e.2.2 := by decide

/-- Class 5: words written out from the spec's encodings (R19, R20, R24, R31, R36, R37, R76). -/
theorem test_decode_system_1 : ∀ e ∈ ([
    (0xD0000000, 0x00000000, .trapret ⟨3, 2⟩),
    (0x18C10001, 0x00000000, .fltrd ⟨0, 3⟩ 12 8),
    (0x600100C2, 0x00000000, .tlbinv ⟨1, 4⟩ 8 3),
    (0xA8210503, 0x00000000, .cinv ⟨2, 5⟩ 2 8 20),
    (0xF0C00245, 0x00000000, .perfrd ⟨3, 6⟩ 12 9),
    (0x00C10006, 0x00000000, .stkrd ⟨0, 0⟩ 12 8),
    (0x48C00007, 0x00000000, .cycrd ⟨1, 1⟩ 12),
    (0x90C1000A, 0x00000000, .eccrd ⟨2, 2⟩ 12 8)] : List (Word × Word × Instr)),
    decodeLegal 5 e.1 e.2.1 = some e.2.2 := by decide

/-! ## A small machine -/

/-- The machine with one group of one thread on core 0, its packet at the first word of the clause at 0. -/
def base : State :=
  { State.reset.placed 0 0 0 with agenda := [], cur := ⟨0, [0], ⟨⟨0, 0⟩, ⟨0, 1⟩, 8, 0, false⟩⟩ }
/-- The guard p7, or convergence register 7. -/
def h7 : Hd := ⟨0, 7⟩
/-- Convergence register 0 or predicate 0. -/
def h0 : Hd := ⟨0, 0⟩
/-- Convergence register 0 of the small machine. -/
def cv0 : Conv := Conv.fresh [0]
/-- The base machine with its group changed. -/
def withG (f : Group → Group) : State := { base with groups := [(0, f placedGroup)] }
/-- The base machine with its launch changed. -/
def withL (f : Launch → Launch) : State := { base with launches := [(1, f placedLaunch)] }

/-- The sources of a word have no latent error, as a check of the lists. -/
def cleanB (g : Group) (sh : Shape) : Bool :=
  sh.us.all (fun n => !g.ssoft.contains (markKey g.handling n) && !g.shard.contains (markKey g.handling n))
  && g.threads.all (fun e => sh.vs.all (fun n => !e.2.vsoft.contains (markKey (g.inHandler e.1) n)
    && !e.2.vhard.contains (markKey (g.inHandler e.1) n)))

theorem mem_of_get? {α : Type} (t : Tbl α) (n : Nat) (a : α) (h : Tbl.get? t n = some a) : (n, a) ∈ t := by
  induction t with
  | nil => simp at h
  | cons e r ih =>
    obtain ⟨k, v⟩ := e
    by_cases hk : k = n
    · subst hk
      simp [Tbl.get?] at h
      simp [h]
    · simp only [Tbl.get?, hk, if_false] at h
      exact List.mem_cons_of_mem _ (ih h)

theorem clean_of (g : Group) (sh : Shape) (h : cleanB g sh = true) : g.Clean sh := by
  simp only [cleanB, Bool.and_eq_true, List.all_eq_true, Bool.not_eq_true', List.contains_eq_mem,
    decide_eq_false_iff_not] at h
  exact ⟨h.1, fun x th e n hn => h.2 _ (mem_of_get? _ _ _ e) n hn⟩

/-- Every condition of Ready but the group, as a check. -/
def readyB (s : State) (g : Group) (h : Hd) (sh : Shape) (always : Bool) : Bool :=
  decide s.cur.tids.Nodup && s.cur.tids.all (fun x => (Tbl.get? g.threads x).isSome) && cleanB g sh
  && s.cur.tids.all (fun x => match s.front h sh always x with
    | .fault _ _ => false
    | _ => true)

theorem ready_of (s : State) (g : Group) (h : Hd) (sh : Shape) (always : Bool) (e : s.grp s.cur.g = some g)
    (k : readyB s g h sh always = true) : s.Ready g h sh always := by
  simp only [readyB, Bool.and_eq_true, decide_eq_true_eq, List.all_eq_true] at k
  refine ⟨e, k.1.1.1, k.1.1.2, clean_of _ _ k.1.2, fun x hx c d f => ?_⟩
  have := k.2 x hx
  rw [f] at this
  cases this

theorem alone_of (s : State) (g : Group) (x : Nat) (th : Thread) (h : Hd) (sh : Shape) (e : s.grp s.cur.g = some g)
    (o : s.cur.tids = [x]) (l : Tbl.get? g.threads x = some th) (k : cleanB g sh = true)
    (r : s.front h sh false x = .run g th) : s.Alone g x th h sh := ⟨e, o, l, clean_of _ _ k, r⟩

/-- Every condition of Completes but the group, the register and an unbound register, as a check. -/
def completesB (s : State) (g : Group) (cv : Conv) (sh : Shape) : Bool :=
  !s.cur.tids.isEmpty && decide s.cur.tids.Nodup && s.cur.tids.all (fun x => (Tbl.get? g.threads x).isSome)
  && cleanB g sh && s.cur.tids.all (fun x => cv.members.contains x)
  && cv.signed.all (fun y => cv.members.contains y.t && !s.cur.tids.contains y.t)
  && decide ((cv.signed.map (·.t)).Pairwise (· < ·))
  && cv.members.all (fun x => s.cur.tids.contains x || cv.signed.any (fun y => decide (y.t = x)))
  && s.cur.tids.all (fun x => ((sh.vs ++ sh.vd).find? (g.overCeiling (g.inHandler x) ·)).isNone)
  && g.threads.all (fun e => (e.2.violation (sh.uses none)).isNone && decide (e.2.token s.cur.at_.tok < 63))

theorem completes_of (s : State) (g : Group) (c : Nat) (cv : Conv) (i : Instr) (h : Hd) (sh : Shape) (long : Bool)
    (e : s.grp s.cur.g = some g) (r : g.conv[c]? = some cv) (b : cv.bound = none) (k : completesB s g cv sh = true) :
    s.Completes g c cv i h sh long := by
  simp only [completesB, Bool.and_eq_true, decide_eq_true_eq, List.all_eq_true, List.any_eq_true, Bool.or_eq_true,
    Bool.not_eq_true', List.contains_eq_mem, List.isEmpty_eq_false_iff, decide_eq_false_iff_not,
    Option.isNone_iff_eq_none] at k
  obtain ⟨⟨⟨⟨⟨⟨⟨⟨⟨k1, k2⟩, k3⟩, k4⟩, k5⟩, k6⟩, k7⟩, k8⟩, k9⟩, k10⟩ := k
  exact ⟨e, r, k1, k2, k3, clean_of _ _ k4, k5, k6, k7, k8, fun x hx => (by rw [b] at hx; cases hx), k9,
    fun _ x _ th hth => (k10 _ (mem_of_get? _ _ _ hth)).1, fun _ x _ th hth => (k10 _ (mem_of_get? _ _ _ hth)).2⟩

/-- A packet of the base machine completes the signing of any word whose registers stand below v128. -/
theorem base_completes (i : Instr) (h : Hd) (sh : Shape) (long : Bool) (k : completesB base placedGroup cv0 sh = true) :
    base.Completes placedGroup 0 cv0 i h sh long := completes_of _ _ _ _ _ _ _ _ rfl rfl rfl k

/-! ## Hypotheses of the statements -/

theorem witness_VectorInteger : base.Ready placedGroup h7 (.v3 127 0 126) false ∧ base.Ready placedGroup h7 (.v2 127 0) false ∧
    base.Ready placedGroup h7 (.vs3 0 127 127) false ∧ base.Ready placedGroup h7 (.v4 1 2 3) false ∧
    base.Ready placedGroup h7 ⟨regs 0 2 ++ regs 2 2, [], [], regs 126 2, [], [], 2⟩ false ∧
    (Instr.vbfe h7 127 0 (32 * 32)).wf = true ∧ base.Ready placedGroup h0 (.v3 0 1 2) false :=
  ⟨ready_of _ _ _ _ _ rfl (by decide), ready_of _ _ _ _ _ rfl (by decide), ready_of _ _ _ _ _ rfl (by decide),
    ready_of _ _ _ _ _ rfl (by decide), ready_of _ _ _ _ _ rfl (by decide), by decide, ready_of _ _ _ _ _ rfl (by decide)⟩

theorem witness_VectorFloat : base.Ready placedGroup h7 (.trans 127 0) false ∧
    base.Ready placedGroup h7 ⟨[127, 0], [127], [], [127], [], [], 2⟩ false :=
  ⟨ready_of _ _ _ _ _ rfl (by decide), ready_of _ _ _ _ _ rfl (by decide)⟩

theorem witness_ComparesAndPredicates : base.Ready placedGroup h7 (.cmp 95 0 127) false ∧
    base.Ready placedGroup h7 (.cmps 0 1 127) false ∧ base.Ready placedGroup h7 (.preds 7 [0, 7]) false ∧
    base.Ready placedGroup h7 { Shape.v3 0 1 2 with ps := [7] } true ∧ (95 : Field).toNat / 8 = 11 ∧ (63 : Field).toNat / 8 < 8 :=
  ⟨ready_of _ _ _ _ _ rfl (by decide), ready_of _ _ _ _ _ rfl (by decide), ready_of _ _ _ _ _ rfl (by decide),
    ready_of _ _ _ _ _ rfl (by decide), by decide, by decide⟩

theorem witness_FloatValues : f32 0x7FC00001 = .nan ∧ f32 0x00000001 ≠ .nan ∧ (∀ n, f32 0x00000001 ≠ .inf n) ∧
    fcmp 0xFF800000 0x7F800000 = some .lt ∧ fcmp 0 0x80000001 = some .gt :=
  ⟨by decide, by decide, fun n => by cases n <;> decide, by decide, by decide⟩

theorem witness_ConversionsAndPacked : base.Ready placedGroup h7 (cvtShape 127 0 0 0x10) false ∧
    base.Ready placedGroup h7 (cvtShape 127 0 2 0x6) false ∧ base.Ready placedGroup h7 { Shape.none with vs := regs 126 2 } false ∧
    base.Ready placedGroup h7 ⟨[], [], [], regs 126 2, [], [], 2⟩ false :=
  ⟨ready_of _ _ _ _ _ rfl (by decide), ready_of _ _ _ _ _ rfl (by decide), ready_of _ _ _ _ _ rfl (by decide),
    ready_of _ _ _ _ _ rfl (by decide)⟩

theorem witness_UniformForms : (∀ i : Instr, base.Completes placedGroup 0 cv0 i h0 ⟨[], [127, 0], [], [], [], [126], 1⟩ false) ∧
    placedGroup.Sound [127, 0] ∧ (0 ∈ cv0.members ∧ ∀ x ∈ cv0.members, 0 ≤ x) ∧ (Instr.srd h0 126 18).wf = true ∧
    (Instr.sbfe h0 0 0 (32 * 1 + 31)).wf = true ∧
    base.Completes placedGroup 0 cv0 (.srd h0 126 18) h0 ⟨[], [], [], [], [], regs 126 2, 1⟩ false :=
  ⟨fun _ => base_completes _ _ _ _ (by decide), (by unfold Group.Sound; decide), by decide, by decide, by decide, base_completes _ _ _ _ (by decide)⟩

theorem witness_ConvergenceSetUp : placedGroup.conv[7]? = some cv0 ∧ ((7 : Field).toNat ≠ 0 → cv0.signed = []) ∧
    base.Completes placedGroup 0 cv0 (.csetp h0 7 6) h0 { Shape.none with ps := [6] } false :=
  ⟨rfl, fun _ => rfl, base_completes _ _ _ _ (by decide)⟩

/-- A group whose target for barrier 15 is 1, with the uniforms s1 = 256 and s2 = 1. -/
def barG : Group := { placedGroup with tgt := 0x8000, s := [(1, 256), (2, 1)] }

theorem has_barrier (g : Group) (n : Nat) (h : n < 16) (e : g.team = some 0) (l : g.lseq = 1) :
    HasBarrier base g n 0 := by
  refine ⟨e, ⟨placedTeam, rfl, ?_⟩, ?_, h⟩
  · exact h
  · simp only [State.barriers, State.launchOf, l, e]
    exact h

theorem witness_BarrierForms :
    HasBarrier base placedGroup 15 0 ∧ base.Completes placedGroup 0 cv0 (.bararr h0 15) h0 Shape.none false ∧
    Quiet base cv0 ∧ Fills (base.bar 0 15) ∧ base.parkable placedGroup = false ∧
    (base.bar 0 15).phase = placedGroup.tgt.getLsbD 15 ∧ (base.bar 0 15).phase ≠ barG.tgt.getLsbD 15 ∧
    (withG (fun _ => barG)).Completes barG 0 cv0 (.barwait h0 15) h0 Shape.none false ∧
    (withG (fun _ => barG)).Completes barG 0 cv0 (.barinit h0 15 1 2) h0 ⟨[], [1, 2], [], [], [], [], 1⟩ false ∧
    barG.Sound [1, 2] ∧ (barG.rs 1).toNat ≤ 256 ∧ (barG.rs 1).toNat ≠ 0 ∧ ¬ Fills ⟨2, 0, 0, 0, false⟩ :=
  ⟨has_barrier _ _ (by decide) rfl rfl, base_completes _ _ _ _ (by decide), (fun e he => nomatch he), (by unfold Fills; decide), by decide,
    by decide, by decide, completes_of _ _ _ _ _ _ _ _ rfl rfl rfl (by decide),
    completes_of _ _ _ _ _ _ _ _ rfl rfl rfl (by decide), (by unfold Group.Sound; decide), by decide, by decide, (by unfold Fills; decide)⟩

/-- The base machine in a parkable launch that carries v1, its barriers ahead of the group's target. -/
def parkS : State :=
  { withG (fun _ => barG) with launches := [(1, { placedLaunch with rc := { placedLaunch.rc with park := true, carryV := 2 } })] }

theorem witness_BarrierForms_parkable : parkS.parkable barG = true ∧ barG.handler = none ∧
    (parkS.bar 0 15).phase ≠ barG.tgt.getLsbD 15 ∧ parkS.Completes barG 0 cv0 (.barwait h0 15) h0 Shape.none false :=
  ⟨by decide, rfl, by decide, completes_of _ _ _ _ _ _ _ _ rfl rfl rfl (by decide)⟩

theorem fenced_of (s : State) (r : s.reqs = []) (m : s.mops = []) : Fenced s cv0 :=
  ⟨(fun e he => (by rw [r] at he; cases he)), (fun e he => (by rw [m] at he; cases he))⟩

/-- The small machine, or that with the group barG, with an ACCST of its thread in flight. -/
def accstOp : Mop := mop base placedGroup [0] .accst 0 false 0 [] [] false 0
def tileS (s : State) : State := { s with mops := [(5, accstOp)] }

theorem tile_unfenced (s : State) (c : s.cur.g = 0) : ¬ Fenced (tileS s) cv0 := fun h =>
  h.2 (5, accstOp) (List.mem_singleton.2 rfl) (show (0 : Nat) = s.cur.g from c.symm) rfl 0 (by decide) (by decide)

theorem witness_BarrierForms_fenced : Fenced base cv0 ∧ Fenced (withG (fun _ => barG)) cv0 ∧ Fenced parkS cv0 ∧
    ¬ Fenced (tileS base) cv0 ∧ ¬ Fenced (tileS (withG (fun _ => barG))) cv0 ∧ Quiet (tileS base) cv0 ∧
    (tileS base).Completes placedGroup 0 cv0 (.bararrw h0 15) h0 Shape.none false ∧
    (tileS (withG (fun _ => barG))).Completes barG 0 cv0 (.barwait h0 15) h0 Shape.none false ∧
    (tileS (withG (fun _ => barG))).Completes barG 0 cv0 (.waitany h0 5 1 1) h0 ⟨[], [1], [], [], [], [5], 1⟩ false :=
  ⟨fenced_of _ rfl rfl, fenced_of _ rfl rfl, fenced_of _ rfl rfl, tile_unfenced _ rfl, tile_unfenced _ rfl,
    (fun e he => nomatch he), completes_of _ _ _ _ _ _ _ _ rfl rfl rfl (by decide),
    completes_of _ _ _ _ _ _ _ _ rfl rfl rfl (by decide), completes_of _ _ _ _ _ _ _ _ rfl rfl rfl (by decide)⟩

/-- A team whose barrier unit has met arrivals in this cycle: the 4 bytes of a job, and a hand-over. -/
def dueTeam (l : List Arrival) : Team := { placedTeam with due := l }
def dueS (l : List Arrival) : State := { base with teams := [(0, dueTeam l)] }

theorem witness_DueArrivals : (∀ l, Tbl.get? (dueS l).teams 0 = some (dueTeam l)) ∧
    (let b := (dueS []).bar 0 15; b.expGroups ≤ min (b.arrived + 1) 511 ∧ b.expBytes ≤ b.bytes) ∧
    (let b : Bar := ⟨0, 8, 0, 0, false⟩; ¬ (b.expGroups ≤ b.arrived ∧ b.expBytes ≤ (b.bytes + 4) % 2 ^ 64)) ∧
    ((⟨15, none, 9⟩ : Arrival).bytes = none ∧ (⟨15, some 4, 3⟩ : Arrival).bytes ≠ none) ∧
    ((⟨15, some 4, 3⟩ : Arrival).order < (⟨14, some 4, 5⟩ : Arrival).order) :=
  ⟨fun _ => rfl, by decide, by decide, by decide, by decide⟩

theorem witness_WaitAnyAndBarrierRead :
    base.Completes placedGroup 0 cv0 (.waitany h0 5 1 1) h0 ⟨[], [1], [], [], [], [5], 1⟩ false ∧
    (withG (fun _ => barG)).Completes barG 0 cv0 (.waitany h0 5 1 1) h0 ⟨[], [1], [], [], [], [5], 1⟩ false ∧
    barG.Sound [1] ∧ (placedGroup.rs 1).toNat % 256 = 0 ∧ (barG.rs 2).toNat % 256 ≠ 0 ∧
    (∀ i, i < 8 → ((barG.rs 2).toNat % 256).testBit i = true → 8 * 1 + i < base.barriers barG) ∧
    (let G : Group := { barG with s := [(1, 0x80)] };
      ((G.rs 1).toNat % 256).testBit 7 = true ∧ (base.bar 0 15).phase ≠ G.tgt.getLsbD 15) :=
  ⟨base_completes _ _ _ _ (by decide), completes_of _ _ _ _ _ _ _ _ rfl rfl rfl (by decide), (by unfold Group.Sound; decide), by decide,
    by decide, by decide, by decide⟩

theorem witness_RowsAndDieBarrier : (∀ i : Instr, base.Completes placedGroup 0 cv0 i h0 Shape.none false) ∧
    (127 : Nat) < placedGroup.ceil ∧ placedGroup.ceil + 0 ≤ 128 ∧ 0 ≠ base.freeRows 0 ∧
    (let G : Group := { placedGroup with ceil := 64, resv := 64 };
      G.ceil + 64 ≤ 128 ∧ 64 ≤ (withG (fun _ => G)).freeRows 0 ∧
      (∀ e ∈ (withG (fun _ => G)).groups, ∀ w ∈ e.2.waits, ∀ m, w.2.kind ≠ .claim m)) ∧
    (let G : Group := { placedGroup with ceil := 64, resv := 4096 };
      (withG (fun _ => G)).freeRows 0 < 1 ∧ (withG (fun _ => G)).Completes G 0 cv0 (.regclm h0 1) h0 Shape.none false) ∧
    base.Completes placedGroup 0 cv0 (.regrd h0 124) h0 ⟨[], [], [], [], [], regs 124 4, 1⟩ false :=
  ⟨fun _ => base_completes _ _ _ _ (by decide), by decide, by decide, by decide,
    ⟨by decide, by decide, fun e he w hw => (by simp [withG] at he; subst he; cases hw)⟩,
    ⟨by decide, completes_of _ _ _ _ _ _ _ _ rfl rfl rfl (by decide)⟩, base_completes _ _ _ _ (by decide)⟩

/-- The base machine in a die-resident launch. -/
def dieS : State := withL (fun n => { n with rc := { n.rc with dieres := true } })

theorem witness_RowsAndDieBarrier_dbar : dieS.Completes placedGroup 0 cv0 (.dbar h0) h0 Shape.none false ∧
    (dieS.launchOf placedGroup).elim false (·.rc.dieres) = true ∧ placedGroup.team = some 0 ∧ Quiet dieS cv0 ∧
    (∀ e ∈ dieS.groups, e.1 = dieS.cur.g → e.2 = placedGroup) :=
  ⟨completes_of _ _ _ _ _ _ _ _ rfl rfl rfl (by decide), by decide, rfl, (fun e he => nomatch he),
    fun e he _ => (by rw [List.mem_singleton.1 (show e ∈ [((0 : Nat), placedGroup)] from he)])⟩

theorem witness_OnceFaults : (withG (fun _ => barG)).Completes barG 0 cv0 (.barinit h0 15 3 3) h0 ⟨[], [3, 3], [], [], [], [], 1⟩ false ∧
    barG.Sound [3, 3] ∧ (barG.rs 3).toNat = 0 ∧ (let G : Group := { placedGroup with s := [(1, 257)] }; 256 < (G.rs 1).toNat) ∧
    base.barriers placedGroup ≤ (16 : Nat) ∧ placedGroup.ceil ≤ 128 ∧ 128 < placedGroup.ceil + 1 ∧
    (∀ l, base.launchOf placedGroup = some l → l.rc.dieres = false) ∧
    (let s := withL (fun n => { n with rc := { n.rc with barriers := 9 } });
      let G : Group := { placedGroup with s := [(1, 2)] };
      ∃ i, i < 8 ∧ (G.rs 1).toNat.testBit i = true ∧ s.barriers G ≤ 8 * 1 + i) :=
  ⟨completes_of _ _ _ _ _ _ _ _ rfl rfl rfl (by decide), (by unfold Group.Sound; decide), by decide, by decide, by decide, by decide, by decide,
    fun l e => (by cases e; rfl), ⟨1, by decide, by decide, by decide⟩⟩

/-- A signing under way on register 1 of the small machine. -/
def signing : Conv := { Conv.fresh [0, 1] with signed := [⟨1, 5, 6, false, none⟩] }

theorem witness_OnceFaults_conv : ∃ (g : Group) (dv : Conv), g.conv[1]? = some dv ∧ (1 : Nat) ≠ 0 ∧ dv.signed ≠ [] ∧
    (withG (fun _ => g)).Completes g 0 cv0 (.cseta h0 1) h0 Shape.none false :=
  ⟨{ placedGroup with conv := placedGroup.conv.set 1 signing }, signing, rfl, by decide, by decide,
    completes_of _ _ _ _ _ _ _ _ rfl rfl rfl (by decide)⟩

/-- What the one member of the small machine signs a group form of lane 1 with. -/
def sig1 : List Sig := [placedThread.signature false 0 ⟨[1], [], [], [], [], regs 2 2, 1⟩]

theorem witness_GroupMaximum : base.Completes placedGroup 0 cv0 (.gmaxi h0 2 1 4) h0 ⟨[1], [], [], [], [], regs 2 2, 1⟩ true ∧
    Signed base placedGroup cv0 ⟨[1], [], [], [], [], regs 2 2, 1⟩ sig1 ∧ Whole sig1 ∧ (∀ x ∈ cv0.members, x < 256) ∧
    f32 0x7F800001 = .nan ∧ f32 0 ≠ .nan := by
  refine ⟨base_completes _ _ _ _ (by decide), ⟨by decide, fun y => ?_⟩, ?_, by decide, by decide, by decide⟩
  · constructor
    · intro hy
      simp only [sig1, List.mem_singleton] at hy
      exact Or.inr ⟨0, by decide, placedThread, rfl, hy⟩
    · rintro (h | ⟨x, hx, th, e, rfl⟩)
      · cases h
      · simp only [base, List.mem_singleton] at hx
        subst hx
        cases e
        exact List.mem_singleton.2 rfl
  · intro y hy
    simp only [sig1, List.mem_singleton] at hy
    subst hy
    rfl

theorem witness_GroupFormValues : base.Completes placedGroup 0 cv0 (.gbcast h0 2 1 1) h0 ⟨[1], [1], [], [], [], [2], 1⟩ true ∧
    placedGroup.Sound [1] ∧ (Instr.gred h0 2 1 10).wf = true ∧ (Instr.gscan h0 2 1 26).wf = true :=
  ⟨base_completes _ _ _ _ (by decide), (by unfold Group.Sound; decide), by decide, by decide⟩

theorem base_alone (h : Hd) (sh : Shape) (hh : h = h7) (k : cleanB placedGroup sh = true)
    (w : wordFault (base.checking placedGroup) placedGroup 0 placedThread sh (some 7) = none) :
    base.Alone placedGroup 0 placedThread h sh := by
  subst hh
  refine alone_of _ _ _ _ _ _ rfl rfl rfl k ?_
  have e : base.front h7 sh false 0 = match wordFault (base.checking placedGroup) placedGroup 0 placedThread sh (some 7) with
    | some (c, d) => .fault c d
    | none => .run placedGroup placedThread := rfl
  rw [e, w]

/-- A wait for the result of a group form. -/
def formWait : GWait := ⟨.form 64 [] [(5, 7)], .gcnt h0 5 1, h0, base.cur.at_, [⟨0, 1, 2, true, none⟩], ⟨0, 0⟩, 0, [], 0⟩

theorem witness_GroupFormResult : ∃ (s : State) (g : Group) (wt : GWait), s.grp 0 = some g ∧ Tbl.get? g.waits 3 = some wt ∧
    wt.kind = .form 64 [] [(5, 7)] ∧ (([(5, 7)] : Tbl Word).map (·.1)).Nodup ∧ (wt.sigs.map (·.t)).Nodup :=
  ⟨withG (fun g => { g with waits := [(3, formWait)] }), _, formWait, rfl, rfl, rfl, by decide, by decide⟩

/-- Every condition of Mapped but the translation, as a check. -/
def mappedB (s : State) (x va : Nat) (k : Acc) (e : TlbEntry) : Bool :=
  decide (va < 2 ^ 57) && e.r && e.w && e.x && (decide (e.home = none) || !e.ol || decide (x / 96 = e.owner))
  && !s.sealedPage va && !s.stackLost (e.pa + (va - e.va)) && (k == k)

theorem mapped_of (s : State) (x va : Nat) (k : Acc) (e : TlbEntry) (t : held s x va = some e)
    (b : mappedB s x va k e = true) : Mapped s x va k e := by
  simp only [mappedB, Bool.and_eq_true, Bool.or_eq_true, decide_eq_true_eq, Bool.not_eq_true'] at b
  obtain ⟨⟨⟨⟨⟨⟨⟨b1, b2⟩, b3⟩, b4⟩, b5⟩, b6⟩, b7⟩, -⟩ := b
  refine ⟨b1, t, fun _ => b2, fun _ => b3, fun _ => b4, fun hn ho => ?_, fun _ => b6, b7⟩
  rcases b5 with (h | h) | h
  · exact absurd h hn
  · rw [ho] at h; cases h
  · exact h

/-- The small machine with lanes and uniforms that name addresses: v2 and s2 hold 3968, v4 a page number of bytes. -/
def addrThread : Thread := { placedThread with v := [(2, 3968), (4, 4096), (6, 1)] }
def addrG : Group := { placedGroup with s := [(2, 3968)], threads := [(0, addrThread)] }
def addrS : State := withG (fun _ => addrG)

theorem addr_alone (sh : Shape) (k : cleanB addrG sh = true)
    (w : wordFault (addrS.checking addrG) addrG 0 addrThread sh (some 7) = none) :
    addrS.Alone addrG 0 addrThread h7 sh := by
  refine alone_of _ _ _ _ _ _ rfl rfl rfl k ?_
  have e : addrS.front h7 sh false 0 = match wordFault (addrS.checking addrG) addrG 0 addrThread sh (some 7) with
    | some (c, d) => .fault c d
    | none => .run addrG addrThread := rfl
  rw [e, w]

theorem witness_AccessesIssue : addrS.outstanding 0 < 1024 ∧
    addrS.Alone addrG 0 addrThread h7 { Shape.none with vs := regs 2 2, vd := regs 124 4 } ∧
    Reaches addrS addrG 4 3968 .read (some placedPage) ∧ laneAddress false addrThread 2 4 = 3968 ∧
    addrS.Alone addrG 0 addrThread h7 { Shape.none with vs := regs 2 2 ++ regs 8 4, vd := regs 12 2 } ∧
    Reaches addrS addrG 3 3968 .atomic (some placedPage) ∧
    Reaches addrS addrG 0x802 4092 .write none ∧ addrS.scratchSize addrG = 4096 :=
  ⟨by decide, addr_alone _ (by decide) (by decide),
    ⟨by decide, Or.inr ⟨by decide, placedPage, rfl, mapped_of _ _ _ _ _ rfl (by decide)⟩⟩, by decide,
    addr_alone _ (by decide) (by decide),
    ⟨by decide, Or.inr ⟨by decide, placedPage, rfl, mapped_of _ _ _ _ _ rfl (by decide)⟩⟩,
    ⟨by decide, Or.inl ⟨by decide, by decide, rfl⟩⟩, by decide⟩

theorem witness_FencesAndRingsIssue : addrS.Alone addrG 0 addrThread h7 Shape.none ∧
    addrS.Alone addrG 0 addrThread h7 { Shape.none with vs := regs 0 2 ++ regs 4 2 } ∧ addrS.right addrG 1 = true ∧
    laneAddress false addrThread 0 0 % 4096 = 0 ∧ addrThread.rdN false 4 2 = 4096 ∧ addrThread.rdN false 0 2 = 0 ∧
    Mapped addrS 0 (laneAddress false addrThread 2 0) .read placedPage ∧
    (∃ c k, ∀ f, (State.translate { addrS with fresh := f } 0 (BitVec.ofNat 64 (laneAddress false
      { addrThread with v := [(3, 0x02000000)] } 2 0)) .read).2 = .bad c k) ∧
    addrS.Alone addrG 0 addrThread h7 { Shape.none with vs := [6], us := regs 2 2, vd := regs 8 2 } ∧
    ringAddress addrG 2 3 % 128 = 0 ∧ Mapped addrS 0 (ringAddress addrG 2 3) .atomic placedPage ∧
    (addrThread.rd false 0).toNat + (addrThread.rd false 6).toNat ≤ addrS.scratchSize addrG ∧
    0 < (addrThread.rd false 6).toNat ∧ (addrThread.rd false 6).toNat ≤ 32768 :=
  ⟨addr_alone _ (by decide) (by decide), addr_alone _ (by decide) (by decide), by decide, by decide, by decide, by decide,
    mapped_of _ _ _ _ _ rfl (by decide), ⟨_, _, fun _ => rfl⟩, addr_alone _ (by decide) (by decide), by decide,
    mapped_of _ _ _ _ _ rfl (by decide), by decide, by decide, by decide⟩

/-- The bytes of a clause of one landing pad: a header of class 4 with COUNT 1, then LPAD kind, label (R18, R31). -/
def padBytes (kind label : Nat) : List Byte :=
  wordBytes [0x41, BitVec.ofNat 32 (7 * 2 ^ 27 + kind * 2 ^ 18 + label * 2 ^ 6 + 4)]

/-- The small machine with a call pad at 0x40, a spawn pad at 0x80, a return-point pad at 0xC0, a jump pad of label 5 at
0x100 and at 0x140 a jump table of one entry for it; v1 holds 0xC0. -/
def padS : State := { withG (fun g => { g with threads := [(0, { placedThread with v := [(1, 0xC0)] })] }) with
  mem := ((((base.mem.writeBytes 0x40 (padBytes 1 0)).writeBytes 0x80 (padBytes 2 0)).writeBytes 0xC0
    (padBytes 0 0)).writeBytes 0x100 (padBytes 0 5)).writeBytes 0x140 (wordBytes [0x00500001, 0x100]) }
def padThread : Thread := { placedThread with v := [(1, 0xC0)] }
def padG : Group := { placedGroup with threads := [(0, padThread)] }

theorem pad_alone (sh : Shape) (k : cleanB padG sh = true)
    (w : wordFault (padS.checking padG) padG 0 padThread sh (some 7) = none) : padS.Alone padG 0 padThread h7 sh := by
  refine alone_of _ _ _ _ _ _ rfl rfl rfl k ?_
  have e : padS.front h7 sh false 0 = match wordFault (padS.checking padG) padG 0 padThread sh (some 7) with
    | some (c, d) => .fault c d
    | none => .run padG padThread := rfl
  rw [e, w]

theorem witness_TransfersOfControl : padS.Alone padG 0 padThread h7 { Shape.none with vs := [1] } ∧
    padS.Alone padG 0 padThread h7 { Shape.none with vd := [127] } ∧
    (match (padS.checkPad 0 0 0 0x40 1 none).2 with | .ok => true | _ => false) = true ∧
    (match (padS.checkPad 0 0 0 0x40 0 (some 0)).2 with | .bad 0x03 _ _ => true | _ => false) = true ∧
    (match (padS.checkPad 0 0 0 (padThread.rd false 1) 0 (some 0)).2 with | .ok => true | _ => false) = true ∧
    (match (padS.fetch 0 0 0 0x140).2 with | .word 0x00500001 => true | _ => false) = true ∧
    (match ((padS.fetch 0 0 0 0x140).1.fetch 0 0 0 0x144).2 with | .word 0x100 => true | _ => false) = true ∧
    (match (padS.checkPad 0 0 0 0x100 0 (some 5)).2 with | .ok => true | _ => false) = true ∧
    (0x00500001 : Word).toNat / 2 ^ 12 % 2 ^ 8 = 0 ∧ (padThread.rd false 2).toNat < 1 ∧ 1 ≤ (padThread.rd false 1).toNat :=
  ⟨pad_alone _ (by decide) (by decide), pad_alone _ (by decide) (by decide), by decide, by decide, by decide, by decide,
    by decide, by decide, by decide, by decide, by decide⟩

theorem witness_PadNopTrapYield : base.Ready placedGroup h7 Shape.none false ∧
    base.Alone placedGroup 0 placedThread h7 Shape.none :=
  ⟨ready_of _ _ _ _ _ rfl (by decide), base_alone _ _ rfl (by decide) (by decide)⟩

theorem witness_Spawning : (match (padS.checkPad 0 0 0 0x80 2 none).2 with | .ok => true | _ => false) = true ∧
    Quiet padS ⟨[0], [], none⟩ ∧ padS.remoteLines 0 = [] ∧
    padS.Alone padG 0 padThread h7 { Shape.none with vs := [123, 124, 125, 126, 127], us := [126, 127], pd := [0] } ∧
    padG.rsN 126 2 % 8 = 0 ∧ addrG.rsN 2 2 % 8 = 0 ∧ ({ padG with s := [(2, 4)] } : Group).rsN 2 2 % 8 ≠ 0 :=
  ⟨by decide, (fun e he => nomatch he), by decide, pad_alone _ (by decide) (by decide), by decide, by decide, by decide⟩

/-- The bytes of a number of 8 bytes at an address of the small machine. -/
def with8 (s : State) (a x : Nat) : State := { s with mem := s.mem.writeNat a 8 x }

/-- A kindled group of two threads, its first with a join counter at 0x80. -/
def joinThread : Thread := { placedThread with join := 0x80 }
def joinG : Group := { placedGroup with team := none, threads := [(0, joinThread), (1, placedThread)] }
def joinS : State := with8 (withG (fun _ => joinG)) 0x80 5

/-- What EXITJ's decrement answers there. -/
def joined : State × Option (Option (Nat × Nat)) := joinS.joinAdd joinG 0 0x80

theorem joined_groups : joined.1.groups = joinS.groups := by rfl

theorem witness_ExitsAndJoins_exit :
    base.Alone placedGroup 0 placedThread h7 Shape.none ∧ (∀ n ∈ placedThread.tok, n = 0) ∧
    (∀ e ∈ placedGroup.threads, e.1 = 0) ∧ (∃ n ∈ ({ placedThread with tok := [0, 1, 0, 0] } : Thread).tok, n ≠ 0) ∧
    joinS.Alone joinG 0 joinThread h7 Shape.none ∧ (1 ≠ 0 ∧ (Tbl.get? joinG.threads 1).isSome = true) ∧
    (∀ cv ∈ joinG.conv, cv.bound = none) ∧ joinThread.join ≠ 0 ∧ joined.2 = some none ∧
    (∀ k, joined.1.grp k = joinS.grp k) ∧ joined.1.cur = joinS.cur :=
  ⟨base_alone _ _ rfl (by decide) (by decide), by decide, by decide, by decide,
    alone_of _ _ _ _ _ _ rfl rfl rfl (by decide) rfl, by decide, by decide, by decide, by decide,
    fun k => (by unfold State.grp; rw [joined_groups]), by rfl⟩

/-- Counters at 0x80 (1) and 0x88 (0), read by s2 and s4. -/
def waitG : Group := { placedGroup with s := [(2, 0x80), (4, 0x88), (6, 4)] }
def waitS : State := with8 (with8 (withG (fun _ => waitG)) 0x80 1) 0x88 0

theorem witness_ExitsAndJoins_join :
    waitS.Alone waitG 0 placedThread h7 { Shape.none with us := regs 2 2 } ∧
    (match (waitS.readJoin 0 waitG 0 0x80).2 with | .more => true | _ => false) = true ∧
    (match (waitS.readJoin 0 waitG 0 0x88).2 with | .zero => true | _ => false) = true ∧
    (∀ k, (waitS.readJoin 0 waitG 0 0x88).1.grp k = waitS.grp k) ∧ (waitS.readJoin 0 waitG 0 0x88).1.cur = waitS.cur ∧
    waitG.rsN 4 2 = 0x88 ∧ waitG.rsN 6 2 % 8 ≠ 0 ∧
    base.Completes placedGroup 7 cv0 (.cjoin h7 7) { h7 with guard := BitVec.ofNat 3 7 } Shape.none false ∧
    base.front h7 Shape.none false 0 = .run placedGroup placedThread :=
  ⟨alone_of _ _ _ _ _ _ rfl rfl rfl (by decide) rfl, by decide, by decide, fun _ => rfl, rfl, by decide, by decide,
    completes_of _ _ _ _ _ _ _ _ rfl rfl rfl (by decide), rfl⟩

/-- A launch without rights. -/
def plainS : State := withL (fun n => { n with rc := { n.rc with rights := 0 } })

theorem witness_SystemForms : placedGroup.inHandler 0 = false ∧ plainS.right placedGroup 2 = false ∧
    plainS.right placedGroup 1 = false ∧ placedGroup.handler = none ∧
    plainS.Alone placedGroup 0 placedThread h7 { Shape.none with vs := regs 0 2 ++ [5] } ∧
    base.right placedGroup 2 = true ∧ base.Alone placedGroup 0 placedThread h7 { Shape.none with vs := [5], vd := regs 124 4 } ∧
    ((base.core 0).ecc.getD 63 [0, 0, 0, 0]).length = 4 ∧
    base.Alone placedGroup 0 placedThread h7 { Shape.none with vd := regs 126 2 } :=
  ⟨by decide, by decide, by decide, rfl, alone_of _ _ _ _ _ _ rfl rfl rfl (by decide) rfl, by decide,
    base_alone _ _ rfl (by decide) (by decide), by decide, base_alone _ _ rfl (by decide) (by decide)⟩

theorem witness_Invalidation : addrS.Alone addrG 0 addrThread h7 { Shape.none with vs := regs 2 2 ++ [6] } ∧
    addrS.right addrG 2 = true ∧ (addrThread.rd false 6).toNat ≠ 0 ∧ Quiet addrS ⟨[0], [], none⟩ ∧
    (match (addrS.cacheLines (.thread 0 0) 0 2 1 3968).2 with | .done => true | _ => false) = true ∧
    (∀ k, (addrS.cacheLines (.thread 0 0) 0 2 1 3968).1.grp k = addrS.grp k) ∧ (addrS.cacheLines (.thread 0 0) 0 2 1 3968).1.cur = addrS.cur ∧
    (3 : Nat) < 4 * addrS.npkg :=
  ⟨addr_alone _ (by decide) (by decide), by decide, by decide, (fun e he => nomatch he), by decide, fun _ => rfl, rfl, by decide⟩

/-- A group in its trap handler, entered by threads 0 and 1; both registers saved. -/
def handler1 : Handler := ⟨[0, 1], List.replicate 8 (Conv.fresh [0, 1]), [], [], [(0, ⟨⟨8, 0⟩, false, 0⟩), (1, ⟨⟨8, 1⟩, false, 0⟩)]⟩
def trapG (second : Place) : Group :=
  { placedGroup with handler := some handler1, threads := [(0, placedThread), (1, { placedThread with place := second })] }

theorem witness_TrapReturn :
    (withG (fun _ => trapG .ready)).Alone (trapG .ready) 0 placedThread h7 Shape.none ∧ 0 ∈ handler1.entering ∧
    (∃ y, (y ∈ handler1.entering ∧ y ≠ 0) ∧ ∃ ty, Tbl.get? (trapG .ready).threads y = some ty ∧ ∀ p w, ty.place ≠ .returned p w) ∧
    (∀ cv ∈ (trapG .ready).conv, cv.bound = none) ∧
    (∀ e ∈ (trapG (.returned ⟨8, 0⟩ ⟨0, 0⟩)).threads, e.1 ∈ handler1.entering → e.1 ≠ 0 → ∃ p w, e.2.place = .returned p w) ∧
    (∀ cv ∈ handler1.savedConv, cv.bound = none) := by
  refine ⟨alone_of _ _ _ _ _ _ rfl rfl rfl (by decide) rfl, by decide,
    ⟨1, by decide, _, rfl, fun p w h => by cases h⟩, by decide, fun e he _ hn => ?_, by decide⟩
  simp only [trapG, List.mem_cons, List.not_mem_nil, or_false] at he
  rcases he with rfl | rfl
  · exact absurd rfl hn
  · exact ⟨_, _, rfl⟩

/-- A launch with format slot 0 for a pair of 16-bit floats, and a group whose maps are of one row and one column. -/
def fmtS (f : Word) : State := withL (fun n => { n with rc := { n.rc with fmt := f :: n.rc.fmt } })

theorem witness_MatrixIssue : ((base.core 0).mops.length < 8) ∧ (0 ∈ cv0.members ∧ ∀ x ∈ cv0.members, 0 ≤ x) ∧
    Tbl.get? placedGroup.threads 0 = some placedThread ∧ Ascending cv0 [0] ∧ Unheld base placedGroup 7 ∧
    (∃ n rest, (base.core 0).accFree = n :: rest) ∧
    (let g : Group := { placedGroup with acc := [(7, 31)] }; Held base g 7) ∧
    legalPair (fmtA (base.fmtOf placedGroup 7)) (fmtB (base.fmtOf placedGroup 7)) = false ∧
    (let s := fmtS 0x11
      let g : Group := { placedGroup with s := [(1, 1 * 2 ^ 20), (2, 1), (5, 1 * 2 ^ 20), (6, 1)] }
      let ma : OpMap := (List.range 4).map (fun k => g.rs (0 + k))
      let mb : OpMap := (List.range 4).map (fun k => g.rs (4 + k))
      legalPair (fmtA (s.fmtOf g 0)) (fmtB (s.fmtOf g 0)) = true ∧ ma.check 1 false = none ∧ mb.check 1 false = none ∧
      mb.cols = ma.cols ∧ ma.rows ≠ 0 ∧ mb.rows ≠ 0 ∧ ma.outside 1 4096 = none ∧ s.scratchSize g = 4096 ∧
      ma.check 0 true = none ∧ ma.outside 0 4096 = none) ∧
    (let big : OpMap := [0, 65 * 2 ^ 20, 1, 0]; big.check 1 false = some (2 + 65 * 2 ^ 16)) ∧
    (let wide : OpMap := [0, 2 ^ 20, 1025, 0]; wide.check 1 false = some (3 + 1025 * 2 ^ 16)) :=
  ⟨by decide, by decide, rfl, ⟨by decide, by intro x; simp [cv0, Conv.fresh]⟩, ⟨by decide, (fun e he => nomatch he)⟩,
    ⟨_, _, rfl⟩, ⟨by decide, (fun e he => nomatch he)⟩, by decide, by decide, by decide, by decide⟩

/-- An operation on handle 7 of the small machine's group, and a word at the next place that waits to bind that handle. -/
def op7 : Mop := mop base placedGroup [0] .acczero 7 false 0 [] [] true 0
def bindWait : GWait := ⟨.bind op7, .acczero h0 7, h0, { base.cur.at_ with pc := ⟨8, 0⟩ }, [], ⟨0, 0⟩, 0, [], 0⟩

theorem witness_MatrixForms_waits : Clear base placedGroup op7 ∧ base.oldestBind 0 = none ∧
    Behind base { placedGroup with waits := [(3, bindWait)] } op7 ∧
    ((withG (fun g => { g with waits := [(3, bindWait)] })).oldestBind 0).isSome = true ∧
    (let s : State := { base with mops := [(5, op7)], cores := [(0, { placedCore with mops := List.replicate 8 5 })] };
      8 ≤ (s.core placedGroup.core).mops.length ∧ ¬ Held s placedGroup 7 ∧
        ∃ e ∈ s.mops, e.2.g = s.cur.g ∧ e.2.names (7 : BitVec 3).toNat = true) :=
  ⟨⟨by decide, (fun e he => nomatch he)⟩, by decide,
    ⟨fun e he => (by rw [List.mem_singleton.1 he]; decide), _, List.mem_singleton.2 rfl, by decide,
      ⟨7, by decide, by decide⟩, Or.inl ⟨_, rfl⟩⟩, by decide,
    by decide, fun h => absurd h.1 (by decide), _, List.mem_singleton.2 rfl, by decide, by decide⟩

/-- A scratchpad store of the small machine's group that has yet to be performed. -/
def padStore : Req := request base placedGroup 0 placedThread h7 0x802 1 .store true none 0 4 7 0 0 0

theorem witness_EngineJobsIssue_store : ∃ e ∈ ({ base with reqs := [(0, padStore)] } : State).reqs, e.1 < base.fresh ∧
    e.2.g = base.cur.g ∧ e.2.sp = true ∧ e.2.writes = true ∧ e.2.isDone = false :=
  ⟨_, List.mem_singleton.2 rfl, by decide, by decide, by decide, by decide, by decide⟩

/-- A launch whose axis table at 0x100, in an uncached page, has entry 0 of one member, die 0. -/
def axisS : State := { withL (fun n => { n with rc := { n.rc with axes := 0x100 } }) with
  mem := base.mem.writeNat 0x100 4 1
  cores := base.cores.put 0 { placedCore with tlb := [{ placedPage with uc := true }] } }
/-- A descriptor of zero words. -/
def zeroDesc (n : Nat) : List Word := (List.range n).map (fun k => placedGroup.rs (96 + k))

theorem witness_EngineJobsIssue :
    base.Completes placedGroup 0 cv0 (.cpy h0 5 16 16) h0 ⟨[], regs 16 16, [], [], [], [5], 1⟩ true ∧
    placedGroup.Sound (regs 96 32) ∧ Settled base placedGroup cv0 4 ∧ (∃ n rest, (base.core 0).jobFree = n :: rest) ∧
    base.checkCpy placedGroup (zeroDesc 16) 127 = .good (base.footprint .cpy placedGroup (zeroDesc 16)) ∧
    base.checkCpy placedGroup (zeroDesc 16) 15 = .good (base.footprint .cpy placedGroup (zeroDesc 16)) ∧
    base.checkGath placedGroup (zeroDesc 16) 127 false = .fault 0x01 0 0x88 ∧
    axisS.Completes placedGroup 0 cv0 (.coll h0 5 96 127) h0 ⟨[], regs 96 32, [], [], [], [5], 1⟩ true ∧
    Settled axisS placedGroup cv0 4 :=
  ⟨base_completes _ _ _ _ (by decide), by unfold Group.Sound; decide,
    ⟨(fun e he => nomatch he), (fun e he => nomatch he), (fun e he => nomatch he), (fun e he => nomatch he), fun _ => by decide⟩, ⟨_, _, rfl⟩,
    by decide, by decide, by decide, completes_of _ _ _ _ _ _ _ _ rfl rfl rfl (by decide),
    ⟨(fun e he => nomatch he), (fun e he => nomatch he), (fun e he => nomatch he), (fun e he => nomatch he), fun _ => by decide⟩⟩

/-- That machine with other groups. -/
def axisG (G : Tbl Group) : State := { axisS with groups := G }
/-- What the entry of the table holds. -/
def axisBytes : List Byte := axisS.mem.readBytes 256 64 ++ axisS.mem.readBytes 320 64 ++ axisS.mem.readBytes 384 64
  ++ axisS.mem.readBytes 448 64

theorem axisBytes_eq : axisBytes = 1 :: List.replicate 255 0 := by decide +kernel

theorem axis_step (G : Tbl Group) (va : Nat) (rest : List (Nat × Nat)) (acc : List Byte)
    (r : (axisG G).reach none 0 (BitVec.ofNat 64 va) .read = (axisG G, .ok va { placedPage with uc := true }))
    (l : (axisG G).stackLost va = false ∧ (axisG G).settled 0 va = true ∧ (axisG G).loadBytes 0 va 64 ⟨4, false, true, false⟩ =
      (axisG G, axisS.mem.readBytes va 64, false)) :
    (axisG G).readPieces none 0 4 ((va, 64) :: rest) acc =
      (axisG G).readPieces none 0 4 rest (acc ++ axisS.mem.readBytes va 64) := by
  have p : (axisG G).pageSealed { placedPage with uc := true } va = false := rfl
  simp only [State.readPieces, State.reachFor, r, l.1, l.2.1, p, Nat.zero_div, Bool.not_true, Bool.and_false,
    Bool.false_eq_true, if_false]
  rw [l.2.2]

theorem axis_read (G : Tbl Group) : (axisG G).readVa none 0 4 256 256 = (axisG G, .ok axisBytes) := by
  rw [State.readVa, show linePieces 256 256 256 = [(256, 64), (320, 64), (384, 64), (448, 64)] from rfl,
    axis_step G 256 _ _ rfl ⟨rfl, rfl, rfl⟩, axis_step G 320 _ _ rfl ⟨rfl, rfl, rfl⟩, axis_step G 384 _ _ rfl ⟨rfl, rfl, rfl⟩,
    axis_step G 448 _ _ rfl ⟨rfl, rfl, rfl⟩]
  rfl
theorem axis_members (G : Tbl Group) : (axisG G).readAxis 0 256 0 = (axisG G, .ok [0]) := by
  rw [State.readAxis, if_neg (by decide), show (axisG G).readVa none 0 4 (256 + 256 * 0) 256 = _ from axis_read G,
    axisBytes_eq]
  rfl

theorem axis_checked (G : Tbl Group) : (axisG G).checkColl placedGroup (zeroDesc 32) 127 =
    (axisG G, .good (collFoot (zeroDesc 32) 0 [0] none)) := by
  have h : (axisG G).readAxis placedGroup.core (((axisG G).launchOf placedGroup).elim 0 (·.rc.axes))
    (Desc.axis (zeroDesc 32)) = (axisG G, .ok [0]) := axis_members G
  rw [State.checkColl, h]
  rfl

theorem witness_EngineJobsIssue_coll : axisS.remoteLines 0 = [] ∧ axisS.backOut 0 = false ∧
    ∀ G, State.checkColl { axisS with groups := G } placedGroup (zeroDesc 32) 127 =
      ({ axisS with groups := G }, .good (collFoot (zeroDesc 32) 0 [0] none)) :=
  ⟨by decide, by decide, axis_checked⟩

/-- The small machine with the number of a target die in s5. -/
def handG (t : Word) : Group := { placedGroup with s := [(5, t)] }
/-- The words of HANDOVER there. -/
def handShape : Shape := ⟨[], [4, 5], [], [], [], [], 1⟩
def closingS : State := (withG (fun _ => handG 1)).onStack 0 (fun k => { k with st := .closing })

theorem witness_StackHandover_issue :
    (withG (fun _ => handG 1)).Completes (handG 1) 0 cv0 (.handover h0 0 4 5) h0 handShape true ∧
    (handG 1).Sound [4, 5] ∧ (withG (fun _ => handG 1)).right (handG 1) 0 = true ∧ plainS.right placedGroup 0 = false ∧
    plainS.Completes placedGroup 0 cv0 (.handover h0 0 4 5) h0 handShape true ∧
    (withG (fun _ => handG 4)).Completes (handG 4) 0 cv0 (.handover h0 0 4 5) h0 handShape true ∧
    (withG (fun _ => handG 4)).right (handG 4) 0 = true ∧ 3 < ((handG 4).rs 5).toNat ∧
    0 < (withG (fun _ => handG 1)).barriers (handG 1) ∧
    (let k := (withG (fun _ => handG 1)).stack 0; k.st = .steady ∧ k.owner = 0 ∧ k.hseq ≠ 0xFFFFFFFF) ∧
    ((0 : Nat) / 2 + 1) % 4 = 1 ∧ closingS.Completes (handG 1) 0 cv0 (.handover h0 0 4 5) h0 handShape true ∧
    (closingS.stack 0).st ≠ .steady ∧ Quiet closingS cv0 ∧ closingS.remoteLines 0 = [] ∧
    closingS.backOut 0 = false :=
  ⟨completes_of _ _ _ _ _ _ _ _ rfl rfl rfl (by decide), by unfold Group.Sound; decide, by decide, by decide,
    completes_of _ _ _ _ _ _ _ _ rfl rfl rfl (by decide), completes_of _ _ _ _ _ _ _ _ rfl rfl rfl (by decide),
    by decide, by decide, by decide, by decide, by decide, completes_of _ _ _ _ _ _ _ _ rfl rfl rfl (by decide),
    by decide, (fun e he => nomatch he), by decide, by decide⟩

/-- Words of VADD that raise a fault: a register at the ceiling of 120 rows, a register that is owed, a poisoned lane. -/
def lowG : Group := { placedGroup with ceil := 120 }
def owedThread : Thread := { placedThread with pend := [⟨.vec, 5, 1, 4, 1⟩] }
def owedG : Group := { placedGroup with threads := [(0, owedThread)] }
def owedS : State := { withG (fun _ => owedG) with launches := [(1, { placedLaunch with rc := { placedLaunch.rc with check := true } })] }
def poisThread : Thread := { placedThread with vpois := [5] }
def poisG : Group := { placedGroup with threads := [(0, poisThread)] }
/-- A page that may not be read. -/
def blindS : State := { base with dies := base.dies.put 0 { Die.reset with tlb := [{ placedPage with r := false }] } }

theorem clean_none (g : Group) (sh : Shape) (h : cleanB g sh = true) : g.Clean sh := clean_of g sh h

theorem witness_FaultsBeforeEffect :
    (lowG.Clean (.v3 9 5 120) ∧ ([5, 120, 9] : List Nat).find? (fun n => decide (lowG.ceil ≤ n) && !(false && decide (112 ≤ n)))
      = some 120 ∧ (withG (fun _ => lowG)).checking lowG = false) ∧
    (owedG.Clean (.v3 9 5 6) ∧ owedS.checking owedG = true ∧ (⟨.vec, 5, 1, 4, 1⟩ : Pend).reg ∈ [5, 6, 9]) ∧
    (poisG.Clean (.v3 9 5 6) ∧ (withG (fun _ => poisG)).checking poisG = false ∧ 5 ∈ poisThread.vpois ∧
      ∀ m ∈ [5, 6], m ∈ poisThread.vpois → m = 5) ∧
    placedThread.pr 7 = true ∧ base.outstanding 0 < 1024 ∧
    addrS.Alone addrG 0 addrThread h7 { Shape.none with vs := regs 2 2, vd := regs 9 1 } ∧
    laneAddress false addrThread 2 2 % 2 ^ Access.width 2 = 0 ∧
    laneAddress false addrThread 6 2 % 2 ^ Access.width 2 ≠ 0 ∧
    (Access.sp 0x802 = true ∧ addrS.scratchSize addrG < laneAddress false addrThread 4 0x802 + 4) ∧
    (laneAddress false addrThread 2 2 < 2 ^ 57 ∧ held blindS 0 3968 = some { placedPage with r := false }) :=
  ⟨⟨clean_of _ _ (by decide), by decide, by decide⟩, ⟨clean_of _ _ (by decide), by decide, by decide⟩,
    ⟨clean_of _ _ (by decide), by decide, by decide, by decide⟩, by decide, by decide,
    addr_alone _ (by decide) (by decide), by decide, by decide, ⟨by decide, by decide⟩, by decide, rfl⟩

/-- A request of the small machine's thread: a word at address 0x200 of memory or of the scratchpad. -/
def req1 (kind : ReqKind) (sp : Bool) (stage : ReqStage) : Req :=
  { request base placedGroup 0 placedThread h7 2 0 kind sp (if sp then none else some placedPage) 0x200 4 7 0 12 0 with
    stage := stage }
/-- The small machine with that request outstanding. -/
def reqS (r : Req) : State := { base with reqs := [(7, r)] }

theorem outstanding_of (r : Req) (g : r.g = 0) (t : r.t = 0) : Outstanding (reqS r) 7 r placedGroup placedThread :=
  ⟨rfl, by rw [g]; rfl, by rw [t]; rfl, (fun e he => nomatch he)⟩

theorem witness_MemoryReplies : ∀ r ∈ [req1 .load false (.performed 5 false), req1 .load false (.performed 0 true),
      req1 .load true .issued, req1 .store true .issued, req1 (.atomic .fadd) true .issued],
    Outstanding (reqS r) 7 r placedGroup placedThread ∧ (∀ p ∈ placedThread.pend, p.file = .vec → p.reg ∉ r.dests) ∧
    r.lost = false ∧ r.far = false ∧ (reqS r).inTurn 7 r = true ∧ r.scope < 2 ∧ Tbl.get? (reqS r).teams 0 = some placedTeam ∧
    (reqS r).teamCore placedGroup < placedTeam.scratch.length ∧ Memory.wf (placedTeam.scratch.getD 0 []) = true ∧
    (∀ i, i < r.size → r.ea + i ∉ placedTeam.scratchBad.getD 0 []) ∧ r.size = 4 ∧ r.m < 256 ^ r.size := by
  intro r hr
  simp only [List.mem_cons, List.not_mem_nil, or_false] at hr
  rcases hr with rfl | rfl | rfl | rfl | rfl <;>
    exact ⟨outstanding_of _ rfl rfl, (fun p hp => nomatch hp), rfl, rfl, by decide, by decide, rfl, by decide, by decide,
      (fun i _ => by simp [placedTeam]), rfl, by decide⟩

/-- The thread of that request after n words, and a store of it that has gone to its home. -/
def wordsThread (n : Nat) : Thread := { placedThread with words := n }
def wordsS (n : Nat) (r : Req) : State := { withG (fun g => { g with threads := [(0, wordsThread n)] }) with reqs := [(7, r)] }
def farStore : Req := { req1 .store false .issued with far := true }

theorem witness_MemoryReplies_words :
    (∀ n ∈ [1, 2], ∀ r ∈ [req1 .load false (.performed 0 true), farStore],
      Outstanding (wordsS n r) 7 r { placedGroup with threads := [(0, wordsThread n)] } (wordsThread n)) ∧
    (req1 .load false (.performed 0 true)).nth = 1 ∧ (req1 .load false (.performed 0 true)).blocking = false ∧
    (req1 .putq false (.performed 0 true)).blocking = true ∧ (wordsThread 1).place = .ready ∧
    farStore.sp = false ∧ farStore.accepted = false ∧ farStore.isDone = false ∧ farStore.lost = false := by
  refine ⟨fun n _ r hr => ?_, rfl, rfl, rfl, rfl, rfl, rfl, rfl, rfl⟩
  simp only [List.mem_cons, List.not_mem_nil, or_false] at hr
  rcases hr with rfl | rfl <;> exact ⟨rfl, rfl, rfl, (fun e he => nomatch he)⟩

theorem witness_HomeRequests :
    (∀ r ∈ [{ req1 .load false .issued with uc := true, far := true },
        { req1 .store false .issued with uc := true, far := true }, { req1 (.atomic .cas) false .issued with far := true }],
      Tbl.get? (reqS r).reqs 7 = some r ∧ r.far = true ∧ r.order = 0 ∧ (reqS r).packets = [] ∧ (reqS r).inTurn 7 r = true ∧ (reqS r).names r.pa = true ∧
      paSpace r.pa = 0 ∧ (reqS r).homeOpen r.pa = true ∧ (reqS r).stackLost r.pa = false ∧ r.pa % 64 + r.size ≤ 64 ∧
      (reqS r).memBad = [] ∧ r.m < 256 ^ r.size ∧ (reqS r).firstFor r.pa = none) ∧ base.mem.wf = true ∧ (∀ x, base.l2 x 8 = none) ∧
    (let s := base.putL2 0 8 ⟨List.replicate 64 1, 3, 0, false⟩;
      s.l2 0 8 = some ⟨List.replicate 64 1, 3, 0, false⟩ ∧ s.homeOpen (64 * 8) = true ∧ s.homeDie (64 * 8) = 0 ∧
        s.settled 0 (64 * 8) = true) ∧
    (let s := base.putL2 0 (2 ^ 38) ⟨List.replicate 64 1, 3, 0, false⟩;
      s.l2 0 (2 ^ 38) = some ⟨List.replicate 64 1, 3, 0, false⟩ ∧ s.homeOpen (64 * 2 ^ 38) = true ∧ s.packets = [] ∧
        paSpace (64 * 2 ^ 38) = 0 ∧ paPkg (64 * 2 ^ 38) ≠ 0 / 4) := by
  refine ⟨fun r hr => ?_, by decide, fun x => ?_, by decide, by decide⟩
  · simp only [List.mem_cons, List.not_mem_nil, or_false] at hr
    rcases hr with rfl | rfl | rfl <;>
      exact ⟨rfl, rfl, rfl, rfl, by decide, by decide, by decide, by decide, by decide, by decide, rfl, by decide, by decide⟩
  · unfold State.l2 State.die
    by_cases h : x = 0
    · subst h; rfl
    · have e : base.dies.getD x Die.reset = Die.reset := by
        simp [base, State.placed, State.reset, Tbl.put, Tbl.getD, Tbl.get?, Ne.symm h]
      rw [e]; rfl

/-- A ring of 16 granules at 0x200 with HEAD 1, TAIL 2 and CLAIM 4. -/
def ringS (r : Req) : State := { reqS r with
  mem := base.mem.writeBytes 0x200 (natToBytes 8 0x1000 ++ natToBytes 8 4 ++ natToBytes 8 1 ++ natToBytes 8 2 ++ natToBytes 8 4) }
def ring1 : Ring := ⟨0x1000, 4, 1, 2, 4, 0, 0, 0, 0⟩
def ringReq (kind : ReqKind) (stage : ReqStage) (m m2 : Nat) : Req :=
  { req1 kind false stage with pa := 0x200, far := true, m := m, m2 := m2 }

theorem witness_RingForms :
    (∀ r ∈ [ringReq .rclaim .issued 2 0, ringReq .rclaim (.queued 3) 2 0, ringReq .rawait .issued 1 0,
        ringReq .putq .issued 65 0, ringReq .rretire .issued 1 0, ringReq .rcommit .issued 2 2],
      Tbl.get? (ringS r).reqs 7 = some r ∧ (ringS r).inTurn 7 r = true ∧ (ringS r).names r.pa = true ∧
      (ringS r).homeOpen r.pa = true ∧ (ringS r).stackLost r.pa = false ∧ (ringS r).homeDie r.pa = r.core / 96 ∧
      (ringS r).readRing r.pa = (ring1, false) ∧ (∀ e ∈ (ringS r).jobs, e.2.ringWait = none) ∧
      (∀ e ∈ (ringS r).reqs, e.2.pa = r.pa → e.1 ≠ 7 → ∀ k, e.2.stage ≠ .queued k) ∧
      (ringS r).firstFor r.pa = none ∧ r.pa % 128 = 0 ∧ r.order = 0 ∧ paPkg r.pa = r.core / 384 ∧ paSpace r.pa = 0 ∧
      (ringS r).l2 0 (r.pa / 64) = none ∧ (ringS r).l2 0 (r.pa / 64 + 1) = none ∧ ring1.claim + r.m < 2 ^ 64) ∧
    ring1.ok = true ∧ (ringS (ringReq .rclaim .issued 2 0)).mem.wf = true ∧ ring1.bit 2 = false ∧ ring1.bit 3 = false ∧
    ring1.claim + 2 - ring1.head ≤ 2 ^ ring1.log ∧ 1 ≤ ring1.tail - ring1.head ∧ ring1.head + 1 ≤ ring1.tail := by
  refine ⟨fun r hr => ?_, by decide +kernel, by decide +kernel, by decide +kernel, by decide +kernel, by decide, by decide,
    by decide⟩
  simp only [List.mem_cons, List.not_mem_nil, or_false] at hr
  rcases hr with rfl | rfl | rfl | rfl | rfl | rfl <;>
    exact ⟨rfl, by decide +kernel, by decide +kernel, by decide +kernel, by decide +kernel, by decide +kernel,
      by decide +kernel, (fun e he => nomatch he), (fun e he _ hn => by simp [ringS, reqS] at he; subst he; exact absurd rfl hn),
        by decide, by decide, rfl, by decide, by decide, rfl, rfl, by decide⟩

/-- Five table pages from 0x5000 down to 0x1000, the last with a leaf for 0x8000. -/
def walkS : State := { base with
  ptRoot := 0x5000
  mem := ((((base.mem.writeNat 0x5000 8 0x4001).writeNat 0x4000 8 0x3001).writeNat 0x3000 8 0x2001).writeNat 0x2000 8
    0x1001).writeNat 0x1000 8 0x801F
  walks := [(3, ⟨0, 0, false⟩), (4, ⟨0, 0, true⟩)] }
/-- The entry at each level. -/
def walkPte (n : Nat) : Pte := ⟨if n = 0 then 0x801F else 0x1000 * n + 1⟩

theorem walk_ok : ∃ pa e, walkS.walk (0 : Dword).toNat 4 walkS.ptRoot.toNat = .ok pa e ∧ e.home = some 0 := by
  have k : (match walkS.walk (0 : Dword).toNat 4 walkS.ptRoot.toNat with
    | .ok _ e => decide (e.home = some 0)
    | _ => false) = true := by decide +kernel
  generalize walkS.walk (0 : Dword).toNat 4 walkS.ptRoot.toNat = r at k ⊢
  cases r with
  | ok a e => exact ⟨a, e, rfl, of_decide_eq_true k⟩
  | hold => cases k
  | bad c d => cases k

theorem witness_TranslationFills :
    (∃ pa e, walkS.walk (0 : Dword).toNat 4 walkS.ptRoot.toNat = .ok pa e ∧ e.home = some 0) ∧
    (walkS.stack 0).st = .steady ∧ walkS.walks.length ≤ 64 ∧ Tbl.get? walkS.walks 3 = some ⟨0, 0, false⟩ ∧ Tbl.get? walkS.walks 4 = some ⟨0, 0, true⟩ ∧
    (∀ n, n < 5 → walkS.readPte (0x1000 * (n + 1) + 8 * 0) = some (walkPte n, false) ∧ (walkPte n).raw.testBit 0 = true ∧
      (walkPte n).raw / 2 ^ 52 = 0 ∧ (walkPte n).raw / 2 ^ 9 % 8 = 0 ∧ walkS.names (walkPte n).pa = true) ∧
    (∀ n, n < 4 → 0x1000 * (n + 1) = (walkPte (n + 1)).raw / 2 ^ 12 % 2 ^ 40 * 4096 ∧ (walkPte (n + 1)).raw / 2 % 2 ^ 8 = 0) ∧
    (walkPte 0).raw.testBit 1 = true ∧ (walkPte 0).raw.testBit 8 = false := by
  refine ⟨walk_ok, by decide, by decide, rfl, rfl, ?_, by decide, by decide, by decide⟩
  decide +kernel

/-- A wait of the small machine's group for a word, signed by its thread. -/
def wait1 (k : GKind) (i : Instr) : GWait := ⟨k, i, h0, base.cur.at_, [⟨0, 0, 0, true, none⟩], ⟨0, 0⟩, 0, [], 0⟩
/-- The group with that wait. -/
def waitG1 (k : GKind) (i : Instr) : Group := { placedGroup with waits := [(3, wait1 k i)] }
/-- The machine with it. -/
def waitS1 (k : GKind) (i : Instr) : State := withG (fun _ => waitG1 k i)

theorem waits_of (k : GKind) (i : Instr) : Waits (waitS1 k i) 0 3 (waitG1 k i) (wait1 k i) :=
  ⟨rfl, rfl, rfl, rfl, List.nodup_singleton _⟩

/-- The machine with barrier 1 of its team in phase 1. -/
def flipped (s : State) : State := { s with
  teams := [(0, { placedTeam with bars := placedTeam.bars.set 1 { placedTeam.bars.getD 1 ⟨0, 0, 0, 0, false⟩ with phase := true } })] }

theorem flipped_waits (k : GKind) (i : Instr) : Waits (flipped (waitS1 k i)) 0 3 (waitG1 k i) (wait1 k i) :=
  ⟨rfl, rfl, rfl, rfl, List.nodup_singleton _⟩

theorem witness_Wakes_barrier :
    Waits (flipped (waitS1 (.barrier 1) (.barwait h0 1))) 0 3 (waitG1 (.barrier 1) (.barwait h0 1)) (wait1 (.barrier 1) (.barwait h0 1)) ∧
    placedGroup.team = some 0 ∧ (flipped base).parkable placedGroup = false ∧
    ((flipped base).bar 0 1).phase ≠ placedGroup.tgt.getLsbD 1 ∧ (base.bar 0 1).phase = placedGroup.tgt.getLsbD 1 ∧
    Waits (flipped (waitS1 (.any 2) (.waitany h0 5 6 0))) 0 3 (waitG1 (.any 2) (.waitany h0 5 6 0)) (wait1 (.any 2) (.waitany h0 5 6 0)) ∧
    ((2 : Nat).testBit ((placedGroup.rot + 1) % 8) = true ∧ ∀ m, m < 1 → ¬ ((2 : Nat).testBit ((placedGroup.rot + m) % 8) = true)) ∧
    (∀ i, i < 8 → ¬ ((2 : Nat).testBit i = true ∧ (base.bar 0 i).phase ≠ placedGroup.tgt.getLsbD i)) ∧
    (∀ x : GWait, Settles (flipped base) 0 x) ∧ ¬ Settles (tileS base) 0 (wait1 (.barrier 1) (.barwait h0 1)) ∧
    (1 ∈ ({ wait1 (.barrier 1) (.barwait h0 1) with met := [1] } : GWait).met) ∧
    ((wait1 (.any 2) (.waitany h0 5 6 0)).sigs.map (·.t)).head? = some 0 :=
  ⟨flipped_waits _ _, rfl, by decide, by decide, by decide, flipped_waits _ _, by decide, by decide,
    fun _ => ⟨(fun e he => nomatch he), (fun e he => nomatch he)⟩,
    fun h => h.2 (5, accstOp) (List.mem_singleton.2 rfl) rfl rfl 0 (by decide) (by decide), by decide, rfl⟩

/-- A thread that waits in JOINW on the counter at 0x80. -/
def joinWait : Thread := { placedThread with place := .waiting (.join 0x80) base.cur.at_ h0 ⟨0, 0⟩ [5] }
def joinWaitS (x : Nat) : State := with8 (withG (fun _ => { placedGroup with threads := [(0, joinWait)] })) 0x80 x

theorem witness_Wakes_rows :
    Waits (waitS1 (.claim 64) (.regclm h0 5)) 0 3 (waitG1 (.claim 64) (.regclm h0 5)) (wait1 (.claim 64) (.regclm h0 5)) ∧
    64 ≤ (waitS1 (.claim 64) (.regclm h0 5)).freeRows 0 ∧
    (∀ e ∈ (waitS1 (.claim 64) (.regclm h0 5)).groups, e.2.share = none) ∧
    (∀ e ∈ (waitS1 (.claim 64) (.regclm h0 5)).groups, ∀ v ∈ e.2.waits, ∀ m, v.2.kind = .claim m →
      e.1 = 0 ∧ v = (3, wait1 (.claim 64) (.regclm h0 5))) ∧
    Waits (waitS1 .dbar (.dbar h0)) 0 3 (waitG1 .dbar (.dbar h0)) (wait1 .dbar (.dbar h0)) ∧
    ((waitS1 .dbar (.dbar h0)).groups.map (·.1)).Nodup ∧
    (∀ e ∈ (waitS1 .dbar (.dbar h0)).groups, placedGroup.dbars ≤ e.2.dbars) ∧
    Settles (waitS1 .dbar (.dbar h0)) 0 (wait1 .dbar (.dbar h0)) ∧ (joinWaitS 1).settled 0 0x80 = true ∧
    Mapped (joinWaitS 1) 0 0x80 .read placedPage ∧ (joinWaitS 1).homeDie 0x80 = 0 ∧ (joinWaitS 1).homeOpen 0x80 = true ∧
    (joinWaitS 1).passed = [] ∧ (joinWaitS 1).firstFor 0x80 = none ∧
    (joinWaitS 1).l2 0 2 = none ∧ (joinWaitS 1).memBad = [] ∧ (joinWaitS 1).remoteLines 0 = [] ∧
    (joinWaitS 1).mem.read 0x80 ≠ 0 ∧ ∀ i, i < 8 → (joinWaitS 0).mem.read (0x80 + i) = 0 :=
  ⟨waits_of _ _, by decide, by decide, (fun e he v hv _ _ => by
      simp only [waitS1, withG, List.mem_cons, List.not_mem_nil, or_false] at he
      subst he
      simp only [waitG1, List.mem_cons, List.not_mem_nil, or_false] at hv
      exact ⟨rfl, hv⟩), waits_of _ _, by decide, by decide,
    ⟨(fun e he => nomatch he), (fun e he => nomatch he)⟩, by decide, mapped_of _ _ _ _ _ rfl (by decide), by decide, by decide, rfl, by decide, rfl, rfl,
    by decide, by decide, by decide⟩

/-- An operation of the matrix engine of the small machine on handle 0. -/
def mop1 (k : MopKind) (ma mb : OpMap) : Mop := ⟨0, 0, [0], k, 0, false, 0x11, ma, mb, false, 0, false, 0, base.cur.at_, 0, [(0, 1)]⟩

theorem witness_SlotAndEntryGrants :
    (let m := mop1 .acczero [0, 0, 0, 0] [0, 0, 0, 0];
      Waits (waitS1 (.bind m) (.acczero h0 0)) 0 3 (waitG1 (.bind m) (.acczero h0 0)) (wait1 (.bind m) (.acczero h0 0))) ∧
    onceDead (.acczero h0 0) = [] ∧ (∃ n rest, (base.core 0).accFree = n :: rest) ∧ base.cur.at_.tok = 0 ∧
    (base.core 0).mops.length + (base.mopsBack 0).length < 8 ∧
    Waits (waitS1 (.entry (zeroDesc 16) ⟨[], [], []⟩) (.cpy h0 5 16 16)) 0 3 (waitG1 (.entry (zeroDesc 16) ⟨[], [], []⟩) (.cpy h0 5 16 16))
      (wait1 (.entry (zeroDesc 16) ⟨[], [], []⟩) (.cpy h0 5 16 16)) ∧ (∃ n rest, (base.core 0).jobFree = n :: rest) ∧
    (∀ e ∈ (waitS1 (.entry (zeroDesc 16) ⟨[], [], []⟩) (.cpy h0 5 16 16)).groups, ∀ v ∈ e.2.waits, ∀ q f, v.2.kind = .entry q f →
      e.1 = 0 ∧ v = (3, wait1 (.entry (zeroDesc 16) ⟨[], [], []⟩) (.cpy h0 5 16 16))) :=
  ⟨waits_of _ _, by decide, ⟨_, _, rfl⟩, rfl, by decide, waits_of _ _, ⟨_, _, rfl⟩, (fun e he v hv _ _ _ => by
      simp only [waitS1, withG, List.mem_cons, List.not_mem_nil, or_false] at he
      subst he
      simp only [waitG1, List.mem_cons, List.not_mem_nil, or_false] at hv
      exact ⟨rfl, hv⟩)⟩

/-- The small machine with that operation first on its core and its handle 0 in slot 31. -/
def mopG : Group := { placedGroup with acc := [(0, 31), (1, 30)] }
def mopS (m : Mop) : State := { withG (fun _ => mopG) with
  mops := [(9, m)], cores := base.cores.put 0 { placedCore with mops := [9] } }

theorem operates_of (m : Mop) (c : m.core = 0) (g : m.g = 0) (h : m.h = 0) (n : (mopS m).mopNext 0 = some 9) :
    Operates (mopS m) 9 m mopG 31 0 0 placedTeam :=
  ⟨rfl, by rw [c]; exact n, by rw [c]; rfl, by rw [g]; rfl, rfl, by rw [h]; rfl, ⟨rfl, rfl⟩, ⟨rfl, by decide⟩, ⟨by rw [c]; rfl, rfl⟩,
    by rw [c]; exact (fun e he => nomatch he)⟩

/-- A map of one row and n columns at 0. -/
def map1 (n : Nat) : OpMap := [0, 2 ^ 20, BitVec.ofNat 32 n, 0]

/-- The kinds of operation. -/
def kinds : List MopKind := [.tmma true, .tmma false, .acczero, .accscl 2, .accadd 1, .accrd 5 0, .accrel, .accld, .accst]

theorem next_of : ∀ k ∈ kinds, ∀ n ∈ [1, 33], (mopS (mop1 k (map1 n) (map1 n))).mopNext 0 = some 9 := by decide

theorem witness_MatrixSteps :
    (∀ k ∈ kinds, ∀ n ∈ [1, 33], Operates (mopS (mop1 k (map1 n) (map1 n))) 9 (mop1 k (map1 n) (map1 n)) mopG 31 0 0 placedTeam ∧
        (mop1 k (map1 n) (map1 n)).sigs.Nodup ∧ (mop1 k (map1 n) (map1 n)).tok < 4) ∧
    (0 < (map1 1).cols ∧ (map1 1).cols ≤ 32) ∧ 32 < (map1 33).cols ∧ (map1 1).rows ≤ 64 ∧ Tbl.get? mopG.acc 1 = some 30 ∧
    ((mopS (mop1 .acczero [] [])).slot 0 30).bad = [] ∧ (mopS (mop1 .acczero [] [])).reqs = [] :=
  ⟨fun k hk n hn => ⟨operates_of _ rfl rfl rfl (next_of k hk n hn), List.nodup_singleton _, show (0 : Nat) < 4 by decide⟩, by decide, by decide, by decide, rfl, rfl, rfl⟩

/-- Two operations on handle 0, the first in turn, and an ACCST behind a scratchpad store; an operation that seven steps have
passed by. -/
def turnsS (k : MopKind) : State := { mopS (mop1 .acczero [] []) with
  mops := [(9, mop1 .acczero [] []), (10, mop1 k [] [])], cores := base.cores.put 0 { placedCore with mops := [9, 10] }
  reqs := [(2, padStore)] }

def lateS : State := { mopS (mop1 .acczero [] []) with
  mops := [(9, mop1 .acczero [] []), (10, { mop1 .acczero [] [] with h := 1 })]
  cores := base.cores.put 0 { placedCore with mops := [9, 10], mopWait := [(10, 7)] } }

theorem witness_MatrixTurns_late : (lateS.core 0).mops.Pairwise (· < ·) ∧
    (9 ∈ (lateS.core 0).mops ∧ lateS.mopRuns 9 (mop1 .acczero [] []) = true) ∧ lateS.mopsRun 0 = [9, 10] ∧
    (0 < 8 ∧ 0 < (lateS.mopsRun 0).countP (fun e => e ≠ 9 && decide (7 ≤ Tbl.getD (lateS.core 0).mopWait e 0 + 0))) ∧
    lateS.mopNext 0 = some 10 := by decide

theorem witness_MatrixTurns : ((turnsS .accst).core 0).mops.Pairwise (· < ·) ∧
    (∀ k, k < 8 → ((turnsS .accst).mopsRun 0).countP (fun e => e ≠ 9 &&
      decide (7 ≤ Tbl.getD ((turnsS .accst).core 0).mopWait e 0 + k)) ≤ k) ∧
    (9 ∈ ((turnsS .accst).core 0).mops ∧ (turnsS .accst).mopRuns 9 (mop1 .acczero [] []) = true) ∧
    (turnsS .accst).mopNext 0 ≠ some 10 ∧
    (∃ e q, e < 10 ∧ Tbl.get? (turnsS .accst).mops e = some q ∧ q.g = 0 ∧ q.tok ≠ 4 ∧
      ∃ h ∈ (mop1 .accst [] []).handles, q.names h = true) ∧
    (∃ e ∈ (turnsS .accst).reqs, e.1 < 10 ∧ e.2.g = 0 ∧ e.2.sp = true ∧ e.2.writes = true ∧ e.2.isDone = false) :=
  ⟨by decide, by decide, ⟨by decide, by decide⟩, by decide, ⟨9, _, by decide, rfl, rfl, by decide, 0, by decide, by decide⟩,
    _, List.mem_singleton.2 rfl, by decide, by decide, by decide, by decide, by decide⟩

/-- A job of the small machine's team on entry 3 of core 0. -/
def job1 (k : JobKind) (st : JobState) (d : List Word) : Job :=
  { kind := k, state := st, fault := 0, barrier := some 1, issues := 1, lseq := 1, team := some 0, g := 0, gix := 0, desc := d
    scope := 4, reads := [], writes := [], axis := [], born := 0, waits := [], bytes := 0, next := 0, off := 0, index := none
    unit := none, lags := [], failing := none, range := 0, paused := none, retry := false, claim := none, seq := 0, collK := 0
    begun := false, moves := false, shard := none, sent := [], recv := none, ringWait := none, trips := [], told := false }
def jobS (j : Job) : State := { base with jobs := [(3, j)] }

theorem runs_of (k : JobKind) (d : List Word) : Runs (jobS (job1 k .running d)) 3 (job1 k .running d) 0 0 placedTeam :=
  ⟨rfl, rfl, ⟨rfl, rfl, rfl, rfl⟩, (fun e he _ _ => by
    simp only [jobS, List.mem_cons, List.not_mem_nil, or_false] at he
    subst he
    exact ⟨rfl, rfl⟩), ⟨rfl, rfl⟩, ⟨rfl, by decide⟩, rfl, by decide, fun u b h => nomatch h⟩

/-- A copy of 4 bytes from offset 0x100 to 0x200; gathers of two rows of 8 bytes, index 0 in range and out of it. -/
def copyDesc : List Word := [0x100, 0, 0x200, 0, 0, 0, 0, 0, 0, 0, 0, 0, 2 + 3 * 2 ^ 15, 0, 0, 0]
def gathDesc (rows : Word) : List Word := [0, 0, 0x100, 0, 0x200, 0, 2, rows, 8, 8, 8, 7, 0, 0, 0, 0]

theorem witness_EngineSteps_requests :
    Runs (jobS (job1 .cpy .running copyDesc)) 3 (job1 .cpy .running copyDesc) 0 0 placedTeam ∧
    (Desc.srcSp copyDesc = true ∧ Desc.dstSp copyDesc = true ∧ Desc.mck copyDesc = 0 ∧ Desc.elems copyDesc = 1) ∧
    (source copyDesc 0 + Desc.ses copyDesc ≤ (jobS (job1 .cpy .running copyDesc)).jobSize (job1 .cpy .running copyDesc) ∧
      destination copyDesc 0 + Desc.des copyDesc ≤ (jobS (job1 .cpy .running copyDesc)).jobSize (job1 .cpy .running copyDesc)) ∧
    (∀ x, x < Desc.ses copyDesc → ∀ y, y < Desc.des copyDesc → (source copyDesc 0 + x) / 16 ≠ (destination copyDesc 0 + y) / 16) ∧
    (∀ k ∈ [JobKind.gath, .scat], ∀ r : Word,
      Runs (jobS (job1 k .running (gathDesc r))) 3 (job1 k .running (gathDesc r)) 0 0 placedTeam) ∧
    (∀ r : Word, Desc.idxSp (gathDesc r) = true ∧ Desc.tabSp (gathDesc r) = true ∧ Desc.bufSp (gathDesc r) = true ∧
      Desc.ring (gathDesc r) = false ∧ 0 < Desc.count (gathDesc r) ∧ 0 < Desc.gsize (gathDesc r) ∧
      ((Desc.q (gathDesc r) 0 + 0 * Desc.idxBytes (gathDesc r) : Nat) + Desc.idxBytes (gathDesc r) ≤ 4096 ∧
        Desc.q (gathDesc r) 4 + 8 ≤ 4096 ∧ Desc.q (gathDesc r) 2 + 8 ≤ 4096)) ∧
    (jobS (job1 .gath .running (gathDesc 1))).jobSize (job1 .gath .running (gathDesc 1)) = 4096 ∧
    Desc.rows (gathDesc 0) ≤ number [] 0 4 ∧ number [] 0 4 < Desc.rows (gathDesc 1) :=
  ⟨runs_of .cpy copyDesc, by decide +kernel, by decide +kernel, by decide +kernel, fun k _ r => runs_of k (gathDesc r),
    fun _ => (show Desc.idxSp (gathDesc 0) = true ∧ Desc.tabSp (gathDesc 0) = true ∧ Desc.bufSp (gathDesc 0) = true ∧
      Desc.ring (gathDesc 0) = false ∧ 0 < Desc.count (gathDesc 0) ∧ 0 < Desc.gsize (gathDesc 0) ∧
      ((Desc.q (gathDesc 0) 0 + 0 * Desc.idxBytes (gathDesc 0) : Nat) + Desc.idxBytes (gathDesc 0) ≤ 4096 ∧
        Desc.q (gathDesc 0) 4 + 8 ≤ 4096 ∧ Desc.q (gathDesc 0) 2 + 8 ≤ 4096) by decide +kernel), by decide +kernel,
    by decide +kernel, by decide +kernel⟩

/-- A job that waits on job 4, one that waits on none, one that is done, and one that is paused. -/
def pausedJob (r : Bool) : Job := { job1 .cpy .running copyDesc with paused := some 0x1000, retry := r }
/-- A multicast of which one destination waits and may try again. -/
def lagJob : Job := { job1 .cpy .running copyDesc with lags := [⟨1, 0, [], some 0x1000, true⟩] }
def doneJob (b : Option Nat) : Job := { job1 .cpy .running copyDesc with next := 1, bytes := 4, barrier := b }

theorem witness_EngineSteps_jobs :
    (∀ j : Job, Tbl.get? (jobS j).jobs 3 = some j) ∧ (job1 .cpy .waiting copyDesc).waits = [] ∧
    ({ job1 .cpy .waiting copyDesc with waits := [4] } : Job).waits ≠ [] ∧
    (∀ b, (doneJob b).state = .running ∧ (doneJob b).total ≤ (doneJob b).next ∧ (doneJob b).lags = [] ∧
      (doneJob b).failing = none ∧ (jobS (doneJob b)).jobOut 3 (doneJob b).born = false) ∧
    (doneJob (some 1)).team = some 0 ∧ Tbl.get? (jobS (doneJob (some 1))).teams 0 = some placedTeam ∧
    placedTeam.ended = false ∧ 1 < placedTeam.bars.length ∧ base.remoteLines (placedTeam.cores.getD 0 0 / 96) = [] ∧
    base.backOut (placedTeam.cores.getD 0 0 / 96) = false ∧
    (∀ r, (pausedJob r).paused = some 0x1000 ∧ (pausedJob r).retry = r ∧ (pausedJob r).lags = []) ∧
    (∃ l ∈ (lagJob).lags, l.retry = true) ∧ lagJob.paused = none :=
  ⟨fun _ => rfl, rfl, by decide, fun b => ⟨rfl, (show (doneJob none).total ≤ 1 by decide), rfl, rfl, rfl⟩, rfl, rfl, rfl, by decide, by decide,
    by decide, fun _ => ⟨rfl, rfl, rfl⟩,
    ⟨_, List.mem_singleton.2 rfl, rfl⟩, rfl⟩

/-- A COLL of one integer, or of another count: SEND at 0x180, RECV at 0x1C0, the shard map at 0x300. -/
def collDesc (op count : Word) : List Word :=
  [0x180, 0, 0x1C0, 0, count, 0, op + 13 * 2 ^ 8, 1, if op = 4 then 0x300 else 0, 0] ++ List.replicate 22 0
/-- A member's job on an axis, as it stands before the collective begins and as it moves. -/
def collJob (op count : Word) (axis : List Nat) : Job := { job1 .coll .running (collDesc op count) with axis := axis }
def collMoves (op : Word) : Job := { collJob op 1 [0] with begun := true, moves := true }
def collS (l : List (Nat × Job)) : State := { axisS with jobs := l }
/-- The entry with number 3 of the first core of die 4, on another package. -/
def far3 : Nat := 32 * 384 + 3
/-- The bytes of a shard map of one member and one item. -/
def mapBytes : List Byte := wordBytes [1, 1, 0, 0, 0, 1, 0, 1]

theorem coll_members (j : Job) (k : j.kind = .coll) (st : j.state = .running) (a : j.axis = [0]) :
    (collS [(3, j)]).collMembers j = some [(3, j)] := by
  have e : (collS [(3, j)]).matching j 0 = some (3, j) := by simp [State.matching, collS, jobCore, k, st]
  simp only [State.collMembers, a, List.map, e]
  rfl

/-- A permute whose lower generation writes what it reads, and one that no collective holds. -/
def permuteJob (b : Option (List Byte)) : Job :=
  { collJob 4 1 [0] with shard := b, born := 2, reads := [⟨none, 0x180, 0x183⟩], desc := (collDesc 4 1).set 7 2 }
def lowerJob : Job := { collJob 0 1 [0] with writes := [⟨none, 0x180, 0x183⟩], collK := 1 }

theorem witness_CollectiveSteps_starts :
    (∀ l ∈ [[0], [0, 4]], ((collS [(3, collJob 0 1 l)]).jobs.map (·.1)).Nodup ∧ (collJob 0 1 l).begun = false) ∧
    (collS [(3, collJob 0 1 [0, 4])]).collMembers (collJob 0 1 [0, 4]) = none ∧
    (collS [(3, { collJob 0 1 [0] with paused := some 0 })]).collMembers { collJob 0 1 [0] with paused := some 0 } =
      some [(3, { collJob 0 1 [0] with paused := some 0 })] ∧
    (let ms := [(3, collJob 0 1 [0, 4]), (far3, collJob 0 2 [0, 4])];
      (collS ms).collMembers (collJob 0 1 [0, 4]) = some ms ∧ (∀ e ∈ ms, (collS ms).engineHas e.1 e.2 = true) ∧
        Desc.w (collDesc 0 1) 4 ≠ Desc.w (collDesc 0 2) 4) ∧
    (∀ j ∈ [collJob 0 1 [0], permuteJob (some mapBytes), permuteJob (some [])],
      (collS [(3, j)]).collMembers j = some [(3, j)] ∧ (collS [(3, j)]).engineHas 3 j = true ∧ j.failing = none ∧
        j.paused = none ∧ Desc.cl j.desc ≠ 0) ∧
    (ShardMap.ofBytes mapBytes 1).ok 1 1 = true ∧ (ShardMap.ofBytes [] 1).ok 1 1 = false := by
  refine ⟨by decide, by decide, coll_members _ rfl rfl rfl, by decide +kernel, fun j hj => ?_, by decide +kernel,
    by decide +kernel⟩
  simp only [List.mem_cons, List.not_mem_nil, or_false] at hj
  rcases hj with rfl | rfl | rfl <;>
    exact ⟨coll_members _ rfl rfl rfl, by decide +kernel, rfl, rfl, by decide⟩

theorem witness_CollectiveSteps_release :
    (let j := { permuteJob (some mapBytes) with begun := true };
      (collS [(3, j)]).collMembers j = some [(3, j)] ∧ Desc.op j.desc = 4 ∧ j.begun = true ∧ j.moves = false ∧
      (collS [(3, j)]).permuteFree [(3, j)] = true ∧
      (∃ o ∈ (collS [(3, j), (4, lowerJob)]).jobs, o.1 / 32 / 96 = 3 / 32 / 96 ∧ o.2.kind = .coll ∧ o.2.lseq = j.lseq ∧
        Desc.gen o.2.desc < Desc.gen j.desc ∧ o.2.born < j.born ∧ o.2.live = true ∧
        ∃ w ∈ o.2.writes, ∃ r ∈ j.reads, w.meets r = true) ∧
      (collS [(3, j), (4, lowerJob)]).collMembers j = some [(3, j)]) :=
  ⟨coll_members _ rfl rfl rfl, rfl, rfl, rfl, by decide +kernel,
    ⟨_, List.mem_cons_of_mem _ (List.mem_singleton.2 rfl), rfl, rfl, rfl, by decide, by decide, rfl, _, List.mem_singleton.2 rfl, _,
      List.mem_singleton.2 rfl, rfl⟩, by decide +kernel⟩

/-- A member that has read its SEND and told the others, one that has not, and one that writes its RECV. -/
def toldJob : Job := { collMoves 0 with sent := [1, 0, 0, 0], told := true }
def writesJob : Job := { toldJob with recv := some [1, 0, 0, 0] }

theorem ok_of (r : Access1) (h : (match r with | .ok _ => true | _ => false) = true) : ∃ b, r = .ok b := by
  cases r with
  | ok b => exact ⟨b, rfl⟩
  | _ => cases h

theorem witness_CollectiveSteps_requests :
    (∀ j ∈ [collMoves 0, { collMoves 0 with sent := [1, 0, 0, 0] }, writesJob, toldJob],
      (collS [(3, j)]).engineHas 3 j = true ∧ (collS [(3, j)]).engineTurn 3 j = true ∧ j.failing = none ∧ j.paused = none ∧
        j.moves = true ∧ j.next = 0 ∧ j.trips = [] ∧ (collS [(3, j)]).collMembers j = some [(3, j)]) ∧
    toldJob.sendBytes 3 ≤ toldJob.sent.length ∧ (collMoves 0).told = false ∧ (∀ y ∈ (collMoves 0).axis, y / 4 = 0 / 4) ∧
    min ((collMoves 0).sendBytes 3 - 0) (64 - (0x180 + 0) % 64) = 4 ∧
    min ({ collMoves 0 with sent := [1, 0, 0, 0] }.sendBytes 3 - 4) (64 - (0x180 + 4) % 64) = 0 ∧
    (∃ b, ((collS [(3, collMoves 0)]).jobRead 3 (collMoves 0) false 0x180 4).2 = .ok b) ∧
    ((collS [(3, collMoves 0)]).jobRead 3 (collMoves 0) false 0x180 4).1.jobs = [(3, collMoves 0)] ∧
    (∃ b, ((collS [(3, writesJob)]).jobWrite 3 writesJob none 0x1C0 [1, 0, 0, 0]).2.2 = .ok b) ∧
    ((collS [(3, writesJob)]).jobWrite 3 writesJob none 0x1C0 [1, 0, 0, 0]).1.jobs = [(3, writesJob)] ∧
    (let j := { toldJob with axis := [0, 4], told := false }; j.axis = [0, 4] ∧ 4 / 4 ≠ 0 / 4 ∧ j.sent.length ≤ 256 ∧
      (collS [(3, j)]).engineHas 3 j = true ∧ (collS [(3, j)]).engineTurn 3 j = true ∧
      (collS [(3, j)]).die 0 = ((collS [(3, j)]).onDie 0 (fun d => { d with collLast := j.born })).die 0) := by
  refine ⟨fun j hj => ?_, by decide +kernel, rfl, by decide, by decide +kernel, by decide +kernel, ok_of _ (by decide +kernel), by decide +kernel,
    ok_of _ (by decide +kernel), by decide +kernel, ⟨rfl, by decide, by decide, by decide +kernel, by decide +kernel, by rfl⟩⟩
  simp only [List.mem_cons, List.not_mem_nil, or_false] at hj
  rcases hj with rfl | rfl | rfl | rfl <;>
    exact ⟨by decide +kernel, by decide +kernel, rfl, rfl, rfl, rfl, rfl, coll_members _ rfl rfl rfl⟩

/-- The shard map of one member and one item. -/
def collMap : ShardMap := ⟨1, 1, 0, [(0, 1, 0, 1)]⟩

theorem witness_CollectiveSteps_results : (∀ op ∈ [0, 1, 2, 3], let d : Desc := collDesc (BitVec.ofNat 32 op) 1;
      d.fmt = 13 ∧ d.red = 0 ∧ d.op = op) ∧ 0 < ([[1, 0, 0, 0]] : List (List Byte)).length ∧
    (Desc.op (collDesc 4 1) = 4 ∧ (collMap.entries.getD 0 (0, 0, 0, 0)).1 = 0 ∧
      (collMap.entries.getD 0 (0, 0, 0, 0)).2.2 = (0, 1) ∧
      ∀ x, x < 1 → (0 < 1 ∧ ∀ p, p < 1 → (0 ≤ 0 + x ∧ 0 + x < 0 + (collMap.entries.getD p (0, 0, 0, 0)).2.1 ↔ p = 0))) := by
  refine ⟨by decide, by decide, by decide, by decide, by decide, ?_⟩
  decide

/-- Stack 0 of the small machine in each of its states, handed toward die 1 by team 0 with barrier 1. -/
def stackS (st : OwnState) : State := base.onStack 0 (fun k => { k with st := st, target := 1, team := some 0, bar := some 1 })

theorem witness_StackHandover_steps : (∀ st, ((stackS st).stack 0).st = st) ∧
    (∀ st, 0 % 8 < ((stackS st).pkg 0).stks.length) ∧ ((stackS .switching).stack 0).team = some 0 ∧
    ((stackS .switching).stack 0).bar = some 1 ∧ Tbl.get? (stackS .switching).teams 0 = some placedTeam ∧
    placedTeam.saved = false ∧ placedTeam.ended = false ∧
    (∀ e ∈ (stackS .switching).groups, ∀ w ∈ e.2.waits, ∀ target, w.2.kind ≠ .handover 0 target) ∧
    ¬ Fills ⟨2, 0, 0, 0, false⟩ ∧ Fills (base.bar 0 1) :=
  ⟨fun _ => rfl, fun _ => show (0 : Nat) < 8 by decide, rfl, rfl, rfl, rfl, rfl, by
    intro e he
    have h : e = (0, placedGroup) := List.mem_singleton.mp (show e ∈ [(0, placedGroup)] from he)
    subst h
    exact (fun w hw => nomatch hw), by unfold Fills; decide, by unfold Fills; decide⟩

/-- A spawn record of the small machine's thread at a place: bound for core 0, its join counter on stack 0. -/
def rec1 (st : Option Nat) (hashed : Bool) (p : RecPlace) : SpawnRec :=
  ⟨1, 0x80, [1, 2, 3, 4], 0, 1, 0, hashed, 0, 0, 0, 0, 0, 0, st, 1, p, 0, 0, false, false, none, none⟩
/-- The small machine with records, a launch whose spill rings hold n, and its thread waiting for record 5. -/
def spillL (n : Nat) : Launch := { placedLaunch with rc := { placedLaunch.rc with spill := n } }
def recS (n : Nat) (rs : Tbl SpawnRec) : State := { base with
  recs := rs
  launches := [(1, spillL n)]
  groups := [(0, { placedGroup with threads := [(0, { placedThread with place := .waiting (.spawn 5) base.cur.at_ h0 ⟨0, 0⟩ [] })] })] }
/-- Record 5 on its way, alone or with a spilled record for the same unit. -/
def onWay (st : Option Nat) : Tbl SpawnRec := [(5, rec1 st false .routing)]
def behind (st : Option Nat) (p : RecPlace) : Tbl SpawnRec := [(5, rec1 st false p), (6, { rec1 none false (.spilled 0 0) with born := 1 })]

theorem target_of (n : Nat) (rs : Tbl SpawnRec) (st : Option Nat) (p : RecPlace) : Target (recS n rs) (spillL n) (rec1 st false p) 0 :=
  Or.inl ⟨rfl, Or.inl ⟨by simp [spillL, placedLaunch, rec1], by simp only [rec1]; rfl, (Nat.zero_div 96).symm⟩⟩

theorem witness_SpawnRecords_placement :
    (Tbl.get? (recS 2 (onWay none)).recs 5 = some (rec1 none false .routing) ∧ (recS 2 (onWay none)).packets = [] ∧
      (∀ e ∈ (recS 2 (onWay none)).recs, e.1 ≠ 5 → e.2.place ≠ .routing) ∧
      (∀ e ∈ (recS 2 (onWay none)).recs, e.2.place ≠ .refused 0) ∧
      Target (recS 2 (onWay none)) (spillL 2) (rec1 none false .routing) 0 ∧
      ¬ (8192 ≤ (recS 2 (onWay none)).unitCount 0 ∨ ∃ e ∈ (recS 2 (onWay none)).spillRing 0 1, e.2.unit = 0)) ∧
    (Target (recS 2 (behind none .routing)) (spillL 2) (rec1 none false .routing) 0 ∧
      (∃ e ∈ (recS 2 (behind none .routing)).spillRing 0 1, e.2.unit = 0) ∧
      ((recS 2 (behind none .routing)).spillRing 0 1).length < (spillL 2).rc.spill) ∧
    (∀ st ∈ [none, some 3], (∃ e ∈ (recS 1 (behind st .routing)).spillRing 0 1, e.2.unit = 0) ∧
      (spillL 1).rc.spill ≤ ((recS 1 (behind st .routing)).spillRing 0 1).length) ∧
    ((∀ e ∈ (recS 1 (behind none (.refused 0))).recs, e.2.place = .refused 0 → e = (5, rec1 none false (.refused 0))) ∧
      ((recS 1 (behind none (.refused 0))).recs.map (·.1)).Nodup ∧
      ¬ (∃ e ∈ (recS 1 [(5, rec1 none false (.refused 0))]).spillRing 0 1, e.2.unit = 0) ∧
      ∃ th, (recS 1 []).thr 0 0 = some th ∧ th.place = .waiting (.spawn 5) base.cur.at_ h0 ⟨0, 0⟩ []) ∧
    ((closingS.stack 0).st ≠ .steady ∧ (rec1 none true .routing).home = 0) ∧
    (∀ st h p, (rec1 st h p).core < 96 ∧ (rec1 st h p).again = false ∧ (rec1 st h p).mate = none ∧ (rec1 st h p).die = 0 ∧
      (rec1 st h p).bound = none) ∧
    (let r := { rec1 none true .routing with bound := some 0 }; r.bound = some 0 ∧ 0 ∈ (spillL 2).dies ∧
      ((recS 2 [(5, r)]).die 0).lost = false ∧ ∀ p ∈ (recS 2 [(5, r)]).passed, p.agent ≠ .record 5) ∧
    (recS 2 (onWay none)).passed = [] ∧ (recS 2 (onWay none)).firstFor 0 = none ∧
    ∀ i, i < 32 → paSpace ((spillL 2).spillBase + 32 * 2 * 0 + 32 * (0 % 2) + i) = 0 := by
  refine ⟨⟨rfl, rfl, by decide, by decide, target_of _ _ _ _, by decide⟩, ⟨target_of _ _ _ _, by decide, by decide⟩, by decide,
    ⟨by decide, by decide, by decide, ⟨_, rfl, rfl⟩⟩, ⟨by decide, rfl⟩, fun _ _ _ => ⟨(by simp [rec1]), rfl, rfl, rfl, rfl⟩,
    ⟨rfl, by decide, rfl, (fun e he => nomatch he)⟩, rfl, rfl, by decide⟩

/-- A machine with a record that enters its unit, and bins of that unit. -/
def binS (bs : Tbl Bin) : State := { recS 2 [(5, rec1 none false (.entering 0))] with bins := bs }
/-- An open bin of the record's entry with n records, and one of another entry. -/
def bin1 (n : Nat) : Bin := ⟨0, 1, 0x80, 0, List.replicate n 9, none, 0⟩
def bin2 (k : Nat) : Bin := ⟨0, 1, 0x90, 0, [9], none, k⟩
/-- 64 open bins of another entry, oldest first. -/
def manyBins : Tbl Bin := (List.range 64).map (fun k => (k, bin2 k))

theorem witness_SpawnRecords_bins :
    (∀ e ∈ (binS []).recs, e.2.place = .entering 0 → 0 ≤ e.2.born) ∧
    (Tbl.get? (binS [(4, bin1 254)]).bins 4 = some (bin1 254) ∧ (bin1 254).recs.length < 255 ∧ 255 ≤ (bin1 255).recs.length ∧
      (bin1 255).core = 0 ∧ (bin1 255).closed = none ∧ (bin1 255).lseq = 1 ∧ (bin1 255).entry = 0x80) ∧
    ((binS []).openBins 0).length < 64 ∧
    (64 ≤ ((binS manyBins).openBins 0).length ∧ Tbl.get? (binS manyBins).bins 0 = some (bin2 0) ∧
      (∀ e ∈ (binS manyBins).bins, e.2.entry ≠ 0x80) ∧
      (∀ e ∈ (binS manyBins).bins, e.1 ≠ 0 → (bin2 0).opened < e.2.opened) ∧ ((binS manyBins).bins.map (·.1)).Nodup) ∧
    ((binS []).now 0 < 512 ∧ (∀ b, (binS [(0, bin1 b)]).windowEnd (bin1 b) = 512) ∧ (∀ e ∈ (binS [(0, bin1 1)]).bins, e.1 < 1)) ∧
    (∃ s : State, s.bins = [(0, bin1 1)] ∧ 512 ≤ s.now 0 ∧ s.windowEnd (bin1 1) ≤ s.now 0 ∧ 0 < s.fresh ∧
      Tbl.get? s.recs 5 = some (rec1 none false (.entering 0)) ∧ ∀ e ∈ s.recs, e.2.place = .entering 0 → 0 ≤ e.2.born) ∧
    (let s := recS 2 [(6, rec1 none false (.spilled 0 0))];
      (s.recs.map (·.1)).Nodup ∧ s.unitCount 0 < 8192 ∧ ∀ e ∈ s.recs, e.1 = 6) :=
  ⟨by decide, by decide +kernel, by decide, ⟨by decide +kernel, by decide +kernel, by decide +kernel, by decide +kernel, by decide +kernel⟩,
    ⟨by decide, fun _ => rfl, by decide⟩,
    ⟨{ binS [(0, bin1 1)] with cores := base.cores.put 0 { placedCore with counters := [512] }, fresh := 1 }, rfl, by decide, by decide,
      by decide, rfl, by decide⟩, by decide⟩

/-- A closed bin of one record on core 0. -/
def closedBin : Bin := ⟨0, 1, 0x80, 0, [5], some 3, 0⟩
def kindleS (m : Mode) : State := { recS 2 [(5, rec1 none false (.binned 4))] with
  bins := [(4, closedBin)], cores := base.cores.put 0 { placedCore with mode := m } }

theorem witness_KindledGroups : (∀ m, ((kindleS m).core 0).kheld = none) ∧
    (∀ q, ((kindleS .barrel).core 0).kskip.getD q 0 < 64) ∧ ((kindleS .barrel).bins.map (·.1)).Nodup ∧
    (closedBin.core = 0 ∧ closedBin.closed = some 3 ∧ (spillL 2).state = 2 ∧ (spillL 2).preempt = none) ∧
    (kindleS .barrel).prio 1 < 4 ∧ (∀ e ∈ (kindleS .barrel).bins, e.1 = 4) ∧
    closedBin.recs.map (fun id => Tbl.get? (kindleS .barrel).recs id) = [rec1 none false (.binned 4)].map some ∧
    (kindleS .startup).kindleRoom 0 128 = none ∧ (kindleS .barrel).kindleRoom 0 128 = some (1, 32, false) ∧
    (∀ e ∈ (kindleS .barrel).groups, e.2.share = none) ∧ (kindleS .barrel).remoteLines (0 / 96) = [] ∧
    (∀ e ∈ (kindleS .barrel).bins, e.2.core = 0 → e.2.closed = none → (kindleS .barrel).now 0 < (kindleS .barrel).windowEnd e.2) ∧
    ∃ s : State, s.kindleRoom 0 128 = some (3, 127, true) ∧ s.freeRows 0 < 128 - 32 := by
  refine ⟨fun _ => rfl, fun q => ?_, by decide, by decide, by decide, by decide, by decide, by decide, by decide, by decide, by decide,
    by decide, ⟨{ kindleS .barrel with groups := [(0, { placedGroup with resv := 4064 })] }, by decide, by decide⟩⟩
  rcases q with _ | _ | _ | _ | q
  · decide
  · decide
  · decide
  · decide
  · rw [show ((kindleS .barrel).core 0).kskip.getD (q + 4) 0 = 0 from by simp [kindleS, recS, base, State.core, State.placed, placedCore, Core.reset, Tbl.getD]]
    decide

/-- A launch that parks its groups, pre-empted or not, and the group in its wait on barrier 1. -/
def parkedL (p : Option Preempt) : Launch := { placedLaunch with rc := { placedLaunch.rc with park := true }, preempt := p }
def someP : Preempt := ⟨[0], false, 20, 0x8000, 0x10000, 0, []⟩
def parkedG (r : Residence) (t : List Nat) : Group := { waitG1 (.barrier 1) (.barwait h0 1) with
  residence := r, threads := [(0, { placedThread with place := .signing 0, tok := t })] }
def parkedS (p : Option Preempt) (r : Residence) (t : List Nat) : State := { withG (fun _ => parkedG r t) with
  launches := [(1, parkedL p)] }

theorem witness_ParkingAndResumption :
    (∀ p r t, (parkedS p r t).grp 0 = some (parkedG r t) ∧ Tbl.get? (parkedS p r t).launches 1 = some (parkedL p) ∧
      (parkedL p).rc.park = true ∧ (parkedG r t).waits = [(3, wait1 (.barrier 1) (.barwait h0 1))] ∧
      (parkedG r t).handler = none ∧ (parkedG r t).stop = .none ∧ (parkedG r t).halted = false) ∧
    ((parkedS none .resident [0, 0, 0, 0]).bar 0 1).phase = (parkedG .resident [0, 0, 0, 0]).tgt.getLsbD 1 ∧
    (∀ e ∈ (parkedG .resident [0, 0, 0, 0]).threads, e.1 ∈ (wait1 (.barrier 1) (.barwait h0 1)).sigs.map (·.t)) ∧
    (∀ e ∈ (parkedG .resident [0, 0, 0, 0]).threads, ∀ m ∈ e.2.tok, m = 0) ∧
    (∃ e ∈ (parkedG .resident [0, 1, 0, 0]).threads, ∃ m ∈ e.2.tok, m ≠ 0) ∧
    (parkedL (some someP)).preempt.isSome = true ∧ (parkedS none .resident [0, 0, 0, 0]).slots 0 < 127 ∧
    (placedGroup.conv.length = 8 ∧ placedGroup.ceil < 256 ∧ (1 : Nat) < 16 ∧ base.cur.at_.pc.ix < 16 ∧
      (wait1 (.barrier 1) (.barwait h0 1)).watch.count 5 < 2 ^ 64) ∧
    ((∀ e ∈ (parkedG .resident [0, 0, 0, 0]).threads, e.2.vsoft = [] ∧ e.2.vhard = []) ∧ someP.full = false ∧
      (parkedG .resident []).ssoft = [] ∧ (parkedG .resident []).shard = []) ∧
    (∀ i, i < 4096 + 1088 * 128 → paSpace (placedLaunch.rc.phaseAt 0 0 + i) = 0) ∧
    1 ∉ (wait1 (.barrier 1) (.barwait h0 1)).met ∧
    (∀ e ∈ (parkedG .parked [0, 0, 0, 0]).threads, e.2.pend = []) ∧
    ((wait1 (.barrier 1) (.barwait h0 1)).sigs.map (·.t)).Nodup ∧
    ((flipped (parkedS none .parked [0, 0, 0, 0])).bar 0 1).phase ≠ (parkedG .parked []).tgt.getLsbD 1 ∧
    (flipped (parkedS none .parked [0, 0, 0, 0])).slots 0 < 127 ∧
    (flipped (parkedS none .parked [0, 0, 0, 0])).pickSlot 0 = some (0, 0) :=
  ⟨fun _ _ _ => ⟨rfl, rfl, rfl, rfl, rfl, rfl, rfl⟩, by decide, by decide, by decide, by decide, rfl, by decide,
    by decide, by decide, fun i hi => by rw [show placedLaunch.rc.phaseAt 0 0 = 0 from by decide]; simp only [paSpace]; omega, by decide,
    by decide, by decide, by decide, by decide, by decide⟩

/-- Two groups of quadrant 0, the second pending; entry 0 holds the first, entry 1 none. -/
def pendG : Group := { placedGroup with slot := 1 }
def pendS (y : Bool) (m : Mode) : State := { base with
  groups := [(0, { placedGroup with yielded := y }), (1, pendG)], cores := base.cores.put 0 { placedCore with mode := m } }

/-- The same with every entry of the quadrant taken, by the first group. -/
def fullS (y : Bool) : State := { pendS y .barrel with
  cores := base.cores.put 0 { placedCore with quads := placedCore.quads.modify 0 (fun q => { q with
    active := q.active.map (fun _ => ⟨some 0, 0⟩) }) } }
/-- The machine as its next issue slot begins there. -/
def fullAt (s : State) : State := (s.openQuad 0 0).openSlot 0 0
def groupOf (s : State) : Group := (s.grp 0).getD placedGroup

theorem witness_ActiveSetSteps_swap : (∀ y, let s := fullS y;
      (s.core 0).turn = 0 ∧ (s.openQuad 0 0).servedEntry 0 0 = some 0 ∧ ((s.openQuad 0 0).entry 0 0 0).g = some 0 ∧
      ((fullAt s).entry 0 0 0).g = some 0 ∧ (fullAt s).grp 0 = some (groupOf (fullAt s)) ∧
      ((fullAt s).nextPending 0 0).map (·.1) = some 1 ∧ 0 < ((fullAt s).quad 0 0).active.length ∧
      0 < ((fullAt s).core 0).quads.length) ∧ (groupOf (fullAt (fullS true))).yielded = true ∧
    (let u := groupOf (fullAt (fullS false)); (fullAt (fullS false)).swapEligible 0 u = false ∧ u.yielded = false ∧
      (fullAt (fullS false)).now 0 < 1024) ∧
    (base.openQuad 0 0).servedEntry 0 0 = some 0 ∧ (fullAt base).nextPending 0 0 = none ∧
    ((fullAt base).entry 0 0 0).g = some 0 :=
  ⟨fun y => by cases y <;> decide +kernel, by decide +kernel, by decide +kernel, by decide +kernel, by decide +kernel,
    by decide +kernel⟩

theorem witness_ActiveSetSteps : (pendS true .barrel).nextPending 0 0 = some (1, pendG) ∧
    ((pendS true .barrel).entry 0 0 1).g = none ∧ 1 < ((pendS true .barrel).quad 0 0).active.length ∧
    0 < ((pendS true .barrel).core 0).quads.length ∧ ((pendS true .barrel).entry 0 0 0).g = some 0 ∧
    (∀ y, (pendS y .barrel).grp 0 = some { placedGroup with yielded := y }) ∧
    (pendS false .barrel).swapEligible 0 placedGroup = false ∧ (pendS false .barrel).now 0 < 1024 ∧
    base.nextPending 0 0 = none ∧ ((pendS false .barrel).core 0).turn = 0 ∧ (pendS false .barrel).servedEntry 0 0 = some 0 ∧
    ((pendS true .barrel).onGroup 0 (fun g => g.slotAt 0)).nextPending 0 0 = some (1, pendG) ∧
    ({ placedGroup with yielded := true }.slotAt 0).yielded = true ∧ ((pendS false .barrel).core 0).turn ≠ 1 ∧
    (base.onGroup 0 (fun g => g.slotAt 0)).nextPending 0 0 = none ∧
    ((pendS false .barrel).swapEligible 0 (placedGroup.slotAt 0) = false ∧ (placedGroup.slotAt 0).yielded = false) ∧ 4 < ((pendS true .barrel).core 0).counters.length ∧
    ((pendS true .recovery).core 0).mode = .recovery ∧ ((pendS true .recovery).core 0).nextMode = none ∧
    (∀ e ∈ (pendS true .recovery).groupsOn 0, e.2.recovering = false) :=
  ⟨by decide, by decide, by decide, by decide, by decide, fun _ => rfl, by decide, by decide, by decide, by decide, by decide,
    by decide, by decide, by decide, by decide, by decide, by decide, by decide, by decide, by decide⟩

theorem remote_none (s : State) (h : s.dies = base.dies) (x : Nat) : s.remoteLines x = [] := by
  have e : (base.dies.getD x Die.reset).l2 = [] := by
    by_cases k : x = 0
    · subst k; rfl
    · have e : base.dies.getD x Die.reset = Die.reset := by
        simp [base, State.placed, State.reset, Tbl.put, Tbl.getD, Tbl.get?, Ne.symm k]
      rw [e]; rfl
  unfold State.remoteLines State.die
  rw [h, e]
  rfl

/-- A launch with a fault area at 0x8000, of 16 fault records and 16 diagnostic ones, and its handler, a pad, at 0x40. -/
def areaL : Launch := { placedLaunch with area := 0x8000 }
def areaS (f : Group → Group) : State := { withG f with
  launches := [(1, areaL)]
  mem := (base.mem.writeBytes 0x40 (wordBytes [0x41, BitVec.ofNat 32 (7 * 2 ^ 27 + 3 * 2 ^ 18 + 4)])).writeBytes 0x8000
    (wordBytes [0x40, 4 + 4 * 2 ^ 8]) }
/-- A fault of the thread, its record written or not. -/
def fault1 (code : Nat) (written : Bool) : FaultRec := { FaultRec.make code 0 base.cur.at_ 0 0 0 0 with written := written }
/-- The group stopped at that fault. -/
def stopG (code : Nat) (written : Bool) (st : Stop) : Group := { placedGroup with
  stop := st, faults := [fault1 code written], threads := [(0, { placedThread with place := .faulted })] }
def stopS (code : Nat) (written : Bool) (st : Stop) : State := areaS (fun _ => stopG code written st)
/-- That machine, the trap reserve of quadrant 0 held by group 5. -/
def heldS : State := { stopS 1 true .stopped with cores := base.cores.put 0 { placedCore with
  quads := placedCore.quads.modify 0 (fun q => { q with trap := some 5 }) } }

theorem stopped_of (s : State) (st : Stop) (h : s.grp 0 = some (stopG 1 true st)) (l : Tbl.get? s.launches 1 = some areaL)
    (m : BitVec.ofNat 32 (s.devNat 0x8000 4) = 0x40) (v : s.convicted (stopG 1 true st) = false) :
    Stopped s 0 (stopG 1 true st) areaL 0x40 :=
  ⟨h, l, ⟨by decide, m.symm, by decide⟩, rfl, ⟨by simp [stopG], by intro x hx; simp only [stopG, List.mem_singleton] at hx; subst hx; exact ⟨rfl, by decide⟩⟩,
    ⟨by intro e he; simp only [stopG, List.mem_singleton] at he; subst he; rfl, (fun w hw => nomatch hw)⟩,
    by intro e he _; simp only [stopG, List.mem_singleton] at he; subst he; decide,
    (by show entering (stopG 1 true .none) ≠ []; decide), v⟩

/-- That machine with the trap reserve given to group 0, as the entry finds it. -/
def trapB (s : State) : State := { s with
  cores := Tbl.put s.cores 0 { s.core 0 with quads := (s.core 0).quads.modify 0 (fun u => { u with trap := some 0 }) }
  groups := Tbl.modify s.groups 0 (fun u => { u with
    stop := .stopped, faults := [fault1 1 true], lastRec := [fault1 1 true].getLast? }) }
/-- That machine with no pad at the handler, and with no page there. -/
def noPadS : State := { stopS 1 true .stopped with
  mem := Memory.writeBytes [] 0x8000 (wordBytes [0x40, 4 + 4 * 2 ^ 8]) }
def noPageS : State := { noPadS with dies := base.dies.put 0 Die.reset }
def padCode (p : Pad) : Nat := match p with
  | .ok => 0
  | .hold => 1000
  | .bad c _ _ => c

theorem witness_TrapEntry :
    (Stopped (stopS 1 true .stopped) 0 (stopG 1 true .stopped) areaL 0x40 ∧
      (((stopS 1 true .stopped).core 0).quads.getD 0 Quad.reset).trap = none ∧
      (stopS 1 true .stopped).codeBase (stopG 1 true .stopped) = 0 ∧
      padCode ((trapB (stopS 1 true .stopped)).checkPad 0 0 0 0x40 3 none).2 = 0) ∧
    (Stopped noPadS 0 (stopG 1 true .stopped) areaL 0x40 ∧ padCode ((trapB noPadS).checkPad 0 0 0 0x40 3 none).2 = 3 ∧
      noPadS.devNat 0x8008 8 - noPadS.devNat 0x8010 8 < 2 ^ (noPadS.devNat 0x8004 4 % 32)) ∧
    (Stopped noPageS 0 (stopG 1 true .stopped) areaL 0x40 ∧ padCode ((trapB noPageS).checkPad 0 0 0 0x40 3 none).2 = 0x10) ∧
    (Stopped (stopS 1 true (.reserve ⟨0, 0⟩)) 0 (stopG 1 true (.reserve ⟨0, 0⟩)) areaL 0x40 ∧
      (stopG 1 true (.reserve ⟨0, 0⟩)).residence = .resident ∧ ((stopS 1 true (.reserve ⟨0, 0⟩)).groups.map (·.1)).Nodup ∧
      ∀ e ∈ (stopS 1 true (.reserve ⟨0, 0⟩)).groups, e.1 = 0) ∧
    (Stopped heldS 0 (stopG 1 true .stopped) areaL 0x40 ∧ ((heldS.core 0).quads.getD 0 Quad.reset).trap = some 5) ∧
    Tbl.get? (stopS 1 true .stopped).teams 0 = some placedTeam ∧ placedTeam.ended = false :=
  ⟨⟨stopped_of _ _ rfl rfl (by decide +kernel) rfl, by decide, by decide, by decide +kernel⟩,
    ⟨stopped_of _ _ rfl rfl (by decide +kernel) rfl, by decide +kernel, by decide +kernel⟩,
    ⟨stopped_of _ _ rfl rfl (by decide +kernel) rfl, by decide +kernel⟩,
    ⟨stopped_of _ _ rfl rfl (by decide +kernel) rfl, rfl, by decide, by decide⟩,
    ⟨stopped_of _ _ rfl rfl (by decide +kernel) rfl, by decide⟩, rfl, rfl⟩

theorem witness_FaultRecordsAndClasses :
    (∀ m, let s := { stopS 0x10 false .stopped with mem := m }; let g := stopG 0x10 false .stopped;
      s.grp 0 = some g ∧ Tbl.get? s.launches g.lseq = some areaL ∧ areaL.area ≠ 0 ∧ g.stop = .stopped ∧
      g.faults = [fault1 0x10 false] ∧ (fault1 0x10 false).code = 0x10 ∧ (fault1 0x10 false).written = false ∧
      Still s g ∧ (s.groups.map (·.1)).Nodup ∧ (∀ e ∈ s.groups, e.1 = 0) ∧ s.convicted g = false ∧ ∀ e ∈ s.groups, e.2.verdict = none) ∧
    ((stopS 0x10 false .stopped).devNat 0x8008 8 - (stopS 0x10 false .stopped).devNat 0x8010 8 <
      2 ^ ((stopS 0x10 false .stopped).devNat 0x8004 4 % 32)) ∧
    (let s := { stopS 0x10 false .stopped with mem := (stopS 0x10 false .stopped).mem.writeNat 0x8008 8 16 };
      2 ^ (s.devNat 0x8004 4 % 32) ≤ s.devNat 0x8008 8 - s.devNat 0x8010 8) ∧
    (∀ c, let s := withG (fun _ => stopG c true .stopped); let g := stopG c true .stopped;
      s.grp 0 = some g ∧ g.stop = .stopped ∧ Still s g ∧ g.faults ≠ [] ∧
      (∀ r ∈ g.faults, r.written = true) ∧ Tbl.get? s.launches g.lseq = some placedLaunch ∧ s.handlerOf g.lseq = none ∧
      s.convicted g = false ∧ (∀ x, s.backOut x = false) ∧ placedLaunch.ending = none ∧ g.team = some 0 ∧ Tbl.get? s.teams 0 = some placedTeam ∧
      placedTeam.ended = false ∧ placedTeam.lseq = g.lseq ∧ (s.groups.map (·.1)).Nodup ∧
      g.faults.map (·.code) = [c] ∧ s.reqs = [] ∧ s.jobs = [] ∧ ∀ x, s.remoteLines x = []) := by
  have still : ∀ (s : State) c w, Still s (stopG c w .stopped) := fun s c w =>
    ⟨by intro e he; simp only [stopG, List.mem_singleton] at he; subst he; rfl, (fun w hw => nomatch hw)⟩
  refine ⟨fun _ => ⟨rfl, rfl, by decide, rfl, rfl, rfl, rfl, still _ _ _, List.nodup_singleton _, by
      intro e he; exact (congrArg Prod.fst (List.mem_singleton.mp he)), rfl,
      by intro e he; rw [List.mem_singleton.mp he]; rfl⟩,
    by decide +kernel, by decide +kernel, fun c => ⟨rfl, rfl, still _ _ _, by simp [stopG],
        by intro r hr; simp only [stopG, List.mem_singleton] at hr; subst hr; rfl, rfl, rfl, rfl, fun _ => rfl, rfl, rfl, rfl, rfl, rfl,
        List.nodup_singleton _, rfl, rfl, rfl, remote_none _ rfl⟩⟩

theorem witness_IllegalWords : base.grp base.cur.g = some placedGroup ∧ base.cur.tids.Nodup ∧
    ∀ x ∈ base.cur.tids, (Tbl.get? placedGroup.threads x).isSome = true := ⟨rfl, by decide, by decide⟩

/-- A launch in a state with a prerequisite, beside launch 7 in another; nothing of it is on the device. -/
def preL (st pre left steps : Nat) : Launch := { placedLaunch with
  state := st, teamsLeft := left, rc := { placedLaunch.rc with prereq := [pre, 0, 0, 0], steps := steps } }
def preS (n : Launch) (st : Nat) : State := { base with
  groups := [], launches := [(1, n), (7, { placedLaunch with state := st })] }

theorem witness_LaunchSteps : (∀ n st, Tbl.get? (preS n st).launches 1 = some n ∧ (preS n st).mem.wf = true ∧
      (∀ x, (preS n st).remoteLines x = [] ∧ (preS n st).backOut x = false) ∧ (preS n st).groups = [] ∧ (preS n st).recs = [] ∧ (preS n st).jobs = []) ∧
    ((preL 1 7 1 1).state = 1 ∧ (preL 1 7 1 1).rc.prereq.getD 0 0 = 7 ∧ ∀ st, ∃ m, Tbl.get? (preS (preL 1 7 1 1) st).launches 7 = some m ∧ m.state = st) ∧
    (let n := preL 2 0 0 1; n.state = 2 ∧ n.preempt = none ∧ n.resuming = none ∧ n.stepOpen = true ∧ n.teamsLeft = 0 ∧
      n.savedJobs = [] ∧ n.rc.steps ≤ n.stepNow + 1) ∧ (preL 2 0 0 2).stepNow + 1 < (preL 2 0 0 2).rc.steps ∧
    (preL 2 0 1 1).teamsLeft ≠ 0 ∧ (preS (preL 1 0 0 1) 3).usable 0 = true ∧
    (preS (preL 1 0 0 1) 3).pinnedDies (preL 1 0 0 1).rc = [] ∧
    (padStore.lseq = 1 ∧ padStore.isDone = false ∧ (preL 2 0 0 1).ending = none ∧
      ∃ n : Launch, n.ending = some (2, 7)) ∧
    (preS (preL 1 0 0 1) 3).pinnedDies { (preL 1 0 0 1).rc with pinned := true } = [0] ∧
    (let s := (preS (preL 1 0 0 1) 3).onStack 0 (fun k => { k with st := .closing });
      0 < (preL 1 0 0 1).rc.teams ∧ (s.stack (s.teamHome (preL 1 0 0 1).rc 0)).st ≠ .steady) ∧
    ((List.range (4 * (preS (preL 1 0 0 1) 3).npkg)).filter (preS (preL 1 0 0 1) 3).usable).length = 4 :=
  ⟨fun _ _ => ⟨rfl, (show base.mem.wf = true by decide), fun x => ⟨remote_none _ rfl x, rfl⟩, rfl, rfl, rfl⟩, ⟨rfl, rfl, fun _ => ⟨_, rfl, rfl⟩⟩,
    ⟨rfl, rfl, rfl, rfl, rfl, rfl, by decide⟩, by decide, by decide, by decide, by decide,
    ⟨by decide, by decide, rfl, ⟨{ placedLaunch with ending := some (2, 7) }, rfl⟩⟩, by decide +kernel, by decide +kernel,
    by decide +kernel⟩

/-- A distributor with team 0 of launch 1. -/
def dist1 : Dist := ⟨[(1, 0)], [0, 0, 0, 0], none, []⟩
def distS (dies : List Nat) : State := { base with
  rack := dist1
  trays := [(0, dist1)]
  packages := base.packages.put 0 { base.pkg 0 with dist := dist1 }
  dies := base.dies.put 0 { base.die 0 with dist := dist1 }
  launches := [(1, { placedLaunch with dies := dies })] }

theorem witness_DistributionAndStealing_teams :
    (∀ d ∈ [0, 1, 65], (distS [0]).distAt d = dist1) ∧ ((distS [0]).die 0).dist = dist1 ∧ (1, 0) ∈ dist1.queue ∧
    dist1.held = none ∧ (∀ q, q < 4 → dist1.skip.getD q 0 < 64) ∧ (∀ e ∈ dist1.queue, e = (1, 0)) ∧
    (distS [0]).prio 1 < 4 ∧ ((distS [0]).pkg 0).tray < 64 ∧
    (let home := (distS [0]).teamHome placedLaunch.rc 0; 0 ∈ placedLaunch.dies ∧ 0 / 4 = home / 8 ∧ placedLaunch.rc.pinned = false) ∧
    (∀ d ∈ [0, 1, 65], (distS []).distAt d = dist1 ∧ (Tbl.get? (distS []).launches 1).map (·.dies) = some []) ∧
    (let s := { distS [0] with dies := base.dies.put 0 { base.die 0 with dist := dist1, inService := false } };
      (s.die 0).inService = false ∧ (s.die 0).dist = dist1) ∧
    (let s := distS [0]; let home := s.teamHome placedLaunch.rc 0; let owner := 4 * (home / 8) + (s.stack home).owner;
      (s.stack home).st = .steady ∧ owner = 0 ∧ (s.die owner).inService = true) ∧
    (distS [0]).chooseCores 0 placedLaunch.rc [] 1 0 [] = some [0] ∧ placedLaunch.rc.dieres = false ∧
    (State.chooseCores { distS [0] with cores := [] } 0 placedLaunch.rc [] 1 0 [] = none) ∧
    (distS [0]).pickSlot 0 = some (1, 32) := by
  refine ⟨by decide, rfl, by decide, rfl, by decide, by decide, by decide, by decide, by decide, by decide, ⟨rfl, rfl⟩, by decide, ?_, rfl, ?_, by decide⟩
  · decide +kernel
  · decide +kernel

/-- Die 1 has a team queued, or core 96 a closed bin, which die 0 may take. -/
def stealS (d : Dist) (bs : Tbl Bin) : State := { base with
  dies := base.dies.put 1 { Die.reset with dist := d }, bins := bs, launches := [(1, { placedLaunch with dies := [0, 1] })] }
def stolenBin : Bin := ⟨96, 1, 0x80, 0, [], some 3, 0⟩

theorem witness_DistributionAndStealing_steal :
    (¬ Idle (distS [0]) 0) ∧
    (∀ d bs, (d = dist1 ∧ bs = []) ∨ (d = Dist.reset ∧ bs = [(4, stolenBin)]) →
      Idle (stealS d bs) 0 ∧ ((stealS d bs).die 0).inService = true ∧ Source (stealS d bs) 0 (Pool.ofDie 1) ∧
      ∀ q, ((stealS d bs).pkg q).tray < 64) ∧
    (stealS dist1 []).poolTeams (Pool.ofDie 1) 0 = [(1, 0)] ∧
    (stealS Dist.reset [(4, stolenBin)]).poolTeams (Pool.ofDie 1) 0 = [] ∧
    (stealS Dist.reset [(4, stolenBin)]).poolBins (Pool.ofDie 1) 0 = [(4, stolenBin)] ∧
    (stealS Dist.reset [(4, stolenBin)]).binCore 0 128 0 = some 0 ∧
    (stealS Dist.reset [(4, stolenBin)]).backOut (stolenBin.core / 96) = false ∧
    (stealS Dist.reset [(4, stolenBin)]).remoteLines (stolenBin.core / 96) = [] := by
  refine ⟨fun h => absurd h.1 (by decide), fun d bs h => ?_, by decide, by decide, by decide, by decide +kernel, by decide,
    by decide⟩
  have tray : ∀ q, ((stealS d bs).pkg q).tray < 64 := fun q => by
    change ((base.packages.getD q Package.reset).tray) < 64
    simp [base, State.placed, State.reset, Tbl.getD, Package.reset]
  rcases h with ⟨rfl, rfl⟩ | ⟨rfl, rfl⟩
  · exact ⟨⟨by decide, by decide, 0, by decide, by decide⟩, by decide, Or.inl ⟨by decide, Or.inl (by decide),
      by simp only [Offers]; decide⟩, tray⟩
  · exact ⟨⟨by decide, by decide, 0, by decide, by decide⟩, by decide, Or.inl ⟨by decide, Or.inr (by decide),
      by simp only [Offers]; decide⟩, tray⟩

/-- A pre-emption of the launch, at once or at a limit not reached, its save area of n bytes at 0x10000. -/
def pre1 (full : Bool) (n : Nat) : Preempt := ⟨[0], full, 20, 0x10000, n, 0, []⟩
def preemptS (p : Preempt) : State := withL (fun n => { n with preempt := some p })
/-- Everything of the launch set aside. -/
def asideS : State := { preemptS (pre1 true 0x100000) with
  groups := [(0, { placedGroup with halted := true, residence := .saved })], teams := [(0, { placedTeam with saved := true })] }

theorem witness_PreemptionAndRestoring_save :
    (∀ p, Tbl.get? (preemptS p).launches 1 = some { placedLaunch with preempt := some p } ∧
      (preemptS p).grp 0 = some placedGroup ∧ (preemptS p).recs = [] ∧ (preemptS p).jobs = [] ∧ (preemptS p).reqs = [] ∧
      (preemptS p).mops = [] ∧ (∀ x, (preemptS p).remoteLines x = [] ∧ (preemptS p).backOut x = false) ∧ (preemptS p).groups = [(0, placedGroup)] ∧
      (preemptS p).teams = [(0, placedTeam)] ∧ placedTeam.due = []) ∧
    (∀ e ∈ placedGroup.threads, e.2.place = .ready ∧ e.2.vsoft = [] ∧ e.2.vhard = []) ∧ placedGroup.waits = [] ∧
    (pre1 true 0).full = true ∧ ¬ ((pre1 false 0).full = true ∨ 0 + 2 ^ (pre1 false 0).limit ≤ (preemptS (pre1 false 0)).now 0) ∧
    (((preemptS (pre1 true 0)).haltDue 1 (pre1 true 0)).grp 0).isSome = true ∧
    (∀ e ∈ asideS.groups, e.2.halted = true ∧ e.2.residence ≠ .resident) ∧ (∀ e ∈ asideS.teams, e.2.saved = true) ∧
    (pre1 true 0x100000).used + 64 ≤ (pre1 true 0x100000).saveLen ∧ (asideS.launches.map (·.1)).Nodup :=
  ⟨fun _ => ⟨rfl, rfl, rfl, rfl, rfl, rfl, fun x => ⟨remote_none _ rfl x, rfl⟩, rfl, rfl, rfl⟩, by decide, rfl, rfl, by decide, by decide, by decide,
    by decide, by decide, by decide⟩

/-- A saved launch that a command resumes, its records, teams or kindled groups still to come back. -/
def resumeL (st : Nat) (rs ts ks : List Nat) : Launch := { placedLaunch with
  state := st, resuming := some 0, savedRecs := rs, savedTeams := ts, savedKindled := ks }
def savedG : Group := { placedGroup with residence := .saved, halted := true }
def resumeS (n : Launch) : State := { base with
  launches := [(1, n)], groups := [(0, savedG)], teams := [(0, { placedTeam with saved := true })]
  recs := [(5, rec1 none false .saved)] }

theorem witness_PreemptionAndRestoring_restore :
    (∀ n, Tbl.get? (resumeS n).launches 1 = some n ∧ (resumeS n).mem.wf = true ∧ (∀ x, (resumeS n).remoteLines x = []) ∧
      (resumeS n).grp 0 = some savedG) ∧ (∀ e ∈ (resumeS (resumeL 7 [] [] [])).launches, e.1 = 1) ∧
    (∀ x ∈ (resumeL 7 [] [] []).dies, (resumeS (resumeL 7 [] [] [])).usable x = true) ∧
    ((resumeL 2 [5] [] []).savedRecs ≠ [] ∧ (resumeL 2 [5] [] []).savedRecs.Nodup) ∧
    (∀ d, let n := { resumeL 2 [] [0] [] with rc := { placedLaunch.rc with dieres := d } }; let s := resumeS n;
      (s.returnsWith n 0).map (·.team) = [0] ∧
      (s.restorePlace 1 n (s.restoreDies n { placedTeam with saved := true }) (s.returnsWith n 0)).isSome = true ∧
      (∀ r ∈ s.returnsWith n 0, r.tm.held = []) ∧ n.savedJobs = []) ∧
    (let n := resumeL 2 [] [] [0]; let s := resumeS n;
      ((savedG.core / 96 :: n.dies).filter (fun x => n.dies.contains x && s.usable x)).findSome?
        (fun x => s.restoreCores x [] [wantOf [savedG] 0 0] []) = some [0] ∧ savedG.residence = .saved ∧
      savedG.savedAcc = [] ∧ s.pickSlot 0 = some (0, 0)) :=
  ⟨fun _ => ⟨rfl, (show base.mem.wf = true by decide), remote_none _ rfl, rfl⟩, by decide, by decide, by decide,
    by decide +kernel, by decide +kernel⟩

/-! ### Expiries, deadlocks and lost dies -/

/-- The machine with a fault area, its group in a wait with thread 0 signing, at a cycle; free accumulator slots or none. -/
def expireG (k : GKind) (i : Instr) : Group := { waitG1 k i with threads := [(0, { placedThread with place := .signing 0 })] }
def expireS (k : GKind) (i : Instr) (now : Nat) (free : List Nat) : State := { areaS (fun _ => expireG k i) with
  launches := [(1, { areaL with rc := { areaL.rc with wdog := 16 } })]
  cores := base.cores.put 0 { placedCore with counters := [now], accFree := free } }
def expireL : Launch := { areaL with rc := { areaL.rc with wdog := 16 } }

theorem l2_of (s t : State) (h : t.dies = s.dies) (k : ∀ x m, s.l2 x m = none) : ∀ x m, t.l2 x m = none := by
  intro x m
  have := k x m
  unfold State.l2 State.die at this ⊢
  rw [h]
  exact this

/-- Where no L2 holds a line, two writes of the device above a fault area's counts leave its room as it was. -/
theorem room_after (s t u : State) (l a : Nat) (n : Launch) (bs cs : List Byte) (wf : s.mem.wf = true)
    (h : ∀ x m, s.l2 x m = none) (ht : t = s.devWrite a bs) (hu : u = t.devWrite (n.area + 24) cs)
    (len : cs.length = 8) (lo : n.area + 0x1000 ≤ a) (hi : a + bs.length < 2 ^ 36) (r : Room s l n) : Room u l n := by
  have low : ∀ x, x < 2 ^ 36 → paSpace x ≠ 2 := fun x hx => by simp only [paSpace]; omega
  have d1 := devWrite_only s a bs wf h (fun x _ _ => low x (by omega))
  have wt : t.mem.wf = true := ht ▸ devWrite_wf _ _ _ wf
  rw [← ht] at d1
  have h1 := l2_of s t (congrArg State.dies d1.1 :) h
  have d2 := devWrite_only t (n.area + 24) cs wt h1 (fun x _ _ => low x (by omega))
  rw [← hu] at d2
  have h2 := l2_of t u (congrArg State.dies d2.1 :) h1
  have eq : ∀ o k, o + k ≤ 24 → u.devNat (n.area + o) k = s.devNat (n.area + o) k :=
    fun o k ok => devNat_congr s _ _ _ h h2 fun x lx hx =>
      ⟨low x (by omega), (d2.2 x (by omega)).trans (d1.2 x (by omega))⟩
  have l1 : u.launches = s.launches := (congrArg State.launches d2.1 :).trans (congrArg State.launches d1.1 :)
  unfold Room
  rw [l1, eq 8 8 (by omega), eq 16 8 (by omega), eq 4 4 (by omega)]
  exact r

theorem l2_none (s : State) (h : s.dies = base.dies) (x n : Nat) : s.l2 x n = none := by
  unfold State.l2 State.die
  rw [h]
  by_cases k : x = 0
  · subst k; rfl
  · have e : base.dies.getD x Die.reset = Die.reset := by
      simp [base, State.placed, State.reset, Tbl.put, Tbl.getD, Tbl.get?, Ne.symm k]
    rw [e]; rfl

theorem witness_ExpiryAndDeadlock_watchdog :
    (let s := expireS (.barrier 1) (.barwait h0 1) 0x10000 []; let g := expireG (.barrier 1) (.barwait h0 1);
      s.grp 0 = some g ∧ Tbl.get? s.launches g.lseq = some expireL ∧ (s.groups.map (·.1)).Nodup ∧
      (∃ v ∈ s.countingWaits g, 2 ^ expireL.rc.wdog ≤ v.watch.count (s.now g.core)) ∧ expireL.area ≠ 0 ∧
      placedTeam.ended = false ∧ placedTeam.lseq = g.lseq ∧
      g.residence = .resident ∧ g.team = some 0 ∧ Tbl.get? s.teams 0 = some placedTeam ∧ (∃ w rest, s.allWaits g = w :: rest) ∧
      (∀ e ∈ s.groups, e.1 = 0 ∧ e.2.faults = [] ∧ e.2.verdict = none) ∧
      s.devNat 0x8018 8 = 0 ∧ s.devNat 0x8018 8 - s.devNat 0x8020 8 < 2 ^ (s.devNat 0x8004 4 / 2 ^ 8 % 32)) ∧
    (let s := expireS (.barrier 1) (.barwait h0 1) 0xFFFF []; let g := expireG (.barrier 1) (.barwait h0 1);
      ∀ v ∈ s.countingWaits g, v.watch.count (s.now g.core) < 2 ^ expireL.rc.wdog) :=
  ⟨⟨rfl, rfl, by decide, by decide, by decide, rfl, rfl, rfl, rfl, rfl,
    ⟨_, _, rfl⟩, by decide, by decide +kernel, by decide +kernel⟩, by decide⟩

/-- The machine once the diagnostic record has been written, and its count. -/
def diagS : State := let s := expireS (.barrier 1) (.barwait h0 1) 0x10000 []
  (s.devWrite (expireL.area + 0x1000 + 64 * 2 ^ (s.devNat (expireL.area + 4) 4 % 32)) (s.teamDiag 0 placedTeam expireL)).devWrite
    (expireL.area + 24) (bytesOf 8 1)

theorem witness_ExpiryAndDeadlock_diag : Room diagS 1 expireL :=
  room_after (expireS (.barrier 1) (.barwait h0 1) 0x10000 []) _ _ _ _ expireL _ _ (by decide +kernel) (l2_none _ rfl) rfl rfl (by decide)
      (by decide +kernel) (by decide +kernel) ⟨rfl, by decide, by decide +kernel⟩

theorem witness_ExpiryAndDeadlock_claims :
    (let s := expireS (.claim 4000) (.regclm h0 5) 0 []; let g := expireG (.claim 4000) (.regclm h0 5);
      s.grp 0 = some g ∧ Room s g.lseq expireL ∧ Tbl.get? s.teams 0 = some placedTeam ∧ (s.groups.map (·.1)).Nodup ∧
      (∀ e ∈ s.groups, s.blockedOn 0 e.2 = true) ∧ s.freeRows 0 < 4000 ∧ (∀ e ∈ s.groups, e = (0, g)) ∧
      g.waits = [(3, wait1 (.claim 4000) (.regclm h0 5))]) ∧
    (expireS (.claim 1) (.regclm h0 5) 0 []).freeRows 0 ≥ 1 ∧
    (let m := mop1 .acczero [] []; let s := expireS (.bind m) (.acczero h0 0) 0 []; let g := expireG (.bind m) (.acczero h0 0);
      s.grp 0 = some g ∧ Room s g.lseq expireL ∧ (s.core 0).accFree = [] ∧ (∀ e ∈ s.groupsOn 0, e.2.acc = []) ∧
      g.halted = false ∧ Tbl.get? g.waits 3 = some (wait1 (.bind m) (.acczero h0 0)) ∧ g.team = some 0) :=
  ⟨⟨rfl, ⟨rfl, by decide, by decide +kernel⟩, rfl, by decide, by decide, by decide, (fun e he => List.mem_singleton.mp he), rfl⟩,
    by decide, ⟨rfl, ⟨rfl, by decide, by decide +kernel⟩, rfl, by decide, rfl, rfl, rfl⟩⟩

/-- The machine with a fault area, its group a launched or a kindled one, die 0 down or not. -/
def lostS (t : Option Nat) (down : Bool) : State := { areaS (fun g => { g with team := t }) with
  dies := base.dies.put 0 { base.die 0 with trouble := if down then .down else .none } }

theorem lost_reads (t : Option Nat) (pa n : Nat) (h : pa + n < 2 ^ 36) : (lostS t true).devNat pa n = (lostS none true).devNat pa n := by
  have l : ∀ t x m, (lostS t true).l2 x m = none := by
    intro t x m
    unfold State.l2 State.die
    change Tbl.get? (Tbl.getD (base.dies.put 0 { base.die 0 with trouble := .down }) x Die.reset).l2 m = none
    by_cases k : x = 0
    · subst k; rfl
    · have e : (base.dies.put 0 { base.die 0 with trouble := .down }).getD x Die.reset = Die.reset := by
        simp [base, State.placed, State.reset, Tbl.put, Tbl.getD, Tbl.get?, Ne.symm k]
      rw [e]; rfl
  exact devNat_congr _ _ _ _ (l none) (l t) fun a _ ha => ⟨by simp only [paSpace]; omega, rfl⟩

theorem room_lost (t : Option Nat) : Room (lostS t true) 1 areaL := by
  refine ⟨rfl, by decide, ?_⟩
  rw [lost_reads t _ _ (by decide), lost_reads t _ _ (by decide), lost_reads t _ _ (by decide)]
  decide +kernel

theorem witness_LostDies : (∀ t b, ((lostS t b).die 0).lost = false ∧ (lostS t b).npkg = 1 ∧
      ((lostS t b).die 0).trouble = (if b then .down else .none) ∧ ((lostS t b).pkg 0).lost = false ∧ ((lostS t b).pkg 0).silent = none ∧
      ((lostS t b).pkg (0 / 4)).stks.length = 8 ∧ (lostS t b).jobs = [] ∧ ((lostS t b).die 0).dist.queue = []) ∧
    (∀ t ∈ [none, some 0], ∀ e ∈ (lostS t true).groups, (lostS t true).convicted e.2 = false ∧ e.2.faults = []) ∧
    (∀ i, i < 8 → ((lostS none true).stack (8 * (0 / 4) + i)).st = .steady) ∧
    (∀ t, ∀ e ∈ (lostS t true).groups, e.2.core / 96 = 0 ∧ e.2.aside = false ∧ e.1 = 0) ∧ (preS placedLaunch 2).groups = [] ∧
    (∀ t, Room (lostS t true) 1 areaL) ∧ Tbl.get? (lostS (some 0) true).teams 0 = some placedTeam ∧ placedTeam.ended = false :=
  ⟨fun t b => ⟨rfl, rfl, rfl, rfl, rfl, rfl, rfl, rfl⟩, by decide, by decide, fun t e he => by
    have h := List.mem_singleton.mp he
    subst h
    exact ⟨Nat.zero_div 96, rfl, rfl⟩, rfl, room_lost, rfl, rfl⟩

/-! ### The fabric -/

/-- A package with one port toward another, up or not, and its routes. -/
def portP (neigh state : Nat) (routes : List Dword) : Package := { base.pkg 0 with
  ports := [⟨neigh, state, 0, 1⟩], routes := routes, fabric := [0, 0, 0, 0, 0, 0] }
/-- A packet at package 0, on its way from there. -/
def packet1 (c : Cargo) (dest : Nat) : Packet := ⟨c, 0, 7, 1, dest, 0, none, 0, 0, none, 0, 0, 0, false, [], false, none, 0, false⟩
/-- Packages 0 and 1 linked, packet 3 and others in the fabric; request 7, record 5 and job 3 on their way. -/
def fabricS (p : Packet) (others : Tbl Packet) : State := { base with
  npkg := 4, packages := [(0, portP 1 2 [0, 0x101, 0x101, 0x101]), (1, portP 0 2 [0x100, 0, 0, 0x100])]
  packets := (3, p) :: others, reqs := [(7, req1 .load false .issued)]
  jobs := [(3, { job1 .cpy .running copyDesc with trips := [⟨0x1000, true, 0x1000, placedPage, false⟩] })]
  recs := [(5, rec1 none false .routing)]
  groups := [(0, { placedGroup with threads := [(0, { placedThread with place := .waiting (.spawn 5) base.cur.at_ h0 ⟨0, 0⟩ [] })] })] }

/-- Where a package has one used choice, that is the next hop; where it has one port up, that is the port. -/
theorem next_hop (s : State) (p : Packet) (c : Choice) (w : c.weight = 1) (h : p.hop < if p.detour then 3 else 2)
    (u : usedChoices ((s.pkg p.at_).routes.getD p.dest 0) (p.detour || p.escape || decide (1 ≤ p.hop)) = [c]) :
    s.nextHop p = some c := by
  simp only [State.nextHop, u, Nat.not_le.mpr h, if_false]
  simp [pickChoice, pickChoice.go, w, Nat.mod_one]
/-- The links alone. -/
def linkS : State := fabricS (packet1 (.request 7) 1) []
theorem in_port (s : State) (p : Packet) (next : Nat) (l : s.packages = linkS.packages)
    (h : p.at_ = 0 ∧ next = 1 ∨ p.at_ = 1 ∧ next = 0) : s.inPort p next = some 0 := by
  have e : ∀ a b, s.portsTo a b = linkS.portsTo a b := fun a b => by unfold State.portsTo State.pkg; rw [l]
  have f : ∀ a b, s.upPorts a b = linkS.upPorts a b := fun a b => by unfold State.upPorts State.pkg; rw [l, e]
  have u : linkS.upPorts 0 1 = [0] ∧ linkS.upPorts 1 0 = [0] := by decide +kernel
  have v : linkS.portsTo 0 1 = [0] ∧ linkS.portsTo 1 0 = [0] := by decide +kernel
  rcases h with ⟨h, rfl⟩ | ⟨h, rfl⟩ <;> simp [State.inPort, e, f, h, u.1, u.2, v.1, v.2, Nat.mod_one]

/-- Packet 9, which fills the buffer of port 0 of package 1, of the channel of a first hop, and waits there for package 0. -/
def bigP : Packet := { packet1 (.request 0) 3 with
  src := 2, srcTag := 8, at_ := 1, port := some 0, hop := 1, bytes := 64 * (Config.channelFlits + 5) }
/-- Packet 3 on its way to package 2 or 3, its timer as given; and the same as the head of the channel for which bigP waits. -/
def waitP (timer : Option Nat) (probing : Bool) : Packet := { packet1 (.request 7) 2 with timer := timer, probing := probing }
def headP (probing : Bool) : Packet := { waitP (some 0) probing with
  port := some 0, vc := 1, bytes := 64 * (Config.channelFlits + 5) }
/-- Packet 10 in the escape buffer of that port. -/
def escP : Packet := { bigP with escape := true, bytes := 0 }
def jamE (taken : Bool) (p : Packet) : State := fabricS p ((9, bigP) :: if taken then [(10, escP)] else [])
def jamS (p : Packet) : State := jamE false p

theorem jam_next (x : Bool) (p : Packet) (a : p.at_ = 0) (d : p.dest = 2) (h : p.hop = 0) (e : p.detour = false) :
    (jamE x p).nextHop p = some ⟨1, 1, false⟩ := by
  refine next_hop _ _ _ rfl (by rw [h, e]; decide) ?_
  have : ∀ y, usedChoices 0x101 (false || y || decide (1 ≤ 0)) = [⟨1, 1, false⟩] := by decide
  rw [a, d, h, e]
  exact this _
theorem jam_full (x : Bool) (p : Packet) (h : (jamE x p).buffer 1 0 p.cargo.isResponse p.hop false = [(9, bigP)]) :
    (jamE x p).full p 1 0 false = true := by
  simp only [State.full, h]
  simp [Packet.flits, bigP]
  omega

theorem wait_blocked (t : Option Nat) (b : Bool) : Blocked (jamS (waitP t b)) 3 (waitP t b) :=
  ⟨Nat.zero_ne_add_one 1, rfl, rfl, ⟨1, 1, false⟩, 0, jam_next false _ rfl rfl rfl rfl, in_port _ _ _ rfl (Or.inl ⟨rfl, rfl⟩), Nat.succ_ne_self 1 ∘ Eq.symm, rfl, jam_full false _ rfl,
    (9, bigP), List.mem_singleton.mpr rfl, rfl⟩

theorem head_cycle (x : Bool) : (jamE x (headP true)).inCycle 3 (headP true) = true := by
  have h : (jamE x (headP true)).buffer 1 0 (headP true).cargo.isResponse (headP true).hop false = [(9, bigP)] := by
    cases x <;> rfl
  have b : (jamE x (headP true)).buffer 0 0 bigP.cargo.isResponse bigP.hop false = [(3, headP true)] := by cases x <;> rfl
  have w : (jamE x (headP true)).waitsFor 3 (headP true) = some (9, bigP) := by
    unfold State.waitsFor
    rw [jam_next x (headP true) rfl rfl rfl rfl]
    simp only [in_port (jamE x (headP true)) (headP true) 1 rfl (Or.inl ⟨rfl, rfl⟩), jam_full x (headP true) h, h]
    cases x <;> rfl
  have n : (jamE x (headP true)).nextHop bigP = some ⟨0, 1, false⟩ :=
    next_hop _ _ _ rfl (show 1 < 2 by decide) (show usedChoices 0x100 true = _ by decide)
  have f : (jamE x (headP true)).full bigP 0 0 false = true := by
    simp only [State.full, b]
    simp [Packet.flits, bigP, headP]
    omega
  have v : (jamE x (headP true)).waitsFor 9 bigP = some (3, headP true) := by
    unfold State.waitsFor
    rw [n]
    simp only [in_port (jamE x (headP true)) bigP 0 rfl (Or.inr ⟨rfl, rfl⟩), f, b]
    cases x <;> rfl
  have c : ∀ f, (jamE x (headP true)).chainBack 3 (f + 2) 3 (headP true) = true := fun f => by simp [State.chainBack, w, v]
  cases x
  · exact c 1
  · exact c 2

theorem short_full (p q : Packet) (e : Bool) (b : (fabricS q []).buffer 1 0 p.cargo.isResponse p.hop e = []) (z : p.bytes = 0) :
    (fabricS q []).full p 1 0 e = false := by
  simp only [State.full, b, Packet.flits, z]
  cases e <;> simp

theorem lone (q : Packet) : ∀ e ∈ (fabricS q []).packets, ¬ e.1 < 3 := fun e he => by
  have h := List.mem_singleton.mp he
  subst h
  exact Nat.lt_irrefl 3

theorem witness_FabricHops_arrival :
    (∀ c, Tbl.get? (fabricS (packet1 c 0) []).packets 3 = some (packet1 c 0) ∧ (packet1 c 0).at_ = (packet1 c 0).dest) ∧
    (fabricS (packet1 (.lineBack 0 4) 0) []).homeOpen 256 = true ∧
    ((fabricS (packet1 (.lineBack 0 4) 0) []).onStack 0 (fun k => { k with st := .closing })).homeOpen 256 = false :=
  ⟨fun _ => ⟨rfl, rfl⟩, by decide, by decide⟩

/-- Packet 3 of a request, on its way to package 1 or 2. -/
def hop1 (d : Nat) : Packet := packet1 (.request 7) d

theorem hop_next (d : Nat) (h : d = 1 ∨ d = 2) (l : Tbl Packet) : (fabricS (hop1 d) l).nextHop (hop1 d) = some ⟨1, 1, false⟩ := by
  rcases h with rfl | rfl <;> exact next_hop _ _ _ rfl (show 0 < 2 by decide) (show usedChoices 0x101 false = _ by decide)

theorem witness_FabricHops_passing : ∀ d, d = 1 ∨ d = 2 → let s := fabricS (hop1 d) [];
    Tbl.get? s.packets 3 = some (hop1 d) ∧ (hop1 d).at_ ≠ (hop1 d).dest ∧ s.isHead (hop1 d) = true ∧ (s.pkg d).lost = false ∧
    s.nextHop (hop1 d) = some ⟨1, 1, false⟩ ∧ s.inPort (hop1 d) 1 = some 0 ∧ (∀ e ∈ s.packets, ¬ e.1 < 3) ∧
    s.full (hop1 d) 1 0 (hop1 d).escape = false := by
  intro d h
  refine ⟨rfl, ?_, rfl, ?_, hop_next d h [], in_port _ _ _ rfl (Or.inl ⟨rfl, rfl⟩), lone _, short_full _ _ _ ?_ rfl⟩ <;>
    rcases h with rfl | rfl <;> first | rfl | exact Nat.zero_ne_add_one _

theorem witness_FabricHops_stays :
    (let p := { headP false with since := 1 }; (jamS (headP false)).isHead p = false ∧ p.at_ ≠ p.dest) ∧
    (fabricS (hop1 4) []).nextHop (hop1 4) = none ∧
    ({ fabricS (hop1 1) [] with packages := [(0, portP 1 2 [0, 0x101]), (1, { portP 0 2 [] with lost := true })] }.pkg 1).lost = true ∧
    (let s : State := { fabricS (hop1 1) [] with packages := [(0, portP 1 0 [0, 0x101])] };
      s.isHead (hop1 1) = true ∧ s.nextHop (hop1 1) = some ⟨1, 1, false⟩ ∧ s.inPort (hop1 1) 1 = none) ∧
    (∀ l, let s := fabricS (hop1 1) [(2, { hop1 1 with path := l })];
      s.nextHop (hop1 1) = some ⟨1, 1, false⟩ ∧ s.inPort (hop1 1) 1 = some 0 ∧
      (2, { hop1 1 with path := l }) ∈ s.packets ∧ (∀ e ∈ s.packets, e.1 < 3 → e = (2, { hop1 1 with path := l }))) ∧
    (∀ t, let p := waitP t false; let s := jamS p; Tbl.get? s.packets 3 = some p ∧ s.isHead p = true ∧ p.at_ ≠ p.dest ∧
      (∀ e ∈ s.packets, ¬ e.1 < 3) ∧ s.full p 1 0 p.escape = true ∧ p.timer = t) := by
  refine ⟨⟨rfl, Nat.zero_ne_add_one 1⟩, by decide, rfl,
    ⟨rfl, next_hop _ _ _ rfl (by decide) (show usedChoices 0x101 false = _ by decide), ?_⟩,
    fun l => ⟨hop_next 1 (Or.inl rfl) _, in_port _ _ _ rfl (Or.inl ⟨rfl, rfl⟩), by simp [fabricS], fun e he h => ?_⟩,
    fun t => ⟨rfl, rfl, Nat.zero_ne_add_one 1, fun e he => ?_, jam_full false _ rfl, rfl⟩⟩
  · have u : State.upPorts { fabricS (hop1 1) [] with packages := [(0, portP 1 0 [0, 0x101])] } 0 1 = [] := by decide +kernel
    simp only [State.inPort, show (hop1 1).at_ = 0 from rfl, u]
    rfl
  · simp only [fabricS, List.mem_cons, List.not_mem_nil, or_false] at he
    rcases he with rfl | rfl
    · omega
    · rfl
  · simp only [jamS, jamE, fabricS, List.mem_cons, Bool.false_eq_true, if_false, List.not_mem_nil, or_false] at he
    rcases he with rfl | rfl
    · exact Nat.lt_irrefl 3
    · decide

def probeP : Packet := { hop1 2 with timer := some 0, probing := true }
theorem witness_LinksAndRecovery :
    (∀ f ∈ [0, 5, 32], ({ fabricS (hop1 1) [] with packages := [(0, { base.pkg 0 with ports := [⟨1, 2, 0, f⟩] })] }.pkg 0).ports[0]?
      = some ⟨1, 2, 0, f⟩) ∧
    (List.replicate 256 (0 : Dword)).length = 256 ∧ ((fabricS (hop1 1) []).pkg 0).fabric.length = 6 ∧
    (∀ t b, Tbl.get? (jamS (waitP t b)).packets 3 = some (waitP t b) ∧ Blocked (jamS (waitP t b)) 3 (waitP t b)) ∧
    (jamS (waitP (some 0) false)).clock 0 = 0 ∧ (waitP (some 0) false).armed = 0 ∧ ¬ Blocked (fabricS (hop1 0) []) 3 (hop1 0) ∧
    (Tbl.get? (fabricS probeP []).packets 3 = some probeP ∧ (fabricS probeP []).inCycle 3 probeP = false) ∧
    (∀ x, let s := jamE x (headP true); let p := headP true; Tbl.get? s.packets 3 = some p ∧ p.probing = true ∧ s.inCycle 3 p = true ∧
      s.nextHop { p with escape := true } = some ⟨1, 1, false⟩ ∧ s.inPort p 1 = some 0 ∧ s.flowFree 3 p 1 = true ∧
      s.full p 1 0 true = x) := by
  refine ⟨by decide, List.length_replicate, rfl, fun t b => ⟨rfl, wait_blocked t b⟩, rfl, rfl, fun h => h.1 rfl, ⟨rfl, ?_⟩, fun x => ?_⟩
  · have w : (fabricS (probeP) []).waitsFor 3 probeP = none := by
      unfold State.waitsFor
      rw [next_hop (fabricS probeP []) probeP ⟨1, 1, false⟩ rfl (show 0 < 2 by decide) (show usedChoices 0x101 false = _ by decide)]
      simp only [in_port (fabricS probeP []) probeP 1 rfl (Or.inl ⟨rfl, rfl⟩), short_full probeP probeP false rfl rfl]
      simp
    simp [State.inCycle, State.chainBack, w]
  · exact ⟨rfl, rfl, head_cycle x, jam_next x _ rfl rfl rfl rfl, in_port _ _ _ rfl (Or.inl ⟨rfl, rfl⟩), by cases x <;> rfl,
      by cases x <;> rfl⟩

/-- Package 2 withdrawn, or declared unreachable, or die 0 out of service; the thread ready or waiting for record 5; the
request with order and scope. -/
def noticeS (p : Packet) (lost : Bool) (declared : List Nat) (down : Bool) (r : Req) (place : Place) : State := { fabricS p [] with
  packages := [(0, { portP 1 2 [] with declared := declared }), (2, { portP 1 2 [] with lost := lost })]
  reqs := [(7, r)]
  dies := base.dies.put 0 { base.die 0 with inService := !down }
  groups := [(0, { placedGroup with threads := [(0, { placedThread with place := place, words := 1 })] })] }
/-- A store at a scope of the system that is a release, issued as its thread's first word. -/
def releaseReq : Req := { req1 .store false .issued with order := 2, scope := 3, nth := 1 }

theorem witness_ErrorNotices_causes :
    (∀ c, let s := noticeS (packet1 c 2) true [] false releaseReq .ready; Tbl.get? s.packets 3 = some (packet1 c 2) ∧
      (s.pkg 2).lost = true) ∧
    (∀ c, let s := noticeS (packet1 c 2) false [2] false releaseReq .ready; 2 ∈ (s.pkg (packet1 c 2).at_).declared) ∧
    (let s := noticeS (packet1 (.record 5) 2) false [] true releaseReq .ready; Tbl.get? s.recs 5 = some (rec1 none false .routing) ∧
      (s.die (s.targetDie (rec1 none false .routing))).inService = false) ∧
    (let s := noticeS (packet1 (.coll 3 0) 0) false [] true releaseReq .ready; (s.die 0).inService = false) ∧
    (let s := noticeS (packet1 (.request 7) 2) false [] false releaseReq .ready; (s.pkg 2).lost = false ∧ 2 ∉ (s.pkg 0).declared) :=
  ⟨fun _ => ⟨rfl, rfl⟩, fun _ => List.mem_singleton.mpr rfl, ⟨rfl, by decide⟩, by decide, by decide⟩

theorem witness_ErrorNotices_origins :
    (∀ a, let r := { releaseReq with accepted := a }; let s := noticeS (packet1 (.request 7) 2) true [] false r .ready;
      Tbl.get? s.reqs 7 = some r ∧ r.stage = .issued ∧ ∃ g th, s.grp r.g = some g ∧ Tbl.get? g.threads r.t = some th ∧
        th.words = r.nth ∧ th.place = .ready) ∧
    (let s := noticeS (packet1 (.record 5) 2) true [] false releaseReq (.waiting (.spawn 5) base.cur.at_ h0 ⟨0, 0⟩ []);
      Tbl.get? s.recs 5 = some (rec1 none false .routing) ∧ ∃ g th, s.grp 0 = some g ∧ Tbl.get? g.threads 0 = some th ∧
        th.place = .waiting (.spawn 5) base.cur.at_ h0 ⟨0, 0⟩ []) ∧
    (∀ n, let s := noticeS (packet1 (.lineBack 0 n) 2) true [] false releaseReq .ready; (∀ e ∈ s.groups, e.2.releasing = []) ∧
      (∀ e, e ∈ s.reqs ↔ e = (7, releaseReq)) ∧ releaseReq.core / 96 = 0 ∧ releaseReq.isDone = false ∧ releaseReq.hasRelease = true ∧
      2 ≤ releaseReq.reachScope) ∧
    (∀ n, let s := noticeS (packet1 (.lineBack 0 n) 2) true [] false (req1 .load false .issued) .ready;
      ∀ e ∈ s.reqs, e.2.hasRelease = false) ∧
    (let s := noticeS (packet1 (.engine 3 0 1) 2) true [] false releaseReq .ready; ∃ j, Tbl.get? s.jobs 3 = some j ∧ j.born = 0 ∧
      j.live = true) ∧
    ((noticeS (packet1 (.response 7) 2) true [] false releaseReq .ready).pkg 0).fabric.length = 6 :=
  ⟨fun _ => ⟨rfl, rfl, _, _, rfl, rfl, rfl, rfl⟩, ⟨rfl, _, _, rfl, rfl, rfl⟩,
    fun _ => ⟨fun e he => by have h := List.mem_singleton.mp he; subst h; rfl, fun e => List.mem_singleton, by decide⟩,
    fun _ e he => by have h := List.mem_singleton.mp he; subst h; decide, ⟨_, rfl, by decide, by decide⟩, rfl⟩

/-- A peer's write of 8 bytes at 0x200 on queue pair 2, behind one that is done, through tables that map the first GiB to
physical address 0, plain or owner-local. -/
def rdma1 : Rdma := ⟨2, 1, 0x200, [1, 2, 3, 4, 5, 6, 7, 8], none⟩
def rdmaS (ol : Bool) : State := { base with
  rdmas := [(1, { rdma1 with done := some true }), (2, rdma1)]
  ptRoot := 0x3000
  mem := ((base.mem.writeNat 0x3000 8 0x4001).writeNat 0x4000 8 0x5001).writeNat 0x5000 8 (if ol then 0x4F else 0xF) }
/-- The entry that the walk gives. -/
def rdmaE (ol : Bool) : TlbEntry := ⟨0, 2 ^ 30, 0, true, true, false, false, ol, false, some 0, 0, false⟩

theorem witness_RdmaWrites :
    (rdmaS true).rdmas = [(1, { rdma1 with done := some true })] ++ (2, rdma1) :: [] ∧
    ((rdmaS true).rdmas.map (·.1)).Nodup ∧ 0x200 % 64 + rdma1.bytes.length ≤ 64 ∧
    (rdmaS true).walk 0x200 4 (rdmaS true).ptRoot.toNat = .ok 0x200 (rdmaE true) ∧ (rdmaE true).ol = true ∧
    (rdmaS false).walk 0x200 4 (rdmaS false).ptRoot.toNat = .ok 0x200 (rdmaE false) ∧
    ((rdmaE false).w = true ∧ (rdmaE false).ol = false ∧ (rdmaS false).sealedPage 0x200 = false ∧ (rdmaS false).stackLost 0x200 = false) ∧
    ((rdmaS false).homeOpen 0x200 = true ∧ (rdmaS false).firstFor 0x200 = none ∧ paSpace 0x200 = 0 ∧ (rdmaS false).mem.wf = true) ∧
    (∀ x, (rdmaS false).l2 x (0x200 / 64) = none) ∧ ((rdmaS false).onStack 0 (fun k => { k with st := .closing })).homeOpen 0x200 = false :=
  ⟨rfl, by decide, by decide,
    by decide +kernel, rfl, by decide +kernel, by decide +kernel, by decide +kernel, fun x => l2_none _ rfl x _, by decide +kernel⟩

/-! ### The command queue -/

/-- A command of a type in slot 0 of the queue at 0x20000, its fault area at 0x8000, with a body; launches beside it. -/
def cmd0 : Cmd := ⟨0, 0x20000⟩
def cmdS (type : Nat) (body : List Word) (ls : Tbl Launch) : State := { base with
  formed := true
  queue := ⟨0x20000, 4, 1, 0, 1, []⟩
  launches := ls
  mem := ((base.mem.writeBytes 0x20000 (wordBytes [BitVec.ofNat 32 type, 0, 0, 0, 0x8000, 0, 0x20000, 0])).writeBytes 0x20040
    (wordBytes body)).writeBytes 0x8000 (wordBytes [0xFFFFFFFF, 4]) }

/-- The conditions of Head, as a check. -/
def headB (s : State) (c : Cmd) (type : Nat) : Bool :=
  s.formed && s.replica.isNone && decide (s.queue.head.toNat < s.queue.tail.toNat)
  && decide (c = ⟨s.queue.head.toNat, s.queue.qbase.toNat + 320 * (s.queue.head.toNat % 2 ^ s.queue.log2.toNat)⟩)
  && s.names c.at_ && decide (s.devNat c.at_ 1 = type) && decide (s.devNat (c.at_ + 2) 2 = 0)
  && decide (s.devNat (c.at_ + 8) 8 < 8) && decide (s.devNat (c.at_ + 0x30) 16 = 0)

theorem head_of (s : State) (c : Cmd) (type : Nat) (h : headB s c type = true) : Head s c type := by
  simp only [headB, Bool.and_eq_true, decide_eq_true_eq] at h
  obtain ⟨⟨⟨⟨⟨⟨⟨⟨h1, h0⟩, h2⟩, h3⟩, h4⟩, h5⟩, h6⟩, h7⟩, h8⟩ := h
  exact ⟨h1, Or.inl (Option.isNone_iff_eq_none.mp h0), h2, h3, h4, h5, h6, h7, h8⟩

/-- A launch record of one team of one group, LSEQ 2 or another. -/
def launchBody (l : Word) : List Word :=
  [l, 0, 0, 0, 0, 0, 0, 1, 0x10001, 0x800001, 0, 0, 0, 0x100004] ++ List.replicate 8 0
    ++ [0, 0, 0, 0x10001, 40 * 2 ^ 24, 0]

/-- The domain with a mirror, lost or not, and its replica. -/
def mirrorS (lost : Bool) : State := { cmdS 0 [] [] with
  npkg := 2, replica := some ⟨(cmdS 0 [] []).queue, [], []⟩
  packages := [(1, { base.pkg 1 with mirror := true, lost := lost })] }

theorem witness_CommandQueue_mirror :
    (∃ p, p < (mirrorS false).npkg ∧ ((mirrorS false).pkg p).mirror = true ∧ ((mirrorS false).pkg p).lost = false) ∧
    ¬ ((mirrorS true).replica = none ∨
      ∃ p, p < (mirrorS true).npkg ∧ ((mirrorS true).pkg p).mirror = true ∧ ((mirrorS true).pkg p).lost = false) ∧
    (cmdS 0 [] []).replica = none := by
  refine ⟨⟨1, by decide, rfl, rfl⟩, ?_, rfl⟩
  rintro (h | ⟨p, h, m, l⟩)
  · cases h
  · have e : p = 0 ∨ p = 1 := by
      have : p < 2 := h
      omega
    rcases e with rfl | rfl
    · exact absurd m (by decide)
    · exact absurd l (by decide)

theorem witness_QueueAndLaunch :
    (base.formed = false ∧ Head (cmdS 0 [] []) cmd0 0 ∧ Head (cmdS 9 [] []) cmd0 9 ∧ Head (cmdS 2 [0, 0, 0, 0, 2] []) cmd0 2 ∧
      body (cmdS 2 [0, 0, 0, 0, 2] []) cmd0 0x10 4 % 4 = 2) ∧
    (Head (cmdS 1 (launchBody 2) []) cmd0 1 ∧ (cmdS 1 (launchBody 2) []).mem.wf = true ∧
      (cmdS 1 (launchBody 2) []).refuse cmd0 ((cmdS 1 (launchBody 2) []).launchRec cmd0) = none) ∧
    (Head (cmdS 1 (launchBody 1) []) cmd0 1 ∧
      (cmdS 1 (launchBody 1) []).refuse cmd0 ((cmdS 1 (launchBody 1) []).launchRec cmd0) = some (1, 0)) :=
  ⟨⟨rfl, head_of _ _ _ (by decide +kernel), head_of _ _ _ (by decide +kernel), head_of _ _ _ (by decide +kernel),
    by decide +kernel⟩, ⟨head_of _ _ _ (by decide +kernel), by decide +kernel, by decide +kernel⟩,
    ⟨head_of _ _ _ (by decide +kernel), by decide +kernel⟩⟩

/-- A launch in a state. -/
def stateL (n : Nat) : Tbl Launch := [(1, { placedLaunch with state := n })]
/-- A pre-emption (FULL), and a resume, of launch 1; a fault resume of group 0 of team 0; a terminate of team 0, or of all. -/
def preBody : List Word := [0, 0, 1, 0, 2 ^ 4]
def resBody : List Word := [0, 0, 1, 0, 1]
def faultBody : List Word := [1, 0, 0, 0, 0]
def termBody (all : Word) : List Word := [1, 0, 0, 0, 0, all]

theorem witness_LaunchControl :
    (Head (cmdS 2 preBody (stateL 2)) cmd0 2 ∧ body (cmdS 2 preBody (stateL 2)) cmd0 0x10 4 = 16 ∧
      body (cmdS 2 preBody (stateL 2)) cmd0 8 8 = 1) ∧
    (Head (cmdS 2 resBody (stateL 7)) cmd0 2 ∧ body (cmdS 2 resBody (stateL 7)) cmd0 0x10 4 = 1 ∧
      body (cmdS 2 resBody (stateL 7)) cmd0 8 8 = 1) ∧ (∀ n, (stateL n).map (·.1) = [1]) ∧
    (let s : State := { cmdS 3 faultBody (stateL 2) with groups := [(0, stopG 0x10 true .driver)] };
      Head s cmd0 3 ∧ s.grp 0 = some (stopG 0x10 true .driver) ∧ body s cmd0 0 8 = 1 ∧ body s cmd0 8 4 = placedTeam.tix ∧
      body s cmd0 12 4 = placedGroup.gix ∧ body s cmd0 16 4 = 0) ∧
    (Head (cmdS 4 (termBody 0) (stateL 2)) cmd0 4 ∧ Head (cmdS 4 (termBody 1) (stateL 2)) cmd0 4 ∧
      body (cmdS 4 (termBody 0) (stateL 2)) cmd0 0x14 4 = 0 ∧ body (cmdS 4 (termBody 1) (stateL 2)) cmd0 0x14 4 = 1 ∧
      body (cmdS 4 (termBody 0) (stateL 2)) cmd0 0 8 = 1 ∧
      body (cmdS 4 (termBody 0) (stateL 2)) cmd0 8 4 = placedTeam.tix ∧ placedTeam.step = placedLaunch.stepNow) ∧
    (let s := cmdS 4 (termBody 1) (stateL 2); s.reqs = [] ∧ s.jobs = [] ∧ ∀ x ∈ placedLaunch.dies, s.remoteLines x = [] ∧ s.backOut x = false) := by
  refine ⟨⟨head_of _ _ _ ?_, ?_, ?_⟩, ⟨head_of _ _ _ ?_, ?_, ?_⟩, fun _ => rfl, ⟨head_of _ _ _ ?_, rfl, ?_, ?_, ?_, ?_⟩,
    ⟨head_of _ _ _ ?_, head_of _ _ _ ?_, ?_, ?_, ?_, ?_, ?_⟩, ?_⟩ <;> decide +kernel

theorem witness_DeviceCommands :
    (Head (cmdS 5 [0] []) cmd0 5 ∧ Head (cmdS 5 [0x10000] []) cmd0 5 ∧ Head (cmdS 5 [4] []) cmd0 5 ∧
      body (cmdS 5 [0x10000] []) cmd0 0 4 = 0x10000 ∧ 0 < 4 * base.npkg) ∧
    (∀ x ∈ (preS placedLaunch 2).launches, x.2.state = 2 → 1 ∉ x.2.dies) ∧ 0 ∈ placedLaunch.dies ∧
    (Head (cmdS 6 [0x1000, 0, 1] []) cmd0 6 ∧ body (cmdS 6 [0x1000, 0, 1] []) cmd0 8 4 = 1 ∧
      body (cmdS 6 [0, 0, 3] []) cmd0 8 4 = 3) ∧
    (Head (cmdS 7 [0x5000] []) cmd0 7 ∧ body (cmdS 7 [0x5000] []) cmd0 8 8 = 0 ∧ (placedLaunch).state = 2) ∧
    (Head (cmdS 8 [0, 0, 0, 0x100] []) cmd0 8 ∧ body (cmdS 8 [0, 0, 0, 0x100] []) cmd0 8 8 = 2 ^ 40 ∧
      body (cmdS 8 [0, 0, 1] []) cmd0 8 8 % 2 ^ 40 ≠ 0) ∧ 0 < base.npkg := by
  refine ⟨⟨head_of _ _ _ ?_, head_of _ _ _ ?_, head_of _ _ _ ?_, ?_, ?_⟩, ?_, ?_, ⟨head_of _ _ _ ?_, ?_, ?_⟩,
    ⟨head_of _ _ _ ?_, ?_, ?_⟩, ⟨head_of _ _ _ ?_, ?_, ?_⟩, ?_⟩ <;> decide +kernel

/-! ### Boot, the domain, the step -/

/-- A key of the right length; a package at a stage of its boot with images under it, or with none. -/
def key1 : List Byte := List.replicate 1952 0
def bootS (b : Boot) (image : Option Image) : State := { base with packages := [(0, { base.pkg 0 with
  boot := b, power := 3, mail := [[1]], flashImg := image, driverImg := image, firmImg := image })] }

theorem witness_PowerAndBoot : (∀ b m, ((bootS b m).pkg 0).boot = b ∧ 3 ≤ ((bootS b m).pkg 0).power ∧
      ((bootS b m).pkg 0).flashImg = m ∧ ((bootS b m).pkg 0).driverImg = m ∧ ((bootS b m).pkg 0).firmImg = m ∧
      ((bootS b m).pkg 0).mail = [1] :: []) ∧ (base.pkg 0).power < 3 ∧
    ImageRefused 0 [] ⟨[], [], []⟩ 1 ∧
    ((∃ c, ImageRefused 0 key1 ⟨key1, [], []⟩ c) ∨ ∀ c, ¬ ImageRefused 0 key1 ⟨key1, [], []⟩ c) ∧
    ((base.core 0).mode = .barrel ∧ (base.core 1).mode = .startup) :=
  ⟨fun _ _ => ⟨rfl, (show 3 ≤ 3 from le_refl _), rfl, rfl, rfl, rfl⟩, by decide, Or.inl ⟨rfl, fun h => by cases h.1⟩, by
    by_cases h : ∃ c, ImageRefused 0 key1 ⟨key1, [], []⟩ c
    · exact Or.inl h
    · exact Or.inr (fun c hc => h ⟨c, hc⟩), by decide⟩

/-- Two packages of two trays with open cores; then a domain of them whose primary is lost. -/
def pack (tray : Nat) (prim mir lost : Bool) : Package := { base.pkg 0 with
  boot := .cores, tray := tray, primary := prim, mirror := mir, lost := lost }
def formS : State := { base with packages := [(0, pack 0 false false false), (1, pack 1 false false false)] }
/-- What the mirror of an empty queue holds. -/
def held0 : Replica := ⟨base.queue, [], []⟩
def overS (prim mir : Bool) : State := { base with
  npkg := 2, formed := true, replica := some held0
  packages := [(0, pack 0 true false prim), (1, pack 1 false true mir)] }

theorem witness_FormationAndFailover : (∀ p, p < 2 → (formS.pkg p).boot = .cores) ∧ (formS.pkg 2).boot ≠ .cores ∧
    formS.formed = false ∧ formS.replica = none ∧ (∀ p, p < 2 → (formS.pkg p).tray < 64) ∧ Lowest formS 2 0 ∧
    (∀ q, Works formS 2 q → (formS.pkg 0).tray ≤ (formS.pkg q).tray) ∧
    ∀ prim mir, let s := overS prim mir; 0 < s.npkg ∧ 1 < s.npkg ∧
      (∀ q, q < s.npkg → ((s.pkg q).primary = true ↔ q = 0)) ∧ (∀ q, q < s.npkg → ((s.pkg q).mirror = true ↔ q = 1)) ∧
      s.replica = some held0 ∧ (s.pkg 0).lost = prim ∧ (s.pkg 1).lost = mir ∧ (∀ q, q < s.npkg → (s.pkg q).tray < 64) ∧
      held0.queue = s.queue ∧ held0.queue.tail.toNat ≤ held0.queue.head.toNat :=
  ⟨by decide, by decide, rfl, rfl, by decide, ⟨⟨by decide, rfl⟩, fun q _ _ => Nat.zero_le q⟩, fun q _ => Nat.zero_le _, by decide⟩

/-- The machine whose next step runs SADD s1, s2, s3 with guard p7. -/
def stepS : State := State.reset.placed 0 (BitVec.ofNat 32 (7 * 2 ^ 27 + 1 * 2 ^ 20 + 2 * 2 ^ 13 + 3 * 2 ^ 6 + 2)) 0
def wordS : Word := BitVec.ofNat 32 (7 * 2 ^ 27 + 1 * 2 ^ 20 + 2 * 2 ^ 13 + 3 * 2 ^ 6 + 2)
def openS : State := { stepS.taken with groups := stepS.groups.modify 0 (fun u => Opened stepS 0 u) }

theorem witness_StepRunsDecoded : stepS.turn = .issue 0 ∧ Served stepS.taken 0 0 placedGroup ∧
    (Opened stepS 0 placedGroup).exits = [] ∧
    (∀ e ∈ (Opened stepS 0 placedGroup).threads, openS.heldBy 0 (Opened stepS 0 placedGroup) e.1 e.2 ≠ .fetch) ∧
    packPacket (openS.readyThreads 0 (Opened stepS 0 placedGroup)) = some (⟨0, 0⟩, [0]) ∧
    (openS.clause 0 0 (openS.codeBase placedGroup) 0).2 = .ok 1 [wordS] ∧
    headerOk 1 [wordS] = true ∧ indexOk 1 [wordS] 0 = true ∧ decodeLegal 0 wordS 0 = some (.sadd h7 1 2 3) ∧
    isTranscendental (.sadd h7 1 2 3) = false ∧
    (openS.clause 0 0 (openS.codeBase placedGroup) 0).1.overRoom (Opened stepS 0 placedGroup) 0 wordS (.sadd h7 1 2 3) [0] = false ∧
    ¬ (stepS.pkg 0).powerLimit < 4200 := by
  refine ⟨rfl, ⟨rfl, ⟨_, rfl, rfl, by decide⟩, by decide, fun _ => ?_, rfl, rfl, fun c h => by cases h⟩, rfl, ?_, ?_, ?_, by decide,
    by decide, by decide, by decide, ?_, by decide⟩
  · decide +kernel
  · decide +kernel
  · decide +kernel
  · decide +kernel
  · decide +kernel

theorem witness_StepRunsDecoded_clause : (∀ p ∈ stepS.passed, p.agent ≠ .fetch 0) ∧
    (∀ n, n ≤ 1 → Mapped stepS 0 (4 * n) .fetch placedPage ∧ stepS.homeOpen (4 * n) = true ∧ stepS.firstFor (4 * n) = none) ∧
    (∀ n, n < 2 → some (BitVec.ofNat 32 (bytesToNat (stepS.homeRead (4 * n) 4).1)) = [1, wordS][n]?) ∧ (1 : Word).toNat % 16 = 1 := by
  refine ⟨by decide, fun n hn => ?_, by decide +kernel, by decide⟩
  have h : n = 0 ∨ n = 1 := by omega
  rcases h with rfl | rfl
  · exact ⟨mapped_of _ _ _ _ _ rfl (by decide), by decide, by decide⟩
  · exact ⟨mapped_of _ _ _ _ _ rfl (by decide), by decide, by decide⟩

theorem witness_DecodeEncode : Instr.wf (.sadd h7 1 2 3) = true ∧
    encode (.sadd h7 1 2 3) = some (0, [BitVec.ofNat 32 (7 * 2 ^ 27 + 1 * 2 ^ 20 + 2 * 2 ^ 13 + 3 * 2 ^ 6 + 2)]) :=
  ⟨by decide, by decide⟩

theorem witness_CanonicalStep : stepS.mem.wf = true ∧ (match step stepS with | .next _ => true | _ => false) = true :=
  ⟨by decide +kernel, by decide +kernel⟩

theorem witness_EncodeDecode : (decodeLegal 3 0x02820090 0).isSome = true := by decide

/-! ## The spec's worked examples -/

/-- The words of the examples of R31, R76, R87, R98, R102, R131, R141, R149 and of the worked trap. -/
theorem test_example_words :
    decodeLegal 4 0x3800A804 0 = some (.lpad h7 0 0x2A0) ∧
    decodeLegal 4 0x39220A05 0 = some (.spawn h7 1 1 8 20 false 0) ∧
    decodeLegal 1 0x39108158 0 = some (.vcmp h7 17 4 5) ∧
    decodeLegal 1 0x38608170 0x40A = some (.cvt h7 6 4 5 0x40A) ∧
    decodeLegal 1 0x08A0823C 0 = some (.gred ⟨0, 1⟩ 10 4 8) ∧
    decodeLegal 3 0x01920500 0 = some (.tmma h0 1 true 1 16 20) ∧
    decodeLegal 3 0x02820090 0 = some (.cpy h0 40 16 2) ∧
    decodeLegal 3 0x00310255 0 = some (.handover h0 3 8 9) ∧
    decodeLegal 4 0x18048D0C 0 = some (.trap ⟨0, 3⟩ 0x1234) := by decide

/-- The clause worked out after R33: VADD with a STALL of 1, VMUL and VMOVL with its literal. -/
theorem test_example_clause :
    decodeLegal 1 0x78502083 0 = some (.vadd ⟨1, 7⟩ 5 1 2) ∧ decodeLegal 1 0x3860A147 0 = some (.vmul h7 6 5 5) ∧
    decodeLegal 1 0x38700001 0x3F800000 = some (.vmovl h7 7 0x3F800000) ∧
    headerOk 0x314 [0x78502083, 0x3860A147, 0x38700001, 0x3F800000] = true ∧
    indexOk 0x314 [0x78502083, 0x3860A147, 0x38700001, 0x3F800000] 3 = false := by decide

/-- Uniform register n of the group that an instruction leaves. -/
def leaves (o : Outcome) (n : Nat) : Option Word := match o with
  | .next t => (t.grp 0).map (·.rs n)
  | _ => none
/-- Lane n of thread y that an instruction leaves. -/
def lanes (o : Outcome) (y n : Nat) : Option Word := match o with
  | .next t => (t.thr 0 y).map (·.lane false n)
  | _ => none

/-- R76 and R1: the slot of a placed SADD issues it, and it writes the sum. -/
def sumS : State := { stepS with groups := [(0, { placedGroup with s := [(2, 0xFFFFFFFF), (3, 5)] })] }
theorem test_step_sadd : (sumS.taken.beginIssue 0).2 = some (.sadd h7 1 2 3) ∧
    leaves (exec (.sadd h7 1 2 3) (sumS.taken.beginIssue 0).1) 1 = some 4 := by decide +kernel

/-- R63: SBFE of bits 30 to 20 of 0xDEADBEEF, signed. -/
theorem test_sbfe : leaves (exec (.sbfe h7 9 4 0x974) (withG (fun g => { g with s := [(4, 0xDEADBEEF)] }))) 9
    = some 0xFFFFFDEA := by decide +kernel

/-- The small machine whose thread has v4 and v5. -/
def two (a b : Word) : State := withG (fun g => { g with threads := [(0, { placedThread with v := [(4, a), (5, b)] })] })

/-- The conversions of R98's table to BFP4 under rn, saturated and not, under rz, and back. -/
theorem test_cvt : lanes (exec (.cvt h7 6 4 5 0x40A) (two 0x40300000 0x8100)) 0 6 = some 6 ∧
    lanes (exec (.cvt h7 6 4 5 0x40A) (two 0xC0300000 0x8100)) 0 6 = some 0xFFFFFFFA ∧
    lanes (exec (.cvt h7 6 4 5 0x40A) (two 0x40300000 0x8000)) 0 6 = some 7 ∧
    lanes (exec (.cvt h7 6 4 5 0x00A) (two 0x40300000 0x8000)) 0 6 = some 0xFFFFFFF8 ∧
    lanes (exec (.cvt h7 6 4 5 0x10A) (two 0x40300000 0x8100)) 0 6 = some 5 ∧
    lanes (exec (.cvt h7 6 4 5 0x0A0) (two 6 0x81)) 0 6 = some 0x40400000 := by decide +kernel

/-- The leaves of R103's example. -/
def leaf103 (i : Nat) : Option Word := ([0x4B800000, 0x3F800000, 0x3F800000, 0xCB800000] : List Word)[i]?

/-- R103: the tree's sum is 1.0, the scan's last value too, its third 2^24. -/
theorem test_gred_tree : treeNode fadd leaf103 8 0 = some 0x3F800000 ∧
    treeNode fadd leaf103 1 0 = some 0x4B800000 ∧ scanFrom fadd leaf103 3 8 0 none = some 0x4B800000 ∧
    scanFrom fadd leaf103 4 8 0 none = some 0x3F800000 := by decide +kernel

/-- R180's example: team 5 of base 0x100 and stride 37 in 16 packages has stack 1 of package 7 as its home. -/
theorem test_home : State.teamHome { State.reset with npkg := 16 }
    { placedLaunch.rc with hashBase := 0x100, hashStride := 37, hfixed := false } 5 = 57 := by decide

/-- R189's example: the first bytes of the BFP4 column are elements -3, 0, 3, -1, 2, -2, 1, -3. -/
theorem test_bfp4 : (List.range 8).map (fun k => toF32 (OpMap.value [0, 0x00100100, 8, 0] 10 0 k (fun a =>
      if a = 0x100 then 0x82 else ([0x0D, 0xF3, 0xE2, 0xD1] : List Byte).getD a 0))) =
    [0xC0400000, 0, 0x40400000, 0xBF800000, 0x40000000, 0xC0000000, 0x3F800000, 0xC0400000] := by decide +kernel

/-- R169's example: threads at the lower PC are packed first, though an older index stands elsewhere. -/
theorem test_pack : packPacket [(0, { placedThread with pc := ⟨0x100, 0⟩ }), (16, { placedThread with pc := ⟨0x80, 1⟩ }),
    (17, { placedThread with pc := ⟨0x80, 1⟩ })] = some (⟨0x80, 1⟩, [16, 17]) := by decide

end Sys2Proof.Tests
end

section
/-! PROOF. The vector integer forms (O1). -/

namespace Sys2Proof.Machine

open Sys2Proof.Claims

/-! ## Rules of the shared vector effects, in the terms of the claims (R84) -/

/-- A packet's word leaves a group's uniform registers as they were. -/
theorem Group.SameBut.rs {g g' : Group} (hg : g.SameBut g') : g'.rs = g.rs := by
  unfold Group.SameBut at hg
  rw [hg]
  rfl

section
variable {s : State} {g : Group} {h : Hd} {d a b : Field} {sh : Shape}

theorem lane_vecWord (v : Group → Bool → Thread → Word) (R : s.Ready g h sh false)
    (hv : ∀ g', g.SameBut g' → v g' = v g) :
    Claims.Lane s g h sh d (vecWord h sh (fun g hm t => t.writeV d.toNat (v g hm t) 2) s) (v g) :=
  State.vectorResult_lane d.toNat 2 v R hv

theorem lane_vecOne (f : Word → Word) (R : s.Ready g h (.v2 d a) false) :
    Claims.Lane s g h (.v2 d a) d (vecOne h d a f s) (fun hm t => f (t.rd hm a.toNat)) :=
  lane_vecWord (fun _ hm t => f (t.rd hm a.toNat)) R fun _ _ => rfl

theorem lane_vecTwo (f : Word → Word → Word) (R : s.Ready g h (.v3 d a b) false) :
    Claims.Lane s g h (.v3 d a b) d (vecTwo h d a b f s) (fun hm t => f (t.rd hm a.toNat) (t.rd hm b.toNat)) :=
  lane_vecWord (fun _ hm t => f (t.rd hm a.toNat) (t.rd hm b.toNat)) R fun _ _ => rfl

theorem lane_vecThree (f : Word → Word → Word → Word) (R : s.Ready g h (.v4 d a b) false) :
    Claims.Lane s g h (.v4 d a b) d (vecThree h d a b f s)
      (fun hm t => f (t.rd hm a.toNat) (t.rd hm b.toNat) (t.rd hm d.toNat)) :=
  lane_vecWord (fun _ hm t => f (t.rd hm a.toNat) (t.rd hm b.toNat) (t.rd hm d.toNat)) R fun _ _ => rfl

theorem pred_vecWord (p : Nat) (v : Group → Bool → Thread → Bool) (R : s.Ready g h sh false)
    (hv : ∀ g', g.SameBut g' → v g' = v g) :
    Claims.Pred s g h sh p (vecWord h sh (fun g hm t => t.writeP p (v g hm t) 2) s) (v g) :=
  State.vectorResult_pred p 2 v R hv

end

/-! ## The integer operations are the formulas of R62 and R63 -/

theorem shl_eq_shiftLeft : shl = shiftLeft := by
  funext x n
  unfold shl shiftLeft
  split
  · rfl
  · exact BitVec.shiftLeft_eq_zero (by omega)

theorem shr_eq_shiftRight : shr = shiftRight := by
  funext x n
  unfold shr shiftRight
  split
  · rfl
  · exact BitVec.ushiftRight_eq_zero (by omega)

theorem sar_eq_shiftArith : sar = shiftArith := by
  funext x n
  unfold sar shiftArith
  split
  · rfl
  · rename_i hn
    ext i hi
    have past : ¬ n.toNat + i < 32 := by omega
    rw [BitVec.getElem_sshiftRight, dif_neg past]
    cases x.msb with
    | false => simp
    | true => exact (BitVec.getElem_allOnes i hi).symm

theorem sminOf_eq : sminOf = fun x y => if x.toInt ≤ y.toInt then x else y := by
  funext x y
  simp only [sminOf, BitVec.sle_iff_toInt_le]

theorem smaxOf_eq : smaxOf = fun x y => if x.toInt ≤ y.toInt then y else x := by
  funext x y
  simp only [smaxOf, BitVec.sle_iff_toInt_le]

theorem nminOf_eq : nminOf = fun x y => if x.toNat ≤ y.toNat then x else y := by
  funext x y
  simp only [nminOf, BitVec.ule_iff_toNat_le]

theorem nmaxOf_eq : nmaxOf = fun x y => if x.toNat ≤ y.toNat then y else x := by
  funext x y
  simp only [nmaxOf, BitVec.ule_iff_toNat_le]

/-- The leading zeros among the low n bits are what the size of the low n bits leaves. -/
theorem clzFrom_eq_sub_size (x : Word) (n : Nat) : clzFrom x n = n - (x.toNat % 2 ^ n).size := by
  induction n with
  | zero => simp [clzFrom]
  | succ n ih =>
    have small : (x.toNat % 2 ^ n).size ≤ n := Nat.size_le.2 (Nat.mod_lt _ (by positivity))
    have top : x.toNat % 2 ^ (n + 1) = x.toNat % 2 ^ n + 2 ^ n * (x.toNat.testBit n).toNat := by
      rw [Nat.mod_pow_succ, Nat.toNat_testBit]
    rw [clzFrom, top, ih, BitVec.getLsbD]
    cases x.toNat.testBit n with
    | true =>
      have large : n < (x.toNat % 2 ^ n + 2 ^ n * true.toNat).size := Nat.lt_size.2 (by simp)
      rw [if_pos rfl]
      omega
    | false =>
      simp only [Bool.false_eq_true, if_false, Bool.toNat_false, Nat.mul_zero, Nat.add_zero]
      omega

theorem wordClz_eq_leadingZeros : wordClz = leadingZeros := by
  funext x
  rw [wordClz, leadingZeros, clzFrom_eq_sub_size, Nat.mod_eq_of_lt x.isLt]

theorem onesFrom_eq_countP (x : Word) (n : Nat) : onesFrom x n = (List.range n).countP (fun i => x.getLsbD i) := by
  induction n with
  | zero => rfl
  | succ n ih => rw [onesFrom, List.range_succ, List.countP_append, ih, List.countP_singleton, Nat.add_comm]

theorem wordPop_eq_oneBits : wordPop = oneBits := by
  funext x
  rw [wordPop, oneBits, onesFrom_eq_countP]

theorem bfeOk_iff_fieldOk (lit : Word) : bfeOk lit = true ↔ FieldOk lit := by
  have hlit := lit.isLt
  have high : lit.toNat / 4096 % 1048576 = 0 ↔ lit.toNat < 4096 := by omega
  simp only [bfeOk, Bool.and_eq_true, decide_eq_true_eq, beq_iff_eq]
  simp [FieldOk, bitsOf, and_assoc, high]

/-- Filling the bits above LEN with ones subtracts 2 to the LEN, modulo 2 to the 32 (R63). -/
theorem ofNat_sign_extend {y len : Nat} (hlen : len ≤ 32) :
    BitVec.ofNat 32 (y + (2 ^ 32 - 2 ^ len)) = BitVec.ofInt 32 ((y : Int) - 2 ^ len) := by
  have le : 2 ^ len ≤ 2 ^ 32 := Nat.pow_le_pow_right (by decide) hlen
  have shift : ((y + (2 ^ 32 - 2 ^ len) : Nat) : Int) = (y - 2 ^ len) + (2 ^ 32 : Nat) := by
    have cast : ((2 ^ len : Nat) : Int) = 2 ^ len := Nat.cast_pow 2 len
    omega
  rw [← BitVec.ofInt_natCast, shift, BitVec.ofInt_add]
  exact BitVec.add_zero _

/-- The sign of a field is its top bit, at LEN - 1, which exists because LEN is not 0 (R63). -/
theorem bitField_eq_field {lit : Word} (hlit : FieldOk lit) (x : Word) : bitField lit x = field lit x := by
  obtain ⟨hpos, hle, -, -⟩ := hlit
  simp only [bitField, field, bitsOf, Nat.reduceAdd, Nat.reduceSub, Nat.pow_zero, Nat.div_one, Nat.reducePow]
  generalize lit.toNat / 32 % 64 = len at *
  generalize x.toNat / 2 ^ (lit.toNat % 32) % 2 ^ len = y
  have top : 2 ^ (len - 1) ≤ y ↔ (2 : Int) ^ len ≤ 2 * y := by
    obtain ⟨k, rfl⟩ := Nat.exists_eq_add_of_le' hpos
    rw [Nat.add_sub_cancel, pow_succ']
    exact_mod_cast (Nat.mul_le_mul_left_iff (by decide)).symm
  simp only [top]
  split
  · exact ofNat_sign_extend hle
  · exact (BitVec.ofInt_natCast 32 y).symm

/-! ## The forms write what their operation gives (R85) -/

theorem vectorIntegerTwo : VectorIntegerTwo := by
  intro s g h d a b R e he
  suffices same : exec e.1 s = vecTwo h d a b e.2 s by rw [same]; exact lane_vecTwo e.2 R
  revert e
  simp only [List.forall_mem_cons]
  have by_op {f v : Word → Word → Word} (hf : f = v) : vecTwo h d a b f s = vecTwo h d a b v s := by rw [hf]
  exact ⟨rfl, rfl, rfl, rfl, rfl, rfl, rfl, rfl, by_op shl_eq_shiftLeft, by_op shr_eq_shiftRight,
    by_op sar_eq_shiftArith, by_op sminOf_eq, by_op smaxOf_eq, by_op nminOf_eq, by_op nmaxOf_eq, by simp⟩

theorem vectorIntegerMoves : VectorIntegerMoves := by
  intro s g h d a b lit
  refine ⟨fun R e he => ?_, fun R hwf => ?_, fun R => ?_, fun R => ?_, fun R => ?_, fun R => ?_, fun R => ?_, ?_, ?_⟩
  · suffices same : exec e.1 s = vecOne h d a e.2 s by rw [same]; exact lane_vecOne e.2 R
    revert e
    simp only [List.forall_mem_cons]
    exact ⟨rfl, rfl, congrArg (vecOne h d a · s) wordClz_eq_leadingZeros,
      congrArg (vecOne h d a · s) wordPop_eq_oneBits, by simp⟩
  · have fits : FieldOk lit := (bfeOk_iff_fieldOk lit).1 hwf
    simp only [← bitField_eq_field fits]
    exact lane_vecOne (bitField lit) R
  · exact lane_vecWord (fun _ _ _ => lit) R fun _ _ => rfl
  · exact lane_vecWord (fun g _ _ => g.rs a.toNat) R fun _ hg => by rw [hg.rs]
  · exact lane_vecWord (fun g hm t => t.rd hm a.toNat + g.rs b.toNat) R fun _ hg => by rw [hg.rs]
  · exact lane_vecThree (fun x y z => z + x * y) R
  · exact State.vectorResult_pair d.toNat 2 (fun hm t => (t.rdN hm a.toNat 2 + t.rdN hm b.toNat 2) % 2 ^ 64) R
  · exact bfeOk_iff_fieldOk lit
  · simp [Instr.wf, Field.pair, and_assoc]

/-- Settles O1, each form as one shared vector effect with the operation of R62 and R63. -/
theorem vectorInteger : Obligations.VectorInteger := ⟨vectorIntegerTwo, vectorIntegerMoves⟩

end Sys2Proof.Machine
end

section
/-! PROOF. The compares, the predicate forms and VSEL (O3). -/

namespace Sys2Proof.Machine

open Sys2Proof.Claims

/-! ## NaN and the order of two FP32 values (R91) -/

theorem FFmt.decode_eq_nan_iff (f : FFmt) (x : Nat) : f.decode x = .nan ↔ f.isNan x = true := by
  unfold FFmt.decode
  split
  · simp [*]
  · split
    · simp [*]
    · split
      · split <;> simp [*]
      · simp [*]

theorem f32_eq_nan_iff (x : Word) : f32 x = .nan ↔ FFmt.f32.isNan x.toNat = true :=
  FFmt.f32.decode_eq_nan_iff x.toNat

theorem fcmp_eq_none_iff (x y : Word) : fcmp x y = none ↔ f32 x = .nan ∨ f32 y = .nan := by
  rw [f32_eq_nan_iff, f32_eq_nan_iff, fcmp]
  split <;> simp [*]

/-! ## The forms that write a predicate (R86, R87, R91) -/

theorem vectorCompares : VectorCompares := by
  refine ⟨fun h d a b => ?_, fun s g h d a b k rel hk row => ⟨cmpCond k, fun x y => ?_, fun R => ?_, fun R => ?_⟩⟩
  · simp only [Instr.wf, Nat.lt_succ_iff, and_self]
  · rcases row with ⟨rfl, rfl⟩ | ⟨rfl, rfl⟩ | ⟨rfl, rfl⟩ | ⟨rfl, rfl⟩ | ⟨rfl, rfl⟩ | ⟨rfl, rfl⟩ | ⟨rfl, rfl⟩ |
      ⟨rfl, rfl⟩ | ⟨rfl, rfl⟩ | ⟨rfl, rfl⟩ | ⟨rfl, rfl⟩ | ⟨rfl, rfl⟩
    · exact beq_iff_eq
    · exact bne_iff_ne
    · exact BitVec.slt_iff_toInt_lt
    · exact BitVec.sle_iff_toInt_le
    · exact BitVec.slt_iff_toInt_lt
    · exact BitVec.sle_iff_toInt_le
    · exact BitVec.ult_iff_toNat_lt
    · exact BitVec.ule_iff_toNat_le
    · exact BitVec.ult_iff_toNat_lt
    · exact BitVec.ule_iff_toNat_le
    · exact bne_iff_ne
    · exact beq_iff_eq
  · subst hk
    exact pred_vecWord (d.toNat % 8) (fun _ hm t => cmpCond (d.toNat / 8) (t.rd hm a.toNat) (t.rd hm b.toNat)) R
      fun _ _ => rfl
  · subst hk
    exact pred_vecWord (d.toNat % 8) (fun g hm t => cmpCond (d.toNat / 8) (t.rd hm a.toNat) (g.rs b.toNat)) R
      fun _ hg => by rw [hg.rs]

theorem predicatesAndSelect : PredicatesAndSelect := by
  intro s g h d a b
  refine ⟨fun R e he => ?_, fun R => ?_, fun R => ?_⟩
  · suffices same : exec e.1 s = vecWord h (.preds d [a, b])
        (fun _ _ t => t.writeP d.toNat (e.2 (t.pr a.toNat) (t.pr b.toNat)) 2) s by
      rw [same]
      exact pred_vecWord d.toNat (fun _ _ t => e.2 (t.pr a.toNat) (t.pr b.toNat)) R fun _ _ => rfl
    revert e
    simp only [List.forall_mem_cons]
    exact ⟨rfl, rfl, rfl, by simp⟩
  · exact pred_vecWord d.toNat (fun _ _ t => !t.pr a.toNat) R fun _ _ => rfl
  · exact State.vectorResult_lane d.toNat 2
      (fun _ hm t => if t.pr h.guard.toNat then t.rd hm a.toNat else t.rd hm b.toNat) R fun _ _ => rfl

theorem floatCompare : FloatCompare := by
  refine ⟨fun h d a b => ?_, by decide, fun s g h d a b R hcode => ⟨fcmpCond (d.toNat / 8), ?_, fun x y => ?_⟩⟩
  · simp only [Instr.wf, Nat.lt_succ_iff]
  · exact pred_vecWord (d.toNat % 8) (fun _ hm t => fcmpCond (d.toNat / 8) (t.rd hm a.toNat) (t.rd hm b.toNat)) R
      fun _ _ => rfl
  · generalize d.toNat / 8 = code at hcode
    match code, hcode with
    | 0, _ => exact beq_iff_eq
    | 1, _ => exact bne_iff_ne
    | 2, _ => exact beq_iff_eq
    | 3, _ => exact Bool.or_eq_true_iff.trans (or_congr beq_iff_eq beq_iff_eq)
    | 4, _ => exact beq_iff_eq
    | 5, _ => exact Bool.or_eq_true_iff.trans (or_congr beq_iff_eq beq_iff_eq)
    | 6, _ => exact Option.isNone_iff_eq_none.trans (fcmp_eq_none_iff x y)
    | 7, _ => exact Option.isSome_iff_ne_none.trans ((fcmp_eq_none_iff x y).not.trans not_or)

/-- Settles O3, the compares by condition code, the predicate forms by their Boolean operation. -/
theorem comparesAndPredicates : Obligations.ComparesAndPredicates :=
  ⟨vectorCompares, predicatesAndSelect, floatCompare⟩

end Sys2Proof.Machine
end

section
/-! PROOF. Special floating-point values, the maximum rule and the class mask (O4). -/

namespace Sys2Proof.Machine

open Sys2Proof.Claims

/-! ## NaN and infinity through the exact operations (R88) -/

@[simp] theorem Val.nan_add (down : Bool) (v : Val) : Val.nan.add down v = .nan := by cases v <;> rfl
@[simp] theorem Val.add_nan (down : Bool) (v : Val) : v.add down .nan = .nan := by cases v <;> rfl
@[simp] theorem Val.nan_mul (v : Val) : Val.nan.mul v = .nan := by cases v <;> rfl
@[simp] theorem Val.mul_nan (v : Val) : v.mul .nan = .nan := by cases v <;> rfl
@[simp] theorem Val.minus_nan : Val.nan.minus = .nan := rfl
theorem toF32_nan : toF32 .nan = 0x7FC00000 := rfl

/-- The exact sum of a finite value and its opposite is +0 unless rounding goes down (R88). -/
theorem Val.fin_add_minus (neg : Bool) (m : Nat) (e : Int) :
    (Val.fin neg m e).add false (Val.fin neg m e).minus = .fin false 0 0 := by
  cases neg <;> simp [Val.add, Val.minus, signedMag]

theorem results_of_nan_operand {x y : Word} (hnan : f32 x = .nan ∨ f32 y = .nan) :
    fadd x y = 0x7FC00000 ∧ fsub x y = 0x7FC00000 ∧ fmul x y = 0x7FC00000 ∧
      ∀ z, fma x y z = 0x7FC00000 ∧ fma z x y = 0x7FC00000 := by
  rcases hnan with hx | hy
  · simp [fadd, fsub, fmul, fma, hx, toF32_nan]
  · simp [fadd, fsub, fmul, fma, hy, toF32_nan]

theorem fsub_self {x : Word} (hnan : f32 x ≠ .nan) (hinf : ∀ n, f32 x ≠ .inf n) : fsub x x = 0 := by
  unfold fsub
  cases hx : f32 x with
  | nan => exact absurd hx hnan
  | inf n => exact absurd hx (hinf n)
  | fin neg m e => rw [Val.fin_add_minus]; rfl

theorem fma_zero_inf (z : Word) : fma 0 0x7F800000 z = 0x7FC00000 := by
  have product : (f32 0).mul (f32 0x7F800000) = .nan := by decide
  rw [fma, product, Val.nan_add, toF32_nan]

theorem floatSpecialCases : FloatSpecialCases :=
  ⟨fun _ _ => results_of_nan_operand, by decide, by decide, by decide, fma_zero_inf, fun _ => fsub_self, by decide⟩

/-! ## The fields of an FP32 encoding (R184) -/

theorem f32_neg_eq (x : Word) : FFmt.f32.neg x.toNat = decide (2 ^ 31 ≤ x.toNat) := by
  have hx := x.isLt
  rw [show FFmt.f32.neg x.toNat = x.toNat.testBit 31 from rfl, Nat.testBit_eq_decide_div_mod_eq, decide_eq_decide]
  omega

theorem f32_isNan_iff (x : Word) :
    FFmt.f32.isNan x.toNat = true ↔ x.toNat / 2 ^ 23 % 2 ^ 8 = 255 ∧ x.toNat % 2 ^ 23 ≠ 0 := by
  rw [FFmt.isNan, Bool.and_eq_true, beq_iff_eq]
  exact and_congr Iff.rfl bne_iff_ne

theorem f32_isInf_iff (x : Word) :
    FFmt.f32.isInf x.toNat = true ↔ x.toNat / 2 ^ 23 % 2 ^ 8 = 255 ∧ x.toNat % 2 ^ 23 = 0 := by
  rw [FFmt.isInf, Bool.and_eq_true, Bool.and_eq_true, beq_iff_eq, beq_iff_eq]
  exact and_congr (and_iff_right rfl) Iff.rfl

/-! ## The order key (R90, R198) -/

theorem f32_key_of_nan {x : Word} (hx : f32 x = .nan) : FFmt.f32.key x.toNat = 0 :=
  if_pos ((f32_eq_nan_iff x).1 hx)

theorem f32_key_of_number {x : Word} (hx : f32 x ≠ .nan) :
    FFmt.f32.key x.toNat = if 2 ^ 31 ≤ x.toNat then 2 ^ 32 - 1 - x.toNat else x.toNat + 2 ^ 31 := by
  have number : FFmt.f32.isNan x.toNat ≠ true := mt (f32_eq_nan_iff x).2 hx
  have key : FFmt.f32.key x.toNat = if FFmt.f32.neg x.toNat then 2 ^ 32 - 1 - x.toNat else x.toNat + 2 ^ 31 :=
    if_neg number
  rw [key, f32_neg_eq]
  simp only [decide_eq_true_eq]

theorem f32_key_pos {x : Word} (hx : f32 x ≠ .nan) : 0 < FFmt.f32.key x.toNat := by
  have quiet : ¬ (x.toNat / 2 ^ 23 % 2 ^ 8 = 255 ∧ x.toNat % 2 ^ 23 ≠ 0) :=
    mt (fun nan => (f32_eq_nan_iff x).2 ((f32_isNan_iff x).2 nan)) hx
  have := x.isLt
  rw [f32_key_of_number hx]
  split <;> omega

/-- The key by which fcmp orders: that of the maximum rule, with -0 at the place of +0 (R91). -/
def orderKey (x : Word) : Nat := if x.toNat % 2 ^ 31 = 0 then FFmt.f32.key 0 else FFmt.f32.key x.toNat

theorem fcmp_of_numbers {x y : Word} (hx : f32 x ≠ .nan) (hy : f32 y ≠ .nan) :
    fcmp x y = some (compare (orderKey x) (orderKey y)) := by
  rw [Ne, f32_eq_nan_iff] at hx hy
  exact if_neg (not_or.2 ⟨hx, hy⟩)

/-- The two keys differ at -0 alone, where that of the maximum rule is one below that of +0: no encoding is ordered
between the two zeros. -/
theorem f32_key_lt_of_orderKey_lt {x y : Word} (hx : f32 x ≠ .nan) (hy : f32 y ≠ .nan)
    (lt : orderKey x < orderKey y) : FFmt.f32.key x.toNat < FFmt.f32.key y.toNat := by
  have zero : FFmt.f32.key 0 = 2 ^ 31 := by decide
  have := x.isLt
  have := y.isLt
  simp only [orderKey, zero, f32_key_of_number hx, f32_key_of_number hy] at lt ⊢
  split_ifs at lt ⊢ <;> omega

/-! ## What the maximum rule answers (R90) -/

theorem fmax_of_number {x y : Word} (hnum : ¬ (f32 x = .nan ∧ f32 y = .nan)) :
    fmax x y = if FFmt.f32.key y.toNat ≤ FFmt.f32.key x.toNat then x else y := by
  rw [f32_eq_nan_iff, f32_eq_nan_iff] at hnum
  rw [fmax, FFmt.maxRule, if_neg hnum, apply_ite (BitVec.ofNat 32), BitVec.ofNat_toNat, BitVec.ofNat_toNat,
    BitVec.setWidth_eq, BitVec.setWidth_eq]

theorem fmin_of_numbers {x y : Word} (hx : f32 x ≠ .nan) (hy : f32 y ≠ .nan) :
    fmin x y = if FFmt.f32.key x.toNat ≤ FFmt.f32.key y.toNat then x else y := by
  rw [Ne, f32_eq_nan_iff] at hx hy
  rw [fmin, FFmt.minRule, if_neg hx, if_neg hy, apply_ite (BitVec.ofNat 32), BitVec.ofNat_toNat, BitVec.ofNat_toNat,
    BitVec.setWidth_eq, BitVec.setWidth_eq]

theorem fmin_of_nan_left {x y : Word} (hx : f32 x = .nan) (hy : f32 y ≠ .nan) : fmin x y = y := by
  rw [f32_eq_nan_iff] at hx
  rw [Ne, f32_eq_nan_iff] at hy
  rw [fmin, FFmt.minRule, if_pos hx, if_neg hy, BitVec.ofNat_toNat, BitVec.setWidth_eq]

theorem fmin_of_nan_right {x y : Word} (hx : f32 x ≠ .nan) (hy : f32 y = .nan) : fmin x y = x := by
  rw [f32_eq_nan_iff] at hy
  rw [Ne, f32_eq_nan_iff] at hx
  rw [fmin, FFmt.minRule, if_neg hx, if_pos hy, BitVec.ofNat_toNat, BitVec.setWidth_eq]

theorem fmax_fmin_of_both_nan {x y : Word} (hx : f32 x = .nan) (hy : f32 y = .nan) :
    fmax x y = 0x7FC00000 ∧ fmin x y = 0x7FC00000 := by
  rw [f32_eq_nan_iff] at hx hy
  rw [fmax, fmin, FFmt.maxRule, FFmt.minRule, if_pos ⟨hx, hy⟩, if_pos hx, if_pos hy]
  exact ⟨rfl, rfl⟩

/-- The key of a NaN is below that of every number, so the maximum is the number too (R90). -/
theorem fmax_fmin_of_one_nan {x y : Word} (hx : f32 x = .nan) (hy : f32 y ≠ .nan) :
    fmax x y = y ∧ fmin x y = y ∧ fmax y x = y ∧ fmin y x = y := by
  have xkey := f32_key_of_nan hx
  have ykey := f32_key_pos hy
  refine ⟨?_, fmin_of_nan_left hx hy, ?_, fmin_of_nan_right hy hx⟩
  · rw [fmax_of_number fun both => hy both.2, if_neg (by omega)]
  · rw [fmax_of_number fun both => hy both.1, if_pos (by omega)]

theorem fmax_fmin_of_lt {x y : Word} (hx : f32 x ≠ .nan) (hy : f32 y ≠ .nan) (lt : fcmp x y = some .lt) :
    fmax x y = y ∧ fmin x y = x := by
  rw [fcmp_of_numbers hx hy, Option.some.injEq, Nat.compare_eq_lt] at lt
  have key := f32_key_lt_of_orderKey_lt hx hy lt
  rw [fmax_of_number fun both => hy both.2, fmin_of_numbers hx hy, if_neg (by omega), if_pos (by omega)]
  exact ⟨rfl, rfl⟩

theorem fmax_fmin_of_gt {x y : Word} (hx : f32 x ≠ .nan) (hy : f32 y ≠ .nan) (gt : fcmp x y = some .gt) :
    fmax x y = x ∧ fmin x y = y := by
  rw [fcmp_of_numbers hx hy, Option.some.injEq, Nat.compare_eq_gt] at gt
  have key := f32_key_lt_of_orderKey_lt hy hx gt
  rw [fmax_of_number fun both => hy both.2, fmin_of_numbers hx hy, if_pos (by omega), if_neg (by omega)]
  exact ⟨rfl, rfl⟩

theorem fmax_fmin_self {x : Word} (hx : f32 x ≠ .nan) : fmax x x = x ∧ fmin x x = x := by
  rw [fmax_of_number fun both => hx both.1, fmin_of_numbers hx hx, ite_self]
  exact ⟨rfl, rfl⟩

theorem maximumRule : MaximumRule :=
  ⟨fun _ _ _ _ _ _ R => ⟨lane_vecTwo fmin R, lane_vecTwo fmax R⟩, fun _ _ => fmax_fmin_of_both_nan,
    fun _ _ => fmax_fmin_of_one_nan, by decide, by decide, by decide, by decide,
    fun _ _ hx hy => ⟨fmax_fmin_of_lt hx hy, fmax_fmin_of_gt hx hy⟩, fun _ => fmax_fmin_self⟩

/-! ## The class mask (R93) -/

/-- The quiet bit is the top bit of the fraction. -/
theorem testBit_22_iff (n : Nat) : n.testBit 22 = true ↔ ¬ n % 2 ^ 23 < 2 ^ 22 := by
  rw [Nat.testBit_eq_decide_div_mod_eq, decide_eq_true_eq]
  omega

theorem classMaskOneHot : ClassMaskOneHot := by
  refine ⟨fun s g h d a R => lane_vecOne fclass R, fun x => ?_⟩
  intro exponent fraction side
  have hexp : FFmt.f32.exp x.toNat = exponent := rfl
  have hfrac : FFmt.f32.frac x.toNat = fraction := rfl
  have hnan : FFmt.f32.isNan x.toNat = true ↔ exponent = 255 ∧ fraction ≠ 0 := f32_isNan_iff x
  have hinf : FFmt.f32.isInf x.toNat = true ↔ exponent = 255 ∧ fraction = 0 := f32_isInf_iff x
  have hquiet : x.toNat.testBit 22 = true ↔ ¬ fraction < 2 ^ 22 := testBit_22_iff x.toNat
  simp only [fclass, hnan, hinf, hquiet, hexp, hfrac, f32_neg_eq, decide_eq_true_eq]
  by_cases special : exponent = 255
  · by_cases whole : fraction = 0
    · simp [special, whole, side]
    · simp only [special, whole, ne_eq, not_false_eq_true, and_self, if_true, if_false, ite_not]
  · by_cases low : exponent = 0
    · simp [low, side]
    · simp [special, low, side]

/-- Settles O4, the special values by the cases of the exact operations, the maximum rule by the order key. -/
theorem floatValues : Obligations.FloatValues := ⟨floatSpecialCases, maximumRule, classMaskOneHot⟩

end Sys2Proof.Machine
end

section
/-! PROOF. The watchdog and the two deadlocks (O46). -/

namespace Sys2Proof.Machine

open Sys2Proof.Claims

/-! ## What the end of teams and groups changes (R347) -/

/-- Machine s, with that which the end of teams and groups changes as it stands in u. -/
def State.withEnds (s u : State) : State := { s with
  groups := u.groups, teams := u.teams, launches := u.launches, cores := u.cores, mops := u.mops, reqs := u.reqs
  jobs := u.jobs, passed := u.passed }

/-- From s to t nothing has changed but that. -/
def State.EndsOnly (s t : State) : Prop := t = s.withEnds t

theorem onlyEnds_iff (l : Nat) (B t : State) :
    OnlyEnds l B t ↔ ∃ n, Tbl.get? t.launches l = some n ∧ t = Noted (B.withEnds t) n := Iff.rfl

namespace State.EndsOnly

theorem trans {s t u : State} (st : s.EndsOnly t) (tu : t.EndsOnly u) : s.EndsOnly u := by
  unfold State.EndsOnly at st tu ⊢
  rw [st] at tu
  exact tu

theorem foldl {α : Type} (f : State → α → State) (step : ∀ (s : State) a, s.EndsOnly (f s a)) (as : List α)
    (s : State) : s.EndsOnly (as.foldl f s) := by
  induction as generalizing s with
  | nil => rfl
  | cons a as ih => exact (step s a).trans (ih (f s a))

theorem onCore (s : State) (k : Nat) (f : Core → Core) : s.EndsOnly (s.onCore k f) := rfl
theorem onTeam (s : State) (k : Nat) (f : Team → Team) : s.EndsOnly (s.onTeam k f) := rfl
theorem onLaunch (s : State) (l : Nat) (f : Launch → Launch) : s.EndsOnly (s.onLaunch l f) := rfl
theorem onJob (s : State) (key : Nat) (f : Job → Job) : s.EndsOnly (s.onJob key f) := rfl

theorem freeJob (s : State) (key : Nat) : s.EndsOnly (s.freeJob key) := by
  unfold State.freeJob
  extract_lets t
  have jobs : s.EndsOnly t := rfl
  exact jobs.trans (onCore ..)

theorem endJob (s : State) (key : Nat) (st : JobState) : s.EndsOnly (s.endJob key st) := by
  unfold State.endJob
  extract_lets t
  have passed : s.EndsOnly t := rfl
  exact (passed.trans (onJob ..)).trans (freeJob ..)

theorem cancelJobs (s : State) (mine : Job → Bool) : s.EndsOnly (s.cancelJobs mine) := by
  unfold State.cancelJobs
  exact foldl (fun s (e : Nat × Job) => s.endJob e.1 .cancelled) (fun s e => endJob s e.1 .cancelled) _ s

end State.EndsOnly

/-! ## What the end of a team leaves of groups, teams and launches -/

theorem cancelJobs_keeps (s : State) (mine : Job → Bool) :
    (s.cancelJobs mine).groups = s.groups ∧ (s.cancelJobs mine).teams = s.teams ∧
      (s.cancelJobs mine).launches = s.launches := by
  unfold State.cancelJobs
  generalize s.jobs.filter _ = gone
  induction gone generalizing s with
  | nil => exact ⟨rfl, rfl, rfl⟩
  | cons e gone ih => exact ih (s.endJob e.1 .cancelled)

theorem Tbl.del_of_get?_none {α : Type} {t : Tbl α} {n : Nat} (absent : Tbl.get? t n = none) : t.del n = t := by
  induction t with
  | nil => rfl
  | cons e t ih =>
    obtain ⟨k, v⟩ := e
    by_cases hk : k = n
    · simp [Tbl.get?, hk] at absent
    · rw [Tbl.get?, if_neg hk] at absent
      simpa [Tbl.del, hk] using ih absent

theorem onTeam_team_isSome (s : State) (t k : Nat) (f : Team → Team) :
    (Tbl.get? (s.onTeam t f).teams k).isSome = (Tbl.get? s.teams k).isSome := by
  refine (congrArg Option.isSome (Tbl.get?_modify s.teams t k f)).trans ?_
  split
  · exact Option.isSome_map
  · rfl

/-- The end of a group takes it out of the table; teams stay in theirs, and no launch changes. -/
theorem endGroup_spec (s : State) (g : Nat) (pc : Pc) :
    let t := s.endGroup g pc
    s.EndsOnly t ∧ t.groups = s.groups.del g ∧ t.launches = s.launches ∧
      ∀ k, (Tbl.get? t.teams k).isSome = (Tbl.get? s.teams k).isSome := by
  unfold State.endGroup
  cases found : Tbl.get? s.groups g with
  | none => exact ⟨rfl, (Tbl.del_of_get?_none found).symm, rfl, fun _ => rfl⟩
  | some gr =>
    dsimp -zeta only
    extract_lets s1 gone s2 s3 t
    have quad : s.EndsOnly s1 := rfl
    have mops : s1.EndsOnly s2 := State.EndsOnly.onCore ..
    have group : s2.EndsOnly s3 := rfl
    have kept : s3.groups = s.groups.del g ∧ s3.launches = s.launches ∧ s3.teams = s.teams := ⟨rfl, rfl, rfl⟩
    have ends := (quad.trans mops).trans group
    clear_value s3
    obtain ⟨groups, launches, teams⟩ := kept
    revert t
    cases gr.team with
    | none => exact ⟨ends, groups, launches, fun k => by rw [teams]⟩
    | some k' =>
      refine ⟨ends.trans (State.EndsOnly.onTeam ..), groups, launches, fun k => ?_⟩
      rw [← teams]
      exact onTeam_team_isSome s3 k' k _

theorem endGroups_spec (pc : Nat × Group → Pc) (es : List (Nat × Group)) (s : State) :
    let t := es.foldl (fun s e => s.endGroup e.1 (pc e)) s
    s.EndsOnly t ∧ t.groups = s.groups.filter (fun e => e.1 ∉ es.map (·.1)) ∧ t.launches = s.launches ∧
      ∀ k, (Tbl.get? t.teams k).isSome = (Tbl.get? s.teams k).isSome := by
  induction es generalizing s with
  | nil => exact ⟨rfl, by simp, rfl, fun _ => rfl⟩
  | cons e es ih =>
    obtain ⟨ends, groups, launches, teams⟩ := endGroup_spec s e.1 (pc e)
    obtain ⟨ends', groups', launches', teams'⟩ := ih (s.endGroup e.1 (pc e))
    refine ⟨ends.trans ends', groups'.trans ?_, launches'.trans launches, fun k => (teams' k).trans (teams k)⟩
    rw [groups, Tbl.del, List.filter_filter]
    exact List.filter_congr fun a _ => by simp [Bool.and_comm, -List.mem_map]

/-! ## What a write of the device depends on -/

/-- Machine u without the L1 lines that K names by core and line. -/
def State.purged (K : Nat → Nat → Bool) (u : State) : State := { u with
  cores := u.cores.map (fun e => (e.1, { e.2 with l1 := e.2.l1.filter (fun l => !K e.1 l.1) })) }

theorem State.purged_none (u : State) : u.purged (fun _ _ => false) = u := by
  unfold State.purged
  simp only [Bool.not_false, List.filter_true, List.map_id']

theorem State.purged_purged (K L : Nat → Nat → Bool) (u : State) :
    (u.purged K).purged L = u.purged (fun k n => K k n || L k n) := by
  simp only [State.purged, List.map_map, Function.comp_def, List.filter_filter, Bool.not_or, Bool.and_comm]

theorem State.purged_idem (K : Nat → Nat → Bool) (u : State) : (u.purged K).purged K = u.purged K := by
  simp only [State.purged_purged, Bool.or_self]

/-- The queue control registers of the window are the machine's queue. -/
theorem windowByte_queue (s u : State) {i : Nat} (hi : i < 32) :
    (s.withEnds u).windowByte 0 (0x40 + i) = s.windowByte 0 (0x40 + i) := by
  have low : 0x40 ≤ 0x40 + i - (0x40 + i) % 4 := by omega
  have high : 0x40 + i - (0x40 + i) % 4 < 0x60 := by omega
  unfold State.windowByte State.windowWord
  generalize 0x40 + i - (0x40 + i) % 4 = off at low high
  simp only [low, high, and_self, if_true]
  rfl

theorem windowWrite_withEnds (s u : State) (off : Nat) (bytes : List Byte) :
    (s.withEnds u).windowWrite off bytes = (s.windowWrite off bytes).withEnds u := by
  have old : (upTo 32).map (fun i => (s.withEnds u).windowByte 0 (0x40 + i)) =
      (upTo 32).map (fun i => s.windowByte 0 (0x40 + i)) :=
    List.map_congr_left fun i hi => windowByte_queue s u (List.mem_range.1 hi)
  unfold State.windowWrite
  rw [old]
  rfl

/-- A write at the home goes by the memory, the dies, the packages and the queue alone; it takes L1 lines. -/
theorem homeWrite_withEnds (s : State) (pa : Nat) (bytes : List Byte) :
    ∃ K, ∀ u, (s.withEnds u).homeWrite pa bytes = (s.homeWrite pa bytes).withEnds (u.purged K) := by
  unfold State.homeWrite State.homeWriteFor
  by_cases window : paSpace pa = 2
  · refine ⟨fun _ _ => false, fun u => ?_⟩
    rw [if_pos window, if_pos window, State.purged_none]
    exact windowWrite_withEnds ..
  · by_cases host : paSpace pa = 1
    · refine ⟨fun _ _ => false, fun u => ?_⟩
      rw [if_neg window, if_neg window, if_pos host, if_pos host, State.purged_none]
      rfl
    · cases line : s.l2 (s.homeDie pa) (pa / 64) with
      | none =>
        refine ⟨fun _ _ => false, fun u => ?_⟩
        have line' : (s.withEnds u).l2 ((s.withEnds u).homeDie pa) (pa / 64) = none := line
        simp only [if_neg window, if_neg host, line, line', State.purged_none]
        rfl
      | some l =>
        refine ⟨fun k n => decide (k / 96 = s.homeDie pa ∧ n = pa / 64), fun u => ?_⟩
        have line' : (s.withEnds u).l2 ((s.withEnds u).homeDie pa) (pa / 64) = some l := line
        simp only [if_neg window, if_neg host, line, line']
        have cores : ∀ e : Nat × Core, (if e.1 / 96 = s.homeDie pa ∧ some e.1 ≠ none then
            (e.1, { e.2 with l1 := e.2.l1.del (pa / 64) }) else e) =
            (e.1, { e.2 with l1 := e.2.l1.filter (fun l => !decide (e.1 / 96 = s.homeDie pa ∧ l.1 = pa / 64)) }) := by
          intro e
          by_cases die : e.1 / 96 = s.homeDie pa
          · simp [die, Tbl.del]
          · simp [die]
        simp only [State.dropL1, State.purged, ← cores]
        rfl

theorem devWrite_withEnds (s : State) (pa : Nat) (bytes : List Byte) :
    ∃ K, ∀ u, (s.withEnds u).devWrite pa bytes = (s.devWrite pa bytes).withEnds (u.purged K) := by
  unfold State.devWrite
  generalize linePieces bytes.length pa bytes.length = pieces
  induction pieces generalizing s with
  | nil => exact ⟨fun _ _ => false, fun u => by rw [State.purged_none]; rfl⟩
  | cons e pieces ih =>
    obtain ⟨K, first⟩ := homeWrite_withEnds s e.1 ((bytes.drop (e.1 - pa)).take e.2)
    obtain ⟨L, rest⟩ := ih (s.homeWrite e.1 ((bytes.drop (e.1 - pa)).take e.2))
    exact ⟨_, fun u => by rw [List.foldl_cons, List.foldl_cons, first, rest, State.purged_purged]⟩

/-- A write of the device takes L1 lines, and changes no group, team, launch, operation, request or job. -/
theorem devWrite_endsOnly (s : State) (pa : Nat) (bytes : List Byte) :
    ∃ K, s.devWrite pa bytes = (s.devWrite pa bytes).withEnds (s.purged K) :=
  (devWrite_withEnds s pa bytes).imp fun _ same => same s

@[simp] theorem devWrite_groups (s : State) (pa : Nat) (bytes : List Byte) :
    (s.devWrite pa bytes).groups = s.groups := by
  obtain ⟨K, same⟩ := devWrite_endsOnly s pa bytes
  rw [same]
  rfl

@[simp] theorem devWrite_teams (s : State) (pa : Nat) (bytes : List Byte) : (s.devWrite pa bytes).teams = s.teams := by
  obtain ⟨K, same⟩ := devWrite_endsOnly s pa bytes
  rw [same]
  rfl

@[simp] theorem devWrite_launches (s : State) (pa : Nat) (bytes : List Byte) :
    (s.devWrite pa bytes).launches = s.launches := by
  obtain ⟨K, same⟩ := devWrite_endsOnly s pa bytes
  rw [same]
  rfl

/-- The status record of an end, written by the device, stands as on a machine that has lost its L1 lines before. -/
theorem State.EndsOnly.noted {s t : State} (ends : s.EndsOnly t) (n : Launch) :
    Noted t n = Noted (s.withEnds (Noted t n)) n := by
  unfold Noted Wrote
  generalize bytesOf 8 n.rc.lseq ++ _ ++ _ ++ _ ++ _ ++ _ = bytes
  obtain ⟨K, write⟩ := devWrite_withEnds s n.statAddr bytes
  have now : t.devWrite n.statAddr bytes = (s.devWrite n.statAddr bytes).withEnds (t.purged K) := by
    rw [← write t, ← ends]
  have again := write (t.purged K)
  rw [State.purged_idem] at again
  simp only [now]
  exact congrArg (fun u : State => u.replicate fun r => { r with status := r.status.put n.statAddr bytes }) again.symm

/-! ## Groups whose records are all written (R337) -/

/-- A group with no fault left to record. -/
def Group.unfaulted (g : Group) : Group := { g with faults := [], lastRec := none }

/-- Machine s once the groups of these numbers have no fault left to record. -/
def State.unfaulted (ks : List Nat) (s : State) : State := { s with
  groups := s.groups.map (fun e => (e.1, if e.1 ∈ ks then e.2.unfaulted else e.2)) }

theorem unfaulted_get? (ks : List Nat) (s : State) (i : Nat) :
    Tbl.get? (s.unfaulted ks).groups i =
      (Tbl.get? s.groups i).map (fun g => if i ∈ ks then g.unfaulted else g) :=
  Tbl.get?_map s.groups (fun i g => if i ∈ ks then g.unfaulted else g) i

theorem unfaulted_unfaulted (k : Nat) (ks : List Nat) (s : State) :
    (s.unfaulted [k]).unfaulted ks = s.unfaulted (k :: ks) := by
  unfold State.unfaulted
  simp only [List.map_map]
  refine congrArg (fun G => ({ s with groups := G } : State)) (List.map_congr_left fun e _ => ?_)
  by_cases head : e.1 = k <;> by_cases tail : e.1 ∈ ks <;> simp [head, tail, Group.unfaulted]

section Window
variable (ks : List Nat) (s : State) (k : Nat)

theorem groupsOn_unfaulted : (s.unfaulted ks).groupsOn k =
    (s.groupsOn k).map (fun e => (e.1, if e.1 ∈ ks then e.2.unfaulted else e.2)) := by
  unfold State.groupsOn State.unfaulted
  rw [List.filter_map]
  refine congrArg _ (List.filter_congr fun e _ => ?_)
  simp only [Function.comp_apply]
  split <;> rfl

theorem residentOn_unfaulted : (s.unfaulted ks).residentOn k =
    (s.residentOn k).map (fun e => (e.1, if e.1 ∈ ks then e.2.unfaulted else e.2)) := by
  unfold State.residentOn
  rw [groupsOn_unfaulted, List.filter_map]
  refine congrArg _ (List.filter_congr fun e _ => ?_)
  simp only [Function.comp_apply]
  split <;> rfl

theorem freeRows_unfaulted : (s.unfaulted ks).freeRows k = s.freeRows k := by
  unfold State.freeRows
  rw [groupsOn_unfaulted, List.map_map]
  refine congrArg (fun l : List Nat => 4096 - l.sum) (List.map_congr_left fun e _ => ?_)
  simp only [Function.comp_apply]
  split <;> rfl

theorem slots_unfaulted : (s.unfaulted ks).slots k = s.slots k := by
  unfold State.slots
  rw [residentOn_unfaulted, List.filter_map, List.length_map]
  refine congrArg List.length (List.filter_congr fun e _ => ?_)
  simp only [Function.comp_apply]
  split <;> rfl

theorem emberUsed_unfaulted : (s.unfaulted ks).emberUsed k = s.emberUsed k := by
  unfold State.emberUsed
  rw [residentOn_unfaulted, List.any_map]
  refine congrArg (s.residentOn k).any (funext fun e => ?_)
  simp only [Function.comp_apply]
  split <;> rfl

theorem claims_unfaulted : (s.unfaulted ks).claims k = s.claims k := by
  unfold State.claims
  rw [residentOn_unfaulted, List.flatMap_map]
  have waits : ∀ e : Nat × Group, (if e.1 ∈ ks then e.2.unfaulted else e.2).waits = e.2.waits := fun e => by
    split <;> rfl
  simp only [waits]

theorem openRows_unfaulted : (s.unfaulted ks).openRows k = s.openRows k := by
  simp only [State.openRows, State.heldFor, claims_unfaulted, freeRows_unfaulted]

theorem spare_unfaulted : (s.unfaulted ks).spare k = s.spare k := by
  unfold State.spare
  rw [openRows_unfaulted, slots_unfaulted]
  rfl

theorem teamSpare_unfaulted : (s.unfaulted ks).teamSpare k = s.teamSpare k := by
  unfold State.teamSpare
  rw [openRows_unfaulted, slots_unfaulted]
  rfl

theorem heldRows_unfaulted : (s.unfaulted ks).heldRows = s.heldRows := by
  funext x
  simp only [State.heldRows, openRows_unfaulted, spare_unfaulted, teamSpare_unfaulted]

theorem issueWord_unfaulted : (s.unfaulted ks).issueWord k = s.issueWord k := by
  unfold State.issueWord
  rw [freeRows_unfaulted, emberUsed_unfaulted, slots_unfaulted]
  rfl

theorem occupancy_unfaulted (p : Nat) (d : Option Nat) (n : Nat) :
    (s.unfaulted ks).occupancy p d n = s.occupancy p d n := by
  unfold State.occupancy
  rw [heldRows_unfaulted]
  simp only [slots_unfaulted]
  rfl

theorem windowWord_unfaulted (p off : Nat) : (s.unfaulted ks).windowWord p off = s.windowWord p off := by
  have pkg : (s.unfaulted ks).pkg = s.pkg := rfl
  have queue : (s.unfaulted ks).queue = s.queue := rfl
  have stack : (s.unfaulted ks).stack = s.stack := rfl
  have die : (s.unfaulted ks).die = s.die := rfl
  have counter : (s.unfaulted ks).counter = s.counter := rfl
  have job : (s.unfaulted ks).jobWord = s.jobWord := rfl
  simp only [State.windowWord, issueWord_unfaulted, occupancy_unfaulted, pkg, queue, stack, die, counter, job]

/-- No byte that the device reads depends on what a group has left to record. -/
theorem devNat_unfaulted (pa n : Nat) : (s.unfaulted ks).devNat pa n = s.devNat pa n := by
  have read : ∀ a m, ((s.unfaulted ks).homeRead a m).1 = (s.homeRead a m).1 := fun a m => by
    unfold State.homeRead State.windowByte
    simp only [windowWord_unfaulted]
    rfl
  unfold State.devNat State.devRead
  simp only [read]

end Window

theorem devWrite_unfaulted (ks : List Nat) (s : State) (pa : Nat) (bytes : List Byte) :
    (s.unfaulted ks).devWrite pa bytes = (s.devWrite pa bytes).unfaulted ks := by
  obtain ⟨K, write⟩ := devWrite_withEnds s pa bytes
  have same : s.devWrite pa bytes = (s.devWrite pa bytes).withEnds (s.purged K) := write s
  calc (s.unfaulted ks).devWrite pa bytes
      = (s.devWrite pa bytes).withEnds ((s.unfaulted ks).purged K) := write (s.unfaulted ks)
    _ = ((s.devWrite pa bytes).withEnds (s.purged K)).unfaulted ks := rfl
    _ = (s.devWrite pa bytes).unfaulted ks := by rw [← same]

theorem settleRecords_of_no_fault {s : State} {j : Nat} {g : Group} (hg : s.grp j = some g) (clean : g.faults = []) :
    s.settleRecords j = (s.unfaulted [j], true) := by
  have groups : s.groups.modify j Group.unfaulted =
      s.groups.map (fun e => (e.1, if e.1 ∈ [j] then e.2.unfaulted else e.2)) :=
    List.map_congr_left fun e _ => by by_cases here : e.1 = j <;> simp [here]
  unfold State.settleRecords
  rw [show Tbl.get? s.groups j = some g from hg]
  simp only [clean, State.writeRecords]
  exact congrArg (fun G => (({ s with groups := G } : State), true)) groups

/-- Groups without faults have nothing to write before their owner ends. -/
theorem settleAll_of_no_faults (es : List (Nat × Group)) (s : State)
    (clean : ∀ e ∈ es, ∃ g, s.grp e.1 = some g ∧ g.faults = []) :
    s.settleAll es = (s.unfaulted (es.map (·.1)), true) := by
  induction es generalizing s with
  | nil =>
    have same : s.groups.map (fun e => (e.1, if e.1 ∈ ([] : List Nat) then e.2.unfaulted else e.2)) = s.groups := by
      simp
    exact congrArg (fun G => (({ s with groups := G } : State), true)) same.symm
  | cons e es ih =>
    obtain ⟨g, hg, none⟩ := clean e List.mem_cons_self
    have rest := ih (s.unfaulted [e.1]) fun x hx => by
      obtain ⟨y, hy, none⟩ := clean x (List.mem_cons_of_mem _ hx)
      refine ⟨_, (unfaulted_get? [e.1] s x.1).trans (congrArg _ hy), ?_⟩
      split
      · rfl
      · exact none
    rw [State.settleAll, settleRecords_of_no_fault hg none]
    exact rest.trans (by rw [unfaulted_unfaulted, List.map_cons])

/-! ## The bytes of a record against a team (R336) -/

theorem natToBytes_eq_bytesOf (n x : Nat) : natToBytes n x = bytesOf n x := by
  induction n generalizing x with
  | zero => rfl
  | succ n ih =>
    rw [natToBytes, ih, bytesOf, bytesOf, List.range_succ_eq_map, List.map_cons, List.map_map, pow_zero, Nat.div_one]
    exact congrArg _ (List.map_congr_left fun i _ => by
      simp only [Function.comp_apply, Nat.succ_eq_add_one, pow_succ', Nat.div_div_eq_div_mul])

/-- A word's bytes are those of the number that it is the word of. -/
theorem bytesOf_word (x : Nat) : bytesOf 4 (BitVec.ofNat 32 x).toNat = bytesOf 4 x := by
  refine List.map_congr_left fun i hi => BitVec.eq_of_toNat_eq ?_
  have low : i = 0 ∨ i = 1 ∨ i = 2 ∨ i = 3 := by have := List.mem_range.1 hi; omega
  simp only [BitVec.toNat_ofNat]
  rcases low with rfl | rfl | rfl | rfl <;> omega

theorem wordBytes_map_ofNat (xs : List Nat) : wordBytes (xs.map (BitVec.ofNat 32)) = xs.flatMap (bytesOf 4) := by
  simp only [wordBytes, List.flatMap_map, natToBytes_eq_bytesOf, bytesOf_word]

/-- The words of the record that a rule builds for a team, as numbers. -/
def teamNumbers (s : State) (g : Group) (code thread : Nat) (pc : Pc) (detail : Nat) (diag : Option Nat) : List Nat :=
  [code + 2 ^ 8 + (if g.handler = none then 0 else 2 ^ 12) + (if diag = none then 0 else 2 ^ 13),
    (s.teamOf g).elim 0xFFFFFFFF (·.tix), g.lseq, g.lseq / 2 ^ 32,
    if g.team.isSome then g.gix else g.serial.toNat, thread,
    pc.off.toNat, pc.ix, 0, 0, detail, 0, 0, 0, g.core % 96 + 2 ^ 7 * (g.core / 96 % 4) + 2 ^ 16 * (g.core / 384),
    diag.getD 0xFFFFFFFF]

theorem recordWords_teamRec (s : State) (g : Group) {code : Nat} (thread : Nat) (pc : Pc) (detail : Nat)
    (diag : Option Nat) (ofTeam : faultClass code = 1) :
    let r := (teamRec code thread pc detail).against g
    recordWords ((s.teamOf g).elim 0xFFFFFFFF (·.tix)) g.lseq g.number r.core diag r =
      (teamNumbers s g code thread pc detail diag).map (BitVec.ofNat 32) := by
  have handler : (if g.handler.isSome then 2 ^ 12 else 0) = if g.handler = none then 0 else 2 ^ 12 := by
    cases g.handler <;> rfl
  have flag : (if diag.isSome then 2 ^ 13 else 0) = if diag = none then 0 else 2 ^ 13 := by cases diag <;> rfl
  have offset : BitVec.ofNat 32 pc.off.toNat = pc.off := by simp
  simp only [recordWords, teamRec, FaultRec.against, teamNumbers, List.map_cons, List.map_nil, ofTeam, handler, flag,
    offset, coreWord, Group.number, Nat.one_mul, Nat.mul_comm (2 ^ 7), Nat.mul_comm (2 ^ 16), Bool.false_and,
    Bool.false_eq_true, if_false, Nat.add_zero]
  rfl

/-! ## Room in the fault area (R337) -/

theorem appendRecord_of_room {D s : State} {n : Launch} {g : Group} {code : Nat} (thread : Nat) (pc : Pc) (detail : Nat)
    (diag : Option Nat) (room : Room D g.lseq n) (teams : D.teams = s.teams) (ofTeam : faultClass code = 1) :
    let r := (teamRec code thread pc detail).against g
    D.appendRecord g.lseq (recordWords ((s.teamOf g).elim 0xFFFFFFFF (·.tix)) g.lseq g.number r.core diag r) =
      some (Logged D n g code thread pc detail diag) := by
  obtain ⟨launch, area, free⟩ := room
  have log : bitsOf (D.devNat (n.area + 4) 4) 4 0 = D.devNat (n.area + 4) 4 % 32 := by
    simp [bitsOf]
  have team : s.teamOf g = D.teamOf g := by simp only [State.teamOf, teams]
  intro r
  rw [recordWords_teamRec s g thread pc detail diag ofTeam, State.appendRecord, launch]
  simp only [area, if_false, log, Nat.not_le.2 free, wordBytes_map_ofNat, natToBytes_eq_bytesOf, teamNumbers,
    team]
  rfl

theorem appendRecord_unfaulted (ks : List Nat) (s : State) (l : Nat) (ws : List Word) :
    (s.unfaulted ks).appendRecord l ws = (s.appendRecord l ws).map (State.unfaulted ks) := by
  have launches : (s.unfaulted ks).launches = s.launches := rfl
  unfold State.appendRecord
  rw [launches]
  cases Tbl.get? s.launches l with
  | none => rfl
  | some n =>
    simp only [devNat_unfaulted, devWrite_unfaulted]
    split
    · rfl
    · split <;> rfl

theorem appendDiag_unfaulted (ks : List Nat) (s : State) (l : Nat) (bytes : List Byte) :
    (s.unfaulted ks).appendDiag l bytes = (s.appendDiag l bytes).map (fun e => (e.1.unfaulted ks, e.2)) := by
  have launches : (s.unfaulted ks).launches = s.launches := rfl
  unfold State.appendDiag
  rw [launches]
  cases Tbl.get? s.launches l with
  | none => rfl
  | some n =>
    simp only [devNat_unfaulted, devWrite_unfaulted]
    split
    · rfl
    · split <;> rfl

/-! ## The end of a team with its status record (R183, R347) -/

theorem writeStatus_of_launch {s : State} {l : Nat} {n : Launch} (launch : Tbl.get? s.launches l = some n) :
    s.writeStatus l = Noted s n := by
  rw [State.writeStatus, launch]
  simp only [State.statusWord, Launch.statusBytes, natToBytes_eq_bytesOf, Noted, Nat.mul_comm (2 ^ 8),
    Nat.mul_comm (2 ^ 16)]
  rfl

/-- Bytes written for the driver leave groups, teams and launches as they were. -/
theorem wrote_keeps (s : State) (pa : Nat) (bytes : List Byte) :
    (Wrote s pa bytes).groups = s.groups ∧ (Wrote s pa bytes).teams = s.teams ∧
      (Wrote s pa bytes).launches = s.launches :=
  ⟨devWrite_groups s pa bytes, devWrite_teams s pa bytes, devWrite_launches s pa bytes⟩

theorem noted_groups (s : State) (n : Launch) : (Noted s n).groups = s.groups := (wrote_keeps ..).1
theorem noted_teams (s : State) (n : Launch) : (Noted s n).teams = s.teams := (wrote_keeps ..).2.1
theorem noted_launches (s : State) (n : Launch) : (Noted s n).launches = s.launches := (wrote_keeps ..).2.2

theorem Tbl.get?_of_mem {α : Type} {t : Tbl α} {e : Nat × α} (nodup : (t.map (·.1)).Nodup) (mem : e ∈ t) :
    Tbl.get? t e.1 = some e.2 := by
  induction t with
  | nil => cases mem
  | cons x t ih =>
    obtain ⟨k, v⟩ := x
    obtain ⟨fresh, rest⟩ := List.nodup_cons.1 nodup
    rcases List.mem_cons.1 mem with rfl | mem
    · exact if_pos rfl
    · have other : k ≠ e.1 := fun same => fresh (same ▸ List.mem_map_of_mem (f := (·.1)) mem)
      exact (if_neg other).trans (ih rest mem)

theorem Tbl.mem_of_get? {α : Type} {t : Tbl α} {k : Nat} {v : α} (found : Tbl.get? t k = some v) : (k, v) ∈ t := by
  induction t with
  | nil => cases found
  | cons x t ih =>
    obtain ⟨k', v'⟩ := x
    rw [Tbl.get?] at found
    split at found
    · next same => cases found; exact same ▸ List.mem_cons_self
    · exact List.mem_cons_of_mem _ (ih found)

theorem Tbl.get?_filter_keys {α : Type} (t : Tbl α) (ks : List Nat) {k : Nat} (other : k ∉ ks) :
    Tbl.get? (t.filter (fun e => e.1 ∉ ks)) k = Tbl.get? t k := by
  induction t with
  | nil => rfl
  | cons x t ih =>
    obtain ⟨k', v⟩ := x
    by_cases same : k' = k
    · subst same
      simp [Tbl.get?, other]
    · by_cases gone : k' ∈ ks <;> simpa [Tbl.get?, same, gone] using ih

theorem mem_teamGroups {s : State} {k : Nat} {e : Nat × Group} :
    e ∈ s.teamGroups k ↔ e ∈ s.groups ∧ e.2.team = some k := by
  simp [State.teamGroups]

/-- Team tm once it has been terminated. -/
def Team.over (tm : Team) : Team := { tm with ended := true, held := [] }

/-- Launch n once it has counted the termination of team tm. -/
def Launch.without (n : Launch) (tm : Team) : Launch := { n with
  teamsLeft := n.teamsLeft - 1, terminated := min (n.terminated + 1) 0xFFFFFFFF
  firstTerm := if n.firstTerm = 0xFFFFFFFF then tm.tix else n.firstTerm }

/-- Machine s once the waiting jobs of team k are cancelled and its groups are gone. -/
def State.withoutGroups (s : State) (k : Nat) : State :=
  let t := s.cancelJobs (fun j => j.team = some k)
  (t.teamGroups k).foldl (fun s e => s.endGroup e.1 ((e.2.threads.map (·.2.pc)).headD Pc.zero)) t

theorem terminateTeam_eq {s : State} {k : Nat} {tm : Team} (team : Tbl.get? s.teams k = some tm)
    (live : tm.ended = false) : s.terminateTeam k =
      (((s.withoutGroups k).onTeam k Team.over).onLaunch tm.lseq (·.without tm)).writeStatus tm.lseq := by
  rw [State.terminateTeam, team]
  simp only [live, Bool.false_eq_true, if_false]
  rfl

theorem withoutGroups_spec (s : State) (k : Nat) :
    let t := s.withoutGroups k
    s.EndsOnly t ∧ t.groups = s.groups.filter (fun e => e.1 ∉ (s.teamGroups k).map (·.1)) ∧ t.launches = s.launches ∧
      ∀ i, (Tbl.get? t.teams i).isSome = (Tbl.get? s.teams i).isSome := by
  obtain ⟨groups, teams, launches⟩ := cancelJobs_keeps s (fun j => j.team = some k)
  have cancelled := State.EndsOnly.cancelJobs s (fun j => j.team = some k)
  unfold State.withoutGroups
  generalize s.cancelJobs _ = u at groups teams launches cancelled ⊢
  obtain ⟨ends, groups', launches', teams'⟩ :=
    endGroups_spec (fun e => (e.2.threads.map (·.2.pc)).headD Pc.zero) (u.teamGroups k) u
  have members : u.teamGroups k = s.teamGroups k := congrArg (List.filter _) groups
  exact ⟨cancelled.trans ends, by rw [groups', groups, members], launches'.trans launches,
    fun i => by rw [teams', teams]⟩

/-- Termination takes the groups of a live team and no other, and notes it in the launch's status record. -/
theorem terminateTeam_spec {s : State} {k : Nat} {tm : Team} {n : Launch} (nodup : (s.groups.map (·.1)).Nodup)
    (team : Tbl.get? s.teams k = some tm) (live : tm.ended = false) (launch : Tbl.get? s.launches tm.lseq = some n) :
    TeamEnded s (s.terminateTeam k) tm.lseq n k tm ∧ OnlyEnds tm.lseq s (s.terminateTeam k) := by
  obtain ⟨ends, groups, launches, teams⟩ := withoutGroups_spec s k
  obtain ⟨tm', team'⟩ : ∃ tm', Tbl.get? (s.withoutGroups k).teams k = some tm' :=
    Option.isSome_iff_exists.1 (by rw [teams, team]; rfl)
  rw [terminateTeam_eq team live]
  generalize final : ((s.withoutGroups k).onTeam k Team.over).onLaunch tm.lseq (·.without tm) = t
  have launch : Tbl.get? t.launches tm.lseq = some (n.without tm) := by
    rw [← final, State.onLaunch, Tbl.get?_modify_self, State.onTeam_launches, launches, launch, Option.map_some]
  have team : Tbl.get? t.teams k = some tm'.over := by
    rw [← final, State.onLaunch_teams, State.onTeam, Tbl.get?_modify_self, team', Option.map_some]
  have groups : t.groups = s.groups.filter (fun e => e.1 ∉ (s.teamGroups k).map (·.1)) := by
    rw [← final, State.onLaunch_groups, State.onTeam_groups, groups]
  have ends : s.EndsOnly t := final ▸ (ends.trans (.onTeam ..)).trans (.onLaunch ..)
  rw [writeStatus_of_launch launch]
  have noted : Tbl.get? (Noted t (n.without tm)).launches tm.lseq = some (n.without tm) := by rwa [noted_launches]
  refine ⟨⟨fun e mem ofTeam => ?_, ⟨tm'.over, by rwa [noted_teams], rfl⟩, fun i g hg other => ?_,
    n.without tm, noted, rfl, rfl, rfl⟩,
    (onlyEnds_iff ..).2 ⟨n.without tm, noted, ends.noted (n.without tm)⟩⟩
  · rw [noted_groups, groups, List.mem_filter, decide_eq_true_eq] at mem
    exact mem.2 (List.mem_map_of_mem (mem_teamGroups.2 ⟨mem.1, ofTeam⟩))
  · rw [State.grp_def, noted_groups, groups, Tbl.get?_filter_keys]
    · exact hg
    · intro gone
      obtain ⟨e, mem, rfl⟩ := List.mem_map.1 gone
      obtain ⟨mem, ofTeam⟩ := mem_teamGroups.1 mem
      have same : e.2 = g := Option.some.inj ((Tbl.get?_of_mem nodup mem).symm.trans hg)
      exact other (same ▸ ofTeam)

/-! ## The least of a sorted list -/

theorem sortBy_eq_insertionSort {α : Type} (l : List α) (le : α → α → Bool) :
    l.sortBy le = l.insertionSort (fun a b => le a b) := by
  have insert : ∀ a (m : List α), List.insertBy le a m = m.orderedInsert (fun a b => le a b) a := fun a m => by
    induction m with
    | nil => rfl
    | cons b m ih => rw [List.insertBy, ih, List.orderedInsert_cons]
  exact congrArg (fun f => l.foldr f []) (funext fun a => funext (insert a))

theorem mem_sortBy {α : Type} {l : List α} {le : α → α → Bool} {a : α} : a ∈ l.sortBy le ↔ a ∈ l := by
  rw [sortBy_eq_insertionSort, List.mem_insertionSort]

theorem pairwise_sortBy {α β : Type} [LinearOrder β] {le : α → α → Bool} (f : α → β)
    (byKey : ∀ a b, le a b = true ↔ f a ≤ f b) (l : List α) : (l.sortBy le).Pairwise (fun a b => f a ≤ f b) := by
  have : Std.Total (fun a b : α => f a ≤ f b) := ⟨fun a b => le_total _ _⟩
  have : IsTrans α (fun a b : α => f a ≤ f b) := ⟨fun a b c => le_trans⟩
  rw [sortBy_eq_insertionSort]
  simp only [byKey]
  exact List.pairwise_insertionSort _ l

/-- The first answer along a list in the order of a key is that of the answering entry with the least key. -/
theorem findSome?_sortBy {α β γ : Type} [LinearOrder β] {le : α → α → Bool} {f : α → β}
    (byKey : ∀ a b, le a b = true ↔ f a ≤ f b) {l : List α} (answer : α → Option γ) {a : α} {c : γ} (mem : a ∈ l)
    (own : answer a = some c) (least : ∀ b ∈ l, b = a ∨ answer b = none ∨ f a < f b) :
    (l.sortBy le).findSome? answer = some c := by
  have sorted := pairwise_sortBy f byKey l
  replace mem : a ∈ l.sortBy le := mem_sortBy.2 mem
  replace least : ∀ b ∈ l.sortBy le, b = a ∨ answer b = none ∨ f a < f b := fun b hb => least b (mem_sortBy.1 hb)
  generalize l.sortBy le = m at sorted mem least
  induction m with
  | nil => cases mem
  | cons b m ih =>
    obtain ⟨first, rest⟩ := List.pairwise_cons.1 sorted
    rw [List.findSome?_cons]
    rcases List.mem_cons.1 mem with rfl | later
    · rw [own]
    · rcases least b List.mem_cons_self with rfl | silent | above
      · rw [own]
      · rw [silent]
        exact ih rest later fun x hx => least x (List.mem_cons_of_mem _ hx)
      · exact absurd (first a later) above.not_ge

theorem head?_sortBy {α β : Type} [LinearOrder β] {le : α → α → Bool} {f : α → β}
    (byKey : ∀ a b, le a b = true ↔ f a ≤ f b) {l : List α} {a : α} (mem : a ∈ l)
    (least : ∀ b ∈ l, b = a ∨ f a < f b) : (l.sortBy le).head? = some a := by
  have first := findSome?_sortBy byKey some mem rfl fun b hb => (least b hb).imp_right .inr
  cases sorted : l.sortBy le with
  | nil => simp [sorted] at first
  | cons b m => simpa [sorted] using first

/-! ## A verdict that finds room is carried out (R337, R350) -/

/-- Group j is g, of the live team k, which is tm; no group of the team has a fault. -/
structure Stands (s : State) (j : Nat) (g : Group) (k : Nat) (tm : Team) : Prop where
  nodup : (s.groups.map (·.1)).Nodup
  group : s.grp j = some g
  member : g.team = some k
  team : Tbl.get? s.teams k = some tm
  live : tm.ended = false
  launch : tm.lseq = g.lseq
  clean : ∀ e ∈ s.groups, e.2.team = some k → e.2.faults = []

theorem mem_owned {s : State} {j k : Nat} {g : Group} (member : g.team = some k) {e : Nat × Group} :
    e ∈ s.owned j g ↔ e ∈ s.groups ∧ e.2.team = some k := by
  rw [State.owned, member]
  exact mem_sortBy.trans mem_teamGroups

namespace Stands
variable {s : State} {j k : Nat} {g : Group} {tm : Team} (S : Stands s j g k tm)
include S

theorem mem : (j, g) ∈ s.groups := Tbl.mem_of_get? S.group

theorem settleAll : s.settleAll (s.owned j g) = (s.unfaulted ((s.owned j g).map (·.1)), true) :=
  settleAll_of_no_faults _ s fun e mem =>
    have ⟨mem, ofTeam⟩ := (mem_owned S.member).1 mem
    ⟨e.2, Tbl.get?_of_mem S.nodup mem, S.clean e mem ofTeam⟩

/-- After the writes of its records, on machine B, the end of the team. -/
theorem terminateOwner {B : State} {n : Launch} (groups : B.groups = s.groups) (teams : B.teams = s.teams)
    (launch : Tbl.get? B.launches g.lseq = some n) :
    let t := (B.unfaulted ((s.owned j g).map (·.1))).terminateOwner j
    TeamEnded s t g.lseq n k tm ∧ OnlyEnds g.lseq B t := by
  generalize hks : (s.owned j g).map (·.1) = ks
  have keys : (B.unfaulted ks).groups.map (·.1) = s.groups.map (·.1) := by
    simp only [State.unfaulted, groups, List.map_map]
    rfl
  have found : Tbl.get? (B.unfaulted ks).groups j = some (if j ∈ ks then g.unfaulted else g) := by
    rw [unfaulted_get?, groups, ← State.grp_def, S.group, Option.map_some]
  have member : (if j ∈ ks then g.unfaulted else g).team = some k := by
    split <;> exact S.member
  have ended := terminateTeam_spec (s := B.unfaulted ks) (keys ▸ S.nodup) ((congrArg (Tbl.get? · k) teams).trans S.team)
    S.live (S.launch ▸ launch)
  rw [S.launch] at ended
  obtain ⟨⟨gone, done, others, counted⟩, only⟩ := ended
  intro t
  have same : t = (B.unfaulted ks).terminateTeam k := by
    simp only [t, State.terminateOwner, found, member]
  rw [same]
  refine ⟨⟨gone, done, fun i x hx other => others i x ?_ other, counted⟩, only⟩
  rw [State.grp_def, unfaulted_get?, groups, ← State.grp_def, hx, Option.map_some, if_neg]
  intro mine
  obtain ⟨e, mem, rfl⟩ := List.mem_map.1 (hks ▸ mine)
  obtain ⟨mem, ofTeam⟩ := (mem_owned S.member).1 mem
  exact other (Option.some.inj ((Tbl.get?_of_mem S.nodup mem).symm.trans hx) ▸ ofTeam)

theorem logged_ends {D : State} {n : Launch} {code : Nat} {thread : Nat} {pc : Pc} {detail : Nat}
    {diag : Option Nat} (room : Room D g.lseq n) (groups : D.groups = s.groups) (teams : D.teams = s.teams) :
    let B := Logged D n g code thread pc detail diag
    let t := (B.unfaulted ((s.owned j g).map (·.1))).terminateOwner j
    TeamEnded s t g.lseq n k tm ∧ OnlyEnds g.lseq B t := by
  refine S.terminateOwner ?_ ?_ ?_
  · rw [Logged, devWrite_groups, devWrite_groups, groups]
  · rw [Logged, devWrite_teams, devWrite_teams, teams]
  · rw [Logged, devWrite_launches, devWrite_launches, room.1]

theorem endWith {n : Launch} {code : Nat} {thread : Nat} {pc : Pc} {detail : Nat} (ofTeam : faultClass code = 1)
    (room : Room s g.lseq n) :
    let t := s.endWith j g (teamRec code thread pc detail)
    TeamEnded s t g.lseq n k tm ∧ OnlyEnds g.lseq (Logged s n g code thread pc detail none) t := by
  have record := appendRecord_of_room thread pc detail none room rfl ofTeam
  have ended := S.logged_ends (code := code) (thread := thread) (pc := pc) (detail := detail) (diag := none) room rfl
    rfl
  intro t
  have same : t = ((Logged s n g code thread pc detail none).unfaulted ((s.owned j g).map (·.1))).terminateOwner j := by
    simp only [t, State.endWith, State.convict, State.carryOut, S.settleAll, appendRecord_unfaulted, record,
      Option.map_some]
  rwa [same]

theorem convict {D : State} {n : Launch} {code : Nat} {thread : Nat} {pc : Pc} {detail : Nat} {bytes : List Byte}
    {put : Nat} (ofTeam : faultClass code = 1) (diag : s.appendDiag g.lseq bytes = some (D, put))
    (groups : D.groups = s.groups) (teams : D.teams = s.teams) (room : Room D g.lseq n) :
    let t := s.convict j g ⟨g.number, (teamRec code thread pc detail).against g, some bytes⟩
    TeamEnded s t g.lseq n k tm ∧ OnlyEnds g.lseq (Logged D n g code thread pc detail (some put)) t := by
  have record := appendRecord_of_room thread pc detail (some put) room teams ofTeam
  have ended := S.logged_ends (code := code) (thread := thread) (pc := pc) (detail := detail) (diag := some put) room
    groups teams
  intro t
  have same : t =
      ((Logged D n g code thread pc detail (some put)).unfaulted ((s.owned j g).map (·.1))).terminateOwner j := by
    simp only [t, State.convict, State.carryOut, S.settleAll, appendDiag_unfaulted, diag,
      appendRecord_unfaulted, record, Option.map_some]
  rwa [same]

end Stands

/-! ## The watchdog (R330, R331, R350) -/

/-- Machine s once a diagnostic record of launch n has been stored in its fault area. -/
def State.diagnosed (s : State) (n : Launch) (bytes : List Byte) : State :=
  let log := s.devNat (n.area + 4) 4
  let put := s.devNat (n.area + 24) 8
  (s.devWrite (n.area + 0x1000 + 64 * 2 ^ (log % 32) + 4096 * (put % 2 ^ (log / 2 ^ 8 % 32))) bytes).devWrite
    (n.area + 24) (bytesOf 8 (put + 1))

theorem appendDiag_of_room {s : State} {l : Nat} {n : Launch} (bytes : List Byte)
    (launch : Tbl.get? s.launches l = some n) (area : n.area ≠ 0)
    (free : s.devNat (n.area + 24) 8 - s.devNat (n.area + 32) 8 < 2 ^ (s.devNat (n.area + 4) 4 / 2 ^ 8 % 32)) :
    s.appendDiag l bytes = some (s.diagnosed n bytes, s.devNat (n.area + 24) 8) := by
  have low : bitsOf (s.devNat (n.area + 4) 4) 4 0 = s.devNat (n.area + 4) 4 % 32 := by simp [bitsOf]
  have high : bitsOf (s.devNat (n.area + 4) 4) 12 8 = s.devNat (n.area + 4) 4 / 2 ^ 8 % 32 := rfl
  rw [State.appendDiag, launch]
  simp only [area, if_false, low, high, Nat.not_le.2 free, natToBytes_eq_bytesOf]
  rfl

theorem expired_iff (s : State) (g : Group) (n : Launch) :
    s.expired g n = true ↔ ∃ v ∈ s.countingWaits g, 2 ^ n.rc.wdog ≤ v.watch.count (s.now g.core) := by
  simp [State.expired]

section Watchdog
variable {s : State} {j k : Nat} {g : Group} {n : Launch} {tm : Team}

theorem expire_of_early (group : s.grp j = some g) (launch : Tbl.get? s.launches g.lseq = some n)
    (undecided : g.verdict = none)
    (early : ∀ v ∈ s.countingWaits g, v.watch.count (s.now g.core) < 2 ^ n.rc.wdog) : s.expire j = s := by
  have expired : s.expired g n = false := by
    rw [← Bool.not_eq_true, expired_iff]
    rintro ⟨v, mem, late⟩
    exact (early v mem).not_ge late
  rw [State.grp_def] at group
  simp only [State.expire, group, State.launchOf, launch, undecided, Option.isSome_none, Bool.false_eq_true, if_false,
    expired, Bool.not_false, Bool.true_or, if_true]

/-- The detail of a 0x20 record: the wait's code, its barrier for codes 2 and 13, and WDOG (R331). -/
def expiryDetail (n : Launch) (w : WaitInfo) : Nat :=
  w.code + (if w.code = 2 ∨ w.code = 13 then 2 ^ 4 * w.bar else 0) + 2 ^ 8 * n.rc.wdog

/-- The record of an expiry is that of the first group of the team in a blocking wait (R331). -/
theorem expiryRec_of_lowest {w : WaitInfo} {rest : List WaitInfo} (S : Stands s j g k tm)
    (resident : g.residence = .resident) (waits : s.allWaits g = w :: rest)
    (lowest : ∀ e ∈ s.groups, e.2.team = some k → e.1 ≠ j → s.allWaits e.2 ≠ [] → g.gix < e.2.gix) :
    s.expiryRec n (s.owned j g) = some (g, teamRec 0x20 w.thread w.pc
      (expiryDetail n w)) := by
  have code : s.waitCode g = (w.code, w.bar) := by
    rw [State.waitCode, waits]
    simp [resident]
  have byIndex : ∀ a b : Nat × Group, decide (a.2.gix ≤ b.2.gix) = true ↔ a.2.gix ≤ b.2.gix :=
    fun _ _ => decide_eq_true_iff
  rw [State.expiryRec, State.owned, S.member]
  refine findSome?_sortBy byIndex _ (mem_teamGroups.2 ⟨S.mem, S.member⟩) ?_ fun e mem => ?_
  · simp only [waits, code, expiryDetail, Nat.mul_comm (2 ^ 4), Nat.mul_comm (2 ^ 8)]
  · obtain ⟨mem, ofTeam⟩ := mem_teamGroups.1 mem
    by_cases same : e.1 = j
    · have group : e.2 = g := Option.some.inj ((Tbl.get?_of_mem S.nodup mem).symm.trans (same ▸ S.group))
      exact .inl (Prod.ext same group)
    · by_cases silent : s.allWaits e.2 = []
      · exact .inr (.inl (by simp only [silent]))
      · exact .inr (.inr (lowest e mem ofTeam same silent))

theorem Stands.not_convicted (S : Stands s j g k tm)
    (undecided : ∀ e ∈ s.groups, e.2.team = some k → e.2.verdict = none) : s.convicted g = false := by
  have own : g.verdict = none := undecided _ S.mem S.member
  have team : (s.teamGroups k).any (·.2.verdict.isSome) = false := List.any_eq_false.2 fun e mem => by
    obtain ⟨mem, ofTeam⟩ := mem_teamGroups.1 mem
    simp [undecided e mem ofTeam]
  rw [State.convicted, own, S.member]
  exact team

theorem Stands.no_willEnd (S : Stands s j g k tm) : (s.owned j g).any (fun e => s.willEnd e.2) = false :=
  List.any_eq_false.2 fun e mem => by
    obtain ⟨mem, ofTeam⟩ := (mem_owned S.member).1 mem
    simp [State.willEnd, S.clean e mem ofTeam]

theorem expire_ends {w : WaitInfo} {rest : List WaitInfo} (S : Stands s j g k tm)
    (launch : Tbl.get? s.launches g.lseq = some n) (undecided : ∀ e ∈ s.groups, e.2.team = some k → e.2.verdict = none)
    (expired : ∃ v ∈ s.countingWaits g, 2 ^ n.rc.wdog ≤ v.watch.count (s.now g.core)) (area : n.area ≠ 0)
    (room : Room (s.diagnosed n (s.teamDiag k tm n)) g.lseq n)
    (resident : g.residence = .resident) (waits : s.allWaits g = w :: rest)
    (lowest : ∀ e ∈ s.groups, e.2.team = some k → e.1 ≠ j → s.allWaits e.2 ≠ [] → g.gix < e.2.gix)
    (free : s.devNat (n.area + 24) 8 - s.devNat (n.area + 32) 8 < 2 ^ (s.devNat (n.area + 4) 4 / 2 ^ 8 % 32)) :
    TeamEnded s (s.expire j) g.lseq n k tm ∧
      OnlyEnds g.lseq (Logged (s.diagnosed n (s.teamDiag k tm n)) n g 0x20 w.thread w.pc
        (expiryDetail n w)
        (some (s.devNat (n.area + 24) 8))) (s.expire j) := by
  have ended := S.convict (code := 0x20) (thread := w.thread) (pc := w.pc)
    (detail := expiryDetail n w) rfl
    (appendDiag_of_room (s.teamDiag k tm n) launch area free)
    (by rw [State.diagnosed, devWrite_groups, devWrite_groups])
    (by rw [State.diagnosed, devWrite_teams, devWrite_teams]) room
  have group : Tbl.get? s.groups j = some g := S.group
  have own : g.verdict = none := undecided _ S.mem S.member
  have diag : s.ownerDiag g n = s.teamDiag k tm n := by
    simp only [State.ownerDiag, S.member, Option.bind_some, S.team, Option.map_some]
  have expires : s.expire j = s.convict j g ⟨g.number, (teamRec 0x20 w.thread w.pc
      (expiryDetail n w)).against g,
      some (s.teamDiag k tm n)⟩ := by
    simp only [State.expire, group, State.launchOf, launch, own,
      (expired_iff s g n).2 expired, S.not_convicted undecided, S.no_willEnd, Option.isSome_none, Bool.not_true,
      Bool.or_self, Bool.false_eq_true, if_false, expiryRec_of_lowest S resident waits lowest, diag]
  rwa [expires]

end Watchdog

/-! ## Register-claim deadlock (R226, R227) -/

/-- Entry e is a group of team k, and its wait v a claim of c rows. -/
def Claiming (s : State) (k : Nat) (e : Nat × Group) (v : Nat × GWait) (c : Nat) : Prop :=
  e ∈ s.groups ∧ e.2.team = some k ∧ v ∈ e.2.waits ∧ v.2.kind = .claim c

theorem mem_teamClaims {s : State} {k : Nat} {x : Nat × Group × Nat × GWait} :
    x ∈ s.teamClaims k ↔ ∃ e v c, Claiming s k e v c ∧ x = (e.1, e.2, c, v.2) := by
  simp only [State.teamClaims, List.mem_flatMap, List.mem_filterMap, mem_teamGroups, Claiming]
  constructor
  · rintro ⟨e, ⟨mem, ofTeam⟩, v, wait, found⟩
    split at found
    · next c kind => exact ⟨e, v, c, ⟨mem, ofTeam, wait, kind⟩, (Option.some.inj found).symm⟩
    · cases found
  · rintro ⟨e, v, c, ⟨mem, ofTeam, wait, kind⟩, rfl⟩
    exact ⟨e, ⟨mem, ofTeam⟩, v, wait, by rw [kind]⟩

theorem claimDead_iff (s : State) (k : Nat) : s.claimDead k = true ↔
    (∀ e ∈ s.groups, e.2.team = some k → s.blockedOn k e.2 = true) ∧ (∃ e v c, Claiming s k e v c) ∧
      ∀ e v c, Claiming s k e v c → s.freeRows e.2.core < c := by
  have some_claim : (s.teamClaims k).isEmpty = false ↔ ∃ e v c, Claiming s k e v c := by
    rw [List.isEmpty_eq_false_iff_exists_mem]
    exact ⟨fun ⟨_, mem⟩ => have ⟨e, v, c, claim, _⟩ := mem_teamClaims.1 mem; ⟨e, v, c, claim⟩,
      fun ⟨e, v, c, claim⟩ => ⟨_, mem_teamClaims.2 ⟨e, v, c, claim, rfl⟩⟩⟩
  simp only [State.claimDead, Bool.and_eq_true, Bool.not_eq_true', some_claim, List.all_eq_true, decide_eq_true_eq,
    and_assoc, mem_teamGroups, and_imp]
  refine and_congr Iff.rfl (and_congr Iff.rfl ⟨fun short e v c claim => ?_, ?_⟩)
  · exact short _ (mem_teamClaims.2 ⟨e, v, c, claim, rfl⟩)
  · rintro short x mem
    obtain ⟨e, v, c, claim, rfl⟩ := mem_teamClaims.1 mem
    exact short e v c claim

theorem raiseClaim_of_open {s : State} {k : Nat}
    (opened : (∃ e ∈ s.groups, e.2.team = some k ∧ s.blockedOn k e.2 = false) ∨ (∀ e v c, ¬ Claiming s k e v c) ∨
      ∃ e v c, Claiming s k e v c ∧ c ≤ s.freeRows e.2.core) : s.raiseClaim k = s := by
  have alive : s.claimDead k = false := by
    rw [← Bool.not_eq_true, claimDead_iff]
    rintro ⟨blocked, ⟨e, v, c, claim⟩, short⟩
    rcases opened with ⟨e, mem, ofTeam, free⟩ | none | ⟨e, v, c, claim, fits⟩
    · exact absurd (blocked e mem ofTeam) (free ▸ Bool.false_ne_true)
    · exact none e v c claim
    · exact (short e v c claim).not_ge fits
  simp only [State.raiseClaim, alive, Bool.not_false, if_true]

/-- The smallest claim of the team, of the lowest-numbered group among equal ones, gives the record. -/
theorem raiseClaim_of_dead {s : State} {j k w m : Nat} {g : Group} {x : GWait} (nodup : (s.groups.map (·.1)).Nodup)
    (claim : Claiming s k (j, g) (w, x) m) (blocked : ∀ e ∈ s.groups, e.2.team = some k → s.blockedOn k e.2 = true)
    (least : ∀ e v c, Claiming s k e v c → s.freeRows e.2.core < c ∧
      (e.1 = j ∧ v = (w, x) ∨ m < c ∨ m = c ∧ g.gix < e.2.gix)) :
    s.raiseClaim k = s.endWith j g (teamRec 0x21 ((x.sigs.map (·.t)).headD 0) x.at_.pc
      (s.freeRows g.core % 2 ^ 16 + 2 ^ 16 * m)) := by
  have dead : s.claimDead k = true :=
    (claimDead_iff s k).2 ⟨blocked, ⟨_, _, _, claim⟩, fun e v c claim => (least e v c claim).1⟩
  have byKey : ∀ a b : Nat × Group × Nat × GWait,
      (decide (a.2.2.1 < b.2.2.1) || (a.2.2.1 == b.2.2.1 && decide (a.2.1.gix ≤ b.2.1.gix))) = true ↔
        toLex (a.2.2.1, a.2.1.gix) ≤ toLex (b.2.2.1, b.2.1.gix) := fun a b => by
    simp [Prod.Lex.toLex_le_toLex]
  have ⟨mem, _, _, kind⟩ := claim
  have first := head?_sortBy byKey (mem_teamClaims.2 ⟨_, _, _, claim, rfl⟩) fun b found => by
    obtain ⟨e, v, c, other, rfl⟩ := mem_teamClaims.1 found
    obtain ⟨-, place⟩ := least e v c other
    obtain ⟨mem', -, -, kind'⟩ := other
    rcases place with ⟨same, rfl⟩ | above
    · have group : e = (j, g) := Prod.ext same
        (Option.some.inj ((Tbl.get?_of_mem nodup mem').symm.trans (same ▸ Tbl.get?_of_mem nodup mem)))
      have rows : c = m := GKind.claim.inj (kind'.symm.trans kind)
      exact .inl (by rw [group, rows])
    · exact .inr (Prod.Lex.toLex_lt_toLex.2 above)
  simp only [State.raiseClaim, dead, Bool.not_true, Bool.false_eq_true, if_false, first, Nat.mul_comm (2 ^ 16)]

/-! ## Accumulator deadlock (R237) -/

/-- Entry e is a resident group of core c, and its wait v waits to bind a handle. -/
def Binding (s : State) (c : Nat) (e : Nat × Group) (v : Nat × GWait) : Prop :=
  e ∈ s.residentOn c ∧ v ∈ e.2.waits ∧ ∃ q, v.2.kind = .bind q

/-- Core c has no free slot, and every holder of one is resident and waits to bind. -/
def Holding (s : State) (c : Nat) : Prop :=
  (s.core c).accFree = [] ∧ ∀ e ∈ s.groupsOn c, e.2.acc ≠ [] → e.2.residence = .resident ∧ ∃ v, Binding s c e v

theorem binds_iff (g : Group) : g.binds = true ↔ ∃ v ∈ g.waits, ∃ q, v.2.kind = .bind q := by
  simp only [Group.binds, List.any_eq_true]
  refine exists_congr fun v => and_congr_right fun _ => ?_
  cases v.2.kind <;> simp

theorem mem_bindWaits {s : State} {c : Nat} {b : Nat × Nat × Nat × Mop} : b ∈ s.bindWaits c ↔
    ∃ e v q, e ∈ s.residentOn c ∧ v ∈ e.2.waits ∧ v.2.kind = .bind q ∧ b = (v.2.born, e.1, v.1, q) := by
  simp only [State.bindWaits, mem_sortBy, List.mem_flatMap, List.mem_filterMap]
  constructor
  · rintro ⟨e, mem, v, wait, found⟩
    split at found
    · next q kind => exact ⟨e, v, q, mem, wait, kind, (Option.some.inj found).symm⟩
    · cases found
  · rintro ⟨e, v, q, mem, wait, kind, rfl⟩
    exact ⟨e, mem, v, wait, by rw [kind]⟩

theorem oldestBind_isSome_iff (s : State) (c : Nat) : (s.oldestBind c).isSome = true ↔ ∃ e v, Binding s c e v := by
  rw [State.oldestBind, Option.isSome_map, List.isSome_head?, ne_eq, ← List.isEmpty_iff, Bool.not_eq_true,
    List.isEmpty_eq_false_iff_exists_mem]
  constructor
  · rintro ⟨b, mem⟩
    obtain ⟨e, v, q, mem, wait, kind, -⟩ := mem_bindWaits.1 mem
    exact ⟨e, v, mem, wait, q, kind⟩
  · rintro ⟨e, v, mem, wait, q, kind⟩
    exact ⟨_, mem_bindWaits.2 ⟨e, v, q, mem, wait, kind, rfl⟩⟩

theorem accDead_iff (s : State) (c : Nat) : s.accDead c = true ↔ Holding s c ∧ ∃ e v, Binding s c e v := by
  have holder : ∀ e ∈ s.groupsOn c, (e.2.acc.isEmpty || (e.2.residence == .resident && e.2.binds)) = true ↔
      (e.2.acc ≠ [] → e.2.residence = .resident ∧ ∃ v, Binding s c e v) := fun e mem => by
    simp only [Bool.or_eq_true, List.isEmpty_iff, Bool.and_eq_true, beq_iff_eq, binds_iff, Binding, State.residentOn,
      List.mem_filter, mem, true_and, or_iff_not_imp_left]
    exact imp_congr_right fun _ => and_congr_right fun resident => by simp [resident]
  simp only [State.accDead, Bool.and_eq_true, List.isEmpty_iff, oldestBind_isSome_iff, List.all_eq_true, Holding]
  exact ⟨fun ⟨⟨free, waits⟩, all⟩ => ⟨⟨free, fun e mem => (holder e mem).1 (all e mem)⟩, waits⟩,
    fun ⟨⟨free, all⟩, waits⟩ => ⟨⟨free, waits⟩, fun e mem => (holder e mem).2 (all e mem)⟩⟩

theorem raiseAcc_of_open {s : State} {c : Nat} (opened : ¬ Holding s c ∨ ∀ e v, ¬ Binding s c e v) :
    s.raiseAcc c = s := by
  have alive : s.accDead c = false := by
    rw [← Bool.not_eq_true, accDead_iff]
    rintro ⟨holds, e, v, binding⟩
    exact opened.elim (· holds) (· e v binding)
  simp only [State.raiseAcc, alive, Bool.not_false, if_true]

/-- The oldest wait to bind on a core is found where every other is younger. -/
theorem oldestBind_of_least {s : State} {c j w : Nat} {g : Group} {x : GWait} {m : Mop}
    (binding : Binding s c (j, g) (w, x)) (kind : x.kind = .bind m)
    (oldest : ∀ e v, Binding s c e v → e.1 = j ∧ v = (w, x) ∨ x.born < v.2.born) :
    s.oldestBind c = some (j, w, m) := by
  have byBorn : ∀ a b : Nat × Nat × Nat × Mop, decide (a.1 ≤ b.1) = true ↔ a.1 ≤ b.1 := fun _ _ => decide_eq_true_iff
  have mem := mem_bindWaits.2 ⟨(j, g), (w, x), m, binding.1, binding.2.1, kind, rfl⟩
  have first := head?_sortBy byBorn (mem_sortBy.1 mem) fun b other => by
    obtain ⟨e, v, q, mem, wait, kind', rfl⟩ := mem_bindWaits.1 (mem_sortBy.2 other)
    rcases oldest e v ⟨mem, wait, q, kind'⟩ with ⟨rfl, rfl⟩ | younger
    · exact .inl (by rw [GKind.bind.inj (kind'.symm.trans kind)])
    · exact .inr younger
  exact congrArg (Option.map (·.2)) first

theorem raiseAcc_of_dead {s : State} {c j k w : Nat} {g : Group} {x : GWait} {m : Mop} (holds : Holding s c)
    (group : s.grp j = some g) (running : g.halted = false) (wait : Tbl.get? g.waits w = some x)
    (kind : x.kind = .bind m) (binding : Binding s c (j, g) (w, x))
    (oldest : ∀ e v, Binding s c e v → e.1 = j ∧ v = (w, x) ∨ x.born < v.2.born) (member : g.team = some k) :
    s.raiseAcc c = s.endWith j g (teamRec 0x22 ((x.sigs.map (·.t)).headD 0) x.at_.pc
      (m.h + 2 ^ 8 * (((s.groupsOn c).filter (fun e => e.2.team = some k)).map (fun e => e.2.acc.length)).sum
        + 2 ^ 16 * ((s.residentOn c).filter (fun e => e.2.binds)).length)) := by
  have dead : s.accDead c = true := (accDead_iff s c).2 ⟨holds, _, _, binding⟩
  have resident : g.residence = .resident := by
    have := (List.mem_filter.1 binding.1).2
    simpa using this
  rw [State.grp_def] at group
  have waiting : s.waitOf j w = some (g, x) := by
    simp [State.waitOf, group, resident, running, wait]
  simp only [State.raiseAcc, dead, Bool.not_true, Bool.false_eq_true, if_false, oldestBind_of_least binding kind oldest,
    group, waiting, member, Nat.mul_comm (2 ^ 8), Nat.mul_comm (2 ^ 16)]

/-! ## The obligation -/

theorem watchdogExpiry_next (j : Nat) (s : State) : exec (.watchdogExpiry j) s = .next (s.expire j) := rfl
theorem registerClaimDeadlock_next (k : Nat) (s : State) :
    exec (.registerClaimDeadlock k) s = .next (s.raiseClaim k) := rfl
theorem accumulatorDeadlock_next (c : Nat) (s : State) : exec (.accumulatorDeadlock c) s = .next (s.raiseAcc c) := rfl

/-- Settles O46: each of the three does nothing where its condition fails; where it holds and the fault area has room,
its record is stored and the team is terminated. -/
theorem expiryAndDeadlock : Obligations.ExpiryAndDeadlock := by
  refine ⟨fun s j k g n tm w rest => ?_, fun s j k w m g x n tm => ?_, fun s c j k w g x m n tm => ?_⟩
  · intro o log dput D group launch nodup undecided
    refine ⟨fun early => ?_, fun expired area room resident member team live lseq waits others free => ?_⟩
    · exact congrArg Host.Outcome.next (expire_of_early group launch undecided early)
    · simp only [forall_and] at others
      obtain ⟨clean, undecided', lowest⟩ := others
      have S : Stands s j g k tm := ⟨nodup, group, member, team, live, lseq, clean⟩
      exact ⟨_, watchdogExpiry_next j s, expire_ends S launch undecided' expired area room resident waits lowest free⟩
  · intro o claims team nodup
    refine ⟨fun opened => congrArg Host.Outcome.next (raiseClaim_of_open opened),
      fun group claim room live lseq blocked least => ?_⟩
    simp only [forall_and] at blocked
    obtain ⟨blocked, clean⟩ := blocked
    have ⟨_, member, _, _⟩ := claim
    have S : Stands s j g k tm := ⟨nodup, group, member, team, live, lseq, clean⟩
    have raised := raiseClaim_of_dead nodup claim blocked least
    exact ⟨_, (registerClaimDeadlock_next k s).trans (congrArg _ raised), S.endWith rfl room⟩
  · intro o binds holds nodup
    refine ⟨fun opened => congrArg Host.Outcome.next (raiseAcc_of_open opened),
      fun held group running wait kind binding oldest room member team live lseq clean => ?_⟩
    have S : Stands s j g k tm := ⟨nodup, group, member, team, live, lseq, clean⟩
    have raised := raiseAcc_of_dead held group running wait kind binding oldest member
    exact ⟨_, (accumulatorDeadlock_next c s).trans (congrArg _ raised), S.endWith rfl room⟩

end Sys2Proof.Machine
end
